-- ==== Sys2Proof/Word.lean ====
section
/-! DEFINITION. The word types of the Veord K8 and their plainest arithmetic (R2, R3, R109, R157). -/

namespace Sys2Proof

/-- A general register, a context word, a queue slot: 64 bits (R157). -/
abbrev Word := BitVec 64

/-- The smallest addressable unit of memory (R3). -/
abbrev Byte := BitVec 8

/-- A logical time: 56 bits, unsigned (R109). -/
abbrev LTime := BitVec 56

/-- A 3-bit register field (R43): g, f, T, k, a, q and b registers alike. -/
abbrev Reg := Fin 8

/-- A 4-bit register field (R43): handles and moment registers. -/
abbrev Reg16 := Fin 16

/-- A timeline tl0 to tl3 (R43). -/
abbrev Tl := Fin 4

/-- MAXT of R109: no time is above it. -/
def maxTime : LTime := BitVec.allOnes 56

/-- `Max` of two logical times, compared as unsigned (R109). -/
def tmax (a b : LTime) : LTime := if a.toNat ≤ b.toNat then b else a

/-- An advance by `n`, saturating at MAXT (R109). -/
def tadd (a : LTime) (n : Nat) : LTime :=
  if a.toNat + n < 2 ^ 56 then BitVec.ofNat 56 (a.toNat + n) else maxTime

/-- A finite map as plain data: keys strictly rising. -/
abbrev Map (α : Type) := List (Nat × α)

end Sys2Proof
end

