-- ==== Sys2Proof/Machine/Bits.lean ====
section
/-! DEFINITION. Bit fields, sign extension and signed readings over natural numbers and words (R2, R7). -/

namespace Sys2Proof.Machine

/-- Field x[h:l] of a number, given its low bit `l` and its width `w` (R2). -/
def field (x l w : Nat) : Nat := x / 2 ^ l % 2 ^ w

/-- Bit x[n] (R2). -/
def bitAt (x n : Nat) : Bool := x / 2 ^ n % 2 = 1

/-- 1 for true, 0 for false. -/
def b2n (b : Bool) : Nat := if b then 1 else 0

/-- Place `v` in the field of width `w` whose low bit is `l`, the rest of `x` unchanged. -/
def putField (x l w v : Nat) : Nat :=
  x / 2 ^ (l + w) * 2 ^ (l + w) + v % 2 ^ w * 2 ^ l + x % 2 ^ l

/-- The two's-complement value of the low `w` bits of `x` (SExt of R7). -/
def signed (x w : Nat) : Int :=
  let v := x % 2 ^ w
  if w ≠ 0 ∧ 2 ^ (w - 1) ≤ v then (v : Int) - 2 ^ w else v

/-- The low `w` bits of an integer: storing keeps the field's low bits (R7). -/
def lowBits (x : Int) (w : Nat) : Nat := (x % 2 ^ w).toNat

/-- Store an exact integer into a 64-bit register (R7). -/
def toWord (x : Int) : Word := BitVec.ofInt 64 x

/-- Sign-extend the low `w` bits of `x` into a register. -/
def sextWord (x w : Nat) : Word := BitVec.ofInt 64 (signed x w)

/-- Bit n of the result is bit w-1-n of x (BREV of R79). -/
def revBits : Nat → Nat → Nat
  | 0, _ => 0
  | w + 1, x => x % 2 * 2 ^ w + revBits w (x / 2)

/-- Number of one bits among the low `w`. -/
def popCount : Nat → Nat → Nat
  | 0, _ => 0
  | w + 1, x => x % 2 + popCount w (x / 2)

/-- Number of leading zero bits of a `w`-bit number. -/
def leadZeros : Nat → Nat → Nat
  | 0, _ => 0
  | w + 1, x => if x / 2 ^ w % 2 = 1 then 0 else 1 + leadZeros w x

/-- Number of trailing zero bits of a `w`-bit number. -/
def trailZeros : Nat → Nat → Nat
  | 0, _ => 0
  | w + 1, x => if x % 2 = 1 then 0 else 1 + trailZeros w (x / 2)

/-- Round up to a multiple. -/
def ceilDiv (a b : Nat) : Nat := (a + b - 1) / b

/-- The low 56 bits of a register: every address is formed so (R26). -/
def vaOf (x : Word) : Nat := x.toNat % 2 ^ 56

end Sys2Proof.Machine
end

