-- ==== Sys2Proof/Machine/Formats.lean ====
section
/-! DEFINITION. Format codes (R56, Table 2.8) and the fields of the floating formats (R239, Table 13.2). -/

namespace Sys2Proof.Machine

/-- The assigned formats of Table 2.8. -/
inductive Fmt where
  | s8 | z8 | s16 | z16 | s32 | z32 | s64 | z64 | s4 | z4 | s6 | z6
  | f64 | f32 | f16 | bf16 | e4m3 | e5m2 | f6 | k16 | mf32 | mb16
deriving DecidableEq, Repr

/-- The code of a format (Table 2.8). -/
def Fmt.code : Fmt → Nat
  | .s8 => 0x01 | .z8 => 0x02 | .s16 => 0x03 | .z16 => 0x04 | .s32 => 0x05 | .z32 => 0x06 | .s64 => 0x07 | .z64 => 0x08
  | .s4 => 0x09 | .z4 => 0x0A | .s6 => 0x0B | .z6 => 0x0C | .f64 => 0x10 | .f32 => 0x11 | .f16 => 0x12 | .bf16 => 0x13
  | .e4m3 => 0x14 | .e5m2 => 0x15 | .f6 => 0x16 | .k16 => 0x18 | .mf32 => 0x20 | .mb16 => 0x21

/-- The format a code names; none for a code outside Table 2.8. -/
def Fmt.ofCode : Nat → Option Fmt
  | 0x01 => some .s8 | 0x02 => some .z8 | 0x03 => some .s16 | 0x04 => some .z16 | 0x05 => some .s32 | 0x06 => some .z32
  | 0x07 => some .s64 | 0x08 => some .z64 | 0x09 => some .s4 | 0x0A => some .z4 | 0x0B => some .s6 | 0x0C => some .z6
  | 0x10 => some .f64 | 0x11 => some .f32 | 0x12 => some .f16 | 0x13 => some .bf16 | 0x14 => some .e4m3 | 0x15 => some .e5m2
  | 0x16 => some .f6 | 0x18 => some .k16 | 0x20 => some .mf32 | 0x21 => some .mb16 | _ => none

/-- Bits per element (Table 2.8). -/
def Fmt.width : Fmt → Nat
  | .s8 | .z8 | .e4m3 | .e5m2 => 8
  | .s16 | .z16 | .f16 | .bf16 => 16
  | .s32 | .z32 | .f32 | .mb16 => 32
  | .s64 | .z64 | .f64 | .mf32 => 64
  | .s4 | .z4 | .k16 => 4
  | .s6 | .z6 | .f6 => 6

/-- Element width in whole bytes, for the formats of a byte or more (R125). -/
def Fmt.size (f : Fmt) : Nat := f.width / 8

/-- A signed integer format. -/
def Fmt.isSigned : Fmt → Bool
  | .s8 | .s16 | .s32 | .s64 | .s4 | .s6 => true
  | _ => false

/-- An integer format of any width, 0x01 to 0x0C. -/
def Fmt.isInt : Fmt → Bool
  | .s8 | .z8 | .s16 | .z16 | .s32 | .z32 | .s64 | .z64 | .s4 | .z4 | .s6 | .z6 => true
  | _ => false

/-- "Integer" in Table 14.3: codes 0x01 to 0x08. -/
def Fmt.isVecInt (f : Fmt) : Bool := decide (f.code ≤ 0x08)

/-- "Float" in Table 14.3: codes 0x10 to 0x16. -/
def Fmt.isFloat : Fmt → Bool
  | .f64 | .f32 | .f16 | .bf16 | .e4m3 | .e5m2 | .f6 => true
  | _ => false

/-- A moment pair format. -/
def Fmt.isPair : Fmt → Bool
  | .mf32 | .mb16 => true
  | _ => false

/-- Mantissa bits M (Table 13.2). -/
def Fmt.mant : Fmt → Nat
  | .f64 => 52 | .f32 => 23 | .f16 => 10 | .bf16 => 7 | .e5m2 => 2 | .e4m3 => 3 | .f6 => 2 | _ => 0

/-- Exponent bias b (Table 13.2). -/
def Fmt.bias : Fmt → Nat
  | .f64 => 1023 | .f32 => 127 | .f16 => 15 | .bf16 => 127 | .e5m2 => 15 | .e4m3 => 7 | .f6 => 3 | _ => 0

/-- Exponent bits E (Table 13.2). -/
def Fmt.expBits : Fmt → Nat
  | .f64 => 11 | .f32 => 8 | .f16 => 5 | .bf16 => 8 | .e5m2 => 5 | .e4m3 => 4 | .f6 => 3 | _ => 0

/-- The format has infinities (Table 13.2). -/
def Fmt.hasInf : Fmt → Bool
  | .f64 | .f32 | .f16 | .bf16 | .e5m2 => true
  | _ => false

/-- The encoding of the largest finite magnitude (Table 13.2). -/
def Fmt.maxFinite : Fmt → Nat
  | .f64 => 0x7FEFFFFFFFFFFFFF | .f32 => 0x7F7FFFFF | .f16 => 0x7BFF | .bf16 => 0x7F7F | .e5m2 => 0x7B | .e4m3 => 0x7E
  | .f6 => 0x1F | _ => 0

/-- The canonical quiet NaN (Table 13.2); F6 has none and takes +0 (R271). -/
def Fmt.canonNaN : Fmt → Nat
  | .f64 => 0x7FF8000000000000 | .f32 => 0x7FC00000 | .f16 => 0x7E00 | .bf16 => 0x7FC0 | .e5m2 => 0x7E | .e4m3 => 0x7F
  | _ => 0

end Sys2Proof.Machine
end

