-- ==== Sys2Proof/Syntax.lean ====
section
/-! DEFINITION. The instructions of the Shobor set and the part's other steps: one constructor for each row of
spec/opcode_table.json. The rows that have an instruction word carry its fields; the rows that are events of the part
carry what selects the event. -/

namespace Sys2Proof

open Sys2Proof.Machine (Fmt)

/-- PRED of Table 2.2: the negate bit and the flag or tile predicate named (R45). -/
structure Pred where
  neg : Bool
  idx : Fin 8
deriving DecidableEq, Repr

/-- The second source of shape G (BI of R40). -/
inductive Src where
  | reg (b : Reg)
  | imm (i : BitVec 28)
deriving DecidableEq, Repr

/-- SCOPE of Table 1.4. -/
inductive Scope where
  | thread | crew | band | house | device | convoy | system
deriving DecidableEq, Repr

/-- IX of R40: a signed byte offset, or a scaled index register. -/
inductive AddrMode where
  | off (o : BitVec 17)
  | index (c : Reg)
deriving DecidableEq, Repr

/-- A memory operand of shape M with its SCOPE and EVP (R39, R48). -/
structure MemArg where
  base  : Reg
  mode  : AddrMode
  scope : Scope
  evp   : Fin 8
deriving DecidableEq, Repr

/-- QX of the loads (Table 5.3). -/
inductive FeQual where
  | plain | fe | fec
deriving DecidableEq, Repr

/-- Rounding modes of Table 13.4. -/
inductive Rounding where
  | rne | rz | rd | ru
deriving DecidableEq, Repr

/-- CMP conditions of Table 3.6. -/
inductive CmpCond where
  | eq | ne | lt | le | gt | ge | ltu | leu | gtu | geu | tst
deriving DecidableEq, Repr

/-- FCMP conditions of Table 3.7. -/
inductive FCond where
  | eq | ne | lt | le | gt | ge | un | or
deriving DecidableEq, Repr

/-- FOP and KOP operations of Table 4.3. -/
inductive BoolOp where
  | and | or | xor | andn | nand | nor | xnor | orn
deriving DecidableEq, Repr

/-- VRED operations (Table 14.4). -/
inductive RedOp where
  | add | min | max | amax
deriving DecidableEq, Repr

/-- VSCAN operations (Table 14.4). -/
inductive ScanOp where
  | add | min | max
deriving DecidableEq, Repr

/-- MNL functions (Table 16.3). -/
inductive MnlFn where
  | relu | sigmoid | tanh | exp
deriving DecidableEq, Repr

/-- MCOL operations (Table 16.3). -/
inductive ColOp where
  | mean | var | sd | upper | lower
deriving DecidableEq, Repr

/-- SELF values (R176). -/
inductive SelfVal where
  | idx | crew | task | size | inst
deriving DecidableEq, Repr

/-- WINSET rights (Table 18.3). -/
inductive WinRight where
  | r | w | rw
deriving DecidableEq, Repr

/-- Element sizes of GATH and SCAT: 16 << Q bytes. -/
inductive GatSize where
  | e16 | e32 | e64 | e128 | e256
deriving DecidableEq, Repr

/-- The clock steps (R220). -/
inductive ClockStep where
  | ghz27 | ghz21 | ghz15
deriving DecidableEq, Repr

/-- Atomic operations (Table 6.3, R136). -/
inductive AmoOp where
  | swap | add | and | or | xor | min | max | fadd
deriving DecidableEq, Repr

/-- What an access from another package does at a home of this one (R105, R132); CASP is a CAS of 16 bytes. -/
inductive FabricOp where
  | load
  | store (bytes : List Byte)
  | amo (op : AmoOp) (f : Fmt) (v : Nat)
  | cas (expect new : Nat)
deriving DecidableEq, Repr

/-- What a speculative fetch brings ahead (R121): a line into a tile's L1 or into L2, or a context line into the inn; and
the line that an L1 or an L2 slice gives up to make room (R105, R120). -/
inductive SpecFetch where
  | tileLine (thread va : Nat)
  | l2Line (addr : Nat)
  | l2Evict (addr : Nat)
  | l1Evict (tile addr : Nat)
  | innLine (thread : Nat)
deriving DecidableEq, Repr

/-- The rows of spec/opcode_table.json. A thread is named by 256 × crew + index, a tile by 24 × site + tile, a core by
8 × tile + core. -/
inductive Instr where
  -- scalar integer (Table 3.3)
  | pad
  | illegal
  | nop (p : Pred)
  | clz (p : Pred) (d a : Reg)
  | ctz (p : Pred) (d a : Reg)
  | popc (p : Pred) (d a : Reg)
  | brev (p : Pred) (d a : Reg)
  | add (p : Pred) (d a : Reg) (b : Src)
  | sub (p : Pred) (d a : Reg) (b : Src)
  | mul (p : Pred) (d a : Reg) (b : Src)
  | mulh (p : Pred) (u : Bool) (d a : Reg) (b : Src)
  | div (p : Pred) (u : Bool) (d a : Reg) (b : Src)
  | rem (p : Pred) (u : Bool) (d a : Reg) (b : Src)
  | and (p : Pred) (d a : Reg) (b : Src)
  | or (p : Pred) (d a : Reg) (b : Src)
  | xor (p : Pred) (d a : Reg) (b : Src)
  | andn (p : Pred) (d a : Reg) (b : Src)
  | shl (p : Pred) (d a : Reg) (b : Src)
  | shr (p : Pred) (d a : Reg) (b : Src)
  | sar (p : Pred) (d a : Reg) (b : Src)
  | rot (p : Pred) (d a : Reg) (b : Src)
  | min (p : Pred) (u : Bool) (d a : Reg) (b : Src)
  | max (p : Pred) (u : Bool) (d a : Reg) (b : Src)
  | abs (p : Pred) (d a : Reg)
  | bfx (p : Pred) (s : Bool) (d a : Reg) (b : Src)
  | bfi (p : Pred) (d a : Reg) (b : Src)
  | lea (p : Pred) (sh : Fin 8) (d a : Reg) (b : Src)
  | leaPc (p : Pred) (d : Reg) (imm : BitVec 32)
  | movi (p : Pred) (d : Reg) (imm : BitVec 32)
  | movi128 (p : Pred) (d : Reg) (lo hi : BitVec 32)
  | movhi (p : Pred) (d : Reg) (imm : BitVec 32)
  | mov (p : Pred) (d a : Reg)
  | sel (p : Pred) (d c a : Reg) (b : Src)
  | cmp (p : Pred) (c : CmpCond) (d a : Reg) (b : Src)
  -- scalar float; `s` is .F32
  | fadd (p : Pred) (s : Bool) (d a b : Reg)
  | fsub (p : Pred) (s : Bool) (d a b : Reg)
  | fmul (p : Pred) (s : Bool) (d a b : Reg)
  | ffma (p : Pred) (s : Bool) (d a b c : Reg)
  | fdiv (p : Pred) (s : Bool) (d a b : Reg)
  | fsqrt (p : Pred) (s : Bool) (d a : Reg)
  | fmin (p : Pred) (s : Bool) (d a b : Reg)
  | fmax (p : Pred) (s : Bool) (d a b : Reg)
  | fcmp (p : Pred) (c : FCond) (s : Bool) (d a b : Reg)
  -- control, flags, hardware loops (Table 4.1)
  | bra (p : Pred) (imm : BitVec 32)
  | brx (p : Pred) (a : Reg)
  | call (p : Pred) (sv : Option Reg) (imm : BitVec 32)
  | callx (p : Pred) (sv : Option Reg) (a : Reg)
  | ret (p : Pred) (r : Option Reg)
  | loop (p : Pred) (len count : BitVec 16)
  | loopg (p : Pred) (a : Reg) (len : BitVec 16)
  | lbrk (p : Pred)
  | lbrkAll (p : Pred)
  | fop (p : Pred) (op : BoolOp) (d a b : Reg)
  | fset (p : Pred) (d : Reg) (v : Bool)
  | fsetM (p : Pred) (a : Reg) (mask : BitVec 8)
  | fget (p : Pred) (all : Bool) (d : Reg)
  -- memory (Table 5.3); `nb` is ORD 0b01, `wc` is ORD 0b10
  | ld (p : Pred) (f : Fmt) (q : FeQual) (nb : Bool) (d : Reg) (m : MemArg)
  | st (p : Pred) (f : Fmt) (wc : Bool) (b : Reg) (m : MemArg)
  | ldp (p : Pred) (f : Fmt) (q : FeQual) (nb : Bool) (d : Reg) (m : MemArg)
  | stp (p : Pred) (f : Fmt) (wc : Bool) (b : Reg) (m : MemArg)
  | ldb (p : Pred) (f : Fmt) (nb : Bool) (d : Reg) (m : MemArg)
  | stb (p : Pred) (f : Fmt) (wc : Bool) (b : Reg) (m : MemArg)
  | ldq (p : Pred) (f : Fmt) (q : Reg) (m : MemArg)
  | pf (p : Pred) (evp : Fin 8) (a : Reg) (off : BitVec 17)
  | fence (p : Pred) (sc : Scope)
  -- atomics (Tables 6.2, 6.3)
  | amoSwap (p : Pred) (f : Fmt) (d b : Reg) (m : MemArg)
  | amoAdd (p : Pred) (f : Fmt) (d b : Reg) (m : MemArg)
  | amoAnd (p : Pred) (f : Fmt) (d b : Reg) (m : MemArg)
  | amoOr (p : Pred) (f : Fmt) (d b : Reg) (m : MemArg)
  | amoXor (p : Pred) (f : Fmt) (d b : Reg) (m : MemArg)
  | amoMin (p : Pred) (f : Fmt) (d b : Reg) (m : MemArg)
  | amoMax (p : Pred) (f : Fmt) (d b : Reg) (m : MemArg)
  | amoFadd (p : Pred) (f : Fmt) (d b : Reg) (m : MemArg)
  | cas (p : Pred) (f : Fmt) (d b : Reg) (m : MemArg)
  | casp (p : Pred) (d b : Reg) (m : MemArg)
  -- barriers, timelines (Table 6.5)
  | bara (p : Pred) (d a : Reg)
  | barw (p : Pred) (a b : Reg)
  | barx (p : Pred) (a : Reg) (b : Src)
  | barcfg (p : Pred) (a : Reg) (b : Src)
  | barcfgRd (p : Pred) (d a : Reg)
  | barcfgPb (p : Pred) (d a : Reg)
  | tlwait (p : Pred) (d : Reg) (t : Tl) (b : Src)
  | tlget (p : Pred) (d : Reg) (t : Tl)
  | tlgetI (p : Pred) (d : Reg) (t : Tl)
  -- granules (Table 6.6)
  | few (p : Pred) (a : Reg) (off : BitVec 17)
  | fewE (p : Pred) (a : Reg) (off : BitVec 17)
  | feset (p : Pred) (sc : Scope) (a : Reg) (off : BitVec 17)
  | feclr (p : Pred) (sc : Scope) (a : Reg) (off : BitVec 17)
  -- messages (Table 6.7)
  | send (p : Pred) (a b : Reg)
  | sendT (p : Pred) (d a b : Reg)
  | recv (p : Pred) (t : Option Reg) (id : Bool) (d : Reg)
  | chstat (p : Pred) (d : Reg)
  | chstatD (p : Pred) (d a : Reg)
  -- threads and contexts (Table 7.9)
  | spawn (p : Pred) (d a b : Reg)
  | exit (p : Pred)
  | yield (p : Pred)
  | wait (p : Pred)
  | park (p : Pred)
  | wake (p : Pred) (t : Option Reg) (a : Reg)
  | self (p : Pred) (v : SelfVal) (d : Reg)
  | mbxr (p : Pred) (d : Reg) (b : Src)
  | evict (p : Pred)
  | evictMem (p : Pred)
  | pin (p : Pred) (d : Reg)
  | pinU (p : Pred)
  | ctxrd (p : Pred) (d a : Reg) (w : Fin 16)
  | ctxwr (p : Pred) (a c : Reg) (w : Fin 16)
  -- queues (Table 12.2)
  | qcfg (p : Pred) (q : Reg) (b : Src)
  | qbindPop (p : Pred) (q : Reg)
  | qbindPush (p : Pred) (q : Reg)
  | qbindUpop (p : Pred)
  | qbindUpush (p : Pred)
  | qstat (p : Pred) (d q : Reg)
  | qdrain (p : Pred) (q : Reg)
  | qpeek (p : Pred) (d q : Reg) (b : Src)
  -- conversion (Table 13.8)
  | cvt (p : Pred) (rm : Rounding) (ov : Bool) (dst src : BitVec 8) (d a : Reg)
  | vcvt (p : Pred) (rm : Rounding) (ov : Bool) (d a : Reg) (x0 x1 : Reg16)
  | qntk (p : Pred) (ov : Bool) (d a b : Reg) (t : Tl) (x0 x1 x2 x3 : Reg16)
  | dqnk (p : Pred) (rm : Rounding) (ov : Bool) (d a b : Reg) (t : Tl) (x0 x1 x2 x3 : Reg16)
  | qscl (p : Pred) (ov : Bool) (d a b : Reg) (t : Tl) (x1 x2 x3 : Reg16)
  | csrx (p : Pred) (d a b : Reg) (t : Tl) (x0 x1 x2 x3 : Reg16)
  | csrd (p : Pred) (d a b : Reg) (t : Tl) (x0 x1 x2 x3 : Reg16)
  | cvstat (p : Pred) (d : Reg)
  | cvstatClr (p : Pred) (d : Reg)
  -- vector (Table 14.4)
  | vclaim (p : Pred) (d : Reg) (b : Src)
  | vclaimW (p : Pred) (d : Reg) (b : Src)
  | vrel (p : Pred)
  | hset (p : Pred) (a : Reg) (x0 : Reg16)
  | hget (p : Pred) (d : Reg) (x0 : Reg16)
  | vadd (p : Pred) (d a : Reg) (x0 x1 x2 : Reg16)
  | vsub (p : Pred) (d a : Reg) (x0 x1 x2 : Reg16)
  | vmul (p : Pred) (d a : Reg) (x0 x1 x2 : Reg16)
  | vfma (p : Pred) (d a : Reg) (x0 x1 x2 x3 : Reg16)
  | vdiv (p : Pred) (d a : Reg) (x0 x1 x2 : Reg16)
  | vmin (p : Pred) (d a : Reg) (x0 x1 x2 : Reg16)
  | vmax (p : Pred) (d a : Reg) (x0 x1 x2 : Reg16)
  | vabs (p : Pred) (d a : Reg) (x0 x1 : Reg16)
  | vneg (p : Pred) (d a : Reg) (x0 x1 : Reg16)
  | vcmp (p : Pred) (c : FCond) (d a : Reg) (x0 x1 x2 : Reg16)
  | vsel (p : Pred) (d a : Reg) (x0 x1 x2 x3 : Reg16)
  | vred (p : Pred) (op : RedOp) (acc : Bool) (d a : Reg) (x1 : Reg16)
  | vscan (p : Pred) (op : ScanOp) (d a b : Reg) (x0 x1 : Reg16)
  | vperm (p : Pred) (d a : Reg) (x0 x1 x2 : Reg16)
  | vbcast (p : Pred) (d a b : Reg) (x0 : Reg16)
  | vextr (p : Pred) (d b : Reg) (x1 : Reg16)
  | vrcp (p : Pred) (d a : Reg) (x0 x1 : Reg16)
  | vrsq (p : Pred) (d a : Reg) (x0 x1 : Reg16)
  | vexp2 (p : Pred) (d a : Reg) (x0 x1 : Reg16)
  | vlog2 (p : Pred) (d a : Reg) (x0 x1 : Reg16)
  | vsin (p : Pred) (d a : Reg) (x0 x1 : Reg16)
  | vcos (p : Pred) (d a : Reg) (x0 x1 : Reg16)
  | vtbl (p : Pred) (d a : Reg) (x0 x1 x2 : Reg16)
  | vtblcfg (p : Pred) (d : Reg) (x0 : Reg16)
  -- packed (Table 14.9)
  | efset (p : Pred) (b : Src)
  | padd (p : Pred) (sat : Bool) (d a b : Reg)
  | psub (p : Pred) (sat : Bool) (d a b : Reg)
  | pmul (p : Pred) (sat : Bool) (d a b : Reg)
  | pdot (p : Pred) (d a b : Reg)
  | pmin (p : Pred) (d a b : Reg)
  | pmax (p : Pred) (d a b : Reg)
  | pabs (p : Pred) (sat : Bool) (d a : Reg)
  | pshf (p : Pred) (d a b : Reg)
  | pcmp (p : Pred) (c : FCond) (d a b : Reg)
  -- moments (Table 16.3)
  | mld (p : Pred) (d a : Reg) (x0 x1 : Reg16)
  | mst (p : Pred) (d a : Reg) (x0 x1 : Reg16)
  | mset (p : Pred) (d a b : Reg) (x0 : Reg16)
  | madd (p : Pred) (d a b : Reg) (x0 x1 x2 : Reg16)
  | msub (p : Pred) (d a b : Reg) (x0 x1 x2 : Reg16)
  | mmul (p : Pred) (d a b : Reg) (x0 x1 x2 : Reg16)
  | mfma (p : Pred) (d a b : Reg) (x0 x1 x2 x3 : Reg16)
  | mscl (p : Pred) (d a b : Reg) (x0 x1 : Reg16)
  | msqr (p : Pred) (d a : Reg) (x0 x1 : Reg16)
  | mnl (p : Pred) (fn : MnlFn) (d a : Reg) (x0 x1 : Reg16)
  | mcol (p : Pred) (op : ColOp) (d a b : Reg) (x1 : Reg16)
  | mcolH (p : Pred) (op : ColOp) (d a b : Reg) (x0 x1 : Reg16)
  | mchk (p : Pred) (d a : Reg) (x1 : Reg16)
  -- matrix and tile (Table 17.4)
  | tset (p : Pred) (d : Reg) (b : Src)
  | tget (p : Pred) (d a : Reg)
  | tld (p : Pred) (sc : Scope) (evp : Fin 8) (d a c : Reg)
  | tst (p : Pred) (sc : Scope) (evp : Fin 8) (b a c : Reg)
  | tzero (p : Pred) (d : Reg)
  | ttrn (p : Pred) (d a : Reg)
  | tpred (p : Pred) (z : Bool) (d a : Reg)
  | kop (p : Pred) (op : BoolOp) (d a b : Reg)
  | tmma (p : Pred) (z : Bool) (d a b c : Reg)
  | tmms (p : Pred) (z one tp tr : Bool) (d a b c : Reg)
  | tmmm (p : Pred) (z : Bool) (d a b : Reg)
  | aclr (p : Pred) (d : Reg)
  | ard (p : Pred) (rm : Rounding) (ov m : Bool) (d a b : Reg) (x0 : Reg16)
  | awr (p : Pred) (m : Bool) (d a b : Reg) (x1 : Reg16)
  | mgcfg (p : Pred) (d : Reg)
  | mgcfgRel (p : Pred) (d : Reg)
  | mgstat (p : Pred) (d : Reg)
  | mgadd (p : Pred) (d a b : Reg) (t : Tl) (x1 x2 : Reg16)
  | mgdrain (p : Pred) (d a : Reg) (t : Tl) (x0 x1 : Reg16)
  -- copy and gather (Table 18.3); `bar` is the barrier of X2
  | cpy (p : Pred) (d a b : Reg) (t : Tl) (len : Reg) (bar : Option Reg)
  | cpy2d (p : Pred) (d a b : Reg) (t : Tl) (row shape : Reg) (bar : Option Reg)
  | cpyT (p : Pred) (d b : Reg) (t : Tl) (pitch tile : Reg) (bar : Option Reg)
  | cpym (p : Pred) (d b : Reg) (t : Tl) (pitch tile : Reg) (bar : Option Reg) (fc : Reg) (follow : BitVec 32)
  | gath (p : Pred) (z : GatSize) (d a b : Reg) (t : Tl) (count : Reg) (bar : Option Reg)
  | scat (p : Pred) (z : GatSize) (d a b : Reg) (t : Tl) (count : Reg) (bar : Option Reg)
  | cpstQ (p : Pred) (d : Reg) (t : Tl) (b : Reg)
  | cpstRes (p : Pred) (d a : Reg)
  | cpstEnd (p : Pred) (d a b : Reg)
  | winset (p : Pred) (rt : WinRight) (n : Tl) (b : Reg) (x0 : Reg16)
  | winsetCl (p : Pred) (n : Tl)
  -- neighbour list (Table 20.7)
  | nlcfg (p : Pred) (d a : Reg)
  | nlbin (p : Pred) (d a b : Reg) (t : Tl)
  | nlpair (p : Pred) (d : Reg) (t : Tl) (x0 x1 : Reg16)
  | nlnext (p : Pred) (d : Reg)
  | nlstat (p : Pred) (d : Reg)
  | nlrel (p : Pred)
  -- launch and work lists (Table 21.7)
  | launch (p : Pred) (d a : Reg)
  | join (p : Pred) (d a : Reg)
  | joinT (p : Pred) (d a : Reg)
  | done (p : Pred)
  | prio (p : Pred) (d a : Reg) (b : Src)
  | prioSelf (p : Pred) (d : Reg) (b : Src)
  | wladd (p : Pred) (d a : Reg)
  | wltake (p : Pred) (d c : Reg)
  | wlcfg (p : Pred) (d : Reg)
  | wlcfgRel (p : Pred) (d : Reg)
  | wlcfgSt (p : Pred) (d : Reg)
  | lvcfg (p : Pred) (b : Src)
  -- traps, system registers, translation, repair (Table 8.1)
  | trap (p : Pred) (n : BitVec 16)
  | tret (p : Pred)
  | sysr (p : Pred) (d : Reg) (sel : BitVec 12)
  | sysw (p : Pred) (sel : BitVec 12) (a : Reg)
  | xlpub (p : Pred) (d a b : Reg)
  | xlpubNs (p : Pred) (d a b : Reg)
  | xlinvAll (p : Pred)
  | xlinvOwn (p : Pred) (a : Reg)
  | svcsend (p : Pred) (d a b : Reg)
  | corectlOut (p : Pred) (d a : Reg)
  | corectlIn (p : Pred) (d a : Reg)
  | corectlTout (p : Pred) (d a : Reg)
  | corectlDisp (p : Pred) (d a : Reg)
  | corectlStat (p : Pred) (d a : Reg)
  -- tier, security, metering (Table 9.1)
  | mapout (p : Pred) (d a : Reg)
  | migr (p : Pred) (d a b : Reg) (t : Tl)
  | wsld (p : Pred) (d a b c : Reg)
  | keyset (p : Pred) (d a b : Reg)
  | keysetDel (p : Pred) (d a : Reg)
  | metrd (p : Pred) (d : Reg) (b : Src)
  | metrdN (p : Pred) (d : Reg) (b : Src)
  | metsign (p : Pred) (d a b : Reg)
  | metsignFinal (p : Pred) (d a b : Reg)
  | attest (p : Pred) (d a b : Reg)
  | attestRev (p : Pred) (d a : Reg)
  -- debug (Table 24.6)
  | trace (p : Pred) (code : BitVec 16) (a : Reg)
  | lclk (p : Pred) (d : Reg)
  | lclkAcq (p : Pred) (d : Reg)
  | bkpt (p : Pred) (n : BitVec 16)
  | sample (p : Pred) (d a : Reg)
  | trigsetBuf (p : Pred) (d a b : Reg)
  | trigsetStart (p : Pred) (d a : Reg)
  | trigsetStop (p : Pred) (d a : Reg)
  | trigsetBp (p : Pred) (d a b : Reg) (slot : Fin 8)
  | trigsetMask (p : Pred) (d a : Reg)
  | trigsetSt (p : Pred) (d : Reg)
  | slotrd (p : Pred) (d a : Reg) (n : BitVec 6)
  | slotrdClr (p : Pred) (d a : Reg) (n : BitVec 6)
  -- events of the cores and of memory
  | deviceReset
  | clockStepSelect (c : ClockStep)
  | systemSpaceWrite (unit off : Nat) (v : Word)
  | coreCycle (core : Nat)
  | icacheFill (thread : Nat)
  | longOpResult (thread : Nat)
  | loadFill (thread : Nat)
  | storeBind (thread : Nat)
  | wcEntryDrain (core block thread : Nat)
  | deferredFault (thread : Nat)
  | wsRefreshStart (bank : Fin 16)
  | wsRefreshEnd
  | timelineRetire (crew : Nat) (t : Tl)
  -- events of lines
  | yieldTimeout (thread : Nat)
  | lineCheckInStart (thread : Nat)
  | lineCheckInDone (thread : Nat)
  | innMoveDone (thread : Nat)
  | ageTick (thread : Nat)
  | parlimWrite (tile : Nat) (v : Word)
  | trapEntry (thread : Nat)
  | shootdownComplete (thread : Nat)
  -- faults, repair, displacement
  | systemFault (thread : Nat) (code addr : Nat)
  | corefail (core : Nat)
  | linkfail (link : Nat)
  | watch (crew : Nat)
  | crewSave (crew : Nat)
  | crewRestore (crew tile : Nat)
  | remapLateWrite (crew off : Nat) (bytes : List Byte)
  -- tiers, host, fabric
  | porterLineMove
  | migrationComplete
  | predecessorCommission (serial : Word) (hash : Nat)
  | hostWrite (pa : Nat) (bytes : List Byte) (keep : Bool)
  | hostWriteBack (line : Nat) (bytes : List Byte)
  | backInvalidateAnswer (line : Nat)
  | queueFill (thread : Nat)
  -- engines of a tile
  | convEngineRun (tile : Nat)
  | cvstatW1cWrite (crew : Nat) (v : Word)
  | mstatW1cWrite (crew : Nat) (v : Word)
  | laneGrantServe (tile : Nat)
  | momentStep (tile : Nat)
  | arrayOpStart (tile : Nat)
  | arrayOpComplete (tile : Nat)
  | followOnDispatch (tile op : Nat)
  | mangleOpRun (tile : Nat)
  | copySegmentBind (tile op : Nat)
  | tileStep (tile op : Nat)
  | gatherReply (tile op elem : Nat)
  | engineFault (tile op : Nat)
  | copyRetire (tile op : Nat)
  | remoteAccessArrival (thread : Nat)
  | hamperBinRun (site ctx : Nat)
  | hamperBatchWrite (site ctx : Nat)
  -- launches
  | coachInterval (tile : Nat)
  | hqtailDoorbell (q : Fin 64) (v : BitVec 32)
  | hqEnableWrite (q : Fin 64) (v : Word)
  | hostLaunchAccept (q : Fin 64)
  | deskSelect (site : Nat)
  | instanceBind (site : Nat)
  | coResidentBind (launch : Nat)
  | instanceEnd (crew : Nat)
  | reductionSweep
  -- debug
  | triggerCycle
  | traceRecordWrite
  | freeze
  | thaw
  | arrayrd (sel : Word)
  | extest
  | samplePreload
  | idcode
  | bypass (code : BitVec 8)
  -- other agents
  | threadTermination (thread : Nat) (whole : Bool)
  | faultRingPointerWrite (mender head : Nat) (base : Option Nat)
  | fabricAccessArrival (pa size : Nat) (op : FabricOp) (time : LTime)
  | speculativeFetch (f : SpecFetch)
  | wsldComplete (thread : Nat)
deriving DecidableEq, Repr

end Sys2Proof
end

