-- ==== Sys2Proof/Machine/Float.lean ====
section
/-! DEFINITION. Numbers as their formats decode them, exact arithmetic on them, and the one rounding that ends every
operation (R87, R88, R238 to R247, R271). -/

namespace Sys2Proof.Machine

/-- A number read from a register, an element or an entry. A NaN keeps its mantissa field left-aligned to 52 bits; `bad` is
the outcome of an invalid operation (R87); a finite value is (−1)^neg × m × 2^e. -/
inductive Num where
  | nan (neg : Bool) (frac : Nat)
  | bad
  | inf (neg : Bool)
  | fin (neg : Bool) (m : Nat) (e : Int)
deriving DecidableEq, Repr

/-- The zero of a sign. -/
def Num.zero (neg : Bool) : Num := .fin neg 0 0

/-- An integer as an exact number. -/
def Num.ofInt (x : Int) : Num := .fin (decide (x < 0)) x.natAbs 0

/-- The binary16 magnitudes of Table 13.3, as integers over 2^15. -/
def k16Mag : Nat → Nat
  | 0 => 0 | 1 => 1629 | 2 => 4944 | 3 => 8432 | 4 => 12264 | 5 => 16736 | 6 => 22576 | _ => 32768

/-- The value of a K16 code (R240): codes 0x0 and 0x8 are +0. -/
def k16Num (code : Nat) : Num :=
  let i := code % 8
  if i = 0 then .zero false else .fin (bitAt code 3) (k16Mag i) (-15)

/-- The value of a float encoding (R239). -/
def floatNum (f : Fmt) (raw : Nat) : Num :=
  let M := f.mant
  let E := f.expBits
  let neg := bitAt raw (E + M)
  let e := field raw M E
  let m := field raw 0 M
  if e = 2 ^ E - 1 ∧ f.hasInf then (if m = 0 then .inf neg else .nan neg (m * 2 ^ (52 - M)))
  else if f = .e4m3 ∧ e = 15 ∧ m = 7 then .nan neg (m * 2 ^ (52 - M))
  else if e = 0 then .fin neg m (1 - (f.bias : Int) - M)
  else .fin neg (m + 2 ^ M) ((e : Int) - f.bias - M)

/-- The exact value of an element (R238 to R241). -/
def Num.decode (f : Fmt) (raw : Nat) : Num :=
  let raw := raw % 2 ^ f.width
  match f with
  | .s8 | .s16 | .s32 | .s64 | .s4 | .s6 => .ofInt (signed raw f.width)
  | .z8 | .z16 | .z32 | .z64 | .z4 | .z6 => .ofInt raw
  | .k16 => k16Num raw
  | _ => floatNum f raw

/-! ### Exact arithmetic -/

def Num.isNaN : Num → Bool
  | .nan _ _ => true
  | _ => false

/-- Not a number, whether read or made by an invalid operation. -/
def Num.notNum : Num → Bool
  | .nan _ _ | .bad => true
  | _ => false

def Num.isInf : Num → Bool
  | .inf _ => true
  | _ => false

def Num.isZero : Num → Bool
  | .fin _ 0 _ => true
  | _ => false

/-- The sign bit. -/
def Num.sign : Num → Bool
  | .nan n _ | .inf n | .fin n _ _ => n
  | .bad => false

/-- Flip the sign of a number; a NaN keeps its own (the operations of R87 propagate it unchanged). -/
def Num.neg : Num → Num
  | .inf n => .inf (!n)
  | .fin n m e => .fin (!n) m e
  | x => x

/-- Flip or clear the sign bit, NaN included (VABS and VNEG of Table 14.2). -/
def Num.setSign (s : Bool) : Num → Num
  | .nan _ f => .nan s f
  | .inf _ => .inf s
  | .fin _ m e => .fin s m e
  | .bad => .bad

/-- A finite value as an integer multiple of 2^q, for q no higher than its exponent. -/
def scaled (neg : Bool) (m : Nat) (e q : Int) : Int :=
  let v : Int := (m * 2 ^ (e - q).toNat : Nat)
  if neg then -v else v

/-- The exact sum of finite values, as an integer over the lowest exponent among them. -/
def finSum : List Num → Int × Int
  | [] => (0, 0)
  | .fin n m e :: xs =>
    let r := finSum xs
    if r.1 = 0 then (scaled n m e e, e)
    else if m = 0 then r
    else
      let q := min e r.2
      (scaled n m e q + r.1 * ((2 ^ (r.2 - q).toNat : Nat) : Int), q)
  | _ :: xs => finSum xs

/-- The exact sum of several terms: the first NaN; infinities of both signs are invalid; an exact zero is −0 only when every
term is −0 (R87, R275). -/
def Num.sum (xs : List Num) : Num :=
  match xs.find? Num.isNaN with
  | some x => x
  | none =>
    if xs.any (· == .bad) then .bad
    else
      let pos := xs.any (· == .inf false)
      let ng := xs.any (· == .inf true)
      if pos && ng then .bad
      else if pos then .inf false
      else if ng then .inf true
      else
        let r := finSum xs
        if r.1 = 0 then .zero (!xs.isEmpty && xs.all fun x => x.sign)
        else .fin (decide (r.1 < 0)) r.1.natAbs r.2

def Num.add (a b : Num) : Num := Num.sum [a, b]

/-- `a − b`: a NaN in `b` is delivered as it is (R87). -/
def Num.sub (a b : Num) : Num := Num.sum [a, b.neg]

/-- The exact product. -/
def Num.mul (a b : Num) : Num :=
  match a, b with
  | .nan _ _, _ => a
  | _, .nan _ _ => b
  | .bad, _ => .bad
  | _, .bad => .bad
  | .inf s, .inf t => .inf (xor s t)
  | .inf s, .fin t m _ => if m = 0 then .bad else .inf (xor s t)
  | .fin s m _, .inf t => if m = 0 then .bad else .inf (xor s t)
  | .fin s m e, .fin t n g => .fin (xor s t) (m * n) (e + g)

/-- `a × b + c`, a NaN of `c` going before an invalid product (R87). -/
def Num.fma (a b c : Num) : Num :=
  if a.isNaN then a else if b.isNaN then b else if c.isNaN then c else (a.mul b).add c

/-- A value known to lie just above m × 2^e: one more bit stands for the rest, which no later rounding tells from it while
`m` has more bits than any destination keeps. -/
def stickied (exact : Bool) (m : Nat) (e : Int) : Nat × Int := if exact then (m, e) else (2 * m + 1, e - 1)

/-- The quotient, exact or with a sticky last bit beyond 120 bits (R87). -/
def Num.div (a b : Num) : Num :=
  match a, b with
  | .nan _ _, _ => a
  | _, .nan _ _ => b
  | .bad, _ => .bad
  | _, .bad => .bad
  | .inf _, .inf _ => .bad
  | .inf s, .fin t _ _ => .inf (xor s t)
  | .fin s _ _, .inf t => .zero (xor s t)
  | .fin s m e, .fin t n g =>
    if n = 0 then (if m = 0 then .bad else .inf (xor s t))
    else if m = 0 then .zero (xor s t)
    else
      let k := 120 + Nat.log2 n
      let q := m * 2 ^ k
      let r := stickied (q % n == 0) (q / n) (e - g - k)
      .fin (xor s t) r.1 r.2

/-- Integer square root, by bits from the top. -/
def isqrtBits : Nat → Nat → Nat → Nat
  | 0, _, r => r
  | k + 1, x, r =>
    let c := r + 2 ^ k
    isqrtBits k x (if c * c ≤ x then c else r)

def isqrt (x : Nat) : Nat := isqrtBits (Nat.log2 x / 2 + 1) x 0

/-- The square root, exact or with a sticky last bit beyond 120 bits; of −0 it is −0 (R87). -/
def Num.sqrt : Num → Num
  | .nan n f => .nan n f
  | .bad => .bad
  | .inf n => if n then .bad else .inf false
  | .fin n m e =>
    if m = 0 then .fin n 0 e
    else if n then .bad
    else
      let odd := e % 2 ≠ 0
      let x := (if odd then 2 * m else m) * 2 ^ 240
      let r := isqrt x
      let s := stickied (r * r == x) r ((if odd then e - 1 else e) / 2 - 120)
      .fin false s.1 s.2

/-- How two numbers stand: none when unordered (R89). -/
def Num.cmp (a b : Num) : Option Ordering :=
  match a, b with
  | .nan _ _, _ | _, .nan _ _ | .bad, _ | _, .bad => none
  | .inf s, .inf t => some (if s = t then .eq else if s then .lt else .gt)
  | .inf s, _ => some (if s then .lt else .gt)
  | _, .inf t => some (if t then .gt else .lt)
  | .fin s m e, .fin t n g =>
    let q := min e g
    some (compare (scaled s m e q) (scaled t n g q))

def Num.lt (a b : Num) : Bool := a.cmp b == some .lt
def Num.le (a b : Num) : Bool := a.cmp b == some .lt || a.cmp b == some .eq

/-- FMIN and FMAX of R88 on two encodings: true for the first source, false for the second; none when both are NaNs. -/
def minMaxFirst (isMin : Bool) (a b : Num) : Option Bool :=
  match a.notNum, b.notNum with
  | true, true => none
  | true, false => some false
  | false, true => some true
  | false, false =>
    let before (x y : Num) : Bool := x.lt y || (x.isZero && y.isZero && x.sign && !y.sign)
    some (if isMin then !before b a else !before a b)

/-- A condition of Table 3.7 on how two numbers stand. -/
def fcondHolds (c : FCond) (o : Option Ordering) : Bool :=
  match c, o with
  | .eq, some .eq => true
  | .ne, some .eq => false
  | .ne, _ => true
  | .lt, some .lt => true
  | .le, some .lt | .le, some .eq => true
  | .gt, some .gt => true
  | .ge, some .gt | .ge, some .eq => true
  | .un, o => o.isNone
  | .or, o => o.isSome
  | _, _ => false

/-! ### Rounding (R244, R245) -/

/-- `m × 2^e` rounded to an integer multiple of 2^q under a mode, the sign known: the multiple, and whether it is exact. -/
def roundTo (rm : Rounding) (neg : Bool) (m : Nat) (e q : Int) : Nat × Bool :=
  if q ≤ e then (m * 2 ^ (e - q).toNat, true)
  else
    let k := (q - e).toNat
    let r := m % 2 ^ k
    let n := m / 2 ^ k
    let up := match rm with
      | .rne => decide (2 ^ k < 2 * r) || (2 * r == 2 ^ k && n % 2 == 1)
      | .rz => false
      | .rd => neg && r != 0
      | .ru => !neg && r != 0
    (if up then n + 1 else n, r == 0)

/-- The encoding, sign apart, of a finite magnitude rounded as if the exponent range had no top, and whether it is exact. -/
def roundCode (f : Fmt) (rm : Rounding) (neg : Bool) (m : Nat) (e : Int) : Nat × Bool :=
  if m = 0 then (0, true)
  else
    let lowest : Int := 1 - (f.bias : Int) - f.mant
    let q := max (e + (Nat.log2 m : Int) - f.mant) lowest
    let r := roundTo rm neg m e q
    ((q - lowest).toNat * 2 ^ f.mant + r.1, r.2)

/-- The sign bit of a float encoding. -/
def signBit (f : Fmt) (neg : Bool) : Nat := if neg then 2 ^ (f.width - 1) else 0

/-- The encoding of an infinity, in a format that has them. -/
def Fmt.infCode (f : Fmt) : Nat := (2 ^ f.expBits - 1) * 2 ^ f.mant

/-- A NaN in a destination (R246): sign and highest payload bits kept, quiet bit set; E4M3's one NaN by sign; F6 +0. -/
def nanCode (f : Fmt) (neg : Bool) (frac : Nat) : Nat :=
  if f.hasInf then
    let m := frac / 2 ^ (52 - f.mant)
    signBit f neg + f.infCode + (if 2 ^ (f.mant - 1) ≤ m then m else m + 2 ^ (f.mant - 1))
  else if f = .e4m3 then signBit f neg + 0x7F
  else 0

/-- The result of an operation, rounded once to a float format to nearest, ties to even; beyond the largest finite value an
infinity, or in E4M3 and F6 the largest finite value (R87, R271). -/
def Num.encode (f : Fmt) : Num → Nat
  | .nan n m => nanCode f n m
  | .bad => f.canonNaN
  | .inf n => signBit f n + (if f.hasInf then f.infCode else f.maxFinite)
  | .fin n m e =>
    let c := (roundCode f .rne n m e).1
    signBit f n + (if c ≤ f.maxFinite then c else if f.hasInf then f.infCode else f.maxFinite)

/-- Round to F64 or F32 and go on with the rounded value. -/
def Num.roundF (f : Fmt) (x : Num) : Num := floatNum f (x.encode f)

/-- What a conversion of R244 to R246 gives: the encoding, and OF, INV, NX; `ov` when the value overflowed. -/
structure Converted where
  code : Nat
  ov   : Bool := false   -- overflowed, or a NaN to a format without one: RANGE under OV = 1
  fOF  : Bool := false
  fINV : Bool := false
  fNX  : Bool := false
deriving DecidableEq, Repr

/-- The index of the nearest magnitude of Table 13.3, ties to the even index, for a magnitude of at most 1 given as
(m, e): half sums of neighbours decide. -/
def k16Index (m : Nat) (e : Int) : Nat :=
  -- compare 2 × value × 2^15 with the sum of neighbouring magnitudes
  let above (i : Nat) : Bool :=   -- the value rounds above index i
    let s := k16Mag i + k16Mag (i + 1)
    let c := (Num.fin false m (e + 16)).cmp (.ofInt s)
    c == some .gt || (c == some .eq && i % 2 == 1)
  ((List.range 7).filter above).length

/-- Convert a number to a destination format (R244 to R247). -/
def convert (f : Fmt) (rm : Rounding) (x : Num) : Converted :=
  match f with
  | .k16 =>
    match x with
    | .nan _ _ | .bad => { code := 0, ov := true, fINV := true }
    | .inf n => { code := 7 + (if n then 8 else 0), ov := true, fOF := true, fNX := true }
    | .fin n m e =>
      if (Num.fin false m e).cmp (.ofInt 1) == some .gt then
        { code := 7 + (if n then 8 else 0), ov := true, fOF := true, fNX := true }
      else
        let i := k16Index m e
        { code := if i = 0 then 0 else i + (if n then 8 else 0),
          fNX := (Num.fin false m (e + 15)).cmp (.ofInt (k16Mag i)) != some .eq }
  | .s8 | .s16 | .s32 | .s64 | .s4 | .s6 | .z8 | .z16 | .z32 | .z64 | .z4 | .z6 =>
    let w := f.width
    let hi : Int := if f.isSigned then 2 ^ (w - 1) - 1 else 2 ^ w - 1
    let lo : Int := if f.isSigned then -(2 ^ (w - 1) : Int) else 0
    match x with
    | .nan _ _ | .bad => { code := 0, ov := true, fINV := true }
    | .inf n => { code := lowBits (if n then lo else hi) w, ov := true, fOF := true, fNX := true }
    | .fin n m e =>
      let r := roundTo rm n m e 0
      let v : Int := if n then -(r.1 : Int) else r.1
      if hi < v then { code := lowBits hi w, ov := true, fOF := true, fNX := true }
      else if v < lo then { code := lowBits lo w, ov := true, fOF := true, fNX := true }
      else { code := lowBits v w, fNX := !r.2 }
  | _ =>
    match x with
    | .nan n m => if f = .f6 then { code := 0, ov := true, fINV := true } else { code := nanCode f n m }
    | .bad => if f = .f6 then { code := 0, ov := true, fINV := true } else { code := f.canonNaN }
    | .inf n =>
      if f.hasInf then { code := signBit f n + f.infCode }
      else { code := signBit f n + f.maxFinite, ov := true, fOF := true, fNX := true }
    | .fin n m e =>
      let r := roundCode f rm n m e
      if f.maxFinite < r.1 then { code := signBit f n + f.maxFinite, ov := true, fOF := true, fNX := true }
      else { code := signBit f n + r.1, fNX := !r.2 }

/-- The sticky bits of Table 13.7 a conversion sets. -/
def Converted.sticky (c : Converted) : Nat := b2n c.fOF + 2 * b2n c.fINV + 4 * b2n c.fNX

end Sys2Proof.Machine
end

