-- ==== Sys2Proof/Machine/Flags.lean ====
section
/-! DEFINITION. Conditions and flag operations: CMP (Table 3.6), FCMP on encodings (Table 3.7), FOP and KOP (Table 4.3). -/

namespace Sys2Proof.Machine

/-- A condition of Table 3.6 on gA and S. -/
def cmpHolds (c : CmpCond) (a b : Word) : Bool :=
  match c with
  | .eq => a == b
  | .ne => a != b
  | .lt => a.slt b
  | .le => a.sle b
  | .gt => b.slt a
  | .ge => b.sle a
  | .ltu => a.ult b
  | .leu => a.ule b
  | .gtu => b.ult a
  | .geu => b.ule a
  | .tst => a &&& b != 0

/-- An operation of Table 4.3. -/
def boolOp (o : BoolOp) (a b : Bool) : Bool :=
  match o with
  | .and => a && b
  | .or => a || b
  | .xor => xor a b
  | .andn => a && !b
  | .nand => !(a && b)
  | .nor => !(a || b)
  | .xnor => !(xor a b)
  | .orn => a || !b

/-- The flags after `FSET.M`: flag n takes bit n of the value for each n from 1 to 7 that the mask names (R97). -/
def flagsMasked (old : BitVec 8) (v : Word) (mask : BitVec 8) : BitVec 8 :=
  let m := mask &&& 0xFE#8
  (old &&& ~~~m) ||| (v.setWidth 8 &&& m)

end Sys2Proof.Machine
end

