-- ==== Sys2Proof/Machine/Map.lean ====
section
/-! DEFINITION. Finite maps with strictly rising keys, and the one canonical form of byte memory built on them.
A write of the value an unlisted key reads as removes the entry, so that equal contents are equal data. -/

namespace Sys2Proof.Machine

/-- The value listed at `k`. -/
def Map.get? {α : Type} : Map α → Nat → Option α
  | [], _ => none
  | (j, v) :: m, k => if j = k then some v else Map.get? m k

/-- List `v` at `k`, in place of any earlier value, keeping the keys in rising order. -/
def Map.put {α : Type} : Map α → Nat → α → Map α
  | [], k, v => [(k, v)]
  | (j, w) :: m, k, v =>
    if k < j then (k, v) :: (j, w) :: m
    else if k = j then (k, v) :: m
    else (j, w) :: Map.put m k v

/-- Remove `k`. -/
def Map.del {α : Type} : Map α → Nat → Map α
  | [], _ => []
  | (j, w) :: m, k => if j = k then m else (j, w) :: Map.del m k

/-- The value at `k`, `d` where none is listed. -/
def Map.getD {α : Type} (m : Map α) (k : Nat) (d : α) : α := (Map.get? m k).getD d

/-- Write `v` at `k` in a map whose unlisted keys read as `d`: the default is never listed. -/
def Map.set {α : Type} [DecidableEq α] (m : Map α) (k : Nat) (d v : α) : Map α :=
  if v = d then Map.del m k else Map.put m k v

/-- Change the value at `k` (taken as `d` where none is listed). -/
def Map.modify {α : Type} (m : Map α) (k : Nat) (d : α) (f : α → α) : Map α :=
  Map.put m k (f (Map.getD m k d))

/-- Keys strictly rising. -/
def Map.sorted {α : Type} : Map α → Bool
  | [] => true
  | [_] => true
  | (a, _) :: (b, w) :: m => decide (a < b) && Map.sorted ((b, w) :: m)

/-- What a byte of memory that nothing has written reads as: 0 (the spec gives no contents; notes/assumptions/1.md). -/
def emptyByte : Byte := 0

/-- Byte memory: one list over the whole 52-bit physical space of R21. -/
abbrev Memory := List Host.Cell

/-- The byte at physical address `a`. -/
def Memory.read (m : Memory) (a : Nat) : Byte := Map.getD m a emptyByte

/-- Write one byte, keeping the canonical form. -/
def Memory.write (m : Memory) (a : Nat) (v : Byte) : Memory := Map.set m a emptyByte v

/-- The canonical form: addresses strictly rising, no entry equal to what an unlisted address reads as. -/
def Memory.wf (m : Memory) : Bool := Map.sorted m && m.all (fun c => decide (c.2 ≠ emptyByte))

/-- Write successive bytes from `a` upward. -/
def Memory.writeBytes (m : Memory) (a : Nat) : List Byte → Memory
  | [] => m
  | b :: bs => Memory.writeBytes (Memory.write m a b) (a + 1) bs

/-- `n` bytes from `a` upward. -/
def Memory.readBytes (m : Memory) (a : Nat) : Nat → List Byte
  | 0 => []
  | n + 1 => Memory.read m a :: Memory.readBytes m (a + 1) n

/-- The little-endian number of a list of bytes, first byte lowest (R3). -/
def leNat : List Byte → Nat
  | [] => 0
  | b :: bs => b.toNat + 256 * leNat bs

/-- The low `n` bytes of a number, lowest first (R3). -/
def natBytes : Nat → Nat → List Byte
  | 0, _ => []
  | n + 1, v => BitVec.ofNat 8 v :: natBytes n (v / 256)

/-- The little-endian number of the `n` bytes from `a`. -/
def Memory.readNat (m : Memory) (a n : Nat) : Nat := leNat (Memory.readBytes m a n)

/-- Store the low `n` bytes of `v` from `a` upward. -/
def Memory.writeNat (m : Memory) (a n v : Nat) : Memory := Memory.writeBytes m a (natBytes n v)

end Sys2Proof.Machine
end

