-- ==== Sys2Proof/WellFormed.lean ====
section
/-! DEFINITION. The checks on an instruction's fields that its type does not already make: accepted formats (R56),
even registers, immediate limits, system-register selectors, reserved fields (R38, R43). -/

namespace Sys2Proof

open Sys2Proof.Machine (Fmt)

/-- Formats LD, ST and LDQ accept (Table 5.3). -/
def fmtWhole (f : Fmt) : Bool := decide (f.code ≤ 0x08) || decide (0x10 ≤ f.code ∧ f.code ≤ 0x15)

/-- Formats LDP and STP accept (Table 5.3). -/
def fmtPair (f : Fmt) : Bool := f == .s64 || f == .z64 || f == .f64

/-- Formats LDB and STB accept (Table 5.3). -/
def fmtNarrow (f : Fmt) : Bool := decide (f.width < 8)

/-- Formats the integer atomics and CAS accept (Tables 6.2, 6.3). -/
def fmtAtomic (f : Fmt) : Bool := decide (0x05 ≤ f.code ∧ f.code ≤ 0x08)

/-- Formats AMO.FADD accepts (Table 6.3). -/
def fmtFadd (f : Fmt) : Bool := f == .f64 || f == .f32

/-- An even register number. -/
def evenReg (r : Reg) : Bool := decide (r.val % 2 = 0)

/-- A second source whose immediate, if it is one, lies below `n`. -/
def immBelow (n : Nat) : Src → Bool
  | .reg _ => true
  | .imm i => decide (i.toNat < n)

/-- A second source whose immediate, if it is one, is a number of lanes that can be claimed (R262). -/
def immLanes : Src → Bool
  | .reg _ => true
  | .imm i => decide (i.toNat % 8 = 0 ∧ 8 ≤ i.toNat ∧ i.toNat ≤ 256)

/-- The selectors Table 8.2 assigns. -/
def sysAssigned (sel : Nat) : Bool :=
  sel == 0x001 || sel == 0x002 || sel == 0x010 || sel == 0x011 || sel == 0x020 || sel == 0x021 || sel == 0x030 ||
  sel == 0x031 || sel == 0x040 || sel == 0x050 || sel == 0x051 || sel == 0x052 || sel == 0x053 || sel == 0x060 ||
  sel == 0x070 || sel == 0x080 || sel == 0x090 || sel == 0x0A0 || sel == 0x0A1 || sel == 0x0A2 || sel == 0x0A3 ||
  sel == 0x0A4 || sel == 0x0A5 || sel == 0x0B0 || sel == 0x0B1

/-- The selectors Table 8.2 marks read-only. -/
def sysReadOnly (sel : Nat) : Bool :=
  sel == 0x001 || sel == 0x002 || sel == 0x090 || sel == 0x0A0 || sel == 0x0A1 || sel == 0x0A2 || sel == 0x0A3 ||
  sel == 0x0A4 || sel == 0x0A5 || sel == 0x0B0 || sel == 0x0B1

/-- The selectors of Table 24.4. -/
def slotAssigned (n : Nat) : Bool := decide (n ≤ 5) || decide (8 ≤ n ∧ n ≤ 40)

/-- The fields of an instruction are ones its encoding admits. A limit that the word alone decides is a decode check
(R51: "A word that is illegal is refused even under a false predicate"; notes/assumptions/4.md). -/
def wellFormed : Instr → Bool
  | .bfx _ _ _ _ b | .bfi _ _ _ b => immBelow (2 ^ 16) b
  | .ld _ f _ _ _ _ | .st _ f _ _ _ | .ldq _ f _ _ => fmtWhole f
  | .ldp _ f _ _ d _ => fmtPair f && evenReg d
  | .stp _ f _ b _ => fmtPair f && evenReg b
  | .ldb _ f _ _ _ | .stb _ f _ _ _ => fmtNarrow f
  | .amoSwap _ f _ _ _ => fmtAtomic f || fmtFadd f
  | .amoAdd _ f _ _ _ | .amoAnd _ f _ _ _ | .amoOr _ f _ _ _ | .amoXor _ f _ _ _ | .amoMin _ f _ _ _
  | .amoMax _ f _ _ _ | .cas _ f _ _ _ => fmtAtomic f
  | .amoFadd _ f _ _ _ => fmtFadd f
  | .casp _ d b _ => evenReg d && evenReg b
  | .recv _ _ id d => !id || evenReg d
  | .mbxr _ _ b => immBelow 32 b
  | .qpeek _ _ _ b => immBelow 16 b
  | .vclaim _ _ b | .vclaimW _ _ b => immLanes b
  | .hset _ a _ => evenReg a
  | .hget _ d _ => evenReg d
  | .efset _ b => immBelow 256 b
  | .mcol _ op _ _ b _ | .mcolH _ op _ _ b _ _ => op == .upper || op == .lower || b == 0
  | .tset _ _ b => immBelow (2 ^ 19) b
  | .prio _ _ _ b | .prioSelf _ _ b => immBelow 16 b
  | .lvcfg _ b => immBelow (2 ^ 21) b
  | .sysr _ _ sel => sysAssigned sel.toNat
  | .sysw _ sel _ => sysAssigned sel.toNat && !sysReadOnly sel.toNat
  | .metrd _ _ b | .metrdN _ _ b => immBelow 64 b
  | .slotrd _ _ _ n | .slotrdClr _ _ _ n => slotAssigned n.toNat
  | _ => true

end Sys2Proof
end

