-- ==== Sys2Proof/Decode.lean ====
section
/-! DEFINITION. Instruction words: the fields of R37 to R41, the decoder over the encoding tables, and the encoder.
A word is accepted only when it is exactly the word of the instruction it names, so that every reserved field of R38 is
checked by encoding again. -/

namespace Sys2Proof

open Sys2Proof.Machine (Fmt natBytes leNat)

/-- The fields of Table 2.2, bits 31:27, and the later words of an instruction. -/
structure Raw where
  len : Fin 4
  p   : Pred
  opc : Fin 256
  d   : Reg
  a   : Reg
  b   : Reg
  min : Fin 16
  q   : Fin 32
  hi  : BitVec 32
  e1  : BitVec 32
  e2  : BitVec 32
deriving DecidableEq, Repr

/-- Why a word is no instruction (R31, R51, R56). -/
inductive Reject where
  | illop
  | handle (code : Nat)
  | short
deriving DecidableEq, Repr

/-! ### Codes -/

def Scope.code : Scope → Nat
  | .thread => 0 | .crew => 1 | .band => 2 | .house => 3 | .device => 4 | .convoy => 5 | .system => 6

def Scope.ofCode : Nat → Option Scope
  | 0 => some .thread | 1 => some .crew | 2 => some .band | 3 => some .house | 4 => some .device | 5 => some .convoy
  | 6 => some .system | _ => none

def CmpCond.code : CmpCond → Nat
  | .eq => 0 | .ne => 1 | .lt => 2 | .le => 3 | .gt => 4 | .ge => 5 | .ltu => 6 | .leu => 7 | .gtu => 8 | .geu => 9
  | .tst => 10

def CmpCond.ofCode : Nat → Option CmpCond
  | 0 => some .eq | 1 => some .ne | 2 => some .lt | 3 => some .le | 4 => some .gt | 5 => some .ge | 6 => some .ltu
  | 7 => some .leu | 8 => some .gtu | 9 => some .geu | 10 => some .tst | _ => none

def FCond.code : FCond → Nat
  | .eq => 0 | .ne => 1 | .lt => 2 | .le => 3 | .gt => 4 | .ge => 5 | .un => 6 | .or => 7

def FCond.ofCode : Nat → Option FCond
  | 0 => some .eq | 1 => some .ne | 2 => some .lt | 3 => some .le | 4 => some .gt | 5 => some .ge | 6 => some .un
  | 7 => some .or | _ => none

def BoolOp.code : BoolOp → Nat
  | .and => 0 | .or => 1 | .xor => 2 | .andn => 3 | .nand => 4 | .nor => 5 | .xnor => 6 | .orn => 7

def BoolOp.ofCode : Nat → Option BoolOp
  | 0 => some .and | 1 => some .or | 2 => some .xor | 3 => some .andn | 4 => some .nand | 5 => some .nor
  | 6 => some .xnor | 7 => some .orn | _ => none

def FeQual.code : FeQual → Nat
  | .plain => 0 | .fe => 1 | .fec => 2

def FeQual.ofCode : Nat → Option FeQual
  | 0 => some .plain | 1 => some .fe | 2 => some .fec | _ => none

def Rounding.code : Rounding → Nat
  | .rne => 0 | .rz => 1 | .rd => 2 | .ru => 3

/-- The rounding mode of Q bits 1:0. -/
def Rounding.ofCode (n : Nat) : Rounding :=
  match n % 4 with
  | 0 => .rne | 1 => .rz | 2 => .rd | _ => .ru

def RedOp.code : RedOp → Nat
  | .add => 0 | .min => 1 | .max => 2 | .amax => 3

def RedOp.ofCode (n : Nat) : RedOp :=
  match n % 4 with
  | 0 => .add | 1 => .min | 2 => .max | _ => .amax

def ScanOp.code : ScanOp → Nat
  | .add => 0 | .min => 1 | .max => 2

def ScanOp.ofCode : Nat → Option ScanOp
  | 0 => some .add | 1 => some .min | 2 => some .max | _ => none

def MnlFn.code : MnlFn → Nat
  | .relu => 0 | .sigmoid => 1 | .tanh => 2 | .exp => 3

def MnlFn.ofCode : Nat → Option MnlFn
  | 0 => some .relu | 1 => some .sigmoid | 2 => some .tanh | 3 => some .exp | _ => none

def ColOp.code : ColOp → Nat
  | .mean => 0 | .var => 1 | .sd => 2 | .upper => 3 | .lower => 4

def ColOp.ofCode : Nat → Option ColOp
  | 0 => some .mean | 1 => some .var | 2 => some .sd | 3 => some .upper | 4 => some .lower | _ => none

def SelfVal.code : SelfVal → Nat
  | .idx => 0 | .crew => 1 | .task => 2 | .size => 3 | .inst => 4

def SelfVal.ofCode : Nat → Option SelfVal
  | 0 => some .idx | 1 => some .crew | 2 => some .task | 3 => some .size | 4 => some .inst | _ => none

def GatSize.code : GatSize → Nat
  | .e16 => 0 | .e32 => 1 | .e64 => 2 | .e128 => 3 | .e256 => 4

def GatSize.ofCode : Nat → Option GatSize
  | 0 => some .e16 | 1 => some .e32 | 2 => some .e64 | 3 => some .e128 | 4 => some .e256 | _ => none

def WinRight.code : WinRight → Nat
  | .r => 1 | .w => 2 | .rw => 3

def WinRight.ofCode : Nat → Option WinRight
  | 1 => some .r | 2 => some .w | 3 => some .rw | _ => none

/-- 1 for a set qualifier bit. -/
def qb (b : Bool) : Nat := if b then 1 else 0

/-- Bit `n` of a qualifier. -/
def qbit (q : Fin 32) (n : Nat) : Bool := q.val / 2 ^ n % 2 == 1

/-! ### Words -/

/-- Bits 31:0 (Table 2.2 and bits 31:27 of Table 2.3). -/
def Raw.word0 (r : Raw) : Nat :=
  r.len.val + 4 * (r.p.idx.val + 8 * (qb r.p.neg + 2 * (r.opc.val + 256 * (r.d.val + 8 * (r.a.val + 8 * (r.b.val +
    8 * (r.min.val + 16 * r.q.val)))))))

/-- The whole instruction, bit 0 the least significant bit of its first word (R32). -/
def Raw.pack (r : Raw) : Nat :=
  r.word0 + 2 ^ 32 * (r.hi.toNat + 2 ^ 32 * (r.e1.toNat + 2 ^ 32 * r.e2.toNat))

/-- The fields of an instruction of LEN 0b00 to 0b10; words past its length are left out (R31, R37, R41). -/
def unpack (w : Nat) : Raw :=
  let len := w % 4
  { len := ⟨len, by omega⟩,
    p := { neg := w / 32 % 2 == 1, idx := ⟨w / 4 % 8, by omega⟩ },
    opc := ⟨w / 64 % 256, by omega⟩,
    d := ⟨w / 2 ^ 14 % 8, by omega⟩, a := ⟨w / 2 ^ 17 % 8, by omega⟩, b := ⟨w / 2 ^ 20 % 8, by omega⟩,
    min := ⟨w / 2 ^ 23 % 16, by omega⟩, q := ⟨w / 2 ^ 27 % 32, by omega⟩,
    hi := BitVec.ofNat 32 (w / 2 ^ 32),
    e1 := if len = 0 then 0 else BitVec.ofNat 32 (w / 2 ^ 64),
    e2 := if len ≤ 1 then 0 else BitVec.ofNat 32 (w / 2 ^ 96) }

/-- Length in bytes of the instruction whose first word is given (R31). -/
def lengthOf (w0 : Nat) : Nat :=
  match w0 % 4 with
  | 0 => 8 | 1 => 12 | 2 => 16 | _ => 4

/-! ### The upper word of each shape (Table 2.3) and the extension word (Table 2.4) -/

def regBits (r : Reg) : BitVec 3 := BitVec.ofNat 3 r.val
def bitsReg (b : BitVec 3) : Reg := ⟨b.toNat, b.isLt⟩
def xBits (r : Reg16) : BitVec 4 := BitVec.ofNat 4 r.val
def bitsX (b : BitVec 4) : Reg16 := ⟨b.toNat, b.isLt⟩

/-- A timeline in a 3-bit field. -/
def tlReg (t : Tl) : Reg := ⟨t.val, by omega⟩
/-- The timeline a field names; 4 to 7 are refused by encoding again (R43). -/
def regTl (r : Reg) : Tl := ⟨r.val % 4, by omega⟩

/-- Shape G with a register field C and no immediate. -/
def hiC (c : Reg) : BitVec 32 := (0#29 ++ regBits c : BitVec (29 + 3))
/-- Shape G with an immediate. -/
def hiImm (c : Reg) (i : BitVec 28) : BitVec 32 := (i ++ (1#1 ++ regBits c : BitVec 4) : BitVec (28 + 4))
/-- Shape G whose second source is `s`. -/
def hiSrc (c : Reg) : Src → BitVec 32
  | .reg _ => hiC c
  | .imm i => hiImm c i
/-- The B field of a second source. -/
def srcB : Src → Reg
  | .reg b => b
  | .imm _ => 0
/-- OFF17 or C in bits 63:47, and IX (R40). -/
def modeBits : AddrMode → BitVec 18
  | .off o => (o ++ 0#1 : BitVec (17 + 1))
  | .index c => (0#14 ++ (regBits c ++ 1#1 : BitVec (3 + 1)) : BitVec (14 + 4))
/-- Shape M. -/
def hiM (m : AddrMode) (qx : Nat) (fmt : Nat) (evp : Fin 8) : BitVec 32 :=
  (modeBits m ++ (BitVec.ofNat 3 qx ++ (BitVec.ofNat 8 fmt ++ regBits evp : BitVec (8 + 3)) : BitVec (3 + 11)) :
    BitVec (18 + 14))
/-- X3 to X0 of the extension word, XI16 zero. -/
def e1X (x0 x1 x2 x3 : Reg16) : BitVec 32 :=
  (0#16 ++ (xBits x3 ++ (xBits x2 ++ (xBits x1 ++ xBits x0 : BitVec (4 + 4)) : BitVec (4 + 8)) : BitVec (4 + 12)) :
    BitVec (16 + 16))
/-- A g, T or other 3-bit register in a 4-bit field. -/
def wide (r : Reg) : Reg16 := ⟨r.val, by omega⟩
/-- The register a 4-bit field names; 8 to 15 are refused by encoding again. -/
def narrow (x : Reg16) : Reg := ⟨x.val % 8, by omega⟩
/-- X2 of the carrier instructions: bit 3 set names a barrier, zero none (R349). -/
def barX : Option Reg → Reg16
  | none => 0
  | some b => ⟨8 + b.val, by omega⟩
def xBar (x : Reg16) : Option Reg := if x.val < 8 then none else some (narrow x)

/-- The size field: SCOPE above ORD in bits 31:27 of shape M. -/
def qM (ord : Nat) (s : Scope) : Fin 32 := ⟨(ord % 4) + 4 * s.code, by cases s <;> simp [Scope.code] <;> omega⟩

namespace Raw
def c (r : Raw) : Reg := bitsReg (r.hi.extractLsb' 0 3)
def bi (r : Raw) : Bool := r.hi.getLsbD 3
def imm28 (r : Raw) : BitVec 28 := r.hi.extractLsb' 4 28
def src (r : Raw) : Src := if r.bi then .imm r.imm28 else .reg r.b
def evp (r : Raw) : Fin 8 := bitsReg (r.hi.extractLsb' 0 3)
def fmtCode (r : Raw) : Nat := (r.hi.extractLsb' 3 8).toNat
def fmt (r : Raw) : Option Fmt := Fmt.ofCode r.fmtCode
def qx (r : Raw) : Nat := (r.hi.extractLsb' 11 3).toNat
def off (r : Raw) : BitVec 17 := r.hi.extractLsb' 15 17
def mode (r : Raw) : AddrMode :=
  if r.hi.getLsbD 14 then .index (bitsReg (r.hi.extractLsb' 15 3)) else .off r.off
def ord (r : Raw) : Nat := r.q.val % 4
def scope (r : Raw) : Option Scope := Scope.ofCode (r.q.val / 4)
def mem (r : Raw) : Option MemArg := r.scope.map fun s => { base := r.a, mode := r.mode, scope := s, evp := r.evp }
def x0 (r : Raw) : Reg16 := bitsX (r.e1.extractLsb' 0 4)
def x1 (r : Raw) : Reg16 := bitsX (r.e1.extractLsb' 4 4)
def x2 (r : Raw) : Reg16 := bitsX (r.e1.extractLsb' 8 4)
def x3 (r : Raw) : Reg16 := bitsX (r.e1.extractLsb' 12 4)
def tl (r : Raw) : Tl := regTl r.c
end Raw

/-! ### Parsing: Table 2.7 and the encoding tables of each chapter -/

/-- Major opcodes 0x00 to 0x0F (Table 3.3). -/
def parse0 (r : Raw) : Option Instr :=
  let u := qbit r.q 0
  match r.opc.val, r.min.val with
  | 0x00, 1 => some (.clz r.p r.d r.a)
  | 0x00, 2 => some (.ctz r.p r.d r.a)
  | 0x00, 3 => some (.popc r.p r.d r.a)
  | 0x00, 4 => some (.brev r.p r.d r.a)
  | 0x01, _ => some (.add r.p r.d r.a r.src)
  | 0x02, _ => some (.sub r.p r.d r.a r.src)
  | 0x03, _ => some (.mul r.p r.d r.a r.src)
  | 0x04, _ => some (.mulh r.p u r.d r.a r.src)
  | 0x05, _ => some (.div r.p u r.d r.a r.src)
  | 0x06, _ => some (.rem r.p u r.d r.a r.src)
  | 0x07, _ => some (.and r.p r.d r.a r.src)
  | 0x08, _ => some (.or r.p r.d r.a r.src)
  | 0x09, _ => some (.xor r.p r.d r.a r.src)
  | 0x0A, _ => some (.andn r.p r.d r.a r.src)
  | 0x0B, _ => some (.shl r.p r.d r.a r.src)
  | 0x0C, _ => some (.shr r.p r.d r.a r.src)
  | 0x0D, _ => some (.sar r.p r.d r.a r.src)
  | 0x0E, _ => some (.rot r.p r.d r.a r.src)
  | 0x0F, _ => some (.min r.p u r.d r.a r.src)
  | _, _ => none

/-- Major opcodes 0x10 to 0x1F (Table 3.3). -/
def parse1 (r : Raw) : Option Instr :=
  let u := qbit r.q 0
  match r.opc.val, r.min.val with
  | 0x10, _ => some (.max r.p u r.d r.a r.src)
  | 0x11, _ => some (.abs r.p r.d r.a)
  | 0x12, _ => some (.bfx r.p u r.d r.a r.src)
  | 0x13, _ => some (.bfi r.p r.d r.a r.src)
  | 0x14, 0 => some (.lea r.p ⟨r.q.val % 8, by omega⟩ r.d r.a r.src)
  | 0x14, 1 => some (.leaPc r.p r.d r.hi)
  | 0x15, _ => if r.len = 0 then some (.movi r.p r.d r.hi) else some (.movi128 r.p r.d r.hi r.e2)
  | 0x16, _ => some (.movhi r.p r.d r.hi)
  | 0x17, _ => some (.mov r.p r.d r.a)
  | 0x18, _ => some (.sel r.p r.d r.c r.a r.src)
  | 0x19, _ => (CmpCond.ofCode r.q.val).map fun c => .cmp r.p c r.d r.a r.src
  | 0x1A, 0 => some (.fadd r.p u r.d r.a r.b)
  | 0x1A, 1 => some (.fsub r.p u r.d r.a r.b)
  | 0x1B, _ => some (.fmul r.p u r.d r.a r.b)
  | 0x1C, _ => some (.ffma r.p u r.d r.a r.b r.c)
  | 0x1D, 0 => some (.fdiv r.p u r.d r.a r.b)
  | 0x1D, 1 => some (.fsqrt r.p u r.d r.a)
  | 0x1E, 0 => some (.fmin r.p u r.d r.a r.b)
  | 0x1E, 1 => some (.fmax r.p u r.d r.a r.b)
  | 0x1F, _ => (FCond.ofCode (r.q.val / 2)).map fun c => .fcmp r.p c u r.d r.a r.b
  | _, _ => none

/-- Major opcodes 0x20 to 0x2F (Table 4.1). -/
def parse2 (r : Raw) : Option Instr :=
  match r.opc.val, r.q.val with
  | 0x20, _ => some (.nop r.p)
  | 0x21, _ => some (.bra r.p r.hi)
  | 0x22, _ => some (.brx r.p r.a)
  | 0x23, 0 => some (.call r.p none r.hi)
  | 0x23, 1 => some (.call r.p (some r.d) r.hi)
  | 0x24, 0 => some (.callx r.p none r.a)
  | 0x24, 1 => some (.callx r.p (some r.d) r.a)
  | 0x25, 0 => some (.ret r.p none)
  | 0x25, 1 => some (.ret r.p (some r.a))
  | 0x26, _ => some (.loop r.p (r.hi.extractLsb' 0 16) (r.hi.extractLsb' 16 16))
  | 0x27, _ => some (.loopg r.p r.a (r.hi.extractLsb' 4 16))
  | 0x28, 0 => some (.lbrk r.p)
  | 0x28, 1 => some (.lbrkAll r.p)
  | 0x29, q => (BoolOp.ofCode q).map fun o => .fop r.p o r.d r.a r.b
  | 0x2A, 0 => some (.fset r.p r.d (r.hi.getLsbD 4))
  | 0x2A, 1 => some (.fsetM r.p r.a (r.hi.extractLsb' 4 8))
  | 0x2B, 0 => some (.fget r.p false r.d)
  | 0x2B, 1 => some (.fget r.p true r.d)
  | _, _ => none

/-- Major opcodes 0x30 to 0x3F (Table 5.3). -/
def parse3 (r : Raw) : Option Instr := do
  let o1 := r.ord == 1
  let o2 := r.ord == 2
  match r.opc.val with
  | 0x30 => return .ld r.p (← r.fmt) (← FeQual.ofCode r.qx) o1 r.d (← r.mem)
  | 0x31 => return .st r.p (← r.fmt) o2 r.b (← r.mem)
  | 0x32 => return .ldp r.p (← r.fmt) (← FeQual.ofCode r.qx) o1 r.d (← r.mem)
  | 0x33 => return .stp r.p (← r.fmt) o2 r.b (← r.mem)
  | 0x34 => return .ldb r.p (← r.fmt) o1 r.d (← r.mem)
  | 0x35 => return .stb r.p (← r.fmt) o2 r.b (← r.mem)
  | 0x36 => return .ldq r.p (← r.fmt) r.d (← r.mem)
  | 0x37 => return .pf r.p r.evp r.a r.off
  | 0x38 => return .fence r.p (← r.scope)
  | _ => none

/-- Major opcodes 0x40 to 0x4F (Tables 6.2, 6.5 to 6.7). -/
def parse4 (r : Raw) : Option Instr := do
  match r.opc.val with
  | 0x40 =>
    let f ← r.fmt
    let m ← r.mem
    match r.min.val with
    | 0 => return .amoSwap r.p f r.d r.b m
    | 1 => return .amoAdd r.p f r.d r.b m
    | 2 => return .amoAnd r.p f r.d r.b m
    | 3 => return .amoOr r.p f r.d r.b m
    | 4 => return .amoXor r.p f r.d r.b m
    | 5 => return .amoMin r.p f r.d r.b m
    | 6 => return .amoMax r.p f r.d r.b m
    | 7 => return .amoFadd r.p f r.d r.b m
    | _ => none
  | 0x41 => return .cas r.p (← r.fmt) r.d r.b (← r.mem)
  | 0x42 => return .casp r.p r.d r.b (← r.mem)
  | 0x43 => return .bara r.p r.d r.a
  | 0x44 => return .barw r.p r.a r.b
  | 0x45 => return .barx r.p r.a r.src
  | 0x46 =>
    match r.q.val with
    | 0 => return .barcfg r.p r.a r.src
    | 1 => return .barcfgRd r.p r.d r.a
    | 2 => return .barcfgPb r.p r.d r.a
    | _ => none
  | 0x47 => return .tlwait r.p r.d (regTl r.a) r.src
  | 0x48 => if qbit r.q 0 then return .tlgetI r.p r.d (regTl r.a) else return .tlget r.p r.d (regTl r.a)
  | 0x49 => if r.min.val = 1 then return .fewE r.p r.a r.off else return .few r.p r.a r.off
  | 0x4A => return .feset r.p (← r.scope) r.a r.off
  | 0x4B => return .feclr r.p (← r.scope) r.a r.off
  | 0x4C => if qbit r.q 0 then return .sendT r.p r.d r.a r.b else return .send r.p r.a r.b
  | 0x4D => return .recv r.p (if qbit r.q 0 then some r.c else none) (qbit r.q 1) r.d
  | 0x4E => if qbit r.q 0 then return .chstatD r.p r.d r.a else return .chstat r.p r.d
  | _ => none

/-- Major opcodes 0x50 to 0x5F (Tables 7.9, 12.2). -/
def parse5 (r : Raw) : Option Instr :=
  match r.opc.val, r.min.val, r.q.val with
  | 0x50, _, _ => some (.spawn r.p r.d r.a r.b)
  | 0x51, _, _ => some (.exit r.p)
  | 0x52, 0, _ => some (.yield r.p)
  | 0x52, 1, _ => some (.wait r.p)
  | 0x52, 2, _ => some (.park r.p)
  | 0x53, _, 0 => some (.wake r.p none r.a)
  | 0x53, _, 1 => some (.wake r.p (some r.d) r.a)
  | 0x54, 0, q => (SelfVal.ofCode q).map fun v => .self r.p v r.d
  | 0x54, 1, _ => some (.mbxr r.p r.d r.src)
  | 0x55, 0, 0 => some (.evict r.p)
  | 0x55, 0, 1 => some (.evictMem r.p)
  | 0x55, 1, 0 => some (.pin r.p r.d)
  | 0x55, 1, 1 => some (.pinU r.p)
  | 0x56, _, _ => some (.ctxrd r.p r.d r.a (bitsX (r.hi.extractLsb' 4 4)))
  | 0x57, _, _ => some (.ctxwr r.p r.a r.c (bitsX (r.hi.extractLsb' 4 4)))
  | 0x58, _, _ => some (.qcfg r.p r.d r.src)
  | 0x59, _, 0 => some (.qbindPop r.p r.a)
  | 0x59, _, 1 => some (.qbindPush r.p r.a)
  | 0x59, _, 2 => some (.qbindUpop r.p)
  | 0x59, _, 3 => some (.qbindUpush r.p)
  | 0x5A, _, _ => some (.qstat r.p r.d r.a)
  | 0x5B, _, _ => some (.qdrain r.p r.a)
  | 0x5C, _, _ => some (.qpeek r.p r.d r.a r.src)
  | _, _, _ => none

/-- Major opcodes 0x60 to 0x6F (Table 13.8). -/
def parse6 (r : Raw) : Option Instr :=
  let rm := Rounding.ofCode r.q.val
  let ov := qbit r.q 2
  match r.opc.val, r.q.val with
  | 0x60, _ => some (.cvt r.p rm ov (r.hi.extractLsb' 4 8) (r.hi.extractLsb' 12 8) r.d r.a)
  | 0x61, _ => some (.vcvt r.p rm ov r.d r.a r.x0 r.x1)
  | 0x62, _ => some (.qntk r.p ov r.d r.a r.b r.tl r.x0 r.x1 r.x2 r.x3)
  | 0x63, _ => some (.dqnk r.p rm ov r.d r.a r.b r.tl r.x0 r.x1 r.x2 r.x3)
  | 0x64, _ => some (.qscl r.p ov r.d r.a r.b r.tl r.x1 r.x2 r.x3)
  | 0x65, _ => some (.csrx r.p r.d r.a r.b r.tl r.x0 r.x1 r.x2 r.x3)
  | 0x66, _ => some (.csrd r.p r.d r.a r.b r.tl r.x0 r.x1 r.x2 r.x3)
  | 0x67, 0 => some (.cvstat r.p r.d)
  | 0x67, 1 => some (.cvstatClr r.p r.d)
  | _, _ => none

/-- Major opcodes 0x70 to 0x7F (Table 14.4). -/
def parse7 (r : Raw) : Option Instr :=
  match r.opc.val, r.q.val with
  | 0x70, 0 => some (.vclaim r.p r.d r.src)
  | 0x70, 1 => some (.vclaimW r.p r.d r.src)
  | 0x71, _ => some (.vrel r.p)
  | 0x72, _ => some (.hset r.p r.a r.x0)
  | 0x73, _ => some (.hget r.p r.d r.x0)
  | 0x74, _ => some (.vadd r.p r.d r.a r.x0 r.x1 r.x2)
  | 0x75, _ => some (.vsub r.p r.d r.a r.x0 r.x1 r.x2)
  | 0x76, _ => some (.vmul r.p r.d r.a r.x0 r.x1 r.x2)
  | 0x77, _ => some (.vfma r.p r.d r.a r.x0 r.x1 r.x2 r.x3)
  | 0x78, _ => some (.vdiv r.p r.d r.a r.x0 r.x1 r.x2)
  | 0x79, _ => some (.vmin r.p r.d r.a r.x0 r.x1 r.x2)
  | 0x7A, _ => some (.vmax r.p r.d r.a r.x0 r.x1 r.x2)
  | 0x7B, _ => some (.vabs r.p r.d r.a r.x0 r.x1)
  | 0x7C, _ => some (.vneg r.p r.d r.a r.x0 r.x1)
  | 0x7D, q => (FCond.ofCode q).map fun c => .vcmp r.p c r.d r.a r.x0 r.x1 r.x2
  | 0x7E, _ => some (.vsel r.p r.d r.a r.x0 r.x1 r.x2 r.x3)
  | 0x7F, q => some (.vred r.p (RedOp.ofCode q) (qbit r.q 2) r.d r.a r.x1)
  | _, _ => none

/-- Major opcodes 0x80 to 0x8F (Table 14.4). -/
def parse8 (r : Raw) : Option Instr :=
  match r.opc.val with
  | 0x80 => (ScanOp.ofCode r.q.val).map fun o => .vscan r.p o r.d r.a r.b r.x0 r.x1
  | 0x81 => some (.vperm r.p r.d r.a r.x0 r.x1 r.x2)
  | 0x82 => some (.vbcast r.p r.d r.a r.b r.x0)
  | 0x83 => some (.vextr r.p r.d r.b r.x1)
  | 0x84 => some (.vrcp r.p r.d r.a r.x0 r.x1)
  | 0x85 => some (.vrsq r.p r.d r.a r.x0 r.x1)
  | 0x86 => some (.vexp2 r.p r.d r.a r.x0 r.x1)
  | 0x87 => some (.vlog2 r.p r.d r.a r.x0 r.x1)
  | 0x88 => some (.vsin r.p r.d r.a r.x0 r.x1)
  | 0x89 => some (.vcos r.p r.d r.a r.x0 r.x1)
  | 0x8A => some (.vtbl r.p r.d r.a r.x0 r.x1 r.x2)
  | 0x8B => some (.vtblcfg r.p r.d r.x0)
  | _ => none

/-- Major opcodes 0x90 to 0x9F (Table 16.3). -/
def parse9 (r : Raw) : Option Instr :=
  match r.opc.val, r.min.val with
  | 0x90, _ => some (.mld r.p r.d r.a r.x0 r.x1)
  | 0x91, _ => some (.mst r.p r.d r.a r.x0 r.x1)
  | 0x92, _ => some (.mset r.p r.d r.a r.b r.x0)
  | 0x93, _ => some (.madd r.p r.d r.a r.b r.x0 r.x1 r.x2)
  | 0x94, _ => some (.msub r.p r.d r.a r.b r.x0 r.x1 r.x2)
  | 0x95, _ => some (.mmul r.p r.d r.a r.b r.x0 r.x1 r.x2)
  | 0x96, _ => some (.mfma r.p r.d r.a r.b r.x0 r.x1 r.x2 r.x3)
  | 0x97, _ => some (.mscl r.p r.d r.a r.b r.x0 r.x1)
  | 0x98, _ => some (.msqr r.p r.d r.a r.x0 r.x1)
  | 0x99, _ => (MnlFn.ofCode r.q.val).map fun f => .mnl r.p f r.d r.a r.x0 r.x1
  | 0x9A, 0 => (ColOp.ofCode r.q.val).map fun o => .mcol r.p o r.d r.a r.b r.x1
  | 0x9A, 1 => (ColOp.ofCode r.q.val).map fun o => .mcolH r.p o r.d r.a r.b r.x0 r.x1
  | 0x9B, _ => some (.mchk r.p r.d r.a r.x1)
  | _, _ => none

/-- Major opcodes 0xA0 to 0xAF (Table 17.4). -/
def parseA (r : Raw) : Option Instr :=
  let z := qbit r.q 0
  match r.opc.val, r.min.val with
  | 0xA0, 0 => some (.tset r.p r.d r.src)
  | 0xA0, 1 => some (.tget r.p r.d r.a)
  | 0xA1, _ => r.scope.map fun s => .tld r.p s r.evp r.d r.a (bitsReg (r.hi.extractLsb' 15 3))
  | 0xA2, _ => r.scope.map fun s => .tst r.p s r.evp r.b r.a (bitsReg (r.hi.extractLsb' 15 3))
  | 0xA3, _ => some (.tzero r.p r.d)
  | 0xA4, _ => some (.ttrn r.p r.d r.a)
  | 0xA5, _ => some (.tpred r.p z r.d r.a)
  | 0xA6, _ => (BoolOp.ofCode r.q.val).map fun o => .kop r.p o r.d r.a r.b
  | 0xA7, _ => some (.tmma r.p z r.d r.a r.b r.c)
  | 0xA8, _ => some (.tmms r.p z (qbit r.q 1) (qbit r.q 2) (qbit r.q 3) r.d r.a r.b r.c)
  | 0xA9, _ => some (.tmmm r.p z r.d r.a r.b)
  | 0xAA, _ => some (.aclr r.p r.d)
  | 0xAB, _ => some (.ard r.p (Rounding.ofCode r.q.val) (qbit r.q 2) (qbit r.q 3) r.d r.a r.b r.x0)
  | 0xAC, _ => some (.awr r.p (qbit r.q 3) r.d r.a r.b r.x1)
  | 0xAD, 0 => if z then some (.mgcfgRel r.p r.d) else some (.mgcfg r.p r.d)
  | 0xAD, 1 => some (.mgstat r.p r.d)
  | 0xAE, _ => some (.mgadd r.p r.d r.a r.b r.tl r.x1 r.x2)
  | 0xAF, _ => some (.mgdrain r.p r.d r.a r.tl r.x0 r.x1)
  | _, _ => none

/-- Major opcodes 0xB0 to 0xBF (Tables 18.3, 20.7). -/
def parseB (r : Raw) : Option Instr :=
  let bar := xBar r.x2
  match r.opc.val, r.q.val with
  | 0xB0, 0 => some (.cpy r.p r.d r.a r.b r.tl (narrow r.x0) bar)
  | 0xB0, 1 => some (.cpy2d r.p r.d r.a r.b r.tl (narrow r.x0) (narrow r.x1) bar)
  | 0xB0, 2 => some (.cpyT r.p r.d r.b r.tl (narrow r.x0) (narrow r.x1) bar)
  | 0xB1, _ => some (.cpym r.p r.d r.b r.tl (narrow r.x0) (narrow r.x1) bar (narrow r.x3) r.e2)
  | 0xB2, q => (GatSize.ofCode q).map fun z => .gath r.p z r.d r.a r.b r.tl (narrow r.x0) bar
  | 0xB3, q => (GatSize.ofCode q).map fun z => .scat r.p z r.d r.a r.b r.tl (narrow r.x0) bar
  | 0xB4, 0 => some (.cpstQ r.p r.d (regTl r.a) r.b)
  | 0xB4, 1 => some (.cpstRes r.p r.d r.a)
  | 0xB4, 2 => some (.cpstEnd r.p r.d r.a r.b)
  | 0xB5, 4 => some (.winsetCl r.p r.tl)
  | 0xB5, q => (WinRight.ofCode q).map fun rt => .winset r.p rt r.tl r.b r.x0
  | 0xB8, _ => some (.nlcfg r.p r.d r.a)
  | 0xB9, _ => some (.nlbin r.p r.d r.a r.b r.tl)
  | 0xBA, _ => some (.nlpair r.p r.d r.tl r.x0 r.x1)
  | 0xBB, _ => some (.nlnext r.p r.d)
  | 0xBC, _ => some (.nlstat r.p r.d)
  | 0xBD, _ => some (.nlrel r.p)
  | _, _ => none

/-- Major opcodes 0xC0 to 0xCF (Tables 21.7, 14.9). -/
def parseC (r : Raw) : Option Instr :=
  let s := qbit r.q 0
  match r.opc.val, r.q.val, r.min.val with
  | 0xC0, _, _ => some (.launch r.p r.d r.a)
  | 0xC1, 0, _ => some (.join r.p r.d r.a)
  | 0xC1, 1, _ => some (.joinT r.p r.d r.a)
  | 0xC2, _, _ => some (.done r.p)
  | 0xC3, 0, _ => some (.prio r.p r.d r.a r.src)
  | 0xC3, 1, _ => some (.prioSelf r.p r.d r.src)
  | 0xC4, _, _ => some (.wladd r.p r.d r.a)
  | 0xC5, _, _ => some (.wltake r.p r.d r.c)
  | 0xC6, 0, _ => some (.wlcfg r.p r.d)
  | 0xC6, 1, _ => some (.wlcfgRel r.p r.d)
  | 0xC6, 2, _ => some (.wlcfgSt r.p r.d)
  | 0xC7, _, _ => some (.lvcfg r.p r.src)
  | 0xC8, _, _ => some (.efset r.p r.src)
  | 0xC9, _, 0 => some (.padd r.p s r.d r.a r.b)
  | 0xC9, _, 1 => some (.psub r.p s r.d r.a r.b)
  | 0xCA, _, _ => some (.pmul r.p s r.d r.a r.b)
  | 0xCB, _, _ => some (.pdot r.p r.d r.a r.b)
  | 0xCC, _, 0 => some (.pmin r.p r.d r.a r.b)
  | 0xCC, _, 1 => some (.pmax r.p r.d r.a r.b)
  | 0xCD, _, _ => some (.pabs r.p s r.d r.a)
  | 0xCE, _, _ => some (.pshf r.p r.d r.a r.b)
  | 0xCF, q, _ => (FCond.ofCode q).map fun c => .pcmp r.p c r.d r.a r.b
  | _, _, _ => none

/-- Major opcodes 0xD0 to 0xDF (Tables 8.1, 9.1). -/
noncomputable def parseD (r : Raw) : Option Instr :=
  match r.opc.val, r.q.val with
  | 0xD0, _ => some (.trap r.p (r.hi.extractLsb' 0 16))
  | 0xD1, _ => some (.tret r.p)
  | 0xD2, _ => some (.sysr r.p r.d (r.hi.extractLsb' 4 12))
  | 0xD3, _ => some (.sysw r.p (r.hi.extractLsb' 4 12) r.a)
  | 0xD4, 0 => some (.xlpub r.p r.d r.a r.b)
  | 0xD4, 1 => some (.xlpubNs r.p r.d r.a r.b)
  | 0xD5, 0 => some (.xlinvAll r.p)
  | 0xD5, 1 => some (.xlinvOwn r.p r.a)
  | 0xD6, _ => some (.mapout r.p r.d r.a)
  | 0xD7, _ => some (.migr r.p r.d r.a r.b r.tl)
  | 0xD8, _ => some (.wsld r.p r.d r.a r.b r.c)
  | 0xD9, 0 => some (.keyset r.p r.d r.a r.b)
  | 0xD9, 1 => some (.keysetDel r.p r.d r.a)
  | 0xDA, 0 => some (.metrd r.p r.d r.src)
  | 0xDA, 1 => some (.metrdN r.p r.d r.src)
  | 0xDB, 0 => some (.metsign r.p r.d r.a r.b)
  | 0xDB, 1 => some (.metsignFinal r.p r.d r.a r.b)
  | 0xDC, 0 => some (.attest r.p r.d r.a r.b)
  | 0xDC, 1 => some (.attestRev r.p r.d r.a)
  | 0xDD, _ => some (.svcsend r.p r.d r.a r.b)
  | 0xDE, 0 => some (.corectlOut r.p r.d r.a)
  | 0xDE, 1 => some (.corectlIn r.p r.d r.a)
  | 0xDE, 2 => some (.corectlTout r.p r.d r.a)
  | 0xDE, 3 => some (.corectlDisp r.p r.d r.a)
  | 0xDE, 4 => some (.corectlStat r.p r.d r.a)
  | _, _ => none

/-- Major opcodes 0xE0 to 0xEF (Table 24.6). -/
noncomputable def parseE (r : Raw) : Option Instr :=
  match r.opc.val, r.q.val with
  | 0xE0, _ => some (.trace r.p (r.hi.extractLsb' 4 16) r.a)
  | 0xE1, 0 => some (.lclk r.p r.d)
  | 0xE1, 1 => some (.lclkAcq r.p r.d)
  | 0xE2, _ => some (.bkpt r.p (r.hi.extractLsb' 0 16))
  | 0xE3, _ => some (.sample r.p r.d r.a)
  | 0xE4, 0 => some (.trigsetBuf r.p r.d r.a r.b)
  | 0xE4, 1 => some (.trigsetStart r.p r.d r.a)
  | 0xE4, 2 => some (.trigsetStop r.p r.d r.a)
  | 0xE4, 3 => some (.trigsetBp r.p r.d r.a r.b r.c)
  | 0xE4, 4 => some (.trigsetMask r.p r.d r.a)
  | 0xE4, 5 => some (.trigsetSt r.p r.d)
  | 0xE5, 0 => some (.slotrd r.p r.d r.a (r.hi.extractLsb' 4 6))
  | 0xE5, 1 => some (.slotrdClr r.p r.d r.a (r.hi.extractLsb' 4 6))
  | _, _ => none

/-- The instruction a word names, before its unused fields are checked (R52). -/
noncomputable def parse (r : Raw) : Option Instr :=
  match r.opc.val / 16 with
  | 0x0 => parse0 r | 0x1 => parse1 r | 0x2 => parse2 r | 0x3 => parse3 r | 0x4 => parse4 r | 0x5 => parse5 r
  | 0x6 => parse6 r | 0x7 => parse7 r | 0x8 => parse8 r | 0x9 => parse9 r | 0xA => parseA r | 0xB => parseB r
  | 0xC => parseC r | 0xD => parseD r | 0xE => parseE r
  | _ => if r.opc.val = 0xFF then some .illegal else none

/-! ### Encoding -/

/-- The empty word of a predicate and a major opcode. -/
def raw (p : Pred) (opc : Fin 256) : Raw :=
  { len := 0, p := p, opc := opc, d := 0, a := 0, b := 0, min := 0, q := 0, hi := 0, e1 := 0, e2 := 0 }

/-- An always-true predicate: PRED 0 (R45). -/
def Pred.always : Pred := { neg := false, idx := 0 }

/-- gD, gA. -/
def rDA (p : Pred) (opc : Fin 256) (d a : Reg) : Raw := { raw p opc with d := d, a := a }
/-- gD, gA, gB. -/
def rDAB (p : Pred) (opc : Fin 256) (d a b : Reg) : Raw := { raw p opc with d := d, a := a, b := b }
/-- gD, gA and a second source. -/
def rDAS (p : Pred) (opc : Fin 256) (d a : Reg) (s : Src) : Raw :=
  { raw p opc with d := d, a := a, b := srcB s, hi := hiSrc 0 s }
/-- Shape M with a memory operand. -/
def rMem (p : Pred) (opc : Fin 256) (d b : Reg) (ord : Nat) (m : MemArg) (qx fmt : Nat) : Raw :=
  { raw p opc with d := d, a := m.base, b := b, q := qM ord m.scope, hi := hiM m.mode qx fmt m.evp }
/-- A 96-bit word with registers X0 to X3. -/
def rX (p : Pred) (opc : Fin 256) (d a b : Reg) (x0 x1 x2 x3 : Reg16) : Raw :=
  { raw p opc with len := 1, d := d, a := a, b := b, e1 := e1X x0 x1 x2 x3 }
/-- A 96-bit word with a timeline in C. -/
def rXT (p : Pred) (opc : Fin 256) (d a b : Reg) (t : Tl) (x0 x1 x2 x3 : Reg16) : Raw :=
  { rX p opc d a b x0 x1 x2 x3 with hi := hiC (tlReg t) }

def qOf (n : Nat) : Fin 32 := ⟨n % 32, by omega⟩
def mOf (n : Nat) : Fin 16 := ⟨n % 16, by omega⟩

/-- The fields of an instruction's word, from the same tables; none for the pad word and for the steps that have no
word. -/
def rawOf : Instr → Option Raw
  | .illegal => some (raw .always 0xFF)
  | .nop p => some (raw p 0x20)
  | .clz p d a => some { rDA p 0x00 d a with min := 1 }
  | .ctz p d a => some { rDA p 0x00 d a with min := 2 }
  | .popc p d a => some { rDA p 0x00 d a with min := 3 }
  | .brev p d a => some { rDA p 0x00 d a with min := 4 }
  | .add p d a b => some (rDAS p 0x01 d a b)
  | .sub p d a b => some (rDAS p 0x02 d a b)
  | .mul p d a b => some (rDAS p 0x03 d a b)
  | .mulh p u d a b => some { rDAS p 0x04 d a b with q := qOf (qb u) }
  | .div p u d a b => some { rDAS p 0x05 d a b with q := qOf (qb u) }
  | .rem p u d a b => some { rDAS p 0x06 d a b with q := qOf (qb u) }
  | .and p d a b => some (rDAS p 0x07 d a b)
  | .or p d a b => some (rDAS p 0x08 d a b)
  | .xor p d a b => some (rDAS p 0x09 d a b)
  | .andn p d a b => some (rDAS p 0x0A d a b)
  | .shl p d a b => some (rDAS p 0x0B d a b)
  | .shr p d a b => some (rDAS p 0x0C d a b)
  | .sar p d a b => some (rDAS p 0x0D d a b)
  | .rot p d a b => some (rDAS p 0x0E d a b)
  | .min p u d a b => some { rDAS p 0x0F d a b with q := qOf (qb u) }
  | .max p u d a b => some { rDAS p 0x10 d a b with q := qOf (qb u) }
  | .abs p d a => some (rDA p 0x11 d a)
  | .bfx p s d a b => some { rDAS p 0x12 d a b with q := qOf (qb s) }
  | .bfi p d a b => some (rDAS p 0x13 d a b)
  | .lea p sh d a b => some { rDAS p 0x14 d a b with q := qOf sh.val }
  | .leaPc p d i => some { raw p 0x14 with d := d, min := 1, hi := i }
  | .movi p d i => some { raw p 0x15 with d := d, hi := i }
  | .movi128 p d lo hi => some { raw p 0x15 with len := 2, d := d, hi := lo, e2 := hi }
  | .movhi p d i => some { raw p 0x16 with d := d, hi := i }
  | .mov p d a => some (rDA p 0x17 d a)
  | .sel p d c a b => some { rDAS p 0x18 d a b with hi := hiSrc c b }
  | .cmp p c d a b => some { rDAS p 0x19 d a b with q := qOf c.code }
  | .fadd p s d a b => some { rDAB p 0x1A d a b with q := qOf (qb s) }
  | .fsub p s d a b => some { rDAB p 0x1A d a b with q := qOf (qb s), min := 1 }
  | .fmul p s d a b => some { rDAB p 0x1B d a b with q := qOf (qb s) }
  | .ffma p s d a b c => some { rDAB p 0x1C d a b with q := qOf (qb s), hi := hiC c }
  | .fdiv p s d a b => some { rDAB p 0x1D d a b with q := qOf (qb s) }
  | .fsqrt p s d a => some { rDA p 0x1D d a with q := qOf (qb s), min := 1 }
  | .fmin p s d a b => some { rDAB p 0x1E d a b with q := qOf (qb s) }
  | .fmax p s d a b => some { rDAB p 0x1E d a b with q := qOf (qb s), min := 1 }
  | .fcmp p c s d a b => some { rDAB p 0x1F d a b with q := qOf (qb s + 2 * c.code) }
  | .bra p i => some { raw p 0x21 with hi := i }
  | .brx p a => some { raw p 0x22 with a := a }
  | .call p none i => some { raw p 0x23 with hi := i }
  | .call p (some d) i => some { raw p 0x23 with d := d, q := 1, hi := i }
  | .callx p none a => some { raw p 0x24 with a := a }
  | .callx p (some d) a => some { raw p 0x24 with d := d, a := a, q := 1 }
  | .ret p none => some (raw p 0x25)
  | .ret p (some a) => some { raw p 0x25 with a := a, q := 1 }
  | .loop p len count => some { raw p 0x26 with hi := (count ++ len : BitVec (16 + 16)) }
  | .loopg p a len => some { raw p 0x27 with a := a, hi := hiImm 0 (0#12 ++ len : BitVec (12 + 16)) }
  | .lbrk p => some (raw p 0x28)
  | .lbrkAll p => some { raw p 0x28 with q := 1 }
  | .fop p op d a b => some { rDAB p 0x29 d a b with q := qOf op.code }
  | .fset p d v => some { raw p 0x2A with d := d, hi := hiImm 0 (BitVec.ofNat 28 (qb v)) }
  | .fsetM p a m => some { raw p 0x2A with a := a, q := 1, hi := hiImm 0 (0#20 ++ m : BitVec (20 + 8)) }
  | .fget p all d => some { raw p 0x2B with d := d, q := qOf (qb all) }
  | .ld p f q nb d m => some (rMem p 0x30 d 0 (qb nb) m q.code f.code)
  | .st p f wc b m => some (rMem p 0x31 0 b (2 * qb wc) m 0 f.code)
  | .ldp p f q nb d m => some (rMem p 0x32 d 0 (qb nb) m q.code f.code)
  | .stp p f wc b m => some (rMem p 0x33 0 b (2 * qb wc) m 0 f.code)
  | .ldb p f nb d m => some (rMem p 0x34 d 0 (qb nb) m 0 f.code)
  | .stb p f wc b m => some (rMem p 0x35 0 b (2 * qb wc) m 0 f.code)
  | .ldq p f q m => some (rMem p 0x36 q 0 0 m 0 f.code)
  | .pf p e a o => some { raw p 0x37 with a := a, hi := hiM (.off o) 0 0 e }
  | .fence p s => some { raw p 0x38 with q := qM 0 s }
  | .amoSwap p f d b m => some (rMem p 0x40 d b 0 m 0 f.code)
  | .amoAdd p f d b m => some { rMem p 0x40 d b 0 m 0 f.code with min := 1 }
  | .amoAnd p f d b m => some { rMem p 0x40 d b 0 m 0 f.code with min := 2 }
  | .amoOr p f d b m => some { rMem p 0x40 d b 0 m 0 f.code with min := 3 }
  | .amoXor p f d b m => some { rMem p 0x40 d b 0 m 0 f.code with min := 4 }
  | .amoMin p f d b m => some { rMem p 0x40 d b 0 m 0 f.code with min := 5 }
  | .amoMax p f d b m => some { rMem p 0x40 d b 0 m 0 f.code with min := 6 }
  | .amoFadd p f d b m => some { rMem p 0x40 d b 0 m 0 f.code with min := 7 }
  | .cas p f d b m => some (rMem p 0x41 d b 0 m 0 f.code)
  | .casp p d b m => some (rMem p 0x42 d b 0 m 0 0)
  | .bara p d a => some (rDA p 0x43 d a)
  | .barw p a b => some { raw p 0x44 with a := a, b := b }
  | .barx p a b => some (rDAS p 0x45 0 a b)
  | .barcfg p a b => some (rDAS p 0x46 0 a b)
  | .barcfgRd p d a => some { rDA p 0x46 d a with q := 1 }
  | .barcfgPb p d a => some { rDA p 0x46 d a with q := 2 }
  | .tlwait p d t b => some (rDAS p 0x47 d (tlReg t) b)
  | .tlget p d t => some (rDA p 0x48 d (tlReg t))
  | .tlgetI p d t => some { rDA p 0x48 d (tlReg t) with q := 1 }
  | .few p a o => some { raw p 0x49 with a := a, hi := hiM (.off o) 0 0 0 }
  | .fewE p a o => some { raw p 0x49 with a := a, min := 1, hi := hiM (.off o) 0 0 0 }
  | .feset p s a o => some { raw p 0x4A with a := a, q := qM 0 s, hi := hiM (.off o) 0 0 0 }
  | .feclr p s a o => some { raw p 0x4B with a := a, q := qM 0 s, hi := hiM (.off o) 0 0 0 }
  | .send p a b => some { raw p 0x4C with a := a, b := b }
  | .sendT p d a b => some { rDAB p 0x4C d a b with q := 1 }
  | .recv p none id d => some { raw p 0x4D with d := d, q := qOf (2 * qb id) }
  | .recv p (some c) id d => some { raw p 0x4D with d := d, q := qOf (1 + 2 * qb id), hi := hiC c }
  | .chstat p d => some { raw p 0x4E with d := d }
  | .chstatD p d a => some { rDA p 0x4E d a with q := 1 }
  | .spawn p d a b => some (rDAB p 0x50 d a b)
  | .exit p => some (raw p 0x51)
  | .yield p => some (raw p 0x52)
  | .wait p => some { raw p 0x52 with min := 1 }
  | .park p => some { raw p 0x52 with min := 2 }
  | .wake p none a => some { raw p 0x53 with a := a }
  | .wake p (some d) a => some { rDA p 0x53 d a with q := 1 }
  | .self p v d => some { raw p 0x54 with d := d, q := qOf v.code }
  | .mbxr p d b => some { rDAS p 0x54 d 0 b with min := 1 }
  | .evict p => some (raw p 0x55)
  | .evictMem p => some { raw p 0x55 with q := 1 }
  | .pin p d => some { raw p 0x55 with d := d, min := 1 }
  | .pinU p => some { raw p 0x55 with min := 1, q := 1 }
  | .ctxrd p d a w => some { rDA p 0x56 d a with hi := hiImm 0 (0#24 ++ xBits w : BitVec (24 + 4)) }
  | .ctxwr p a c w => some { raw p 0x57 with a := a, hi := hiImm c (0#24 ++ xBits w : BitVec (24 + 4)) }
  | .qcfg p q b => some (rDAS p 0x58 q 0 b)
  | .qbindPop p q => some { raw p 0x59 with a := q }
  | .qbindPush p q => some { raw p 0x59 with a := q, q := 1 }
  | .qbindUpop p => some { raw p 0x59 with q := 2 }
  | .qbindUpush p => some { raw p 0x59 with q := 3 }
  | .qstat p d q => some (rDA p 0x5A d q)
  | .qdrain p q => some { raw p 0x5B with a := q }
  | .qpeek p d q b => some (rDAS p 0x5C d q b)
  | .cvt p rm ov dst src d a =>
    some { rDA p 0x60 d a with
      q := qOf (rm.code + 4 * qb ov), hi := hiImm 0 (0#12 ++ (src ++ dst : BitVec (8 + 8)) : BitVec (12 + 16)) }
  | .vcvt p rm ov d a x0 x1 => some { rX p 0x61 d a 0 x0 x1 0 0 with q := qOf (rm.code + 4 * qb ov) }
  | .qntk p ov d a b t x0 x1 x2 x3 => some { rXT p 0x62 d a b t x0 x1 x2 x3 with q := qOf (4 * qb ov) }
  | .dqnk p rm ov d a b t x0 x1 x2 x3 => some { rXT p 0x63 d a b t x0 x1 x2 x3 with q := qOf (rm.code + 4 * qb ov) }
  | .qscl p ov d a b t x1 x2 x3 => some { rXT p 0x64 d a b t 0 x1 x2 x3 with q := qOf (4 * qb ov) }
  | .csrx p d a b t x0 x1 x2 x3 => some (rXT p 0x65 d a b t x0 x1 x2 x3)
  | .csrd p d a b t x0 x1 x2 x3 => some (rXT p 0x66 d a b t x0 x1 x2 x3)
  | .cvstat p d => some { raw p 0x67 with d := d }
  | .cvstatClr p d => some { raw p 0x67 with d := d, q := 1 }
  | .vclaim p d b => some (rDAS p 0x70 d 0 b)
  | .vclaimW p d b => some { rDAS p 0x70 d 0 b with q := 1 }
  | .vrel p => some (raw p 0x71)
  | .hset p a x0 => some (rX p 0x72 0 a 0 x0 0 0 0)
  | .hget p d x0 => some (rX p 0x73 d 0 0 x0 0 0 0)
  | .vadd p d a x0 x1 x2 => some (rX p 0x74 d a 0 x0 x1 x2 0)
  | .vsub p d a x0 x1 x2 => some (rX p 0x75 d a 0 x0 x1 x2 0)
  | .vmul p d a x0 x1 x2 => some (rX p 0x76 d a 0 x0 x1 x2 0)
  | .vfma p d a x0 x1 x2 x3 => some (rX p 0x77 d a 0 x0 x1 x2 x3)
  | .vdiv p d a x0 x1 x2 => some (rX p 0x78 d a 0 x0 x1 x2 0)
  | .vmin p d a x0 x1 x2 => some (rX p 0x79 d a 0 x0 x1 x2 0)
  | .vmax p d a x0 x1 x2 => some (rX p 0x7A d a 0 x0 x1 x2 0)
  | .vabs p d a x0 x1 => some (rX p 0x7B d a 0 x0 x1 0 0)
  | .vneg p d a x0 x1 => some (rX p 0x7C d a 0 x0 x1 0 0)
  | .vcmp p c d a x0 x1 x2 => some { rX p 0x7D d a 0 x0 x1 x2 0 with q := qOf c.code }
  | .vsel p d a x0 x1 x2 x3 => some (rX p 0x7E d a 0 x0 x1 x2 x3)
  | .vred p op acc d a x1 => some { rX p 0x7F d a 0 0 x1 0 0 with q := qOf (op.code + 4 * qb acc) }
  | .vscan p op d a b x0 x1 => some { rX p 0x80 d a b x0 x1 0 0 with q := qOf op.code }
  | .vperm p d a x0 x1 x2 => some (rX p 0x81 d a 0 x0 x1 x2 0)
  | .vbcast p d a b x0 => some (rX p 0x82 d a b x0 0 0 0)
  | .vextr p d b x1 => some (rX p 0x83 d 0 b 0 x1 0 0)
  | .vrcp p d a x0 x1 => some (rX p 0x84 d a 0 x0 x1 0 0)
  | .vrsq p d a x0 x1 => some (rX p 0x85 d a 0 x0 x1 0 0)
  | .vexp2 p d a x0 x1 => some (rX p 0x86 d a 0 x0 x1 0 0)
  | .vlog2 p d a x0 x1 => some (rX p 0x87 d a 0 x0 x1 0 0)
  | .vsin p d a x0 x1 => some (rX p 0x88 d a 0 x0 x1 0 0)
  | .vcos p d a x0 x1 => some (rX p 0x89 d a 0 x0 x1 0 0)
  | .vtbl p d a x0 x1 x2 => some (rX p 0x8A d a 0 x0 x1 x2 0)
  | .vtblcfg p d x0 => some (rX p 0x8B d 0 0 x0 0 0 0)
  | .efset p b => some (rDAS p 0xC8 0 0 b)
  | .padd p s d a b => some { rDAB p 0xC9 d a b with q := qOf (qb s) }
  | .psub p s d a b => some { rDAB p 0xC9 d a b with q := qOf (qb s), min := 1 }
  | .pmul p s d a b => some { rDAB p 0xCA d a b with q := qOf (qb s) }
  | .pdot p d a b => some (rDAB p 0xCB d a b)
  | .pmin p d a b => some (rDAB p 0xCC d a b)
  | .pmax p d a b => some { rDAB p 0xCC d a b with min := 1 }
  | .pabs p s d a => some { rDA p 0xCD d a with q := qOf (qb s) }
  | .pshf p d a b => some (rDAB p 0xCE d a b)
  | .pcmp p c d a b => some { rDAB p 0xCF d a b with q := qOf c.code }
  | .mld p d a x0 x1 => some (rX p 0x90 d a 0 x0 x1 0 0)
  | .mst p d a x0 x1 => some (rX p 0x91 d a 0 x0 x1 0 0)
  | .mset p d a b x0 => some (rX p 0x92 d a b x0 0 0 0)
  | .madd p d a b x0 x1 x2 => some (rX p 0x93 d a b x0 x1 x2 0)
  | .msub p d a b x0 x1 x2 => some (rX p 0x94 d a b x0 x1 x2 0)
  | .mmul p d a b x0 x1 x2 => some (rX p 0x95 d a b x0 x1 x2 0)
  | .mfma p d a b x0 x1 x2 x3 => some (rX p 0x96 d a b x0 x1 x2 x3)
  | .mscl p d a b x0 x1 => some (rX p 0x97 d a b x0 x1 0 0)
  | .msqr p d a x0 x1 => some (rX p 0x98 d a 0 x0 x1 0 0)
  | .mnl p f d a x0 x1 => some { rX p 0x99 d a 0 x0 x1 0 0 with q := qOf f.code }
  | .mcol p op d a b x1 => some { rX p 0x9A d a b 0 x1 0 0 with q := qOf op.code }
  | .mcolH p op d a b x0 x1 => some { rX p 0x9A d a b x0 x1 0 0 with q := qOf op.code, min := 1 }
  | .mchk p d a x1 => some (rX p 0x9B d a 0 0 x1 0 0)
  | .tset p d b => some (rDAS p 0xA0 d 0 b)
  | .tget p d a => some { rDA p 0xA0 d a with min := 1 }
  | .tld p s e d a c => some { raw p 0xA1 with d := d, a := a, q := qM 0 s, hi := hiM (.index c) 0 0 e }
  | .tst p s e b a c => some { raw p 0xA2 with b := b, a := a, q := qM 0 s, hi := hiM (.index c) 0 0 e }
  | .tzero p d => some { raw p 0xA3 with d := d }
  | .ttrn p d a => some (rDA p 0xA4 d a)
  | .tpred p z d a => some { rDA p 0xA5 d a with q := qOf (qb z) }
  | .kop p op d a b => some { rDAB p 0xA6 d a b with q := qOf op.code }
  | .tmma p z d a b c => some { rDAB p 0xA7 d a b with q := qOf (qb z), hi := hiC c }
  | .tmms p z o tp tr d a b c =>
    some { rDAB p 0xA8 d a b with q := qOf (qb z + 2 * qb o + 4 * qb tp + 8 * qb tr), hi := hiC c }
  | .tmmm p z d a b => some { rDAB p 0xA9 d a b with q := qOf (qb z) }
  | .aclr p d => some { raw p 0xAA with d := d }
  | .ard p rm ov m d a b x0 => some { rX p 0xAB d a b x0 0 0 0 with q := qOf (rm.code + 4 * qb ov + 8 * qb m) }
  | .awr p m d a b x1 => some { rX p 0xAC d a b 0 x1 0 0 with q := qOf (8 * qb m) }
  | .mgcfg p d => some { raw p 0xAD with d := d }
  | .mgcfgRel p d => some { raw p 0xAD with d := d, q := 1 }
  | .mgstat p d => some { raw p 0xAD with d := d, min := 1 }
  | .mgadd p d a b t x1 x2 => some (rXT p 0xAE d a b t 0 x1 x2 0)
  | .mgdrain p d a t x0 x1 => some (rXT p 0xAF d a 0 t x0 x1 0 0)
  | .cpy p d a b t len bar => some (rXT p 0xB0 d a b t (wide len) 0 (barX bar) 0)
  | .cpy2d p d a b t row sh bar => some { rXT p 0xB0 d a b t (wide row) (wide sh) (barX bar) 0 with q := 1 }
  | .cpyT p d b t pitch tile bar => some { rXT p 0xB0 d 0 b t (wide pitch) (wide tile) (barX bar) 0 with q := 2 }
  | .cpym p d b t pitch tile bar fc f =>
    some { rXT p 0xB1 d 0 b t (wide pitch) (wide tile) (barX bar) (wide fc) with len := 2, e2 := f }
  | .gath p z d a b t n bar => some { rXT p 0xB2 d a b t (wide n) 0 (barX bar) 0 with q := qOf z.code }
  | .scat p z d a b t n bar => some { rXT p 0xB3 d a b t (wide n) 0 (barX bar) 0 with q := qOf z.code }
  | .cpstQ p d t b => some (rDAB p 0xB4 d (tlReg t) b)
  | .cpstRes p d a => some { rDA p 0xB4 d a with q := 1 }
  | .cpstEnd p d a b => some { rDAB p 0xB4 d a b with q := 2 }
  | .winset p rt n b x0 => some { rXT p 0xB5 0 0 b n x0 0 0 0 with q := qOf rt.code }
  | .winsetCl p n => some { rXT p 0xB5 0 0 0 n 0 0 0 0 with q := 4 }
  | .nlcfg p d a => some (rDA p 0xB8 d a)
  | .nlbin p d a b t => some { rDAB p 0xB9 d a b with hi := hiC (tlReg t) }
  | .nlpair p d t x0 x1 => some (rXT p 0xBA d 0 0 t x0 x1 0 0)
  | .nlnext p d => some { raw p 0xBB with d := d }
  | .nlstat p d => some { raw p 0xBC with d := d }
  | .nlrel p => some (raw p 0xBD)
  | .launch p d a => some (rDA p 0xC0 d a)
  | .join p d a => some (rDA p 0xC1 d a)
  | .joinT p d a => some { rDA p 0xC1 d a with q := 1 }
  | .done p => some (raw p 0xC2)
  | .prio p d a b => some (rDAS p 0xC3 d a b)
  | .prioSelf p d b => some { rDAS p 0xC3 d 0 b with q := 1 }
  | .wladd p d a => some (rDA p 0xC4 d a)
  | .wltake p d c => some { raw p 0xC5 with d := d, hi := hiC c }
  | .wlcfg p d => some { raw p 0xC6 with d := d }
  | .wlcfgRel p d => some { raw p 0xC6 with d := d, q := 1 }
  | .wlcfgSt p d => some { raw p 0xC6 with d := d, q := 2 }
  | .lvcfg p b => some (rDAS p 0xC7 0 0 b)
  | .trap p n => some { raw p 0xD0 with hi := (0#16 ++ n : BitVec (16 + 16)) }
  | .tret p => some (raw p 0xD1)
  | .sysr p d s => some { raw p 0xD2 with d := d, hi := hiImm 0 (0#16 ++ s : BitVec (16 + 12)) }
  | .sysw p s a => some { raw p 0xD3 with a := a, hi := hiImm 0 (0#16 ++ s : BitVec (16 + 12)) }
  | .xlpub p d a b => some (rDAB p 0xD4 d a b)
  | .xlpubNs p d a b => some { rDAB p 0xD4 d a b with q := 1 }
  | .xlinvAll p => some (raw p 0xD5)
  | .xlinvOwn p a => some { raw p 0xD5 with a := a, q := 1 }
  | .svcsend p d a b => some (rDAB p 0xDD d a b)
  | .corectlOut p d a => some (rDA p 0xDE d a)
  | .corectlIn p d a => some { rDA p 0xDE d a with q := 1 }
  | .corectlTout p d a => some { rDA p 0xDE d a with q := 2 }
  | .corectlDisp p d a => some { rDA p 0xDE d a with q := 3 }
  | .corectlStat p d a => some { rDA p 0xDE d a with q := 4 }
  | .mapout p d a => some (rDA p 0xD6 d a)
  | .migr p d a b t => some { rDAB p 0xD7 d a b with hi := hiC (tlReg t) }
  | .wsld p d a b c => some { rDAB p 0xD8 d a b with hi := hiC c }
  | .keyset p d a b => some (rDAB p 0xD9 d a b)
  | .keysetDel p d a => some { rDA p 0xD9 d a with q := 1 }
  | .metrd p d b => some (rDAS p 0xDA d 0 b)
  | .metrdN p d b => some { rDAS p 0xDA d 0 b with q := 1 }
  | .metsign p d a b => some (rDAB p 0xDB d a b)
  | .metsignFinal p d a b => some { rDAB p 0xDB d a b with q := 1 }
  | .attest p d a b => some (rDAB p 0xDC d a b)
  | .attestRev p d a => some { rDA p 0xDC d a with q := 1 }
  | .trace p c a => some { raw p 0xE0 with a := a, hi := hiImm 0 (0#12 ++ c : BitVec (12 + 16)) }
  | .lclk p d => some { raw p 0xE1 with d := d }
  | .lclkAcq p d => some { raw p 0xE1 with d := d, q := 1 }
  | .bkpt p n => some { raw p 0xE2 with hi := (0#16 ++ n : BitVec (16 + 16)) }
  | .sample p d a => some (rDA p 0xE3 d a)
  | .trigsetBuf p d a b => some (rDAB p 0xE4 d a b)
  | .trigsetStart p d a => some { rDA p 0xE4 d a with q := 1 }
  | .trigsetStop p d a => some { rDA p 0xE4 d a with q := 2 }
  | .trigsetBp p d a b s => some { rDAB p 0xE4 d a b with q := 3, hi := hiC s }
  | .trigsetMask p d a => some { rDA p 0xE4 d a with q := 4 }
  | .trigsetSt p d => some { raw p 0xE4 with d := d, q := 5 }
  | .slotrd p d a n => some { rDA p 0xE5 d a with hi := hiImm 0 (0#22 ++ n : BitVec (22 + 6)) }
  | .slotrdClr p d a n => some { rDA p 0xE5 d a with q := 1, hi := hiImm 0 (0#22 ++ n : BitVec (22 + 6)) }
  | _ => none

/-! ### The decoder -/

/-- Accept a word that is exactly the word of a well-formed instruction (R38). -/
noncomputable def accept (r : Raw) : Option Instr :=
  match parse r with
  | some i => if wellFormed i ∧ rawOf i = some r then some i else none
  | none => none

/-- Bits 42:35 replaced: the rest of a word whose FMT names no format is checked as for a format the opcode accepts,
since those checks come before the format's (R51). -/
def Raw.withFmt (r : Raw) (code : Nat) : Raw :=
  { r with hi := (r.hi.extractLsb' 11 21 ++ (BitVec.ofNat 8 code ++ r.hi.extractLsb' 0 3 : BitVec (8 + 3)) :
      BitVec (21 + 11)) }

/-- A format each opcode with an FMT field accepts. -/
def sampleFmt (opc : Nat) : Option Nat :=
  if opc = 0x34 ∨ opc = 0x35 then some 0x09
  else if (0x30 ≤ opc ∧ opc ≤ 0x33) ∨ opc = 0x36 ∨ opc = 0x41 then some 0x07
  else none

/-- The format by which the other fields of an atomic's word are checked. -/
def sampleFmtOf (r : Raw) : Option Nat :=
  if r.opc.val = 0x40 then (if r.min.val = 7 then some 0x10 else some 0x07) else sampleFmt r.opc.val

/-- Decode a word of LEN 0b00 to 0b10: the checks of R51 that the word alone decides. -/
noncomputable def decodeRaw (r : Raw) : Except Reject Instr :=
  match accept r with
  | some i => .ok i
  | none =>
    match sampleFmtOf r with
    | some f =>
      if (Fmt.ofCode r.fmtCode).isNone ∧ (accept (r.withFmt f)).isSome then .error (.handle r.fmtCode)
      else .error .illop
    | none => .error .illop

/-- Decode the instruction whose bits are `w`, bit 0 the least significant bit of the first word (R31, R35, R51). -/
noncomputable def decodeNat (w : Nat) : Except Reject Instr :=
  if w % 4 = 3 then (if w % 2 ^ 32 = 0xFFFFFFFF then .ok .pad else .error .illop)
  else decodeRaw (unpack w)

/-- Decode the instruction at the head of a list of bytes, with the bytes after it (R31, R32). -/
noncomputable def decode (bs : List Byte) : Except Reject (Instr × List Byte) :=
  if bs.length < 4 then .error .short
  else
    let n := lengthOf (leNat (bs.take 4))
    if bs.length < n then .error .short
    else (decodeNat (leNat (bs.take n))).map fun i => (i, bs.drop n)

/-- Length in bytes of an instruction's word; 0 for a step that has none. -/
def Instr.bytes (i : Instr) : Nat :=
  match i with
  | .pad => 4
  | _ => match rawOf i with
    | some r => lengthOf r.len.val
    | none => 0

/-- The 32-bit words of an instruction, the first at the lowest address (R32). -/
def encode (i : Instr) : List (BitVec 32) :=
  match i with
  | .pad => [0xFFFFFFFF#32]
  | _ => match rawOf i with
    | some r => (List.range (lengthOf r.len.val / 4)).map fun k => BitVec.ofNat 32 (r.pack / 2 ^ (32 * k))
    | none => []

/-- The bytes of a list of words, each little-endian (R3, R32). -/
def wordBytes (ws : List (BitVec 32)) : List Byte := ws.flatMap fun w => natBytes 4 w.toNat

/-- The instruction the decoder reads from an instruction whose bits are `w`, the bits above `nbits` zero. -/
noncomputable def decodeTableWord (_nbits w : Nat) : Option Instr :=
  match decode (natBytes 16 w) with
  | .ok (i, _) => some i
  | .error _ => none

end Sys2Proof
end

