-- ==== Sys2Proof/Config.lean ====
section
/-! DEFINITION. What the manual leaves open: free values without a body (nothing can be proved of one but that it is the same
for the same arguments), and the constants of one device. -/

namespace Sys2Proof.Config

/-- Which of the two bracketing values a special function returns (R278): `fn` is the major opcode, `fmt` the destination
code, `bits` the source value as binary64. The same for the same source value and destination. -/
opaque specialUp : (fn fmt bits : Nat) → Bool

/-- Which of the two bracketing F32 values MNL returns (R301): function Q, half (0 mean, 1 variance), source pair. -/
opaque mnlUp : (fn half pair : Nat) → Bool

/-- A byte of DRAM decrypted under a key other than the one it was written under (R204): reader's owner, writer's owner,
physical address, stored plaintext. -/
opaque garbled : (reader writer addr : Nat) → Byte → Byte

/-- A span of on-die storage that carries an owner tag (R205): 512 bytes of L2 or of a weight store, or of a crew's scratchpad; a
tile register, accumulator or moment register of a crew; a mangle bank of a tile; a line of a tile L1; a thread's line in the
inn. -/
inductive OnDie where
  | memory (span : Nat)
  | scratchpad (crew span : Nat)
  | tileReg (crew : Nat) (n : Fin 8)
  | acc (crew : Nat) (n : Fin 8)
  | moment (crew : Nat) (n : Fin 16)
  | bank (tile : Nat) (n : Fin 8)
  | l1 (tile line : Nat)
  | inn (thread : Nat)
deriving DecidableEq, Repr, Inhabited

/-- The span that an array selector of the test access port names (R410): the spec gives selectors no layout. -/
opaque arraySpan : (selector : Nat) → OnDie

/-- A 64-bit word of stored ciphertext as the test access port reads it (R410): array selector and shift count. -/
opaque rawArray : (selector count : Nat) → Word

/-- Byte `i` of the one-time signature and path by which the lower level signs report `seq`, of message hash `hash` (R216). -/
opaque hssByte : (seq hash i : Nat) → Byte

/-- Byte `i` of what the top level's leaf `top` gives a signature: its own one-time signature and path, and the identifier and
root of the lower key (R216). -/
opaque hssTop : (top i : Nat) → Byte

/-- Byte `i` of the identifier and root of the device's HSS public key (R216). -/
opaque hssPub : (i : Nat) → Byte

/-- ATTHASH of a report (Table 9.4): the spec gives the attestation table no layout, so its hash is free for each content. -/
opaque attHash : (entries : List (List Nat)) → Nat

/-- Whether a mapped-out core passes its self-test at map-in (R193): core number and a counter. -/
opaque selfTest : (core count : Nat) → Bool

/-- The mender whose ring takes the record of a failed link (R191 names none). -/
opaque linkMender : (link : Nat) → Nat

/-- Wall-clock nanoseconds elapsed in the current 400 ns or 1,200 ns part of a refresh slot (R107), by a counter. -/
opaque slotNs : Nat → Nat

/-- The answers a mender's program sends as it runs on (R192), by a counter: thread and payload, oldest first. -/
opaque menderAnswers : Nat → List (Nat × Word)

/-- Whether the failed links listed leave a house without a route (R191): the spec gives no topology of links. -/
opaque noRoute : (links : List Nat) → (house : Nat) → Bool

/-- Free words for results the manual does not state, by a counter. -/
opaque freeWord : Nat → Word

/-- Whether a tile's open choice falls to the line or the other (R116: which live value a non-binding load returns), by a counter. -/
opaque choice : Nat → Bool

/-- Word `i` of the declaration as a save area's header holds it (Table 8.8 gives no layout), for the declared values. -/
opaque declWord : (i : Nat) → (values : List Nat) → Word

/-- SIZE in the record of an access to an element of `width` bits, fewer than a byte: Table 8.6 gives it no code. -/
opaque narrowSize : (width : Nat) → BitVec 3

/-- SERIAL of this device (Table 9.4). -/
opaque serial : Word

/-- The IDCODE of the test access port (R410). -/
opaque idcode : BitVec 32

/-- LL of R110: the lease length of a sequential load outside the scratchpad. -/
def leaseLength : Nat := 16

/-- Records a mender's fault ring holds (R189). -/
def ringSize : Nat := 1024

/-- Entries of the pending-launch pool (R388). -/
def pendingEntries : Nat := 4096

/-- Owners of the key table (R204). -/
def keyOwners : Nat := 4096

/-- Entries of the attestation table (R218). -/
def attestEntries : Nat := 256

/-- Copy slots of one core (R335). -/
def copySlots : Nat := 64

/-- Operations the tile's array queue holds (R313). -/
def arraySlots : Nat := 16

/-- Write-combining entries of one core (R117). -/
def wcEntries : Nat := 8

/-- Records that may await writing to the trace ring (R404). -/
def traceBacklog : Nat := 4096

/-- Ports of the scale-up fabric (Table 1.8, R213). -/
def fabricPorts : Nat := 36

/-- Compute-die sites, tiles of a die, cores of a tile (R9, R13). -/
def sites : Nat := 8
def tilesPerDie : Nat := 24
def coresPerTile : Nat := 8

end Sys2Proof.Config
end

