-- ==== Sys2Proof/Machine/State.lean ====
section
/-! DEFINITION. The state of one VRD-K8 package as plain data, and the machine right after device reset.
A thread is keyed by 256 × crew number + index, a tile by 24 × site + tile, a core by 8 × tile + core, a mender by
4 × site + mender core. Each field's comment names the rule that gives it. -/

namespace Sys2Proof.Machine

/-- Line states of Table 7.5 and bits 58:56 of the PC word; code 7 is never written. -/
inductive LState where
  | ready | waiting | parked | faulted | trapped | debugStopped | exited
deriving DecidableEq, Repr

/-- What a line waiting with kind 0 waits for (R159, R160). -/
inductive Await where
  | nothing
  | accesses          -- its own unbound accesses or draining entries (R112, R117)
  | copySlot          -- a copy slot of its core (R335)
  | arraySlot         -- a place in the array queue (R313)
  | hold (t : Reg)    -- a read hold of a tile register (R314)
  | momentStep        -- its moment instruction's step (R294)
  | remote            -- acceptance at another crew's tile (R346)
  | shootdown         -- completion of its shootdown (R202)
  | wsld              -- its weight-store write (R211)
  | save              -- the end of a displacement (R193)
  | key               -- the accesses in flight under a key (R207)
  | mangle            -- the crew's mangle operations (R333)
  | frozenLine        -- a line the porter has frozen (R210)
  | bankWrite         -- a weight-store bank being written or refreshed (R107, R211)
  | wcSlot (core : Nat)   -- a write-combining entry of this core's buffer (R117)
  | granule (crew : Nat)  -- a granule of this crew's scratchpad (R128, R149)
  | reply             -- the answer of another unit, which LONG_OP_RESULT brings (R216, R218, R415, R417)
  | rows              -- the rows of a TLD, or the elements of an AWR, that it is loading (R322, R330)
  | rowPtrs           -- the conversion engine's read of CSRD's row pointers (R259)
  | queueRoom         -- a slot of a queue (R225)
  | queueLdq          -- a slot of a queue, and a place within LIMIT (R225)
  | queueIdle         -- no LDQ element of a queue in flight (R233)
  | queuePeek (n : Nat)  -- entry `n` of a queue, filled (R237)
  | scan              -- the array's read of its metadata or its sources (R327, R329)
  | scanned (pc : Nat)   -- no wait: the array has read them for the instruction at this PC
deriving DecidableEq, Repr

/-- Where the current copy of a line is (R161). -/
inductive Loc where
  | parlour (core : Nat)               -- resident
  | arriving (core : Nat) (inn : Bool) -- a check-in has begun, from the inn or from memory (R162)
  | inn (site : Nat)
  | toInn (site : Nat)                 -- moving from memory into the inn (R162)
  | memory
deriving DecidableEq, Repr

/-- A loop-level word (Table 7.3). -/
structure LoopLevel where
  count : BitVec 32
  blen  : BitVec 16
  bstart : BitVec 16
deriving DecidableEq, Repr

/-- The pending register of R72; `pair` adds the next register (R126). -/
structure Pending where
  reg  : Reg
  pair : Bool
deriving DecidableEq, Repr

/-- What an address resolves to (Tables 1.5, 1.7). -/
inductive Target where
  | phys (pa : Nat)              -- houses 0x0 to 0x5
  | ws (off : Nat)               -- the weight store
  | spad (crew off : Nat)        -- scratchpad space
  | ctx (thread byte : Nat)      -- context space
deriving DecidableEq, Repr

/-- What travels from the leaf with an access (R200, R201). -/
structure PageAttr where
  cached  : Bool
  metered : Bool
  mreg    : Nat
  owner   : Nat
  perm    : Bool   -- the leaf lacks W (R114)
deriving DecidableEq, Repr

/-- What an unbound access does when it binds. -/
inductive AccKind where
  | load (d : Reg) (f : Fmt) (nb : Bool) (q : FeQual)
  | loadPair (d : Reg) (nb : Bool) (q : FeQual)
  | loadBits (d : Reg) (f : Fmt) (nb : Bool)
  | store
  | storePair
  | storeBits
  | amo (op : AmoOp) (d : Reg) (f : Fmt)
  | cas (d : Reg) (f : Fmt) (expect : Nat)
  | casp (d : Reg) (expect : Nat)
  | ldq (q : Reg) (slot : Nat) (f : Fmt)
  | granule (wait : Bool) (set : Option Bool)   -- FEW, FESET, FECLR at another crew's tile
  | row (store : Bool)                          -- a row of a TLD or a TST (R322)
deriving DecidableEq, Repr

/-- One piece of an access: what it reaches, under which leaf, and how many bytes (R122). -/
structure Part where
  target : Target
  attr   : PageAttr
  bytes  : Nat
  path   : List Nat := []   -- the addresses of the table entries it was translated with (R203)
deriving DecidableEq, Repr

/-- Queue slot: value, filled, fault mark, reserved by LDQ, FMT code kept with it (R224, R230). -/
structure Slot where
  val    : Word
  filled : Bool
  fault  : Bool
  ldq    : Bool
  fmt    : Nat
deriving DecidableEq, Repr

/-- A thread's access that has been issued and has not yet bound (R112). -/
structure Access where
  kind   : AccKind
  va     : Nat       -- virtual byte address, bits 55:0
  bit    : Nat       -- bit offset within that byte (R127)
  width  : Nat       -- bits moved
  parts  : List Part
  scope  : Scope
  evp    : Nat
  tile   : Nat       -- the tile of the issuing core
  pc     : BitVec 56
  data   : Nat       -- store data, atomic operand
  remote : Bool      -- names another crew's scratchpad (R346)
  accepted : Bool := false      -- another crew's tile has accepted it, and its granule holds it, or rows of it have still to bind (R344)
  got    : List Byte := []      -- the bytes of the pieces that have bound already (R122)
  wc     : Bool := false        -- a write-combining store (R117)
deriving DecidableEq, Repr

/-- A home fault owed to a thread (R123, R190). -/
structure Deferred where
  code  : Nat
  apc   : BitVec 56
  addr  : Nat
  reg   : Nat
  regv  : Bool
  size  : Nat
  store : Bool
  data  : Nat
  pair  : Bool   -- the register's successor is owed too (R126)
  wc    : Bool   -- of a write-combining entry: stops the thread only at a draining event
deriving DecidableEq, Repr

/-- A user trap: Table 8.5's fields, and R223's for a trap of a memory access. -/
structure TrapInfo where
  code   : Nat
  info   : Nat := 0
  addr   : Nat := 0
  detail : Nat := 0
  size   : Nat := 0
  store  : Bool := false
  data   : Nat := 0
deriving DecidableEq, Repr

/-- A message in an inbox (R152): payload, sender crew and index, sender's time. -/
structure Msg where
  payload : Word
  crew    : Nat
  tidx    : Nat
  time    : LTime
  launch  : Option Nat   -- the sender's launch, for the counts of R390
deriving DecidableEq, Repr

/-- The end of an instruction that waits after it has taken effect: its destination and its length; for TLD, TST and AWR what
it does last. -/
structure Finish where
  dest : Option (Reg × Word)
  len  : Nat
  slot : Option (Reg × Nat) := none   -- the slot of a queue its bound g7 reserved at issue (R226)
  popped : Option (Reg × Slot) := none  -- the entry its g6 took, given back if it is withdrawn (R228, R322)
  tile : Option Reg := none           -- the tile register a TLD writes once its rows have landed (R322)
  rows : List (List Byte) := []       -- the rows that have landed
  reads : List (PageAttr × Nat × Nat) := []  -- what they count toward the meters once the tile is written: reads and bytes (R214)
  accs : List Reg := []               -- the accumulators an AWR writes (R330)
  entries : List (Nat × Word) := []   -- what it writes there
deriving DecidableEq, Repr

/-- One thread: its context line (Table 7.1) and what the spec keeps beside the line. -/
structure Thread where
  g      : Vector Word 8   -- 0x00-0x3F
  pc     : BitVec 56       -- 0x40
  st     : LState
  privl  : Bool
  stepb  : Bool
  flags  : BitVec 8        -- 0x48; bit 0 reads 1
  efmt   : BitVec 8
  lact0  : Bool
  lact1  : Bool
  lgrant : BitVec 8
  wobj   : BitVec 28
  wkind  : BitVec 4
  loop0  : LoopLevel       -- 0x50
  loop1  : LoopLevel       -- 0x58
  gtid   : Word            -- 0x60
  pts    : LTime           -- 0x68
  popq   : Reg
  popv   : Bool
  pushq  : Reg
  pushv  : Bool
  link   : BitVec 56       -- 0x70
  crewn  : BitVec 20       -- 0x78
  tidx   : BitVec 8
  owner  : BitVec 16
  lseq   : BitVec 16
  prio   : BitVec 4
  acq      : LTime                -- acquire time ("Relaxed accesses", R131)
  pend     : Option Pending       -- R72
  unbound  : List Access          -- R112, oldest first
  landing  : List (Reg × Nat × Word × Fmt)  -- LDQ elements that have bound and not yet filled their slots: queue, slot, value, format (R225)
  longop   : Option Word          -- result of a long operation still to land (R71)
  deferred : List Deferred        -- R190, oldest first
  wcTime   : LTime                -- largest wts the thread's drained entries have received (R117)
  trapq    : Option TrapInfo      -- a trap whose entry waits (R185)
  finish   : Option Finish
  await    : Await
  target   : Word                 -- the number a TLWAIT waits for (R146)
  drain    : Option (Reg × Nat)   -- QDRAIN's queue and mark (R236)
  gone     : Option Nat := none   -- the thread that has exited while this line's SEND waited on its inbox (R155)
  loc      : Loc                  -- R161
  pin      : Bool                 -- R179
  age      : Nat                  -- R164
  issueStamp : Nat                -- order of last issues (R163)
  entryStamp : Nat                -- order of check-ins (R164, R168)
  eligible : Nat                  -- core cycle from which the line may issue (R14)
  fetchStall : Option Nat         -- physical block awaited (R93)
  restoring : Bool                -- waits for its lane grant (R167, R263)
  claim    : Option (Nat × Nat)   -- order and lanes of a waiting VCLAIM.W (R263)
  inbox    : List Msg             -- R151, at most 8
  token    : Bool                 -- wake token (R175)
  wt       : LTime                -- WT (R175)
  yieldAt  : Nat                  -- core cycle of a YIELD (R173)
deriving DecidableEq, Repr

/-- A queue (Table 12.1), with running counts of reserved and removed entries for QDRAIN (R236). -/
structure Queue where
  slots : Vector Slot 16
  head  : Nat
  count : Nat
  limit : Nat
  reserved : Nat
  removed  : Nat
  held     : Nat := 0   -- entries taken by instructions that may still be refused: their slots stay occupied (R228)
  fresh    : Option (Nat × Nat) := none  -- the cycle of the last reservation, and `reserved` before that cycle (R225)
deriving DecidableEq, Repr

/-- A barrier (Table 6.4, R137). -/
structure Barrier where
  expected : Nat
  arrived  : Nat
  pending  : BitVec 48
  phase    : BitVec 16
  ct       : LTime
  nt       : LTime
deriving DecidableEq, Repr

/-- A timeline (R145); `finished` holds operations that have ended and not yet retired in number order: number, failure code
(0 for none) with the CVSTAT bits the operation sets at its retirement from bit 8 up (R249), time. -/
structure Timeline where
  issued : Word
  done   : Word
  dt     : LTime
  failn  : Word
  failc  : BitVec 8
  more   : BitVec 8
  finished : List (Word × Nat × LTime)
deriving DecidableEq, Repr

/-- A granule's full/empty bit and times (R147). -/
structure Granule where
  full : Bool
  ft   : LTime
  et   : LTime
deriving DecidableEq, Repr

/-- A lease (R104, R106). -/
structure Lease where
  wts : LTime
  rts : LTime
deriving DecidableEq, Repr

/-- Declared resources of a kernel (R66, Table 21.2). -/
structure Decl where
  threads : Nat
  scratch : Nat
  tiles   : Nat
  acc     : Nat
  moments : Nat
  lanes   : Nat
  queues  : Nat
  hamper  : Bool
  house   : Nat     -- HOUSE of Table 21.2: 0 none
  meters  : Word    -- METERS of Table 21.2
deriving DecidableEq, Repr

/-- The task fields of a launch record (Table 21.1). -/
structure Task where
  gtid     : Word
  owner    : Nat
  ctxArea  : Nat
  saveArea : Nat
  xlroot   : Nat
deriving DecidableEq, Repr

/-- The registers of a crew whose writes the instructions of the same cycle do not see (R47, R184, R249, R269, R312). -/
structure CrewRegs where
  tvec   : Word
  tarea  : Word
  mctl   : Word
  mstat  : Word
  cvctl  : Word
  cvstat : Word
  acfg   : Word
  mgspill : Word
  win    : Vector Word 4
  handles : Vector (BitVec 128) 16
  kpred  : BitVec 8
  shapes : Vector (BitVec 64) 8
  tileB  : Map Byte
deriving DecidableEq, Repr

/-- A mangle operation that has begun: its timeline and number, the entries in use, SPILLN and SPFULL when it began, and
whether it found the spill area full itself (R333, R334). -/
structure MgRun where
  tl    : Tl
  num   : Word
  used  : Nat
  spill : Nat
  full  : Bool
  found : Bool
deriving DecidableEq, Repr

/-- A crew: everything of one node instance that is not in its lines. -/
structure Crew where
  tile   : Nat
  task   : Task
  launch : Nat
  node   : Nat
  inst   : Nat
  decl   : Decl
  priv   : Bool
  prio   : Nat                    -- latched priority (R383)
  bt     : LTime                  -- R381
  et     : LTime                  -- largest end time so far (R381)
  terminated : Bool               -- a thread was ended by system software, a mender or DONE (R394)
  displaced : Bool                -- R194
  saving : Bool                   -- a displacement has begun: its threads no longer issue (R194)
  owed   : Nat                    -- bytes owed while displaced (R194)
  saves  : Nat                    -- checkpoint number (Table 8.8)
  saveTime : LTime                -- ST of the last save (Table 8.8)
  lastSaved : Option (Map Byte)   -- the save area as last written (R196)
  dirty  : List Nat               -- save-area units that something has changed since (R196)
  mgKept : Option (Vector (List (BitVec 32 × Word)) 8 × Nat × Bool)  -- the mangle of a displaced crew, with SPILLN and SPFULL (R332)
  mgOps  : List MgRun             -- mangle operations that have begun, oldest first, from the first that has not retired (R333)
  watchArmed : Bool               -- some thread has retired since the last WATCH (R191)
  mailbox : List Word             -- R169
  tvec   : Word                   -- Table 8.3
  tarea  : Word
  mctl   : Word                   -- Table 16.1
  mstat  : Word                   -- Table 16.2
  cvctl  : Word                   -- Table 13.6
  cvstat : Word                   -- Table 13.7
  acfg   : Word                   -- Table 17.2: KIND and PAIR
  win    : Vector Word 4          -- Table 18.2
  mgspill : Word                  -- Table 17.6
  handles : Vector (BitVec 128) 16  -- Table 14.1
  barriers : Vector Barrier 8
  timelines : Vector Timeline 4
  queues : Vector Queue 8
  kpred  : BitVec 8               -- tile predicates; bit 0 reads 1
  shapes : Vector (BitVec 64) 8   -- Table 17.1
  tileB  : Map Byte               -- tile bytes: 16,384 × register + byte; unlisted 0 (R308)
  accE   : Map Word               -- accumulator entries: 4,096 × register + entry; unlisted 0 (R311)
  locks  : Vector Nat 8           -- lock counts (R313)
  holds  : Vector Nat 8           -- read holds (R313)
  momE   : Map Word               -- moment pairs in MF32: 256 × register + element; unlisted (+0, +0) (R290)
  gran   : Map Granule            -- by granule index; unlisted empty with times 0 (R147)
  span   : Map Lease              -- scratchpad leases by 512-byte span (R106)
  spadTag : Map Nat               -- owner tags of 512-byte spans of the scratchpad, where they are not the crew's own (R205)
  tileTag : Vector Nat 8          -- owner tag of each tile register, accumulator and moment register (R205)
  accTag  : Vector Nat 8
  momTag  : Vector Nat 16
  early   : Option (Nat × CrewRegs)  -- the package cycle of the last writes of `CrewRegs`, and their values before it (R47)
deriving DecidableEq, Repr

/-- A line of a tile L1 (R104, R120). -/
structure L1Line where
  line  : Nat            -- physical address ÷ 128, or the key of a context line
  data  : List Byte      -- 128 bytes
  wts   : LTime
  rts   : LTime
  perm  : Bool
  owner : Nat            -- owner tag (R205)
  evp   : Nat
  stamp : Nat            -- order of use
deriving DecidableEq, Repr

/-- A cached translation (R203): the page, its leaf and the entries read on the way. -/
structure TlbEntry where
  root  : Nat
  va    : Nat            -- page base
  size  : Nat
  leaf  : BitVec 64
  path  : List Nat       -- physical addresses of the entries used
deriving DecidableEq, Repr

/-- A write-combining entry (R117): one thread's bits of a 64-byte block, with the time it was opened at. -/
structure WcEntry where
  thread : Nat
  target : Target        -- of the block's first byte
  attr   : PageAttr
  path   : List Nat      -- the table entries it was translated with (R203)
  bits   : Nat           -- data, 512 bits
  mask   : Nat           -- bits written
  pts    : LTime
  evp    : Nat
  scope  : Scope
  va     : Nat           -- of the store that opened the entry
  pc     : BitVec 56
  size   : Nat
  data   : Nat
  draining : Bool
deriving DecidableEq, Repr

/-- An accepted operation of the conversion engine or the mangle (R253, R334): handles are read at acceptance. -/
structure EngineOp where
  crew    : Nat
  tl      : Tl
  num     : Word
  time    : LTime
  pc      : BitVec 56
  instr   : Instr
  handles : List (BitVec 128)
  a       : Word
  b       : Word
  ctl     : Word          -- CVCTL at acceptance (R248)
  next    : Nat           -- superblocks already finished (R256)
  ptrs    : List Nat      -- the row pointers CSRD read before it was accepted (R259)
  asker   : Option Nat := none  -- the thread whose CSRD waits while the engine reads its row pointers: not yet accepted (R259)
  flags   : Nat           -- CVSTAT bits gathered so far (R249)
  held    : Option (Nat × Nat)   -- fault code and address of a held operation (R342)
  told    : Bool          -- the engine fault record has been sent
deriving DecidableEq, Repr

/-- An array operation (R313): the follow-on of a carrier operation waits for its dispatch. -/
structure ArrayOp where
  id      : Nat
  crew    : Nat
  instr   : Instr
  acfg    : Word          -- KIND and PAIR fixed at acceptance (R311)
  mctl    : Word
  shapes  : Vector (BitVec 64) 8
  follow  : Option Nat    -- the carrier operation that dispatches it
  dispatched : Bool
  result  : Option (List (Nat × Word) × Word)  -- entries to write and MSTAT bits, once it has started
deriving DecidableEq, Repr

/-- The kind of a carrier operation (R350 to R354). -/
inductive CopyKind where
  | linear
  | tile (t : Reg)
  | gather (z : Nat)
  | scatter (z : Nat)
deriving DecidableEq, Repr

/-- A segment held at a fault (R341). -/
structure HeldSeg where
  off  : Nat
  len  : Nat
  code : Nat
  addr : Nat
  told : Bool
  again : Bool             -- resumed by CPST.RES (R343)
deriving DecidableEq, Repr

/-- A carrier operation in flight (R335 to R343). -/
structure CopyOp where
  crew    : Nat
  tl      : Tl
  num     : Word
  core    : Nat           -- whose copy slot it holds
  time    : LTime
  pc      : BitVec 56
  kind    : CopyKind
  dst     : Nat
  src     : Nat
  rows    : Nat
  rowBytes : Nat
  spitch  : Int
  dpitch  : Int
  count   : Nat           -- elements of a gather or scatter
  bar     : Option Reg
  cursor  : Nat           -- bytes already segmented, or elements already taken
  blocked : Option HeldSeg  -- the first segment that failed translation or rights
  held    : List HeldSeg    -- segments held at a home fault
  failed  : Option Nat      -- FAILC of an operation that has ended early
  entries : List Nat        -- index entries taken so far (R352)
  unread  : List Nat := []  -- those of them whose home faulted: they are read again when resumed (R341)
  gone    : Map LTime       -- elements that have bound or been refused, each at its time
  filled  : Nat             -- gather elements whose granules have been set full
  refused : List Nat        -- the elements that were refused or malformed (R353)
  bound   : Nat             -- bytes subtracted from the barrier so far
  landed  : Map Byte        -- bytes landed for a tile register, before the tile step
  stepped : Bool
  follow  : Option Nat      -- its array operation (R351)
deriving DecidableEq, Repr

/-- A remap entry of a displaced crew (R198), with the follow-ons kept for it (R316). -/
structure Remap where
  crew : Nat
  follows : List ArrayOp
deriving DecidableEq, Repr

/-- A moment instruction between its issue and its retirement (R294): what it took at issue, what MLD has read, and what MST
or MCOL.H has still to write. -/
structure MomentOp where
  thread  : Nat
  instr   : Instr
  mctl    : Word                    -- MCTL as it stood at issue (R292)
  g       : Vector Word 8           -- the registers at issue, with a popped value in g6 (R226)
  popped  : Option (Reg × Slot)
  push    : Option (Reg × Nat)      -- the slot its bound g7 reserved
  handles : Vector (BitVec 128) 16
  reads   : Option (List Nat)       -- what MLD read before its step
  writes  : Option (List Nat × Word × Nat)  -- elements still to write, the count, MSTAT bits: its step has been taken
deriving DecidableEq, Repr

/-- One tile (Table 1.2). -/
structure Tile where
  mappedOut : Bool
  failed    : Bool
  halfRate  : Bool                  -- R220
  parlim    : Nat                   -- Table 7.8
  lvint     : Nat                   -- Table 21.9
  l1        : List L1Line
  tlb       : List TlbEntry
  convQ     : List EngineOp
  convTime  : LTime
  mangleQ   : List EngineOp
  mangleTime : LTime
  mgHolder  : Option Nat            -- R332
  mgBanks   : Vector (List (BitVec 32 × Word)) 8
  mgSpilln  : Nat
  mgSpfull  : Bool
  arrayQ    : List ArrayOp
  mgTag     : Vector Nat 8          -- owner tag of each mangle bank (R205)
  momentQ   : List MomentOp         -- R294, in order of issue
  copies    : Map CopyOp
  copyTime  : LTime                 -- the carrier's time (R336)
  tables    : List (Nat × Nat × Nat)  -- cached tables (R282): crew, first byte, past last byte, most recently used first
  remaps    : List Remap            -- at most 8
  wlHolder  : Option (Nat × Nat)    -- work list: launch and node (R398)
  wl        : List (Word × LTime)   -- oldest first
  wlEn      : Bool
  wlThresh  : Nat
  wlMaxmv   : Nat
deriving DecidableEq, Repr

/-- A 32-byte block of an instruction cache (R93). -/
structure IBlock where
  block : Nat             -- physical address ÷ 32
  bytes : List Byte
  stamp : Nat
deriving DecidableEq, Repr

/-- One barrel core (R13, R14, Table 24.4). -/
structure Core where
  mappedOut : Bool
  failed    : Bool
  lastKey   : Option Nat   -- the line most recently issued
  lastPc    : BitVec 56    -- its PC at that issue (R415)
  cyc  : Word
  iss  : Word
  vac  : Word
  lmem : Word
  lmsg : Word
  lvac : Word
  hist : Map Word
  now  : Nat               -- the package cycle this core takes next (`State.clock`): it has counted those before (R14, R407)
  sel  : Option (Nat × Nat)  -- the line selected in the cycle under way, and when in the cycle it executes
  late : Option (Nat × Reg)  -- the queue of a crew whose pops of this cycle its instruction waits for (R225)
  swapAt : Option Nat      -- core cycle of the last age swap (R164)
  wc   : List WcEntry      -- oldest first, at most 8
  icache : List IBlock
deriving DecidableEq, Repr

/-- A particle's copied position (R365): x, y, z as binary32. -/
abbrev Pos := Nat × Nat × Nat

/-- A pair record (Table 20.4). -/
structure PairRec where
  i : Nat
  j : Nat
  dx : Nat
  dy : Nat
  dz : Nat
  r2 : Nat
  img : Nat
deriving DecidableEq, Repr

/-- A batch that has closed and not been returned (R368, R369). -/
structure Batch where
  k     : Nat
  count : Nat
  time  : LTime
  done  : Bool
  overflow : Bool
  nobin : Bool
deriving DecidableEq, Repr

/-- An open pair stream (R368). -/
structure PairStream where
  buf  : Nat × Nat        -- byte offsets in the crew's scratchpad
  size : Nat × Nat        -- bytes of the buffers
  recs : List PairRec     -- not yet written
  next : Nat              -- next batch to write
  released : Nat          -- batches below this number may be written
  finished : Bool         -- the DONE batch has closed
  nobin : Bool
  closed : List Batch
  tl  : Tl
  num : Word
  pc  : BitVec 56
deriving DecidableEq, Repr

/-- An accepted NLBIN or NLPAIR (R364, R368). -/
inductive HamperOp where
  | bin (addr count : Nat) (tl : Tl) (num : Word) (pc : BitVec 56) (time : LTime)
  | pair (buf size : Nat × Nat) (tl : Tl) (num : Word) (pc : BitVec 56) (time : LTime)
deriving DecidableEq, Repr

/-- States of a hamper context (Table 20.1). -/
inductive HState where
  | idle | configured | binning | binned | streaming | ended
deriving DecidableEq, Repr

/-- One hamper context (R359 to R371). -/
structure HamperCtx where
  crew  : Option Nat
  desc  : List Nat         -- the eight 32-bit words of Table 20.2
  state : HState
  stale : Bool
  overflow : Bool
  badpos : Bool
  maxocc : Nat
  dropped : Nat
  binsOk : Bool            -- complete bins are held
  bins  : Map (List Nat)   -- cell to particles, ascending
  pos   : List Pos
  watches : List (Target × LTime)   -- lines (÷128) of global memory, spans (÷512) of scratchpad
  ops   : List HamperOp
  stream : Option PairStream
  opened : Bool            -- a stream was opened since configuration or restore
  lastWord : Nat           -- the last batch word returned
  lastDone : Bool          -- it carried DONE
  nextBatch : Nat
  time  : LTime
  held  : Option (Nat × Nat)
  told  : Bool
deriving DecidableEq, Repr

/-- A mender core's fault ring (R189). -/
structure Ring where
  base : Nat               -- physical address
  head : Nat               -- records taken
  tail : Nat               -- records placed
  time : LTime             -- the mender's logical time (R192)
  waiting : List (List Word)   -- records waiting at the mending net
  answers : List (Nat × Word)  -- answers of the mender's program under way: thread and payload, oldest first (R192)
deriving DecidableEq, Repr

/-- One compute-die site. -/
structure Site where
  hamper : Vector HamperCtx 8
  lastDesk : Nat
deriving DecidableEq, Repr

/-- Where an agent stands (Table 1.4). -/
inductive Place where
  | package | convoy | host
deriving DecidableEq, Repr

/-- An agent that makes an access, and the scope of the access (R119). -/
structure Writer where
  thread : Option Nat    -- a thread, or none for an engine
  crew   : Option Nat    -- its crew, or that of the engine's operation; none for an agent of no crew
  place  : Place
  scope  : Scope
  wc     : Bool := false -- by way of a write-combining entry
deriving DecidableEq, Repr

/-- Global memory, its homes and their protection. -/
structure MemSys where
  mem     : Memory                 -- houses 0x0-0x5, weight store 0x8, scratchpads 0x9 (R21)
  leases  : Map Lease              -- lines held in L2, by physical address ÷ 128 (R105)
  l2      : Map (Nat × Nat)        -- their EVP and order of use (R120)
  writers : Map (List (Writer × LTime))  -- who has stored to a line, with each agent's last wts (R119)
  replica : Map Word               -- entries in the replicas of the page tables, as the darners last wrote them (R202)
  mts     : Map LTime              -- by house (R105)
  poison  : List Nat               -- lines with uncorrectable data (R123)
  tags    : Map Nat                -- owner tag of 512-byte spans (R205)
  wsMeter : Map Nat                -- weight-store spans: 64 × M + MREG (R211)
  out     : List Nat               -- mapped-out layer windows: house × 64 + stack × 16 + layer (R209)
  keys    : Map Nat                -- installed key pairs by owner, beside owner 0's (R204)
  lastKeys : Map Nat               -- the key pair each owner had last, under which its lines in memory stand (R204)
  hostHeld : List Nat              -- lines the host holds modified or exclusive (R212)
  snooped : List Nat               -- lines with a back-invalidate snoop outstanding
  hostTime : LTime                 -- the largest time at which a host write has bound (R212, R378)
  frozen  : List Nat               -- lines the porter has frozen (R210)
  wsBank  : Nat                    -- WSREF.BANK (R107)
  wsActive : Bool
  wsWrite : Option (Nat × Nat)     -- a WSLD in progress: first byte and length (R211)
  lostLinks : List Nat             -- failed links (R191)
deriving DecidableEq, Repr

/-- A migration in progress (R210). -/
structure Migration where
  crew  : Nat
  tl    : Tl
  num   : Word
  time  : LTime
  va    : Nat
  leafAt : Nat            -- physical address of the leaf entry
  leaf  : BitVec 64
  size  : Nat
  src   : Nat
  dst   : Nat
  moved : Nat             -- lines already written
  failed : Option Nat
deriving DecidableEq, Repr

/-- An attestation entry (R218). -/
structure Attested where
  hash : Nat
  va   : Nat
  len  : Nat
  gtid : Word
  root : Nat
deriving DecidableEq, Repr

/-- Meters, keys of attestation, migration, repair (R209 to R220). -/
structure Tier where
  bytes   : Map Nat        -- BYTES of a metered region (R214)
  reads   : Map Nat        -- READS
  locked  : Bool           -- R217
  seq     : Nat            -- reports written (R216)
  predSer : Option Word    -- R217
  predHash : Nat
  attested : Map Attested
  events  : List (Nat × Word × Word)  -- hot-remove events by house (Table 9.3)
  migrations : List Migration
  clock   : ClockStep
  regs    : Map Word       -- RW fields of system-space registers without a behaviour of their own (R25)
deriving DecidableEq, Repr

/-- States of an instance (Table 21.6); `pending` is the unlisted default, `ready` is computed. -/
inductive IState where
  | pending | selected | bound | ended
deriving DecidableEq, Repr

/-- One instance. -/
structure Inst where
  state : IState
  site  : Nat
  tile  : Nat
  prio  : Nat
  et    : LTime
  crew  : Option Nat     -- number reserved for a co-resident launch (R384)
deriving DecidableEq, Repr

/-- A node descriptor (Table 21.2). -/
structure Node where
  entry : Nat
  inst  : Nat
  decl  : Decl
  mbox  : Nat
  handles : Nat
  prio  : Nat            -- priority of its unselected instances (R383)
  insts : Map Inst
deriving DecidableEq, Repr

/-- An edge (Table 21.3). -/
structure Edge where
  src : Nat
  dst : Nat
  one : Bool
deriving DecidableEq, Repr

/-- An accepted launch (R375, R388 to R392). -/
structure Launch where
  record : Target          -- where RESULT goes
  recordVa : Nat
  task   : Task
  prio   : Nat
  cores  : Bool
  reserved : Bool          -- a co-resident launch whose places are taken (R386)
  toSetUp : List (Nat × Nat × Nat × Nat) := []  -- and whose crews are still to be set up: node, instance, tile, crew number (R384)
  priv   : Bool
  depth  : Nat
  limit  : Nat
  lt     : LTime
  nodes  : List Node
  edges  : List Edge
  parent : Option Nat      -- the launcher's launch
  entry  : Option Nat      -- pending-launch entry
  crew   : Nat             -- the launching crew
  sent   : Nat             -- S(L)
  recvd  : Nat             -- R(L)
  et     : LTime
  terminated : Bool
  quiet  : Option (Nat × Nat)   -- sums of the last sweep that found it inactive (R391)
  ended  : Bool                 -- it has ended and its pending entry is still held
deriving DecidableEq, Repr

/-- A pending-launch entry (R388). -/
structure PendEntry where
  launch : Nat
  crew   : Nat
  ended  : Bool
  et     : LTime
  result : Word
  joined : Bool
  crewGone : Bool
deriving DecidableEq, Repr

/-- A host launch queue (Table 21.5). -/
structure HostQueue where
  base  : Nat
  prio  : Nat
  log2n : Nat
  en    : Bool
  err   : Nat
  tail  : BitVec 32
  head  : BitVec 32
  time  : LTime            -- binding time of the last HQTAIL write (R378)
deriving DecidableEq, Repr

/-- A RESULT word of a launch that has ended or was refused, still to be stored: it is translated when its home answers (R392). -/
structure ResultWord where
  task  : Task
  priv  : Bool
  host  : Bool            -- a host's record: `at_` is a physical address
  at_   : Nat             -- of the record
  value : Nat
  time  : LTime
deriving DecidableEq, Repr

/-- Launches, queues and the pool. -/
structure Work where
  launches : Map Launch
  nextLaunch : Nat
  pend   : Map PendEntry
  hqs    : Map HostQueue
  hqLast : Nat             -- the queue served last, for round-robin service (R378)
  results : List ResultWord      -- RESULT words still to be stored, in order (R392)
deriving DecidableEq, Repr

/-- An event offered to the trace unit, or a record awaiting writing (Table 24.1). -/
structure TraceEv where
  kind : Nat
  sub  : Nat
  code : Nat
  crew : Nat
  tidx : Nat
  lt   : LTime
  gtid : Word
  payload : Word
  core : Option Nat := none  -- the core of the event's line: the records of one cycle stand in core order (R404)
deriving DecidableEq, Repr

/-- A breakpoint slot (R408). -/
structure Bp where
  gtid : Word
  pc   : BitVec 56
  en   : Bool
  stop : Bool
deriving DecidableEq, Repr

/-- A change that a TRIGSET has made, which applies from the following cycle (R416). -/
inductive TrigChange where
  | buf (base size : Nat)
  | start (v : Word)
  | stop (v : Word)
  | bp (slot : Fin 8) (b : Bp)
  | mask (v : BitVec 8)
deriving DecidableEq, Repr

/-- Trace, triggers, breakpoints and the test access port. -/
structure Debug where
  on      : Bool
  start   : Word           -- condition words (Table 24.3)
  stop    : Word
  mask    : BitVec 8
  bps     : Vector Bp 8
  bufv    : Bool
  base    : Nat
  size    : Nat
  next    : BitVec 32
  drop    : Nat
  time    : LTime          -- the trace unit's time
  offered : List TraceEv   -- events of the current cycle
  hits    : List Nat       -- breakpoint slots that matched in the current cycle
  awaiting : List TraceEv
  later   : List TrigChange  -- changes that apply from the following cycle, oldest first (R416)
  frozen  : Bool           -- R410
  link    : List Instr     -- host and fabric accesses held at the links while the clocks stand (R410)
  tapIr   : BitVec 8
  tapDr   : BitVec 128
  dbgOpen : Bool           -- fuse DBGOPEN (R410)
deriving DecidableEq, Repr

/-- The state of the package. -/
structure State where
  agenda  : List Instr     -- the model's own: what the outside world and the part's timing do next (notes/assumptions/2.md)
  issuer  : Option Nat     -- the line a core has selected and whose instruction issues in this step (R14)
  draws   : Nat            -- the model's own: free values drawn so far (notes/assumptions/3.md)
  tick    : Nat            -- the model's own: a running stamp that orders issues and check-ins
  clock   : Nat            -- the cycle of the package: under way, or the next (R14, R406; notes/assumptions/65.md)
  mem     : MemSys
  threads : Map Thread
  crews   : Map Crew
  tiles   : Map Tile
  cores   : Map Core
  sites   : Map Site
  rings   : Map Ring
  tier    : Tier
  work    : Work
  dbg     : Debug
deriving DecidableEq, Repr

/-- Why a step stops with a fault. No rule of the spec stops the machine: each exception it names is a next state.
These are raised only where the state holds no object for the step to act on (safe). -/
inductive Fault where
  /-- Raised by the issue of an instruction whose selected line is not held by the state. Safe: no run from reset reaches it. -/
  | noLine (thread : Nat)
deriving DecidableEq, Repr

/-- Why a step is refused. -/
inductive Refusal where
  /-- No meaning yet. Raised by `exec`'s refused arms only. Safe. -/
  | notModelled (mnemonic : String)
  /-- An instruction with no issuing thread: `exec` was asked to run it with no line selected. Raised by the issue
  operation. Safe: `step` selects a line first. -/
  | noIssuer
deriving DecidableEq, Repr

/-- A loop level of zeros (Table 7.3). -/
def LoopLevel.zero : LoopLevel := { count := 0, blen := 0, bstart := 0 }

/-- A line of reset values (Tables 7.1 to 7.4): checked out in memory, nothing owed to it. -/
def Thread.reset : Thread :=
  { g := Vector.replicate 8 0, pc := 0, st := .ready, privl := false, stepb := false, flags := 1, efmt := 0,
    lact0 := false, lact1 := false, lgrant := 0, wobj := 0, wkind := 0, loop0 := LoopLevel.zero,
    loop1 := LoopLevel.zero, gtid := 0, pts := 0, popq := 0, popv := false, pushq := 0, pushv := false, link := 0,
    crewn := 0, tidx := 0, owner := 0, lseq := 0, prio := 0, acq := 0, pend := none, unbound := [], landing := [], longop := none,
    deferred := [], wcTime := 0, trapq := none, finish := none, await := .nothing, target := 0, drain := none,
    loc := .memory, pin := false, age := 0, issueStamp := 0, entryStamp := 0, eligible := 0, fetchStall := none,
    restoring := false, claim := none, inbox := [], token := false, wt := 0, yieldAt := 0 }

/-- A queue at bind (R224). -/
def Queue.reset : Queue :=
  { slots := Vector.replicate 16 { val := 0, filled := false, fault := false, ldq := false, fmt := 0 },
    head := 0, count := 0, limit := 16, reserved := 0, removed := 0 }

/-- A timeline at bind (R145). -/
def Timeline.reset : Timeline :=
  { issued := 0, done := 0, dt := 0, failn := 0, failc := 0, more := 0, finished := [] }

/-- A barrier at bind (R137): EXPECTED is the declared thread count. -/
def Barrier.reset (threads : Nat) : Barrier :=
  { expected := threads, arrived := 0, pending := 0, phase := 0, ct := 0, nt := 0 }

/-- A granule at bind (R147). -/
def Granule.reset : Granule := { full := false, ft := 0, et := 0 }

/-- A declaration that asks for nothing but one thread (Table 2.10). -/
def Decl.none : Decl :=
  { threads := 1, scratch := 0, tiles := 0, acc := 0, moments := 0, lanes := 0, queues := 0, hamper := false, house := 0,
    meters := 0 }

/-- A task of zeros. -/
def Task.zero : Task := { gtid := 0, owner := 0, ctxArea := 0, saveArea := 0, xlroot := 0 }

/-- A crew at its bind, for a tile, a task and a declaration: every register at its reset value (R137, R145, R147, R224,
R290, R308, R311; Tables 8.3, 13.6, 13.7, 14.1, 16.1, 16.2, 17.2, 17.6, 18.2). -/
def Crew.reset (tile : Nat) (task : Task) (decl : Decl) : Crew :=
  { tile := tile, task := task, launch := 0, node := 0, inst := 0, decl := decl, priv := false, prio := 0, bt := 0,
    et := 0, terminated := false, displaced := false, saving := false, owed := 0, saves := 0, saveTime := 0, lastSaved := Option.none, dirty := [],
    mgKept := Option.none, mgOps := [], watchArmed := true,
    mailbox := List.replicate 32 0, tvec := 0, tarea := 0, mctl := 0, mstat := 0, cvctl := 0, cvstat := 0, acfg := 0,
    win := Vector.replicate 4 0, mgspill := 0, handles := Vector.replicate 16 0,
    barriers := Vector.replicate 8 (Barrier.reset decl.threads), timelines := Vector.replicate 4 Timeline.reset,
    queues := Vector.replicate 8 Queue.reset, kpred := 1, shapes := Vector.replicate 8 0, tileB := [], accE := [],
    locks := Vector.replicate 8 0, holds := Vector.replicate 8 0, momE := [], gran := [], span := [],
    spadTag := [], tileTag := Vector.replicate 8 task.owner, accTag := Vector.replicate 8 task.owner,
    momTag := Vector.replicate 16 task.owner, early := Option.none }

/-- A lease of zeros. -/
def Lease.zero : Lease := { wts := 0, rts := 0 }

/-- A tile at device reset (Tables 7.8 and 21.9). -/
def Tile.reset : Tile :=
  { mappedOut := false, failed := false, halfRate := false, parlim := 32, lvint := 65536, l1 := [], tlb := [],
    convQ := [], convTime := 0, mangleQ := [], mangleTime := 0, mgHolder := none, mgBanks := Vector.replicate 8 [],
    mgSpilln := 0, mgSpfull := false, arrayQ := [], mgTag := Vector.replicate 8 0, momentQ := [], copies := [], copyTime := 0, tables := [],
    remaps := [], wlHolder := none, wl := [], wlEn := false, wlThresh := 0, wlMaxmv := 0 }

/-- A core at device reset (Table 24.4). -/
def Core.reset : Core :=
  { mappedOut := false, failed := false, lastKey := none, lastPc := 0, cyc := 0, iss := 0, vac := 0, lmem := 0,
    lmsg := 0, lvac := 0, hist := [], now := 0, sel := none, late := none, swapAt := none, wc := [], icache := [] }

/-- A hamper context that no crew holds (Table 20.6). -/
def HamperCtx.reset : HamperCtx :=
  { crew := none, desc := [], state := .idle, stale := false, overflow := false, badpos := false, maxocc := 0,
    dropped := 0, binsOk := false, bins := [], pos := [], watches := [], ops := [], stream := none, opened := false,
    lastWord := 0, lastDone := false, nextBatch := 0, time := 0, held := none, told := false }

/-- A die site at device reset. -/
def Site.reset : Site := { hamper := Vector.replicate 8 HamperCtx.reset, lastDesk := 0 }

/-- A fault ring at device reset. -/
def Ring.reset : Ring := { base := 0, head := 0, tail := 0, time := 0, waiting := [], answers := [] }

/-- A host launch queue at device reset (Table 21.5). -/
def HostQueue.reset : HostQueue :=
  { base := 0, prio := 15, log2n := 0, en := false, err := 0, tail := 0, head := 0, time := 0 }

/-- A breakpoint slot at device reset (R408). -/
def Bp.reset : Bp := { gtid := 0, pc := 0, en := false, stop := false }

/-- Memory and homes at device reset: WSREF reads BANK 0, ACTIVE 1 (Table 5.2); only the device key is present (R204). -/
def MemSys.reset : MemSys :=
  { mem := [], leases := [], l2 := [], writers := [], replica := [], mts := [], poison := [], tags := [], wsMeter := [], out := [], keys := [], lastKeys := [],
    hostHeld := [], snooped := [], hostTime := 0, frozen := [], wsBank := 0, wsActive := true, wsWrite := none, lostLinks := [] }

/-- Tiers and meters of a new device. -/
def Tier.reset : Tier :=
  { bytes := [], reads := [], locked := false, seq := 0, predSer := none, predHash := 0, attested := [], events := [],
    migrations := [], clock := .ghz27, regs := [] }

/-- Launches at device reset. -/
def Work.reset : Work := { launches := [], nextLaunch := 0, pend := [], hqs := [], hqLast := 63, results := [] }

/-- Debug state at device reset (R406, R408, Table 24.8). -/
def Debug.reset : Debug :=
  { on := false, start := 0, stop := 0, mask := 0, bps := Vector.replicate 8 Bp.reset, bufv := false, base := 0,
    size := 0, next := 0, drop := 0, time := 0, offered := [], hits := [], awaiting := [], later := [], frozen := false, link := [],
    tapIr := 0x02#8, tapDr := 0, dbgOpen := false }

/-- The machine right after device reset: no crew is bound, memory lists nothing, every register at its stated value. -/
def State.reset : State :=
  { agenda := [], issuer := none, draws := 0, tick := 0, clock := 0, mem := MemSys.reset, threads := [], crews := [], tiles := [],
    cores := [], sites := [], rings := [], tier := Tier.reset, work := Work.reset, dbg := Debug.reset }

end Sys2Proof.Machine
end

