-- ==== Sys2Proof/Machine/Lines.lean ====
section
/-! DEFINITION. Reaching the objects of the state by number, the words of a context line (Tables 7.1 to 7.4), registers
and flags, the places of lines, and making a waiting line ready (R159, R166). -/

namespace Sys2Proof.Machine

/-! ### Objects by number -/

def State.thread? (s : State) (k : Nat) : Option Thread := Map.get? s.threads k
def State.setThread (s : State) (k : Nat) (t : Thread) : State := { s with threads := Map.put s.threads k t }
/-- Change a line that exists. -/
def State.modThread (s : State) (k : Nat) (f : Thread → Thread) : State :=
  match s.thread? k with
  | some t => s.setThread k (f t)
  | none => s

def State.crew? (s : State) (c : Nat) : Option Crew := Map.get? s.crews c
def State.setCrew (s : State) (c : Nat) (x : Crew) : State := { s with crews := Map.put s.crews c x }
/-- Change a crew that is bound. -/
def State.modCrew (s : State) (c : Nat) (f : Crew → Crew) : State :=
  match s.crew? c with
  | some x => s.setCrew c (f x)
  | none => s

def State.tile (s : State) (n : Nat) : Tile := Map.getD s.tiles n Tile.reset
def State.modTile (s : State) (n : Nat) (f : Tile → Tile) : State :=
  { s with tiles := Map.modify s.tiles n Tile.reset f }

def State.core (s : State) (n : Nat) : Core := Map.getD s.cores n Core.reset
def State.modCore (s : State) (n : Nat) (f : Core → Core) : State :=
  { s with cores := Map.modify s.cores n Core.reset f }

def State.site (s : State) (n : Nat) : Site := Map.getD s.sites n Site.reset
def State.modSite (s : State) (n : Nat) (f : Site → Site) : State :=
  { s with sites := Map.modify s.sites n Site.reset f }

def State.ring (s : State) (n : Nat) : Ring := Map.getD s.rings n Ring.reset
def State.modRing (s : State) (n : Nat) (f : Ring → Ring) : State :=
  { s with rings := Map.modify s.rings n Ring.reset f }

/-- The next running stamp. -/
def State.stamp (s : State) : Nat × State := (s.tick, { s with tick := s.tick + 1 })

/-- A fresh open choice (notes/assumptions/3.md). -/
def State.choose (s : State) : Bool × State := (Config.choice s.draws, { s with draws := s.draws + 1 })

/-- A fresh free word (notes/assumptions/3.md). -/
def State.freeWord (s : State) : Word × State := (Config.freeWord s.draws, { s with draws := s.draws + 1 })

def threadKey (crew tidx : Nat) : Nat := 256 * crew + tidx
def crewOf (k : Nat) : Nat := k / 256
def tidxOf (k : Nat) : Nat := k % 256

/-- The lines of a crew, by rising index. -/
def State.linesOf (s : State) (crew : Nat) : List (Nat × Thread) := s.threads.filter fun e => crewOf e.1 == crew

/-- The mender ring of a tile's crews (R189): mender core (tile mod 4) of the die. -/
def menderOf (tile : Nat) : Nat := 4 * (tile / 24) + tile % 24 % 4

/-! ### Context-line words -/

def LState.code : LState → Nat
  | .ready => 0 | .waiting => 1 | .parked => 2 | .faulted => 3 | .trapped => 4 | .debugStopped => 5 | .exited => 6

def LState.ofCode : Nat → LState
  | 0 => .ready | 1 => .waiting | 2 => .parked | 3 => .faulted | 4 => .trapped | 5 => .debugStopped | _ => .exited

/-- Bits 63:56 of line word 0x68: the queue bindings. -/
def Thread.qb (t : Thread) : Nat := t.popq.val + 8 * b2n t.popv + 16 * t.pushq.val + 128 * b2n t.pushv

def Thread.setQb (t : Thread) (v : Nat) : Thread :=
  { t with popq := ⟨v % 8, by omega⟩, popv := bitAt v 3, pushq := ⟨v / 16 % 8, by omega⟩, pushv := bitAt v 7 }

/-- Bits 31:0 of line word 0x48 (Table 7.2). -/
def Thread.predWord (t : Thread) : Nat :=
  t.flags.toNat / 2 * 2 + 1 + 2 ^ 8 * t.efmt.toNat + 2 ^ 16 * b2n t.lact0 + 2 ^ 17 * b2n t.lact1 + 2 ^ 24 * t.lgrant.toNat

def LoopLevel.word (l : LoopLevel) : Nat := l.count.toNat + 2 ^ 32 * l.blen.toNat + 2 ^ 48 * l.bstart.toNat

def LoopLevel.ofWord (v : Nat) : LoopLevel :=
  { count := BitVec.ofNat 32 v, blen := BitVec.ofNat 16 (v / 2 ^ 32), bstart := BitVec.ofNat 16 (v / 2 ^ 48) }

/-- Word 0x78 (Table 7.4). -/
def Thread.ident (t : Thread) : Nat :=
  t.crewn.toNat + 2 ^ 20 * t.tidx.toNat + 2 ^ 28 * t.owner.toNat + 2 ^ 44 * t.lseq.toNat + 2 ^ 60 * t.prio.toNat

/-- Word `w` of a context line (Table 7.1). -/
def Thread.word (t : Thread) (w : Fin 16) : Word :=
  if h : w.val < 8 then t.g[w.val]
  else BitVec.ofNat 64 <|
    match w.val with
    | 8 => t.pc.toNat + 2 ^ 56 * t.st.code + 2 ^ 59 * b2n t.privl + 2 ^ 60 * b2n t.stepb
    | 9 => t.predWord + 2 ^ 32 * t.wobj.toNat + 2 ^ 60 * t.wkind.toNat
    | 10 => t.loop0.word
    | 11 => t.loop1.word
    | 12 => t.gtid.toNat
    | 13 => t.pts.toNat + 2 ^ 56 * t.qb
    | 14 => t.link.toNat
    | _ => t.ident

/-- A ready line names no wait. -/
def Thread.clearWait (t : Thread) : Thread := { t with wkind := 0, wobj := 0, await := .nothing, drain := none, claim := none, gone := none }

/-- The PC word as CTXWR writes it: PC bits 55:2, PRIVL, STEP; STATE only to 0 or 2 (R180). -/
def Thread.mergePc (t : Thread) (v : Nat) : Thread :=
  let t := { t with pc := BitVec.ofNat 56 (v / 4 * 4), privl := bitAt v 59, stepb := bitAt v 60 }
  match v / 2 ^ 56 % 8 with
  | 0 => { t.clearWait with st := .ready, trapq := none }
  | 2 => { t.clearWait with st := .parked, trapq := none }
  | _ => t

/-- Write word `w` of a line field by field under the Access column of Tables 7.2 to 7.4 (R180). -/
def Thread.merge (t : Thread) (w : Fin 16) (v : Word) : Thread :=
  if h : w.val < 8 then { t with g := t.g.set w.val v }
  else
    match w.val with
    | 8 => t.mergePc v.toNat
    | 9 => { t with flags := BitVec.ofNat 8 (v.toNat / 2 * 2 + 1), efmt := BitVec.ofNat 8 (v.toNat / 2 ^ 8),
                    lact0 := bitAt v.toNat 16, lact1 := bitAt v.toNat 17 }
    | 10 => { t with loop0 := LoopLevel.ofWord v.toNat }
    | 11 => { t with loop1 := LoopLevel.ofWord v.toNat }
    | 13 => { t.setQb (v.toNat / 2 ^ 56) with pts := tmax t.pts (BitVec.ofNat 56 v.toNat) }
    | 14 => { t with link := BitVec.ofNat 56 v.toNat }
    | 15 => { t with prio := BitVec.ofNat 4 (v.toNat / 2 ^ 60) }
    | _ => t

/-! ### Registers and flags -/

def Thread.reg (t : Thread) (r : Reg) : Word := t.g[r]
def Thread.setReg (t : Thread) (r : Reg) (v : Word) : Thread := { t with g := t.g.set r v }

/-- Flag `f`: f0 reads 1 (Table 2.5). -/
def Thread.flag (t : Thread) (f : Reg) : Bool := f == 0 || t.flags.getLsbD f.val

/-- Write flag `f`; a write to f0 is discarded. -/
def Thread.setFlag (t : Thread) (f : Reg) (v : Bool) : Thread :=
  if f = 0 then t else { t with flags := BitVec.ofNat 8 (putField t.flags.toNat f.val 1 (b2n v)) }

/-- Tile predicate `k`: k0 reads true. -/
def Crew.tilePred (c : Crew) (k : Reg) : Bool := k == 0 || c.kpred.getLsbD k.val

/-- The registers of a crew that are seen a cycle after they are written. -/
def Crew.regs (c : Crew) : CrewRegs :=
  { tvec := c.tvec, tarea := c.tarea, mctl := c.mctl, mstat := c.mstat, cvctl := c.cvctl, cvstat := c.cvstat, acfg := c.acfg,
    mgspill := c.mgspill, win := c.win, handles := c.handles, kpred := c.kpred, shapes := c.shapes, tileB := c.tileB }

/-- The crew with these registers. -/
def Crew.withRegs (c : Crew) (r : CrewRegs) : Crew :=
  { c with tvec := r.tvec, tarea := r.tarea, mctl := r.mctl, mstat := r.mstat, cvctl := r.cvctl, cvstat := r.cvstat,
           acfg := r.acfg, mgspill := r.mgspill, win := r.win, handles := r.handles, kpred := r.kpred, shapes := r.shapes,
           tileB := r.tileB }

/-- The crew as an instruction issued in package cycle `now` sees it: not yet what that same cycle has written (R47, R184). -/
def Crew.seen (c : Crew) (now : Nat) : Crew :=
  match c.early with
  | some (n, r) => if n = now then c.withRegs r else c
  | none => c

/-- Before an instruction of cycle `now` writes one of these registers: their values are kept for the rest of the cycle. -/
def Crew.keep (c : Crew) (now : Nat) : Crew :=
  match c.early with
  | some (n, _) => if n = now then c else { c with early := some (now, c.regs) }
  | none => { c with early := some (now, c.regs) }

/-- A crew as the instructions of the cycle under way see it. -/
def State.crewSeen (s : State) (n : Nat) : Option Crew := (s.crew? n).map (·.seen s.clock)

/-- An instruction writes registers of its crew that the rest of its cycle does not see yet (R47). -/
def State.writeCrew (s : State) (c : Nat) (f : Crew → Crew) : State := s.modCrew c fun x => f (x.keep s.clock)

/-- Write tile predicate `k` (R47); a write to k0 is discarded. -/
def Crew.setTilePred (c : Crew) (k : Reg) (v : Bool) : Crew :=
  if k = 0 then c else { c with kpred := BitVec.ofNat 8 (putField c.kpred.toNat k.val 1 (b2n v)) }

/-- Raise a line's logical time (R108: it never decreases). -/
def Thread.raise (t : Thread) (x : LTime) : Thread := { t with pts := tmax t.pts x }

/-- An acquire: the acquire time becomes pts ("Relaxed accesses"). -/
def Thread.acquire (t : Thread) (x : LTime) : Thread :=
  let p := tmax t.pts x
  { t with pts := p, acq := p }

/-! ### Places of lines (R161) -/

/-- The core whose parlour holds the line. -/
def Thread.resident (t : Thread) : Option Nat :=
  match t.loc with
  | .parlour c => some c
  | _ => none

/-- The core whose parlour entry the line holds, a check-in that has begun among them. -/
def Thread.entryCore (t : Thread) : Option Nat :=
  match t.loc with
  | .parlour c => some c
  | .arriving c _ => some c
  | _ => none

/-- The tile of a line's crew. -/
def State.homeOf (s : State) (t : Thread) : Nat := (s.crew? t.crewn.toNat).elim 0 (·.tile)

/-- The tile a line's accesses leave from: that of the core it runs on (R16). -/
def State.tileOfLine (s : State) (t : Thread) : Nat :=
  match t.entryCore with
  | some c => c / 8
  | none => (s.crew? t.crewn.toNat).elim 0 (·.tile)

/-- A line leaves its parlour entry: LSEQ advances, the pin is lost, the age counter starts (R157, R164, R179). A grant it
waits for stays in the wait tag (R167). -/
def Thread.checkOut (t : Thread) (dest : Loc) : Thread :=
  { t with loc := dest, pin := false, lseq := t.lseq + 1, age := 0, fetchStall := none }

/-! ### Waking -/

/-- The awaited object allows progress: a waiting line becomes ready (R159), and a QDRAIN keeps its mark (R236). A line whose
trap entry waits, or whose instruction has still to complete, stays waiting for it. -/
def Thread.wake (t : Thread) : Thread :=
  if t.st = .waiting ∧ t.trapq = none ∧ t.finish = none then { t.clearWait with st := .ready, drain := t.drain, claim := t.claim, gone := t.gone } else t

/-- Make ready every waiting line that satisfies `p`. -/
def State.wakeWhere (s : State) (p : Thread → Bool) : State :=
  { s with threads := s.threads.map fun e => if p e.2 then (e.1, e.2.wake) else e }

/-- Wake the lines of a crew that wait with kind `kind` and an object satisfying `p`. -/
def State.wakeKind (s : State) (crew kind : Nat) (p : Nat → Bool) : State :=
  s.wakeWhere fun t => t.st == .waiting && t.crewn.toNat == crew && t.wkind.toNat == kind && p t.wobj.toNat

/-- Wake the lines that wait with kind 0 for `a`. -/
def State.wakeAwait (s : State) (a : Await) : State :=
  s.wakeWhere fun t => t.st == .waiting && t.await == a

/-- Put a line to wait: kind and object in its tag, the PC unchanged (R159, R160). -/
def Thread.toWait (t : Thread) (kind obj : Nat) (a : Await) : Thread :=
  { t with st := .waiting, wkind := BitVec.ofNat 4 kind, wobj := BitVec.ofNat 28 obj, await := a }

end Sys2Proof.Machine
end

