-- ==== Sys2Proof/Machine/Home.lean ====
section
/-! DEFINITION. The homes of data: leases in logical time (R104 to R111), owner tags (R205), meters (R214), and the two
accesses every agent makes, a load and a store at a target, each at a given logical time. -/

namespace Sys2Proof.Machine

/-- First physical address of the weight store (Table 1.5). -/
def wsBase : Nat := 0x8 * 2 ^ 48
/-- Physical address of a scratchpad byte (Table 1.5). -/
def spadPa (crew off : Nat) : Nat := 0x9 * 2 ^ 48 + crew * 2 ^ 20 + off
/-- The key under which the times of a context line are kept, above every line of memory. -/
def ctxLineKey (thread : Nat) : Nat := 2 ^ 45 + thread

/-- House code of a physical address (R21). -/
def houseOf (pa : Nat) : Nat := pa / 2 ^ 48 % 16

/-! ### Legal addresses (R22, R209) -/

/-- A populated address of houses 0x0 to 0x5, mapped-out windows apart (Table 1.5). -/
def physPopulated (pa : Nat) : Bool :=
  let h := pa / 2 ^ 48
  let o := pa % 2 ^ 48
  if h ≤ 3 then decide (o < 3 * 2 ^ 36)
  else if h ≤ 5 then decide (o < 20 * 2 ^ 36 ∧ o % 2 ^ 36 < 0xC00000000)
  else false

/-- The layer window of a near address: house × 64 + stack × 16 + layer. -/
def layerWindow (pa : Nat) : Nat := houseOf pa * 64 + pa / 2 ^ 32 % 64

/-- The window of a near address has been mapped out (R209). -/
def State.windowOut (s : State) (pa : Nat) : Bool := houseOf pa ≤ 3 && s.mem.out.contains (layerWindow pa)

/-- No route is left to the house of an address (R191). -/
def State.noRoute (s : State) (pa : Nat) : Bool :=
  !s.mem.lostLinks.isEmpty && Config.noRoute s.mem.lostLinks (houseOf pa)

/-- An access to this address raises MEMGONE (R22). -/
def State.memGone (s : State) (pa : Nat) : Bool := !physPopulated pa || s.windowOut pa || s.noRoute pa

/-- The owner's key is installed (R204): owner 0's always is. -/
def State.keyPresent (s : State) (owner : Nat) : Bool := owner == 0 || (Map.get? s.mem.keys owner).isSome

/-- Fault codes of Table 8.5 found at a home. -/
def codeMemgone : Nat := 0x22
def codePoison : Nat := 0x23
def codeKeymiss : Nat := 0x24

/-- What the home answers to an access: 0, or MEMGONE, KEYMISS or POISON (R123, R204). -/
def State.homeFault (s : State) (tgt : Target) (owner : Nat) : Nat :=
  match tgt with
  | .phys pa =>
    if s.memGone pa then codeMemgone
    else if !s.keyPresent owner then codeKeymiss
    else if s.mem.poison.contains (pa / 128) then codePoison
    else 0
  | .ws off =>
    if !s.keyPresent owner then codeKeymiss
    else if s.mem.poison.contains ((wsBase + off) / 128) then codePoison
    else 0
  | .spad c off => if s.mem.poison.contains (spadPa c off / 128) then codePoison else 0
  | .ctx _ _ => 0

/-- The access cannot bind yet: its line is frozen by the porter (R210) or held by the host (R212). -/
def State.homeBusy (s : State) (tgt : Target) : Bool :=
  match tgt with
  | .phys pa => s.mem.frozen.contains (pa / 128) || s.mem.hostHeld.contains (pa / 128)
  | _ => false

/-! ### Owner tags (R205) -/

/-- A byte as an agent of `owner` reads it: a span tagged by another owner reads as zeros while it is held on a die, and
as a free value when it is fetched from DRAM under the wrong key (R204, R205); an untagged span reads as it stands
(notes/assumptions/6.md). -/
def State.ownedByte (s : State) (owner pa : Nat) : Byte :=
  match Map.get? s.mem.tags (pa / 512) with
  | none => Memory.read s.mem.mem pa
  | some t =>
    if t = owner then Memory.read s.mem.mem pa
    else if pa < wsBase ∧ Map.get? s.mem.leases (pa / 128) = none then
      Config.garbled owner t pa (Memory.read s.mem.mem pa)
    else 0

/-- `n` bytes as an agent of `owner` reads them. -/
def State.ownedBytes (s : State) (owner pa n : Nat) : List Byte :=
  (List.range n).map fun i => s.ownedByte owner (pa + i)

/-- Remove the bytes of [a, a + n): they read as zero. -/
def clearRange (m : Memory) (a n : Nat) : Memory := m.filter fun c => !(decide (a ≤ c.1) && decide (c.1 < a + n))

/-- A write by `owner` reaches a span: one of another owner is cleared and retagged (R205). -/
def MemSys.retag (m : MemSys) (owner span : Nat) : MemSys :=
  match Map.get? m.tags span with
  | some t =>
    if t = owner then m
    else { m with mem := clearRange m.mem (span * 512) 512, tags := Map.put m.tags span owner }
  | none => { m with tags := Map.put m.tags span owner }

/-! ### Leases -/

/-- The times of a line at its home; a line fetched from DRAM takes the house's mts (R105). -/
def State.lineLease (s : State) (line : Nat) : Lease :=
  match Map.get? s.mem.leases line with
  | some l => l
  | none => let m := Map.getD s.mem.mts (houseOf (line * 128)) 0; { wts := m, rts := m }

def State.setLease (s : State) (line : Nat) (l : Lease) : State :=
  { s with mem := { s.mem with leases := Map.put s.mem.leases line l } }

/-! ### L2 (R9, R105, R120) -/

/-- Lines the L2 slices of a house hold: 64 MiB near, 32 MiB far (Table 1.1). -/
def l2Lines (house : Nat) : Nat := if house ≤ 3 then 2 ^ 19 else 2 ^ 18

/-- A line is evicted from L2 to DRAM: its house's mts covers its rts (R105). -/
def State.evictL2 (s : State) (line : Nat) : State :=
  match Map.get? s.mem.leases line with
  | some l =>
    let h := houseOf (line * 128)
    { s with mem := { s.mem with leases := Map.del s.mem.leases line, l2 := Map.del s.mem.l2 line,
                                 mts := Map.put s.mem.mts h (tmax (Map.getD s.mem.mts h 0) l.rts) } }
  | none => s

/-- The line a full set of lines gives up: the highest EVP, and the least recently used among those (R120). -/
def l2victim : Map (Nat × Nat) → Option Nat
  | [] => none
  | (k, e, u) :: ls =>
    match l2victim ls with
    | none => some k
    | some v =>
      let x := Map.getD ls v (0, 0)
      if x.1 < e ∨ (x.1 = e ∧ u < x.2) then some k else some v

/-- Use a line in L2: a hit raises its standing, a miss in a house whose slices are full evicts a line
(notes/assumptions/61.md). Lines of context space are at home in the inn. -/
def State.touchL2 (s : State) (line evp : Nat) : State :=
  if 2 ^ 45 ≤ line then s
  else
    let (st, s) := s.stamp
    let keep (s : State) (e : Nat) : State := { s with mem := { s.mem with l2 := Map.put s.mem.l2 line (e, st) } }
    match Map.get? s.mem.l2 line with
    | some x => keep s (min x.1 evp)
    | none =>
      let h := houseOf (line * 128)
      let held := s.mem.l2.filter fun e => houseOf (e.1 * 128) == h
      if held.length < l2Lines h then keep s evp
      else keep ((l2victim held).elim s s.evictL2) evp

/-- A line stands in L2 with these times, used by an access of this EVP. -/
def State.keepLine (s : State) (line evp : Nat) (l : Lease) : State := (s.touchL2 line evp).setLease line l

/-- Record a read at the home. A line of another owner that is not held in L2 is decrypted under the wrong key and not
kept there: its house's mts covers the read (R105, R204, notes/assumptions/6.md). -/
def State.recordRead (s : State) (owner line evp : Nat) (l : Lease) : State :=
  match Map.get? s.mem.tags (line / 4), Map.get? s.mem.leases line with
  | some t, none =>
    if t = owner then s.keepLine line evp l
    else
      let h := houseOf (line * 128)
      { s with mem := { s.mem with mts := Map.put s.mem.mts h (tmax (Map.getD s.mem.mts h 0) l.rts) } }
  | _, _ => s.keepLine line evp l

/-! ### Who stores (R119) -/

/-- An agent of the package that is no crew, at device scope. -/
def Writer.package : Writer := { thread := none, crew := none, place := .package, scope := .device }

/-- How a store reaches its home: the tile L1s whose copies it brings up to date (R111, R119), who makes it, and its EVP. -/
structure Via where
  tiles : List Nat := []
  who   : Writer := Writer.package
  evp   : Nat := 3
deriving DecidableEq, Repr

/-- Note a store to a line, with the time at which it has bound. -/
def MemSys.noteWriter (m : MemSys) (line : Nat) (w : Writer) (t : LTime) : MemSys :=
  { m with writers := Map.modify m.writers line [] fun ws => (w, t) :: ws.filter fun x => x.1 ≠ w }

/-! ### Scratchpad spans (R106, R205) -/

/-- The times of a scratchpad span (R106). -/
def Crew.spanLease (c : Crew) (off : Nat) : Lease := Map.getD c.span (off / 512) Lease.zero

def Crew.setSpan (c : Crew) (off : Nat) (l : Lease) : Crew :=
  { c with span := Map.set c.span (off / 512) Lease.zero l }

/-- The owner tag of a scratchpad span (R205): the crew's own unless another owner has written the span. -/
def Crew.spadOwner (c : Crew) (off : Nat) : Nat := Map.getD c.spadTag (off / 512) c.task.owner

/-- A write by `owner` reaches a span of crew `crew`'s scratchpad: one of another owner is cleared, its granules are emptied,
and it is retagged (R205). -/
def State.retagSpad (s : State) (crew off owner : Nat) : State :=
  match s.crew? crew with
  | some c =>
    if c.spadOwner off = owner then s
    else
      let span := off / 512
      let s := s.setCrew crew { c with spadTag := Map.set c.spadTag span c.task.owner owner,
                                       gran := c.gran.filter fun e => e.1 / 32 ≠ span }
      { s with mem := { s.mem with mem := clearRange s.mem.mem (spadPa crew (span * 512)) 512 } }
  | none => s

/-- Bytes of a scratchpad as an agent of `owner` reads them: zeros from a span of another owner (R205). -/
def State.spadBytes (s : State) (owner crew off n : Nat) : List Byte :=
  if (s.crew? crew).elim true fun c => c.spadOwner off == owner then Memory.readBytes s.mem.mem (spadPa crew off) n
  else List.replicate n 0

/-- A read at time `t` renews a lease by `ll` (R109, R110). -/
def Lease.renew (l : Lease) (t : LTime) (ll : Nat) : Lease := { l with rts := tmax l.rts (tadd t ll) }

/-- A store at time `t` takes a wts above the lease (R109, R111). -/
def Lease.store (l : Lease) (t : LTime) : Lease := let w := tmax t (tadd l.rts 1); { wts := w, rts := w }

/-! ### Tile L1 (R104, R120) -/

def Tile.l1find (t : Tile) (line : Nat) : Option L1Line := t.l1.find? fun l => l.line == line

/-- Replace a line of a tile L1 that is present. -/
def Tile.l1update (t : Tile) (line : Nat) (f : L1Line → L1Line) : Tile :=
  { t with l1 := t.l1.map fun l => if l.line = line then f l else l }

/-- The line a set gives up: the highest EVP, and the least recently used among those (R120). -/
def l1victim : List L1Line → Option L1Line
  | [] => none
  | l :: ls =>
    match l1victim ls with
    | none => some l
    | some v => if v.evp < l.evp ∨ (v.evp = l.evp ∧ l.stamp < v.stamp) then some l else some v

/-- Bring a line into a tile L1: 128 sets of 16 lines, the set being the line number's low bits
(notes/assumptions/7.md). -/
def Tile.l1install (t : Tile) (x : L1Line) : Tile :=
  let rest := t.l1.filter fun l => l.line ≠ x.line
  let set := rest.filter fun l => l.line % 128 = x.line % 128
  if set.length < 16 then { t with l1 := x :: rest }
  else
    match l1victim set with
    | some v => { t with l1 := x :: rest.filter fun l => l.line ≠ v.line }
    | none => { t with l1 := x :: rest }

/-! ### Meters (R214) -/

def sat64 (n : Nat) : Nat := min n (2 ^ 64 - 1)

/-- Count `reads` reads of `bytes` bytes in all for region `r`; both counters saturate. -/
def State.meter (s : State) (r reads bytes : Nat) : State :=
  { s with tier := { s.tier with bytes := Map.put s.tier.bytes r (sat64 (Map.getD s.tier.bytes r 0 + bytes)),
                                 reads := Map.put s.tier.reads r (sat64 (Map.getD s.tier.reads r 0 + reads)) } }

/-- Count an access of a metered page or span, and nothing otherwise; locked meters never change (R217). -/
def State.meterIf (s : State) (a : PageAttr) (reads bytes : Nat) : State :=
  if a.metered && !s.tier.locked then s.meter a.mreg reads bytes else s

/-! ### Hamper watches (R366) -/

/-- A write that binds on a watched line or span at a time above its watch sets STALE before it is acknowledged. -/
def State.staleSet (s : State) (w : Target) (time : LTime) : State :=
  { s with sites := s.sites.map fun e =>
      (e.1, { e.2 with hamper := e.2.hamper.map fun h =>
        if h.watches.any fun x => x.1 == w && decide (x.2.toNat < time.toNat) then { h with stale := true } else h }) }

/-! ### Loads -/

/-- `n` bytes at offset `o` of a list. -/
def slice (bs : List Byte) (o n : Nat) : List Byte := (bs.drop o).take n

/-- The bytes of a context line from byte `b` on: its current copy (R161). -/
def State.ctxBytes (s : State) (thread b n : Nat) : List Byte :=
  let t := (s.thread? thread).getD Thread.reset
  slice ((List.finRange 16).flatMap fun w => natBytes 8 (t.word w).toNat) b n

/-- The 128 bytes of a line at its home, as an agent of `owner` reads them. -/
def State.lineBytes (s : State) (owner line : Nat) : List Byte :=
  if 2 ^ 45 ≤ line then s.ctxBytes (line - 2 ^ 45) 0 128 else s.ownedBytes owner (line * 128) 128

/-- A copy of a line in a tile L1 that answers a load at time `t` (R109, R110, R114). -/
def State.l1Live (s : State) (tile line : Nat) (a : PageAttr) (t : LTime) : Option L1Line :=
  if a.cached then
    ((s.tile tile).l1find line).filter fun l => l.perm || (decide (t.toNat ≤ l.rts.toNat) && l.rts != maxTime)
  else none

/-- Use a copy in a tile L1: a hit raises its standing (R120). -/
def State.l1Touch (s : State) (tile line evp : Nat) : State :=
  let (st, s) := s.stamp
  s.modTile tile fun x => x.l1update line fun l => { l with evp := min l.evp evp, stamp := st }

/-- Bytes of a copy in a tile L1, as an agent of `owner` reads them: zeros across owners (R205), as they stand where the span
has no owner (notes/assumptions/6.md). -/
def State.l1Read (s : State) (l : L1Line) (owner off n : Nat) : List Byte :=
  if l.owner = owner ∨ Map.get? s.mem.tags (l.line / 4) = none then slice l.data off n else List.replicate n 0

/-- A renewal at the home at time `t`, with the line brought into the tile L1 under its EVP (R110, R114, R120). -/
def State.lineFetch (s : State) (tile line off n : Nat) (a : PageAttr) (evp : Nat) (t : LTime) :
    List Byte × LTime × State :=
  let h := (s.lineLease line).renew t Config.leaseLength
  let data := s.lineBytes a.owner line
  let s := s.recordRead a.owner line evp h
  let (st, s) := s.stamp
  let s :=
    if a.cached ∧ evp ≠ 7 then
      s.modTile tile fun x => x.l1install
        { line := line, data := data, wts := h.wts, rts := h.rts, perm := a.perm, owner := a.owner, evp := evp,
          stamp := st }
    else s
  (slice data off n, h.wts, s)

/-- SeqLoad of R110 on bytes of one line, from a tile at a logical time. -/
def State.lineLoad (s : State) (tile line off n : Nat) (a : PageAttr) (evp : Nat) (t : LTime) :
    List Byte × LTime × State :=
  match s.l1Live tile line a t with
  | some l => (s.l1Read l a.owner off n, tmax t l.wts, s.l1Touch tile line evp)
  | none =>
    let r := s.lineFetch tile line off n a evp t
    (r.1, tmax t r.2.1, r.2.2)

/-- A load of `n` bytes at a target, at logical time `t`: the bytes, and the time after it (R106, R110, R114). -/
def State.loadAt (s : State) (tile : Nat) (tgt : Target) (n : Nat) (a : PageAttr) (evp : Nat) (t : LTime) :
    List Byte × LTime × State :=
  match tgt with
  | .phys pa => s.lineLoad tile (pa / 128) (pa % 128) n a evp t
  | .ws off => (s.ownedBytes a.owner (wsBase + off) n, t, s)
  | .spad c off =>
    let h := ((s.crew? c).elim Lease.zero (·.spanLease off)).renew t 0
    (s.spadBytes a.owner c off n, tmax t h.wts, s.modCrew c (·.setSpan off h))
  | .ctx th b => s.lineLoad tile (ctxLineKey th) b n { a with cached := true } evp t

/-! ### Stores -/

/-- Merge `data` under a bit mask into `n` bytes (R111, R127). -/
def mergeBits (old data mask : Nat) : Nat := old - (old &&& mask) + (data &&& mask)

/-- Replace bytes of an L1 line from byte `o` on. -/
def patch (bs : List Byte) (o : Nat) (new : List Byte) : List Byte := bs.take o ++ new ++ bs.drop (o + new.length)

/-- Discard the cached tables a write touches (R282). -/
def Tile.dropTables (t : Tile) (crew off n : Nat) : Tile :=
  { t with tables := t.tables.filter fun x => !(x.1 == crew && decide (x.2.1 < off + n) && decide (off < x.2.2)) }

/-- Write the bits of a context line that the mask names, word by word, each under its Access column (R180). -/
def State.ctxStore (s : State) (thread b n data mask : Nat) : State :=
  (List.finRange 16).foldl (init := s) fun s w =>
    let lo := 8 * w.val
    if b < lo + 8 ∧ lo < b + n then
      let sh := fun x : Nat => if b ≤ lo then x / 2 ^ (8 * (lo - b)) % 2 ^ 64 else x * 2 ^ (8 * (b - lo)) % 2 ^ 64
      s.modThread thread fun t => t.merge w (BitVec.ofNat 64 (mergeBits (t.word w).toNat (sh data) (sh mask)))
    else s

/-- Bring the copies of a line in these tile L1s up to date: `f` gives the new data, and the lease becomes (wts, wts) (R111). -/
def State.l1Copies (s : State) (tiles : List Nat) (line owner : Nat) (h : Lease) (f : L1Line → List Byte) : State :=
  tiles.foldl (init := s) fun s k =>
    if ((s.tile k).l1find line).isSome then
      s.modTile k fun x => x.l1update line fun l => { l with data := f l, wts := h.wts, rts := h.rts, owner := owner }
    else s

/-- SeqStore of R111 at a target: the low `n` bytes of `data` under `mask`, by an agent of `owner` at logical time `t`. A copy
of another owner in a tile L1 is cleared before it is brought up to date (R205). Returns the store's wts. -/
def State.storeAt (s : State) (v : Via) (tgt : Target) (n data mask owner : Nat) (t : LTime) : LTime × State :=
  match tgt with
  | .phys pa =>
    let line := pa / 128
    let h := (s.lineLease line).store t
    let bare := Map.get? s.mem.tags (pa / 512) = none
    let m := s.mem.retag owner (pa / 512)
    let new := natBytes n (mergeBits (Memory.readNat m.mem pa n) data mask)
    let s := { s with mem := ({ m with mem := Memory.writeBytes m.mem pa new }).noteWriter line v.who h.wts }
    let s := s.keepLine line v.evp h
    let s := s.l1Copies v.tiles line owner h fun l =>
      patch (if l.owner = owner ∨ bare then l.data else List.replicate 128 0) (pa % 128) new
    (h.wts, s.staleSet (.phys line) h.wts)
  | .ws _ => (t, s)
  | .spad c off =>
    let h := ((s.crew? c).elim Lease.zero (·.spanLease off)).store t
    let pa := spadPa c off
    let s := s.retagSpad c off owner
    let new := natBytes n (mergeBits (Memory.readNat s.mem.mem pa n) data mask)
    let s := { s with mem := { s.mem with mem := Memory.writeBytes s.mem.mem pa new } }
    let s := s.modCrew c (·.setSpan off h)
    let s := match s.crew? c with
      | some x => if (s.tile x.tile).tables.isEmpty then s else s.modTile x.tile (·.dropTables c off n)
      | none => s
    (h.wts, s.staleSet (.spad c (off / 512)) h.wts)
  | .ctx th b =>
    let h := (s.lineLease (ctxLineKey th)).store t
    let s := (s.setLease (ctxLineKey th) h).ctxStore th b n data mask
    (h.wts, s.l1Copies v.tiles (ctxLineKey th) owner h fun _ => s.ctxBytes th 0 128)

/-- All bits of `n` bytes. -/
def fullMask (n : Nat) : Nat := 2 ^ (8 * n) - 1

/-! ### Ranges, cut where one access ends -/

/-- A target moved up by `n` bytes. -/
def Target.plus : Target → Nat → Target
  | .phys pa, n => .phys (pa + n)
  | .ws off, n => .ws (off + n)
  | .spad c off, n => .spad c (off + n)
  | .ctx th b, n => .ctx th (b + n)

/-- The byte position of a target within its aligned unit of homes. -/
def Target.pos : Target → Nat
  | .phys pa => pa
  | .ws off => off
  | .spad _ off => off
  | .ctx _ b => b

/-- The pieces of `n` bytes from `tgt` on that each lie in one aligned `unit`: offset and length. -/
def pieces (unit start : Nat) : Nat → Nat → List (Nat × Nat)
  | 0, _ => []
  | fuel + 1, n =>
    if n = 0 then []
    else
      let k := min n (unit - start % unit)
      (0, k) :: (pieces unit (start + k) fuel (n - k)).map fun x => (x.1 + k, x.2)

/-- Load `n` bytes piece by piece of at most `unit` bytes, in address order. -/
def State.loadRange (s : State) (tile : Nat) (tgt : Target) (n unit : Nat) (a : PageAttr) (evp : Nat) (t : LTime) :
    List Byte × LTime × State :=
  (pieces unit tgt.pos (n / unit + 2) n).foldl (init := ([], t, s)) fun acc p =>
    let r := acc.2.2.loadAt tile (tgt.plus p.1) p.2 a evp acc.2.1
    (acc.1 ++ r.1, r.2)

/-- Store a list of bytes piece by piece of at most `unit` bytes, in address order. -/
def State.storeRange (s : State) (v : Via) (tgt : Target) (unit : Nat) (bs : List Byte) (owner : Nat) (t : LTime) :
    LTime × State :=
  (pieces unit tgt.pos (bs.length / unit + 2) bs.length).foldl (init := (t, s)) fun acc p =>
    acc.2.storeAt v (tgt.plus p.1) p.2 (leNat (slice bs p.1 p.2)) (fullMask p.2) owner acc.1

end Sys2Proof.Machine
end

