-- ==== Sys2Proof/Machine/Xlate.lean ====
section
/-! DEFINITION. Virtual addresses: regions (Table 1.7), the four-level table (R199 to R201), cached translations (R203),
and what an access at an address reaches. -/

namespace Sys2Proof.Machine

/-- System codes of Table 8.5 found at issue. -/
def codeXlate : Nat := 0x20
def codeProt : Nat := 0x21
def codePriv : Nat := 0x25
def codeOwner : Nat := 0x26

/-- User codes of Table 8.5. -/
def codeIllop : Nat := 0x01
def codeFetchx : Nat := 0x02
def codeAlign : Nat := 0x03
def codeDivz : Nat := 0x04
def codeRange : Nat := 0x05
def codeNegvar : Nat := 0x06
def codeSpmeta : Nat := 0x07
def codeLoopdepth : Nat := 0x08
def codeQmisuse : Nat := 0x09
def codeHandle : Nat := 0x0A
def codeLane : Nat := 0x0B
def codeBkpt : Nat := 0x0C
def codeTrap : Nat := 0x0D
def codeRemref : Nat := 0x0E
def codeRowptr : Nat := 0x0F

/-- The right an access needs (R132, R201). -/
inductive Right where
  | read | write | fetch
deriving DecidableEq, Repr

/-- Why an address does not resolve: a system fault, or a user trap. -/
inductive Stop where
  | sys (code : Nat)
  | user (code : Nat)
deriving DecidableEq, Repr

/-- Who makes an access: the tile it leaves from, the crew, its tile, its task's owner tag and root, its privilege. -/
structure Agent where
  thread : Option Nat := none
  tile  : Nat
  crew  : Nat
  home  : Nat
  owner : Nat
  root  : Nat
  privl : Bool
  meters : Word
deriving DecidableEq, Repr

/-- A line as an agent. -/
def State.agent (s : State) (t : Thread) : Agent :=
  let c := s.crew? t.crewn.toNat
  { thread := some (threadKey t.crewn.toNat t.tidx.toNat), tile := s.tileOfLine t, crew := t.crewn.toNat, home := c.elim 0 (·.tile), owner := t.owner.toNat,
    root := c.elim 0 (·.task.xlroot), privl := t.privl, meters := c.elim 0 (·.decl.meters) }

/-- An engine acting for a crew, at the crew's tile (R336). -/
def Crew.agent (c : Crew) (crew : Nat) : Agent :=
  { tile := c.tile, crew := crew, home := c.tile, owner := c.task.owner, root := c.task.xlroot, privl := c.priv,
    meters := c.decl.meters }

/-- A store of an agent from tile `tile`: the tile L1s it brings up to date are that tile's and the crew's own (R111, R119). -/
def Agent.viaFrom (a : Agent) (tile : Nat) (sc : Scope) (evp : Nat) : Via :=
  { tiles := if tile = a.home then [tile] else [tile, a.home],
    who := { thread := a.thread, crew := some a.crew, place := .package, scope := sc }, evp := evp }

/-- A store of an agent from the tile it runs on. -/
def Agent.via (a : Agent) (sc : Scope) (evp : Nat) : Via := a.viaFrom a.tile sc evp

/-! ### Table entries (R200) -/

def pteValid (e : Nat) : Bool := bitAt e 0
def pteR (e : Nat) : Bool := bitAt e 1
def pteW (e : Nat) : Bool := bitAt e 2
def pteX (e : Nat) : Bool := bitAt e 3
def pteG (e : Nat) : Bool := bitAt e 4
def pteC (e : Nat) : Bool := bitAt e 5
def pteM (e : Nat) : Bool := bitAt e 6
def pteMreg (e : Nat) : Nat := field e 8 6
def pteHouse (e : Nat) : Nat := field e 42 4
def pteOwner (e : Nat) : Nat := field e 46 16
def ptePointer (e : Nat) : Bool := !pteR e && !pteW e && !pteX e
def pteFrame (e : Nat) : Nat := pteHouse e * 2 ^ 48 + field e 16 26 * 2 ^ 16
def pteTable (e : Nat) : Nat := pteHouse e * 2 ^ 48 + field e 8 34 * 2 ^ 8

/-- A bit that must be zero is set (Table 8.10): bits 7 and 63:62, bits 15:14 of a leaf, OWNER of a pointer. -/
def pteReserved (e : Nat) : Bool :=
  bitAt e 7 || field e 62 2 != 0 || (if ptePointer e then pteOwner e != 0 else field e 14 2 != 0)

/-- Low bit and width of the index of each level, and the page size of a leaf there (Table 8.9). -/
def levelLow (level : Nat) : Nat := match level with | 0 => 39 | 1 => 30 | 2 => 21 | _ => 16
def levelBits (level : Nat) : Nat := match level with | 0 => 16 | 1 => 9 | 2 => 9 | _ => 5
def pageSize (level : Nat) : Nat := 2 ^ levelLow level

/-- An entry of a page table as the walkers of the compute dies read it: the replica's, where a darner has written it, else the
master copy's under owner 0 (R9, R202, R204; notes/assumptions/62.md). -/
def State.entryAt (s : State) (pa : Nat) : Nat :=
  match Map.get? s.mem.replica pa with
  | some v => v.toNat
  | none => leNat (s.ownedBytes 0 pa 8)

/-- Walk the table from `level` on, `fuel` levels being left, reading entries with `entry`: the leaf, its page size and the
addresses of the entries read; none raises XLATE (R201 step 1). The model's choice: a pointer met at level 3, which has no next
level, raises XLATE (notes/assumptions/93.md). -/
def walk (entry : Nat → Nat) (va : Nat) : (fuel level table : Nat) → (path : List Nat) → Option (Nat × Nat × List Nat)
  | 0, _, _, _ => none
  | fuel + 1, level, table, path =>
    let at_ := table + 8 * field va (levelLow level) (levelBits level)
    let e := entry at_
    if !pteValid e || pteReserved e || decide (5 < pteHouse e) then none
    else if ptePointer e then walk entry va fuel (level + 1) (pteTable e) (at_ :: path)
    else if level = 0 ∨ pteFrame e % pageSize level ≠ 0 then none
    else some (e, pageSize level, at_ :: path)

/-- The cached translation of an address (R203). -/
def Tile.cached (t : Tile) (root va : Nat) : Option TlbEntry :=
  t.tlb.find? fun e => e.root == root && decide (e.va ≤ va ∧ va < e.va + e.size)

/-- The translation of a global address under a root, from the tile's cache or by a walk that fills it. -/
def State.translate (s : State) (tile root va : Nat) : Option TlbEntry × State :=
  match (s.tile tile).cached root va with
  | some e => (some e, s)
  | none =>
    match walk s.entryAt va 4 0 root [] with
    | none => (none, s)
    | some (leaf, size, path) =>
      let e : TlbEntry := { root := root, va := va / size * size, size := size, leaf := BitVec.ofNat 64 leaf, path := path }
      (some e, s.modTile tile fun t => { t with tlb := e :: t.tlb })

/-- The leaf lacks the right an access needs (R201 step 3). -/
def lacks (leaf : Nat) : Right → Bool
  | .read => !pteR leaf
  | .write => !pteW leaf
  | .fetch => !pteX leaf || pteW leaf

/-- An access to a metered region raises PROT: the meters are locked (R217), or the node's kernel did not declare the
region (R219). -/
def State.meterBarred (s : State) (a : Agent) (mreg : Nat) : Bool := s.tier.locked || !bitAt a.meters.toNat mreg

/-- Where a leaf sends an address. -/
def leafAttr (leaf : Nat) : PageAttr :=
  { cached := pteC leaf, metered := pteM leaf, mreg := pteMreg leaf, owner := pteOwner leaf, perm := !pteW leaf }

/-- The attributes of an access below no leaf. -/
def bareAttr (owner : Nat) : PageAttr := { cached := false, metered := false, mreg := 0, owner := owner, perm := false }

/-- The attributes of a weight-store span (R211). -/
def State.wsAttr (s : State) (owner off : Nat) : PageAttr :=
  match Map.get? s.mem.wsMeter (off / 512) with
  | some v => { bareAttr owner with metered := decide (64 ≤ v), mreg := v % 64 }
  | none => bareAttr owner

/-- The crew number a scratchpad address names (Table 1.7). -/
def spadCrew (own va : Nat) : Nat := let c := field va 32 20; if c = 0xFFFFF then own else c

/-- A span of a weight-store range is metered and barred to the agent (R217, R219). -/
def State.wsBarred (s : State) (a : Agent) (off n : Nat) : Bool :=
  (List.range (n / 512 + 2)).any fun j =>
    let o := off / 512 * 512 + 512 * j
    let at_ := s.wsAttr a.owner o
    decide (o < off + n) && at_.metered && s.meterBarred a at_.mreg

/-- Resolve an access of `n` bytes at a virtual address (R26, R27, R201). Another crew's scratchpad resolves here; its
windows are tested where the access arrives (R345). The model's choices: in the weight store, scratchpad space and context
space a must-be-zero bit raises XLATE before a fetch raises PROT (notes/assumptions/63.md), and a context-space address that
names no line of the issuing task raises PROT (notes/assumptions/64.md). -/
def State.resolve (s : State) (a : Agent) (va n : Nat) (r : Right) : Except Stop Part × State :=
  let va := va % 2 ^ 56
  let region := va / 2 ^ 52
  if region ≤ 7 then
    match s.translate a.tile a.root va with
    | (none, s) => (.error (.sys codeXlate), s)
    | (some e, s) =>
      let leaf := e.leaf.toNat
      if !pteG leaf && pteOwner leaf != a.owner then (.error (.sys codeOwner), s)
      else if lacks leaf r then (.error (.sys codeProt), s)
      else if pteM leaf && s.meterBarred a (pteMreg leaf) then (.error (.sys codeProt), s)
      else (.ok { target := .phys (pteFrame leaf + (va - e.va)), attr := leafAttr leaf, bytes := n, path := e.path }, s)
  else if region = 8 then
    if field va 28 24 ≠ 0 then (.error (.sys codeXlate), s)
    else if r ≠ .read then (.error (.sys codeProt), s)
    else
      let off := field va 0 28
      if s.wsBarred a off n then (.error (.sys codeProt), s)
      else (.ok { target := .ws off, attr := s.wsAttr a.owner off, bytes := n }, s)
  else if region = 9 then
    if field va 20 12 ≠ 0 then (.error (.sys codeXlate), s)
    else if r = .fetch then (.error (.sys codeProt), s)
    else
      let c := spadCrew a.crew va
      let off := field va 0 20
      if c = a.crew ∧ ((s.crew? c).elim 0 (·.decl.scratch)) < off + n then (.error (.sys codeProt), s)
      else (.ok { target := .spad c off, attr := bareAttr a.owner, bytes := n }, s)
  else if region = 10 then
    if field va 35 17 ≠ 0 then (.error (.sys codeXlate), s)
    else if r = .fetch then (.error (.sys codeProt), s)
    else if !a.privl then (.error (.sys codePriv), s)
    else
      let c := field va 15 20
      let k := threadKey c (field va 7 8)
      match s.crew? c, s.crew? a.crew with
      | some x, some y =>
        if x.task.gtid = y.task.gtid ∧ (s.thread? k).isSome then
          (.ok { target := .ctx k (field va 0 7), attr := bareAttr 0, bytes := n }, s)
        else (.error (.sys codeProt), s)
      | _, _ => (.error (.sys codeProt), s)
  else (.error (.sys codeXlate), s)

/-- Resolve an access piece by piece (R122): offsets and lengths from `va`. -/
def State.resolveAll (s : State) (a : Agent) (va : Nat) (r : Right) : List (Nat × Nat) → Except Stop (List Part) × State
  | [] => (.ok [], s)
  | (o, n) :: ps =>
    match s.resolve a (va + o) n r with
    | (.error e, s) => (.error e, s)
    | (.ok p, s) =>
      match s.resolveAll a va r ps with
      | (.error e, s) => (.error e, s)
      | (.ok rest, s) => (.ok (p :: rest), s)

/-- Every piece lies where the home answers at once and without fault: 0, or the first fault's code. -/
def State.partsFault (s : State) : List Part → Nat
  | [] => 0
  | p :: ps =>
    let f := s.homeFault p.target p.attr.owner
    if f ≠ 0 then f else s.partsFault ps

/-- Load the pieces in address order at logical time `t` (R122). -/
def State.loadParts (s : State) (tile evp : Nat) (t : LTime) (ps : List Part) : List Byte × LTime × State :=
  ps.foldl (init := ([], t, s)) fun acc p =>
    let r := acc.2.2.loadAt tile p.target p.bytes p.attr evp acc.2.1
    (acc.1 ++ r.1, r.2)

/-- Store into the pieces in address order: `data` under `mask`, their low bytes first. -/
def State.storeParts (s : State) (v : Via) (data mask : Nat) (t : LTime) (ps : List Part) : LTime × State :=
  let r := ps.foldl (init := (data, mask, t, s)) fun acc p =>
    let m := 2 ^ (8 * p.bytes)
    let r := acc.2.2.2.storeAt v p.target p.bytes (acc.1 % m) (acc.2.1 % m) p.attr.owner acc.2.2.1
    (acc.1 / m, acc.2.1 / m, r.1, r.2)
  (r.2.2.1, r.2.2.2)

/-! ### Shootdown (R203, R114) -/

/-- Remove from every tile the cached translations that satisfy `p`. -/
def State.dropTlb (s : State) (p : TlbEntry → Bool) : State :=
  { s with tiles := s.tiles.map fun e => (e.1, { e.2 with tlb := e.2.tlb.filter fun x => !p x }) }

/-- Discard every permanent copy of the lines of a range from every tile L1 (R114). -/
def State.dropPermanent (s : State) (pa n : Nat) : State :=
  { s with tiles := s.tiles.map fun e =>
      (e.1, { e.2 with l1 := e.2.l1.filter fun l =>
        !(l.perm && decide (pa / 128 ≤ l.line) && decide (l.line * 128 < pa + n)) }) }

end Sys2Proof.Machine
end

