-- ==== Sys2Proof/Machine/Slots.lean ====
section
/-! DEFINITION. A core's cycle: the classes of its lines (R407), the choice of a line (R14), breakpoints (R408), the
instruction cache (R93), and trace events offered to the trigger (R406). -/

namespace Sys2Proof.Machine

/-- Offer an event to the trace unit (Table 24.2). -/
def State.offer (s : State) (e : TraceEv) : State :=
  { s with dbg := { s.dbg with offered := s.dbg.offered ++ [e] } }

/-- An event of a line. -/
def Thread.event (t : Thread) (kind sub code : Nat) (payload : Word) : TraceEv :=
  { kind := kind, sub := sub, code := code, crew := t.crewn.toNat, tidx := t.tidx.toNat, lt := t.pts, gtid := t.gtid,
    payload := payload, core := t.entryCore }

/-! ### Slot classes -/

/-- The classes of R407. -/
inductive SlotClass where
  | issued | memory | message | vacant
deriving DecidableEq, Repr

/-- The class of a line that did not issue (R407). -/
def Thread.slotClass (t : Thread) : SlotClass :=
  if t.st = .waiting then
    match t.wkind.toNat with
    | 0 | 1 | 7 | 8 | 10 | 11 => .memory
    | 2 | 3 | 4 | 5 | 6 | 9 => .message
    | _ => .vacant
  else if t.st = .ready ∧ t.fetchStall.isSome then .memory
  else .vacant

/-- The lines resident in a core's parlour. -/
def State.residents (s : State) (core : Nat) : List (Nat × Thread) :=
  s.threads.filter fun e => e.2.loc == .parlour core

/-- Number of ready resident lines of a core. -/
def State.readyCount (s : State) (core : Nat) : Nat := ((s.residents core).filter fun e => e.2.st == .ready).length

/-- Count the classes of a core's lines. -/
def classCount (ls : List (Nat × Thread)) (issued : Option Nat) (c : SlotClass) : Nat :=
  (ls.filter fun e => (if some e.1 = issued then SlotClass.issued else e.2.slotClass) == c).length

/-- What a core counts at the end of a cycle, from the classes of its lines in that cycle (R407); the cycle number advances. -/
def State.countCycle (pre : State) (core : Nat) (issued : Option Nat) (c : Core) : Core :=
  let ls := pre.residents core
  { c with cyc := c.cyc + 1,
           iss := c.iss + (if issued.isSome then 1 else 0),
           vac := c.vac + (if issued.isSome then 0 else 1),
           lmem := c.lmem + BitVec.ofNat 64 (classCount ls issued .memory),
           lmsg := c.lmsg + BitVec.ofNat 64 (classCount ls issued .message),
           lvac := c.lvac + BitVec.ofNat 64 (classCount ls issued .vacant),
           hist := Map.modify c.hist (pre.readyCount core) 0 (· + 1),
           now := pre.clock + 1, sel := none, late := none }

/-- End a core's part of a cycle: the slot counters advance (R407), and the core takes the next cycle next. -/
def State.endCycle (s : State) (core : Nat) (issued : Option Nat) : State :=
  s.modCore core (s.countCycle core issued)

/-! ### Choice of a line -/

/-- A line the core may select in this cycle (R14). -/
def Thread.selectable (t : Thread) (now : Nat) : Bool :=
  t.st == .ready && decide (t.eligible ≤ now) && t.fetchStall.isNone && !t.restoring

/-- A displacement of the line's crew has begun: its threads issue nothing more (R194). -/
def State.stopped (s : State) (t : Thread) : Bool := (s.crew? t.crewn.toNat).elim false (·.saving)

/-- Round-robin by line number: the first selectable line after the last one issued, else the first
(notes/assumptions/8.md). -/
def State.candidate (s : State) (core : Nat) : Option Nat :=
  let c := s.core core
  let ks := ((s.residents core).filter fun e => e.2.selectable s.clock && !s.stopped e.2).map (·.1)
  match ks.find? fun k => (c.lastKey.elim true fun l => decide (l < k)) with
  | some k => some k
  | none => ks.head?

/-- The breakpoint slots that match a line (R408). -/
def State.bpMatches (s : State) (t : Thread) : List Nat :=
  ((List.finRange 8).filter fun i => let b := s.dbg.bps[i]; b.en && b.gtid == t.gtid && b.pc == t.pc).map (·.val)

/-! ### Instruction cache -/

/-- The physical address of a line's next instruction, or why it cannot be fetched (R36). -/
def State.fetchAddr (s : State) (t : Thread) : Except Stop Part × State :=
  s.resolve (s.agent t) t.pc.toNat 4 .fetch

/-- The block at a physical address, if the cache holds it (notes/assumptions/82.md). -/
def Core.hasBlock (c : Core) (b : Nat) : Option IBlock := c.icache.find? fun x => x.block == b

/-- Put a block into an instruction cache: 128 sets of 4, the least recently used giving way (R93). -/
def Core.fillBlock (c : Core) (x : IBlock) : Core :=
  let rest := c.icache.filter fun y => y.block ≠ x.block
  let set := rest.filter fun y => y.block % 128 = x.block % 128
  if set.length < 4 then { c with icache := x :: rest }
  else
    match set.foldl (init := (none : Option IBlock)) fun m y =>
        match m with
        | none => some y
        | some z => if y.stamp < z.stamp then some y else some z with
    | some v => { c with icache := x :: rest.filter fun y => y.block ≠ v.block }
    | none => { c with icache := x :: rest }

/-- Use a block: it is now the most recently used. -/
def Core.touchBlock (c : Core) (b stamp : Nat) : Core :=
  { c with icache := c.icache.map fun y => if y.block = b then { y with stamp := stamp } else y }

/-! ### The cycle -/

/-- A core that is mapped out or has failed issues nothing, and no core does while the clocks stand (R191, R193, R410). -/
def State.coreRuns (s : State) (core : Nat) : Bool :=
  let c := s.core core
  !(c.mappedOut || c.failed || (s.tile (core / 8)).mappedOut || s.dbg.frozen)

/-- When within a cycle an instruction executes, by the rules that order the events of one cycle: first what releases lanes,
configures a barrier, or clears sticky bits or counters (R138, R249, R260, R263, R417), then BARX (R138), then most, in core order,
and last new claims of lanes and arrivals (R138, R263). -/
def slotRank (r : Raw) (t : Thread) : Nat :=
  match r.opc.val, r.q.val with
  | 0x46, 0 | 0x51, _ | 0x67, 1 | 0x71, _ | 0xD3, _ | 0xE5, 1 => 0
  | 0x45, _ => 1
  | 0x70, 0 =>
    let n := match r.src with
      | .reg b => (t.reg b).toNat
      | .imm v => v.toNat
    if n ≤ 8 * t.lgrant.toNat then 0 else 3
  | 0x70, _ | 0x43, _ => 3
  | _, _ => 2

/-- The last part of a cycle: an instruction whose push waits for the pops of its cycle (R225). -/
def lateRank : Nat := 4

/-- A core selects a line. -/
def State.select (s : State) (core k rank : Nat) : State := s.modCore core fun c => { c with sel := some (k, rank), late := none }

/-- Look for a line to issue in this cycle, passing over lines whose block misses: the line is selected, or the core's cycle
ends vacant (R14, R93, R408). -/
def State.selectLine (core : Nat) : Nat → State → State
  | 0, s => s.endCycle core none
  | fuel + 1, s =>
    match s.candidate core with
    | none => s.endCycle core none
    | some k =>
      match s.thread? k with
      | none => s.endCycle core none
      | some t =>
        let hits := if t.stepb then [] else s.bpMatches t
        let stop := hits.find? fun i => decide (i < 8) && (s.dbg.bps[i]?.elim false (·.stop))
        let s := { s with dbg := { s.dbg with hits := s.dbg.hits ++ hits } }
        match stop with
        | some i =>
          let s := s.offer (t.event 1 i 0 (t.pc.setWidth 64))
          let s := s.setThread k { t.clearWait with st := .debugStopped }
          s.endCycle core none
        | none =>
          match s.fetchAddr t with
          | (.error _, s) => s.select core k 2
          | (.ok p, s) =>
            let b := p.target.pos / 32
            match (s.core core).hasBlock b with
            | some x => s.select core k (slotRank (unpack (leNat ((x.bytes.drop (p.target.pos % 32)).take 16))) t)
            | none => State.selectLine core fuel (s.modThread k fun t => { t with fetchStall := some b })

/-- The line that a core has selected can still issue: nothing in the cycle has stopped it. -/
def State.stillSelected (s : State) (core k : Nat) : Bool :=
  (s.thread? k).elim false fun t => t.loc == .parlour core && t.selectable s.clock && !s.stopped t

/-- A core that held no line meanwhile has counted the cycles since as vacant (R407); none counts while it is mapped out. -/
def State.catchUp (s : State) (core : Nat) : State :=
  let d := s.clock - (s.core core).now
  if d = 0 ∨ (s.core core).mappedOut then s
  else s.modCore core fun c =>
    { c with cyc := c.cyc + BitVec.ofNat 64 d, vac := c.vac + BitVec.ofNat 64 d,
             hist := Map.modify c.hist 0 0 (· + BitVec.ofNat 64 d), now := s.clock }

/-- A running core that has still to take the cycle. -/
def State.due (s : State) (core : Nat) : Bool := s.coreRuns core && decide ((s.core core).now ≤ s.clock)

/-- One cycle of a core (R14): it selects a line, or, with no line that can issue, it only counts. A core that has selected one
already does not select again. -/
def State.cycle (s : State) (core : Nat) : State :=
  if s.due core && (s.core core).sel.isNone then
    let s := s.catchUp core
    s.selectLine core ((s.residents core).length + 1)
  else s

/-- The cores that hold lines, or have selected one, and have still to take the cycle. -/
def State.dueCores (s : State) : List Nat :=
  ((s.threads.filterMap fun e => e.2.resident) ++ (s.cores.filter fun e => e.2.sel.isSome).map (·.1)).dedup.filter s.due

/-- The core whose turn it is: the lowest-numbered one that has still to select a line, and once all have, the one whose
instruction comes first in the cycle, the lowest-numbered of equals. -/
def State.nextSlot (s : State) : Option Nat :=
  let key (n : Nat) : Nat := match (s.core n).sel with
    | none => 0
    | some (_, r) => r + 1
  s.dueCores.foldl (init := none) fun m n =>
    match m with
    | none => some n
    | some x => if key n < key x ∨ (key n = key x ∧ n < x) then some n else some x

/-- The next core's part of a cycle: it selects a line, or its line becomes the issuer of the next step. -/
def State.slot (s : State) (core : Nat) : State :=
  match (s.core core).sel with
  | none => s.cycle core
  | some (k, _) =>
    if s.stillSelected core k then { s with issuer := some k } else s.selectLine core ((s.residents core).length + 1)

/-- A cycle is under way: some core has selected a line in it or has taken it. -/
def State.cycleOpen (s : State) : Bool :=
  s.cores.any fun e => e.2.now == s.clock + 1 || (e.2.sel.isSome && s.due e.1)

end Sys2Proof.Machine
end

