-- ==== Sys2Proof/Machine/Ops.lean ====
section
/-! DEFINITION. The operations every meaning is written over: fault records and system faults (R189, R190), queues (R225),
taking a user trap and returning from one (R185, R187), retirement with its loop-end step (R100), and the issue of an
instruction under R51. -/

namespace Sys2Proof.Machine

/-- The outcome type of every step. -/
abbrev Out := Host.Outcome State Fault Refusal

/-! ### Queues (R225) -/

/-- A slot of a queue. -/
def Queue.slot (q : Queue) (i : Nat) : Slot := q.slots[i % 16]'(Nat.mod_lt _ (by decide))

def Queue.setSlot (q : Queue) (i : Nat) (x : Slot) : Queue :=
  { q with slots := q.slots.set (i % 16) x (Nat.mod_lt _ (by decide)) }

/-- A slot that holds nothing. -/
def Slot.empty : Slot := { val := 0, filled := false, fault := false, ldq := false, fmt := 0 }

/-- Filled slots in a row from HEAD (Table 12.1). -/
def Queue.readyFrom (q : Queue) : Nat → Nat → Nat
  | 0, _ => 0
  | fuel + 1, i => if i < q.count ∧ (q.slot (q.head + i)).filled then 1 + q.readyFrom fuel (i + 1) else 0

def Queue.ready (q : Queue) : Nat := q.readyFrom 16 0

/-- Entries that were reserved before cycle `now`: the pops of a cycle come before its reservations (R225). -/
def Queue.settled (q : Queue) (now : Nat) : Nat :=
  match q.fresh with
  | some (n, k) => if n = now then min q.count (k - q.removed) else q.count
  | none => q.count

/-- A pop need not wait in cycle `now` (R225). -/
def Queue.poppable (q : Queue) (now : Nat) : Bool := q.ready != 0 && q.settled now != 0

/-- Reserve a slot at the tail in cycle `now` (R225). -/
def Queue.reserve (q : Queue) (now : Nat) (x : Slot) : Queue :=
  { q.setSlot (q.head + q.count) x with
    count := q.count + 1, reserved := q.reserved + 1,
    fresh := if q.fresh.any (·.1 == now) then q.fresh else some (now, q.reserved) }

/-- Take the slot at HEAD (R225). -/
def Queue.pop (q : Queue) : Queue :=
  { q.setSlot q.head Slot.empty with head := (q.head + 1) % 16, count := q.count - 1, removed := q.removed + 1 }

/-- The entry just taken may yet be given back: its slot stays occupied (R228; notes/assumptions/67.md). -/
def Queue.hold (q : Queue) : Queue := { q with held := q.held + 1 }

/-- The instruction that took an entry can no longer be refused: the slot is free. -/
def Queue.release (q : Queue) : Queue := { q with held := q.held - 1 }

/-- Give back the entry a refused instruction took (R228): it is the oldest again. -/
def Queue.unpop (q : Queue) (x : Slot) : Queue :=
  { q.setSlot (q.head + 15) x with
    head := (q.head + 15) % 16, count := q.count + 1, removed := q.removed - 1, held := q.held - 1 }

/-- Slots that are reserved or still occupied. -/
def Queue.used (q : Queue) : Nat := q.count + q.held

/-- The place of slot `i` in the order of a queue, from HEAD on. -/
def Queue.place (q : Queue) (i : Nat) : Nat := (i + 16 - q.head) % 16

/-- Slot `i` is one that the queue holds; 16 names none. -/
def Queue.holdsSlot (q : Queue) (i : Nat) : Bool := decide (i < 16 ∧ q.place i < q.count)

/-- Take back the reservation of slot `i`: later entries move up (R228). -/
def Queue.dropAt (q : Queue) (i : Nat) : Queue :=
  if q.holdsSlot i then
    let d := q.place i
    { q with
      slots := Vector.ofFn fun j =>
        let n := q.place j.val
        if n < d then q.slot j.val
        else if n + 1 < q.count then q.slot (j.val + 1)
        else Slot.empty,
      count := q.count - 1, reserved := q.reserved - 1,
      fresh := q.fresh.map fun x => (x.1, if q.removed + d < x.2 then x.2 - 1 else x.2) }
  else q

/-- LDQ elements reserved and not yet filled (R225). -/
def Queue.inFlight (q : Queue) : Nat :=
  ((List.range 16).filter fun i => decide (i < q.count) && (q.slot (q.head + i)).ldq && !(q.slot (q.head + i)).filled).length

/-- An LDQ may reserve (R225). -/
def Queue.roomForLdq (q : Queue) : Bool := decide (q.used < 16 ∧ q.inFlight < q.limit)

/-- Entry `n` is there and filled (R237). -/
def Queue.filledAt (q : Queue) (n : Nat) : Bool := decide (n < q.count) && (q.slot (q.head + n)).filled

/-- The queue allows what a line waits for on it (R159): entries that a QDRAIN found have gone, room, an entry. -/
def Queue.allows (q : Queue) (now : Nat) (t : Thread) : Bool :=
  match t.await with
  | .queueRoom => decide (q.used < 16)
  | .queueLdq => q.roomForLdq
  | .queueIdle => q.inFlight == 0
  | .queuePeek n => q.filledAt n
  | _ => if bitAt t.wobj.toNat 4 then t.drain.elim true fun x => decide (x.2 ≤ q.removed) else q.poppable now

def Crew.queue (c : Crew) (q : Reg) : Queue := c.queues[q]
def Crew.setQueue (c : Crew) (q : Reg) (x : Queue) : Crew := { c with queues := c.queues.set q x }
/-- The crew declared the queue (R224). -/
def Crew.hasQueue (c : Crew) (q : Reg) : Bool := decide (q.val < c.decl.queues)

/-- Wake the lines of the crew that wait on a queue and may now go on (R159, R225). -/
def State.wakeQueue (s : State) (crew : Nat) (q : Reg) (now : Nat) : State :=
  match s.crew? crew with
  | none => s
  | some c => s.wakeWhere fun t =>
      t.st == .waiting && t.crewn.toNat == crew && t.wkind.toNat == 2 && t.wobj.toNat % 8 == q.val && (c.queue q).allows now t

/-- Change a queue of a crew and wake its waiters. -/
def State.modQueue (s : State) (crew : Nat) (q : Reg) (f : Queue → Queue) : State :=
  (s.modCrew crew fun c => c.setQueue q (f (c.queue q))).wakeQueue crew q s.clock

/-- A cycle has ended: what it has reserved and filled may be popped from the next cycle on (R225). -/
def State.settleQueues (s : State) (now : Nat) : State :=
  (s.crews.filter fun e => e.2.queues.any fun q => q.fresh.isSome).foldl (init := s) fun s e =>
    (List.finRange 8).foldl (init := s) fun s q =>
      if (e.2.queue q).fresh.isSome then
        (s.modCrew e.1 fun c => c.setQueue q { c.queue q with fresh := none }).wakeQueue e.1 q now
      else s

/-- Fill a reserved slot (R225). -/
def State.fillSlot (s : State) (crew : Nat) (q : Reg) (i : Nat) (v : Word) (fault : Bool) : State :=
  s.modQueue crew q fun x => if x.holdsSlot i then x.setSlot i { x.slot i with val := v, filled := true, fault := fault } else x

/-- Every place where the slots that a crew's instructions have still to fill, and the entries they may give back, are noted. -/
def State.mapSlots (s : State) (crew : Nat) (slot : Reg × Nat → Reg × Nat) (pop : Reg × Slot → Option (Reg × Slot)) : State :=
  { s with
    threads := s.threads.map fun (e : Nat × Thread) =>
      if crewOf e.1 = crew then
        (e.1, { e.2 with
          unbound := e.2.unbound.map fun a =>
            { a with kind := match a.kind with
              | .ldq p n f => .ldq p (slot (p, n)).2 f
              | x => x },
          landing := e.2.landing.map fun x => (x.1, (slot (x.1, x.2.1)).2, x.2.2),
          finish := e.2.finish.map fun f => { f with slot := f.slot.map slot, popped := f.popped.bind pop } })
      else e,
    tiles := s.tiles.map fun (e : Nat × Tile) =>
      (e.1, { e.2 with
        momentQ := e.2.momentQ.map fun m =>
          if crewOf m.thread = crew then { m with push := m.push.map slot, popped := m.popped.bind pop } else m }) }

/-- Where slot `j` of a queue stands once the reservation of slot `i` is gone. -/
def Queue.movedSlot (q : Queue) (i j : Nat) : Nat :=
  if q.holdsSlot j && decide (q.place i < q.place j) then (j + 15) % 16 else j

/-- The mark of a QDRAIN once the reservation that was entry `n` of its queue is gone (R236). -/
def Thread.lowerMark (t : Thread) (q : Reg) (n : Nat) : Thread :=
  { t with drain := t.drain.map fun x => if x.1 = q ∧ n < x.2 then (q, x.2 - 1) else x }

/-- A refused instruction gives back the slot it reserved (R228); what its crew has still to fill in later slots follows them,
and a QDRAIN no longer waits for it (R236). -/
def State.dropSlot (s : State) (crew : Nat) (q : Reg) (i : Nat) : State :=
  match (s.crew? crew).map (·.queue q) with
  | none => s
  | some x =>
    if x.holdsSlot i then
      let s := s.mapSlots crew (fun p => if p.1 = q then (q, x.movedSlot i p.2) else p) some
      let s := { s with
        threads := s.threads.map fun (e : Nat × Thread) =>
          if crewOf e.1 = crew then (e.1, e.2.lowerMark q (x.removed + x.place i)) else e }
      s.modQueue crew q (·.dropAt i)
    else s

/-- QCFG discards what a queue holds: no instruction has a slot of it to fill or an entry to give back (R233). -/
def State.forgetQueue (s : State) (crew : Nat) (q : Reg) : State :=
  s.mapSlots crew (fun p => if p.1 = q then (q, 16) else p) fun x => if x.1 = q then none else some x

/-- What an instruction took of its crew's queues goes back: the slot it reserved, then the entry its g6 popped (R228). -/
def State.returnSlots (s : State) (crew : Nat) (slot : Option (Reg × Nat)) (popped : Option (Reg × Slot)) : State :=
  let s := slot.elim s fun x => s.dropSlot crew x.1 x.2
  popped.elim s fun x => s.modQueue crew x.1 (·.unpop x.2)

/-- The entry an instruction popped stays taken. -/
def State.keepPopped (s : State) (crew : Nat) (popped : Option (Reg × Slot)) : State :=
  popped.elim s fun x => s.modQueue crew x.1 Queue.release

/-! ### Fault records -/

/-- The fields of a fault record that differ from a plain fault's (Table 8.6). -/
structure FaultInfo where
  code   : Nat
  double : Bool := false
  deferred : Bool := false
  ucode  : Nat := 0
  apc    : Option (BitVec 56) := none
  addr   : Nat := 0
  reg    : Nat := 0
  regv   : Bool := false
  size   : Nat := 0
  store  : Bool := false
  data   : Nat := 0
deriving DecidableEq, Repr

/-- The eight words of a line's fault record (Table 8.6). -/
def Thread.faultRecord (t : Thread) (f : FaultInfo) : List Nat :=
  [f.code + 2 ^ 8 * b2n f.double + 2 ^ 9 * b2n f.deferred + 2 ^ 16 * f.ucode, t.gtid.toNat, t.ident, t.pc.toNat,
   (f.apc.getD t.pc).toNat, f.addr % 2 ^ 64, f.reg + 2 ^ 3 * b2n f.regv + 2 ^ 4 * f.size + 2 ^ 7 * b2n f.store,
   f.data % 2 ^ 64]

/-- The place of a ring's next record. -/
def Ring.next (r : Ring) : Nat := r.base + 64 * (r.tail % Config.ringSize)

/-- Write a record into a mender's ring at its tail; it binds at the ring's time, no earlier than `time` (R189, R192). -/
def State.ringPlace (s : State) (m : Nat) (ws : List Nat) (time : LTime) : State :=
  let r := s.ring m
  let (w, s) := s.storeRange {} (.phys r.next) 64 (ws.flatMap (natBytes 8)) 0 (tmax r.time time)
  s.modRing m fun r => { r with tail := r.tail + 1, time := w }

/-- The ring has room. -/
def Ring.room (r : Ring) : Bool := decide (r.tail - r.head < Config.ringSize)

/-- The line of a ring's next record is held by the host or frozen (R210, R212). -/
def State.ringBusy (s : State) (m : Nat) : Bool := s.homeBusy (.phys (s.ring m).next)

/-- An access to lines the host holds sends it a back-invalidate snoop for each (R212). -/
def State.snoop (s : State) (lines : List Nat) : State :=
  lines.foldl (init := s) fun s l =>
    if s.mem.hostHeld.contains l && !s.mem.snooped.contains l then
      { s with mem := { s.mem with snooped := l :: s.mem.snooped } }
    else s

/-- Send a record to a mender: placed in its ring, or waiting at the mending net while the ring is full (R189), or while the line
of its place is held by the host, which is snooped (R212). -/
def State.ringSend (s : State) (m : Nat) (ws : List Nat) (time : LTime) : State :=
  let r := s.ring m
  if r.room && r.waiting.isEmpty && !s.ringBusy m then s.ringPlace m ws time
  else
    let s := s.modRing m fun r => { r with waiting := r.waiting ++ [ws.map (BitVec.ofNat 64)] }
    if r.room then s.snoop [r.next / 128] else s

/-- The mender of a crew (R189). -/
def State.mender (s : State) (crew : Nat) : Nat := (s.crew? crew).elim 0 fun c => menderOf c.tile

/-- A faulting instruction that waited to complete gives back the slot it reserved; the entry it popped stays taken by a fault
found later at a home, and else goes back (R228). -/
def State.backOut (s : State) (t : Thread) (deferred : Bool) : State :=
  match t.finish with
  | none => s
  | some f =>
    let c := t.crewn.toNat
    if deferred then (s.returnSlots c f.slot none).keepPopped c f.popped else s.returnSlots c f.slot f.popped

/-- A system fault of a line: it stops and loses its pin (R179), and its mender receives the record (R189, R190). -/
def State.sysFault (s : State) (k : Nat) (f : FaultInfo) : State :=
  match s.thread? k with
  | none => s
  | some t =>
    let s := s.backOut t f.deferred
    let t' := { t.clearWait with st := .faulted, trapq := none, fetchStall := none, finish := none, pin := false }
    let s := s.setThread k t'
    let s := s.offer (t.event 3 f.code 0 (t.pc.setWidth 64))
    s.ringSend (s.mender t.crewn.toNat) (t.faultRecord f) t.pts

/-- A user trap that leaves the crew: the line is trapped and the mender is told (R188, R223). -/
def State.escalate (s : State) (k : Nat) (ti : TrapInfo) (double : Bool) : State :=
  match s.thread? k with
  | none => s
  | some t =>
    let s := s.setThread k { t.clearWait with st := .trapped, trapq := none, fetchStall := none, pin := false }
    let s := s.offer (t.event 3 ti.code 0 (t.pc.setWidth 64))
    s.ringSend (s.mender t.crewn.toNat)
      (t.faultRecord { code := ti.code, double := double, ucode := ti.code, addr := ti.addr, size := ti.size,
                       store := ti.store, data := ti.data }) t.pts

/-- A deferred home fault owed to a line stops it: the record names the access, and the fault is no longer owed (R190). -/
def State.stopDeferred (s : State) (k : Nat) (d : Deferred) : State :=
  let s := s.modThread k fun t => { t with deferred := t.deferred.erase d }
  s.sysFault k { code := d.code, deferred := true, apc := some d.apc, addr := d.addr, reg := d.reg, regv := d.regv,
                 size := d.size, store := d.store, data := d.data }

/-! ### Registers as they are written -/

/-- Write a destination register: a bound g7 pushes instead and is left unchanged (R226). -/
def State.wr (s : State) (k : Nat) (d : Reg) (v : Word) : State :=
  match s.thread? k with
  | none => s
  | some t =>
    if d = 7 ∧ t.pushv then
      s.modQueue t.crewn.toNat t.pushq fun q => q.reserve s.clock { Slot.empty with val := v, filled := true }
    else s.setThread k (t.setReg d v)

/-- The pending register is released, and a line that waited on it is ready (R72, R166). One whose trap entry waited on it goes
on to wait for its accesses, or, with none left, is ready, and its instruction raises the trap afresh (R185). -/
def Thread.releaseReg (t : Thread) : Thread :=
  let t := { t with pend := none }
  if t.st = .waiting ∧ t.wkind = 1 then
    match t.trapq, t.unbound with
    | some _, _ :: _ => t.toWait 0 0 .accesses
    | _, _ => { t with trapq := none }.wake
  else t

/-- A value owed to a line lands wherever the line is (R72, R166). -/
def Thread.land (t : Thread) (r : Reg) (v : Word) : Thread := (t.setReg r v).releaseReg

/-! ### Draining (R117, R133) -/

/-- Mark the thread's write-combining entries as draining, in whatever core's buffer they are (R118). -/
def State.markDraining (s : State) (k : Nat) : State :=
  { s with cores := s.cores.map fun e =>
      (e.1, { e.2 with wc := e.2.wc.map fun w => if w.thread = k then { w with draining := true } else w }) }

/-- The write-combining entries of a thread, with the core whose buffer holds each. -/
def State.wcOf (s : State) (k : Nat) : List (Nat × WcEntry) :=
  s.cores.flatMap fun e => (e.2.wc.filter fun w => w.thread == k).map fun w => (e.1, w)

/-- The aligned 64-byte block a target lies in, by where it leads: two addresses of one place name one block. -/
def Target.block : Target → Nat
  | .phys pa => pa / 64
  | .ws off => (wsBase + off) / 64
  | .spad c off => spadPa c off / 64
  | .ctx th b => 2 ^ 47 + th * 2 + b / 64

/-- An entry holds a block that these pieces touch. -/
def WcEntry.touches (w : WcEntry) (ps : List Part) : Bool :=
  ps.any fun p => w.target.block == p.target.block || w.target.block == (p.target.plus (p.bytes - 1)).block

/-- The thread's own write-combining entries that hold a block of these pieces. -/
def State.wcHolds (s : State) (k : Nat) (ps : List Part) : Bool := (s.wcOf k).any fun w => w.2.touches ps

/-- Start to drain the thread's entries that hold a block of these pieces. -/
def State.drainBlocks (s : State) (k : Nat) (ps : List Part) : State :=
  { s with cores := s.cores.map fun e =>
      (e.1, { e.2 with wc := e.2.wc.map fun w =>
        if w.thread = k ∧ w.touches ps then { w with draining := true } else w }) }

/-- Nothing of the thread is unbound or still to drain. -/
def State.drained (s : State) (k : Nat) (t : Thread) : Bool := t.unbound.isEmpty && (s.wcOf k).isEmpty

/-- A line that waits for its own accesses is ready once they have bound and drained (R159), and one that waits for the
accesses under a key looks again (R207). -/
def State.wakeOwn (s : State) (k : Nat) : State :=
  let s := s.wakeAwait .key
  match s.thread? k with
  | none => s
  | some t =>
    if t.await = .accesses ∧ t.unbound.isEmpty ∧ (s.wcOf k).all (fun w => !w.2.draining) then s.setThread k t.wake else s

/-- The bits of a piece's value `v` that the thread's own write-combining entries hold are theirs (R116, R119;
notes/assumptions/66.md). -/
def State.overlay (s : State) (k : Nat) (p : Part) (v : Nat) : Nat :=
  (s.wcOf k).foldl (init := v) fun v e =>
    if e.2.target.block = p.target.block then
      let sh := p.target.pos % 64 * 8
      mergeBits v (e.2.bits / 2 ^ sh % 2 ^ (8 * p.bytes)) (e.2.mask / 2 ^ sh % 2 ^ (8 * p.bytes))
    else v

/-- The bytes of pieces that lie within one block each, with the thread's own buffered bits in them. -/
def State.overlayAll (s : State) (k : Nat) : List Part → List Byte → List Byte
  | [], bs => bs
  | p :: ps, bs => natBytes p.bytes (s.overlay k p (leNat (bs.take p.bytes))) ++ s.overlayAll k ps (bs.drop p.bytes)

/-! ### Memory as a line's own sequential accesses, bound at once -/

/-- The lines of global memory an access reaches. -/
def linesOfParts (ps : List Part) : List Nat :=
  ps.filterMap fun p => match p.target with
    | .phys pa => some (pa / 128)
    | _ => none

/-- Why an access bound at once does not bind. -/
inductive Block where
  | stop (e : Stop) (va : Nat)
  | home (code va : Nat)
  | busy (a : Await) (lines : List Nat)
  | bank (b : Nat)
deriving DecidableEq, Repr

/-- A bank of the weight store, by offset bits 15:12 (R107). -/
def wsBankOf (off : Nat) : Nat := field off 12 4

/-- The banks that `n` bytes of the weight store from `off` on lie in. -/
def wsBanks (off n : Nat) : List Nat :=
  ((List.range 17).filter fun j => decide (0 < n ∧ off / 4096 * 4096 + 4096 * j < off + n)).map fun j => wsBankOf (off + 4096 * j)

/-- The bank of the weight store that keeps an access waiting: one that is refreshing, or one WSLD is writing (R107, R211). -/
def State.wsWait (s : State) (ps : List Part) : Option Nat :=
  ps.findSome? fun p => match p.target with
    | .ws off => (wsBanks off p.bytes).find? fun b =>
        (s.mem.wsActive && s.mem.wsBank == b) || s.mem.wsWrite.elim false fun w => (wsBanks w.1 w.2).contains b
    | _ => none

/-- Crew `d` may make an access at these bytes of crew `c`'s scratchpad (R345). -/
def State.windowAllows (s : State) (d c off n : Nat) (rd wr : Bool) : Bool :=
  match s.crewSeen c, s.crew? d with
  | some x, some y =>
    x.task.gtid == y.task.gtid && decide (off + n ≤ x.decl.scratch) &&
      x.win.toList.any fun w =>
        let v := w.toNat
        let base := field v 4 16 * 16
        let peer := field v 40 20
        bitAt v 0 && (!rd || bitAt v 1) && (!wr || bitAt v 2) && (peer == d || peer == 0xFFFFF) &&
          decide (base ≤ off ∧ off + n ≤ base + field v 20 17 * 16)
  | _, _ => false

/-- An access to another crew's scratchpad: allowed, refused (REMREF), or waiting for a displaced crew (R345, R346). -/
def State.remoteCheck (s : State) (d : Nat) (p : Part) (rd wr : Bool) : Except Block Unit :=
  match p.target with
  | .spad c off =>
    if c = d then .ok ()
    else if (s.crew? c).elim false (·.displaced) then .error (.busy .remote [])
    else if s.windowAllows d c off p.bytes rd wr then .ok ()
    else .error (.stop (.user codeRemref) 0)
  | _ => .ok ()

/-- The bytes of crew `c`'s scratchpad that pieces reach: the offset of the first, and past the last. -/
def spadSpan (c : Nat) (ps : List Part) : Nat × Nat :=
  ps.foldl (init := (2 ^ 20, 0)) fun m p => match p.target with
    | .spad x off => if x = c then (min m.1 off, max m.2 (off + p.bytes)) else m
    | _ => m

/-- The test of one access whose pieces are `ps`: each crew it reaches tests all the bytes it has there (R345). -/
def State.remoteTest (s : State) (d : Nat) (ps : List Part) (rd wr : Bool) : Option Block :=
  ps.findSome? fun p => match p.target with
    | .spad c _ =>
      let x := spadSpan c ps
      (match s.remoteCheck d { p with target := .spad c x.1, bytes := x.2 - x.1 } rd wr with
        | .error b => some b
        | .ok _ => none)
    | _ => none

/-- The address of the first piece of a range that does not resolve. -/
def State.stopAt (s : State) (a : Agent) (va : Nat) (r : Right) (ps : List (Nat × Nat)) : Nat :=
  va + (ps.find? fun p => match (s.resolve a (va + p.1) p.2 r).1 with
    | .error _ => true
    | .ok _ => false).elim 0 (·.1)

/-- The address of the first piece of a range whose home faults. -/
def State.homeFaultAt (s : State) (va : Nat) : List Part → Nat
  | [] => va
  | p :: ps => if s.homeFault p.target p.attr.owner ≠ 0 then va else s.homeFaultAt (va + p.bytes) ps

/-- Read `n` bytes at a virtual address as sequential loads bound at once, in pieces of at most `unit` bytes. -/
def State.readNow (s : State) (k va n unit : Nat) : Except Block (List Byte) × State :=
  match s.thread? k with
  | none => (.error (.stop (.sys codeXlate) va), s)
  | some t =>
    let va := va % 2 ^ 56
    let cut := pieces unit va (n / unit + 2) n
    match s.resolveAll (s.agent t) va .read cut with
    | (.error e, s) => (.error (.stop e (s.stopAt (s.agent t) va .read cut)), s)
    | (.ok ps, s) =>
      match ps.findSome? fun p => match s.remoteCheck t.crewn.toNat p true false with
          | .error b => some b
          | .ok _ => none with
      | some (.stop e _) => (.error (.stop e va), s)
      | some b => (.error b, s)
      | none =>
        let f := s.partsFault ps
        if f ≠ 0 then (.error (.home f (s.homeFaultAt va ps)), s)
        else if ps.any fun p => s.homeBusy p.target then (.error (.busy .frozenLine (linesOfParts ps)), s)
        else if let some b := s.wsWait ps then (.error (.bank b), s)
        else
          let (bs, tm, s) := s.loadParts (s.tileOfLine t) 3 t.pts ps
          (.ok (s.overlayAll k ps bs), s.modThread k fun t => t.acquire tm)

/-- Read as `readNow` does, with the line's logical times as they were: trap entry's look at VALID (R185). -/
def State.peekNow (s : State) (k va n unit : Nat) : Except Block (List Byte) × State :=
  let r := s.readNow k va n unit
  (r.1, match s.thread? k with
    | some t => r.2.modThread k fun u => { u with pts := t.pts, acq := t.acq }
    | none => r.2)

/-- Store bytes at a virtual address as sequential stores bound at once. -/
def State.writeNow (s : State) (k va unit : Nat) (bs : List Byte) : Except Block Unit × State :=
  match s.thread? k with
  | none => (.error (.stop (.sys codeXlate) va), s)
  | some t =>
    let va := va % 2 ^ 56
    let n := bs.length
    let ag := s.agent t
    let cut := pieces unit va (n / unit + 2) n
    match s.resolveAll ag va .write cut with
    | (.error e, s) => (.error (.stop e (s.stopAt ag va .write cut)), s)
    | (.ok ps, s) =>
      match ps.findSome? fun p => match s.remoteCheck t.crewn.toNat p false true with
          | .error b => some b
          | .ok _ => none with
      | some (.stop e _) => (.error (.stop e va), s)
      | some b => (.error b, s)
      | none =>
        let f := s.partsFault ps
        if f ≠ 0 then (.error (.home f (s.homeFaultAt va ps)), s)
        else if ps.any fun p => s.homeBusy p.target then (.error (.busy .frozenLine (linesOfParts ps)), s)
        else
          let (tm, s) := s.storeParts (ag.via .device 3) (leNat bs) (fullMask n) t.pts ps
          (.ok (), s.modThread k fun t => t.raise tm)

/-! ### Taking a user trap (R185) -/

/-- Write the eight words of a trap record in order; false at the first that cannot be written (R185). -/
def State.writeWords (k : Nat) : (va : Nat) → List Nat → State → Bool × State
  | _, [], s => (true, s)
  | va, w :: ws, s =>
    match s.writeNow k va 8 (natBytes 8 w) with
    | (.error _, s) => (false, s)
    | (.ok _, s) => State.writeWords k (va + 8) ws s

/-- The first 64 bits at a line's PC; zero for FETCHX, and where they cannot be fetched (R186). -/
def State.insnWord (s : State) (t : Thread) (code : Nat) : Nat :=
  if code = codeFetchx then 0
  else match (s.fetchAddr t).1 with
    | .ok p => leNat (s.ownedBytes p.attr.owner p.target.pos 8)
    | .error _ => 0

/-- The address of a line's trap record. -/
def recordVa (c : Crew) (t : Thread) : Nat := c.tarea.toNat + 64 * t.tidx.toNat

/-- After trap entry or a retirement, a line being single-stepped stops (R409). -/
def State.stepStop (s : State) (k : Nat) : State :=
  match s.thread? k with
  | some t =>
    if t.stepb ∧ t.st = .ready then
      (s.setThread k { t with st := .debugStopped }).offer (t.event 2 0 0 (t.pc.setWidth 64))
    else s
  | none => s

/-- TrapEntry of R185, once nothing is pending or unbound: a deferred fault takes its place; with no handler, or with a
record still valid, or when the record cannot be written, it escalates (R188); else the record is written, g1 and g2 take
the code and the record's address, and the PC goes to TVEC. While the record's line is frozen (R210) or held by the host
(R212), the line waits, and its instruction then raises the trap afresh. -/
def State.enterTrap (s : State) (k : Nat) (ti : TrapInfo) : State :=
  match s.thread? k with
  | none => s
  | some t =>
    match t.deferred with
    | d :: _ => s.stopDeferred k d
    | [] =>
      match s.crewSeen t.crewn.toNat with
      | none => s.escalate k ti false
      | some c =>
        if c.tvec = 0 then s.escalate k ti false
        else
          let rec_ := recordVa c t
          match s.peekNow k rec_ 8 8 with
          | (.error (.busy a ls), s) => (s.modThread k fun t => { t.toWait 0 0 a with trapq := none }).snoop ls
          | (.error (.bank b), s) => s.modThread k fun t => { t.toWait 11 b .bankWrite with trapq := none }
          | (.error _, s) => s.escalate k ti false
          | (.ok bs, s) =>
            if bitAt (leNat bs) 8 then s.escalate k ti true
            else
              let ws := [ti.code + 2 ^ 8 + 2 ^ 16 * ti.info, t.pc.toNat, s.insnWord t ti.code, ti.addr % 2 ^ 64,
                         ti.detail % 2 ^ 64, (t.reg 1).toNat, (t.reg 2).toNat, t.qb]
              match State.writeWords k rec_ ws s with
              | (false, s) => s.escalate k ti false
              | (true, s) =>
                let s := s.offer (t.event 3 ti.code 0 (t.pc.setWidth 64))
                let s := s.modThread k fun t =>
                  let t := (t.setReg 1 (BitVec.ofNat 64 ti.code)).setReg 2 (BitVec.ofNat 64 rec_)
                  { t.clearWait with st := .ready, trapq := none, popv := false, pushv := false,
                                     pc := BitVec.ofNat 56 c.tvec.toNat }
                s.stepStop k

/-- Where the record of a line's trap goes, if its address resolves. -/
def State.recordParts (s : State) (t : Thread) : List Part :=
  match s.crewSeen t.crewn.toNat with
  | none => []
  | some c =>
    match (s.resolveAll (s.agent t) (recordVa c t % 2 ^ 56) .write (pieces 8 (recordVa c t) 9 64)).1 with
    | .ok ps => ps
    | .error _ => []

/-- The record of a line's trap would be stored to a block that the line still holds in a write-combining entry (R117). -/
def State.recordHeld (s : State) (k : Nat) (t : Thread) : Bool := s.wcHolds k (s.recordParts t)

/-- A user trap: it is entered at once, or waits for the pending register and for earlier accesses (R185), entries that hold
its record's block among them (R117). -/
def State.userTrap (s : State) (k : Nat) (ti : TrapInfo) : State :=
  match s.thread? k with
  | none => s
  | some t =>
    match t.pend with
    | some p => s.setThread k { t.toWait 1 p.reg.val .nothing with trapq := some ti }
    | none =>
      if t.unbound.isEmpty && !s.recordHeld k t then s.enterTrap k ti
      else (s.setThread k { t.toWait 0 0 .accesses with trapq := some ti }).drainBlocks k (s.recordParts t)

/-! ### Retirement -/

/-- Start of a level's body and its end, for an address in its region ("Hardware loops"). -/
def LoopLevel.start (l : LoopLevel) (a : Nat) : Nat := a / 2 ^ 18 * 2 ^ 18 + l.bstart.toNat * 4
def LoopLevel.stop (l : LoopLevel) (a : Nat) : Nat := l.start a + 4 * l.blen.toNat

/-- The instruction at `a` of `len` bytes ends the body of an active level. -/
def LoopLevel.endsAt (l : LoopLevel) (a len : Nat) : Bool := decide (l.start a ≤ a ∧ a + len = l.stop a)

/-- LoopEndStep of R100 after a fall-through from `a`: level 1 first. -/
def Thread.loopEnd (t : Thread) (a len : Nat) : Thread :=
  let lvl0 (t : Thread) : Thread :=
    if t.lact0 && t.loop0.endsAt a len then
      let n := t.loop0.count - 1
      let t := { t with lact1 := false, loop0 := { t.loop0 with count := n } }
      if n ≠ 0 then { t with pc := BitVec.ofNat 56 (t.loop0.start a) } else { t with lact0 := false }
    else t
  if t.lact1 && t.loop1.endsAt a len then
    let n := t.loop1.count - 1
    let t := { t with loop1 := { t.loop1 with count := n } }
    if n ≠ 0 then { t with pc := BitVec.ofNat 56 (t.loop1.start a) } else lvl0 { t with lact1 := false }
  else lvl0 t

/-- An instruction that begins inside an active body and ends past its end (R101). -/
def Thread.pastBody (t : Thread) (len : Nat) : Bool :=
  let a := t.pc.toNat
  let bad (act : Bool) (l : LoopLevel) : Bool := act && decide (l.start a ≤ a ∧ a < l.stop a ∧ l.stop a < a + len)
  bad t.lact0 t.loop0 || bad t.lact1 t.loop1

/-- Fall through to the next address, with the loop-end step (R100). -/
def Thread.fallThrough (t : Thread) (len : Nat) : Thread :=
  let a := t.pc.toNat
  Thread.loopEnd { t with pc := BitVec.ofNat 56 (a + len), gone := none } a len

/-- A thread of the crew retires an instruction: the watchdog's count starts again (R191). -/
def State.noteRetired (s : State) (crew : Nat) : State :=
  match s.crew? crew with
  | some c => if c.watchArmed then s else s.setCrew crew { c with watchArmed := true }
  | none => s

/-- Retire an instruction that falls through (R100, R409). -/
def State.retireAt (s : State) (k len : Nat) : State :=
  ((s.modThread k fun t => t.fallThrough len).noteRetired (crewOf k)).stepStop k

/-- Retire an instruction that sets the PC otherwise. -/
def State.jumpTo (s : State) (k : Nat) (pc : BitVec 56) : State :=
  ((s.modThread k fun t => { t with pc := pc }).noteRetired (crewOf k)).stepStop k

/-- An instruction that waited after taking effect completes: its destination is written, or the slot of a queue that its
bound g7 reserved at issue is filled (R226), the entry its g6 took is gone for good (R228), and it retires. -/
def State.complete (s : State) (k : Nat) : State :=
  match s.thread? k with
  | some t =>
    match t.finish with
    | some f =>
      let s := s.setThread k { t.clearWait with st := .ready, finish := none }
      let s := s.keepPopped t.crewn.toNat f.popped
      let s := match f.dest, f.slot with
        | some (_, v), some (q, i) => s.fillSlot t.crewn.toNat q i v false
        | some (d, v), none => s.wr k d v
        | none, _ => s
      s.retireAt k f.len
    | none => s
  | none => s

/-! ### Issue (R51) -/

/-- What an instruction's register fields read and write, for R72, R226 and R227. -/
structure Uses where
  src  : List Reg := []
  srcPair : List Reg := []      -- even registers of pair fields that are read
  dst  : List Reg := []
  dstPair : List Reg := []
  pend : Bool := false          -- the destination becomes pending, or a long operation starts
  seq  : Bool := false          -- a sequential access other than LDQ (R112)
  ldq  : Bool := false          -- an LDQ: stopped by an owed fault, never waiting for earlier accesses (R112, R123)
  drains : Bool := false        -- a draining event (R117)
  priv : Bool := false
  tile : Bool := false          -- predicated by a tile predicate (R45)
  lbrk : Bool := false          -- an LBRK: no loop-end step follows it, not even under a false predicate (R102)
deriving DecidableEq, Repr

def nextReg (r : Reg) : Reg := ⟨(r.val + 1) % 8, by omega⟩

def Uses.reads (u : Uses) : List Reg := u.src ++ u.srcPair.flatMap fun r => [r, nextReg r]
def Uses.writes (u : Uses) : List Reg := u.dst ++ u.dstPair.flatMap fun r => [r, nextReg r]

/-- The registers of a second source. -/
def srcRegs : Src → List Reg
  | .reg b => [b]
  | .imm _ => []

/-- What the body of an instruction does. -/
inductive Effect where
  | retire (s : State)                                    -- retires by falling through
  | jump (pc : BitVec 56) (s : State)                     -- retires with a new PC
  | wait (kind obj : Nat) (a : Await) (f : State → State) -- does not issue: `f` is what the attempt starts
  | trap (t : TrapInfo)                                   -- a precise user trap
  | stop (f : FaultInfo)                                  -- a system fault
  | fell (f : FaultInfo) (s : State)                      -- a home fault met after a pop, which stays taken (R228)
  | marked (f : FaultInfo)                                -- a pop or peek that reaches a fault mark: nothing is taken (R230)
  | later (q : Reg)                                       -- a reservation: the pops of its cycle come first (R225)
  | hold (s : State)                                      -- has taken effect and waits to complete
  | gone (s : State)                                      -- has taken effect on the line itself
  | halt (s : State)                                      -- does not issue: an owed fault has stopped the line

/-- A plain user trap. -/
def Effect.user (code : Nat) (info : Nat := 0) (addr : Nat := 0) (detail : Nat := 0) : Effect :=
  .trap { code := code, info := info, addr := addr, detail := detail }

/-- A wait with nothing started. -/
def Effect.waits (kind obj : Nat) (a : Await := .nothing) : Effect := .wait kind obj a id

/-- A plain system fault at an address. -/
def Effect.sys (code addr : Nat) : Effect := .stop { code := code, addr := addr }

/-- What the record of a fault says of the access (Table 8.6, R223): log2 of its size in bytes, whether it is a store, and its
store data. -/
structure AccShape where
  size  : Nat := 3
  store : Bool := false
  data  : Nat := 0
deriving DecidableEq, Repr

/-- An access at `va` that does not resolve. -/
def Effect.ofStop (e : Stop) (va : Nat) (x : AccShape := {}) : Effect :=
  match e with
  | .sys c => .stop { code := c, addr := va, size := x.size, store := x.store, data := x.data }
  | .user c => .trap { code := c, addr := va, size := x.size, store := x.store, data := x.data }

/-- An access bound at once that does not bind. -/
def Effect.ofBlock (b : Block) (x : AccShape := {}) : Effect :=
  match b with
  | .stop e va => .ofStop e va x
  | .home c va => .stop { code := c, deferred := true, addr := va, size := x.size, store := x.store, data := x.data }
  | .busy a ls => .wait 0 0 a fun s => s.snoop ls
  | .bank b => .waits 11 b .bankWrite

/-- What the body of an instruction sees: its line as it stood at issue with a popped value in g6, and its crew. -/
structure Issue where
  k : Nat
  t : Thread
  c : Crew
  crew : Nat
  popped : Option (Reg × Slot) := none   -- the entry its g6 took
deriving DecidableEq, Repr

/-- A source register. -/
def Issue.reg (i : Issue) (r : Reg) : Word := i.t.reg r
/-- The second source S. -/
def Issue.src (i : Issue) : Src → Word
  | .reg b => i.t.reg b
  | .imm v => v.signExtend 64
/-- Write the destination and retire. -/
def Issue.put (i : Issue) (s : State) (d : Reg) (v : Word) : Effect := .retire (s.wr i.k d v)
/-- The slot an instruction that will write `d` only when it completes reserves now: a bound g7's (R226). -/
def Issue.reserve (i : Issue) (s : State) (d : Reg) : Option (Reg × Nat) × State :=
  if d = 7 ∧ i.t.pushv then
    let q := (s.crew? i.crew).elim Queue.reset (·.queue i.t.pushq)
    (some (i.t.pushq, (q.head + q.count) % 16),
     s.modQueue i.crew i.t.pushq fun x => x.reserve s.clock Slot.empty)
  else (none, s)
/-- The entry this instruction's g6 took may yet be given back. -/
def Issue.holdPop (i : Issue) (s : State) : State :=
  match i.popped with
  | some (q, _) => s.modQueue i.crew q Queue.hold
  | none => s
/-- The instruction has started what it waits for, with kind 0, and will write `d` when it completes. -/
def Issue.finishLater (i : Issue) (s : State) (d : Reg) (v : Word) (a : Await) : Effect :=
  let (slot, s) := i.reserve s d
  .hold <| s.modThread i.k fun t => { t.toWait 0 0 a with finish := some { dest := some (d, v), len := 8, slot := slot } }
/-- Write a flag and retire. -/
def Issue.putFlag (i : Issue) (s : State) (d : Reg) (v : Bool) : Effect :=
  .retire (s.modThread i.k fun t => t.setFlag d v)

/-- DrainWc and WaitBound (R117, R133): while something is left the instruction waits with kind 0; then pts takes every wts
the drained entries received, and `body` goes on. -/
def Issue.afterDrain (i : Issue) (s : State) (body : State → Effect) : Effect :=
  if s.drained i.k i.t then body (s.modThread i.k fun t => t.raise t.wcTime)
  else .wait 0 0 .accesses fun s => s.markDraining i.k

/-- The waits of R72 and R112 and the stop for a deferred fault (R123), in that place of R51. -/
inductive MustWait where
  | no
  | wait (kind obj : Nat) (a : Await)
  | owed (d : Deferred)

/-- A deferred fault stops this instruction (R123). -/
def Deferred.stops (d : Deferred) (u : Uses) : Bool :=
  if d.wc then u.drains
  else u.seq || u.ldq || u.drains ||
    (d.regv && (u.reads ++ u.writes).any fun r => r.val == d.reg || (d.pair && r.val == d.reg + 1))

/-- A non-binding load takes no place in the order of a thread's accesses (R112, R116). -/
def AccKind.isNb : AccKind → Bool
  | .load _ _ nb q | .loadPair _ nb q => nb && q == .plain
  | .loadBits _ _ nb => nb
  | _ => false

/-- A load or an atomic: what an outstanding access waits on under R72. -/
def AccKind.isLoad : AccKind → Bool
  | .store | .storePair | .storeBits | .ldq _ _ _ => false
  | .row st => !st
  | _ => true

/-- The thread's sequential accesses that have not yet bound (R112). -/
def Thread.sequential (t : Thread) : List Access := t.unbound.filter fun a => !a.kind.isNb

/-- MustWait of R51. -/
def Thread.mustWait (t : Thread) (u : Uses) : MustWait :=
  match t.deferred.find? fun d => d.stops u with
  | some d => .owed d
  | none =>
    match t.pend with
    | some p =>
      if u.pend || (u.reads ++ u.writes).any fun r => r == p.reg || (p.pair && r == nextReg p.reg) then
        .wait 1 p.reg.val .nothing
      else if u.seq ∧ !t.sequential.isEmpty then
        (if t.sequential.any fun a => a.kind.isLoad then .wait 1 p.reg.val .nothing else .wait 0 0 .accesses)
      else .no
    | none => if u.seq ∧ !t.sequential.isEmpty then .wait 0 0 .accesses else .no

/-- QMISUSE of R227: the queue number it names. -/
def Issue.misuse (i : Issue) (u : Uses) : Option Nat :=
  let t := i.t
  let pops := t.popv && u.reads.contains 6
  let pushes := t.pushv && u.writes.contains 7
  if t.popv && (u.writes.contains 6 || (u.srcPair ++ u.dstPair).contains 6) then some t.popq.val
  else if pops && !i.c.hasQueue t.popq then some t.popq.val
  else if t.pushv && (u.reads.contains 7 || (u.srcPair ++ u.dstPair).contains 6) then some t.pushq.val
  else if pushes && (!i.c.hasQueue t.pushq || u.pend) then some t.pushq.val
  else none

/-- The predicate of an instruction (R45). -/
def predTrue (p : Pred) (tile : Bool) (t : Thread) (c : Crew) : Bool :=
  let v := if tile then c.tilePred p.idx else t.flag p.idx
  xor v p.neg

/-- The fault record of a pop or peek that reaches a fault-marked slot (R230). -/
def slotFault (x : Slot) : FaultInfo :=
  { code := x.val.toNat / 2 ^ 56, deferred := true, addr := x.val.toNat % 2 ^ 56, reg := 6, regv := true,
    size := match x.fmt with
      | 0x01 | 0x02 | 0x14 | 0x15 => 0
      | 0x03 | 0x04 | 0x12 | 0x13 => 1
      | 0x05 | 0x06 | 0x11 => 2
      | _ => 3,
    data := x.fmt }

/-- Some other core has selected a line whose instruction has still to execute in this cycle. -/
def State.othersToGo (s : State) (core : Nat) : Bool :=
  s.cores.any fun e => e.1 != core && e.2.sel.isSome && s.due e.1

/-- A reservation of this instruction waits for the pops of its cycle, and for the reservations of lower-numbered cores that
wait for them (R225): asked once, while other cores have still to execute. -/
def Issue.yields (i : Issue) (s : State) (q : Reg) (full : Bool) : Bool :=
  match i.t.entryCore with
  | none => false
  | some n =>
    (s.core n).late.isNone && s.othersToGo n &&
      (full || s.cores.any fun e => decide (e.1 < n) && e.2.late == some (i.crew, q))

/-- Pop and push of R226, then the body. A pop or push that cannot proceed does not issue; a home fault does not undo a pop
(R228). -/
def Issue.withQueues (i : Issue) (u : Uses) (body : Issue → State → Effect) (s : State) : Effect :=
  match i.misuse u with
  | some q => .user codeQmisuse q
  | none =>
    let pops := i.t.popv && u.reads.contains 6
    let pushes := i.t.pushv && u.writes.contains 7
    let q := i.c.queue i.t.popq
    let full := decide ((i.c.queue i.t.pushq).used - (if pops ∧ i.t.popq = i.t.pushq then 1 else 0) ≥ 16)
    if pops && !q.poppable s.clock then .waits 2 i.t.popq.val
    else if pushes && i.yields s i.t.pushq full then .later i.t.pushq
    else if pushes && full then .waits 2 (i.t.pushq.val + 8) .queueRoom
    else if pops then
      let x := q.slot q.head
      if x.fault then .marked (slotFault x)
      else
        let s := s.modQueue i.crew i.t.popq Queue.pop
        match body { i with t := i.t.setReg 6 x.val, popped := some (i.t.popq, x) } s with
        | .stop f => if f.deferred then .fell f s else .stop f
        | e => e
    else body i s

/-- Note that the line issued: the spacing of R14, its place in the order of issues, and the end of the core's cycle with
the classes as they stood before. -/
def State.issued (s : State) (pre : State) (k : Nat) (core : Option Nat) : State :=
  match core with
  | none => s
  | some n =>
    let pc := (pre.thread? k).elim 0 (·.pc)
    let (st, s) := s.stamp
    let s := s.modThread k fun t => { t with eligible := pre.clock + 4, issueStamp := st }
    s.modCore n fun c => { pre.countCycle n (some k) c with lastKey := some k, lastPc := pc }

/-- The line could not issue: it waits, and its core looks for another line in the same cycle (R72). -/
def State.notIssued (s : State) (core : Option Nat) : State :=
  match core with
  | none => s
  | some n => s.selectLine n ((s.residents n).length + 1)

/-- Carry out an effect: `s` is the state before the instruction. -/
def Effect.apply (e : Effect) (i : Issue) (len : Nat) (s : State) : State :=
  let core := i.t.entryCore
  match e with
  | .retire s' => (s'.retireAt i.k len).issued s i.k core
  | .jump pc s' => (s'.jumpTo i.k pc).issued s i.k core
  | .wait kind obj a f => ((f s).modThread i.k fun t => t.toWait kind obj a).notIssued core
  | .trap ti => (s.userTrap i.k ti).issued s i.k core
  | .stop f => (s.sysFault i.k f).issued s i.k core
  | .fell f s' => (s'.sysFault i.k f).issued s i.k core
  | .marked f => (s.sysFault i.k f).issued s i.k core
  | .later q => core.elim s fun n => s.modCore n fun c => { c with sel := some (i.k, lateRank), late := some (i.crew, q) }
  | .hold s' => s'.issued s i.k core
  | .gone s' => (s'.noteRetired i.crew).issued s i.k core
  | .halt s' => s'.notIssued core

/-- From the predicate on, the order of R51: predicate, the waits and owed faults, privilege, then the entry. -/
def Issue.effect (i : Issue) (p : Pred) (u : Uses) (body : Issue → State → Effect) (s : State) : Effect :=
  if !predTrue p u.tile i.t i.c then (if u.lbrk then .jump (i.t.pc + 8) s else .retire s)
  else
    match i.t.mustWait u with
    | .wait kind obj a => .waits kind obj a
    | .owed d => .halt (s.stopDeferred i.k d)
    | .no =>
      if u.priv && !i.t.privl then .sys codePriv 0
      else i.withQueues u body s

/-- TRet of R187: the record's g1, g2 and queue bindings come back, VALID is cleared by a sequential store, and the PC is the
record's. An entry of the thread that holds the record's block drains first (R117). -/
def Issue.trapReturn (i : Issue) (s : State) : Effect :=
  let at_ := recordVa i.c i.t
  if s.recordHeld i.k i.t then .wait 0 0 .accesses fun s => s.drainBlocks i.k (s.recordParts i.t)
  else
  match s.readNow i.k at_ 64 8 with
  | (.error b, _) => .ofBlock b
  | (.ok bs, s) =>
    let w (n : Nat) : Nat := leNat (slice bs (8 * n) 8)
    let pc := w 1 % 2 ^ 56
    if !bitAt (w 0) 8 then .user codeIllop
    else if pc % 4 ≠ 0 then .user codeAlign 0 pc
    else
      let new := w 0 - 2 ^ 8
      match s.writeNow i.k at_ 8 (natBytes 8 new) with
      | (.error b, _) => .ofBlock b { store := true, data := new }
      | (.ok _, s) =>
        .jump (BitVec.ofNat 56 pc) <| s.modThread i.k fun t =>
          ((t.setReg 1 (BitVec.ofNat 64 (w 5))).setReg 2 (BitVec.ofNat 64 (w 6))).setQb (w 7 % 2 ^ 8)

/-- Start a long operation: its destination is pending until the result lands (R71, R72). -/
def Issue.putLong (i : Issue) (s : State) (d : Reg) (v : Word) : Effect :=
  .retire (s.modThread i.k fun t => { t with pend := some { reg := d, pair := false }, longop := some v })

/-- Issue an instruction of the selected line. -/
def issue (p : Pred) (len : Nat) (u : Uses) (body : Issue → State → Effect) (s : State) : Out :=
  match s.issuer with
  | none => .refused .noIssuer
  | some k =>
    match s.thread? k with
    | none => .fault (.noLine k)
    | some t =>
      match s.crew? t.crewn.toNat with
      | none => .fault (.noLine k)
      | some c =>
        let s := { s with issuer := none }
        let i : Issue := { k := k, t := t, c := c.seen s.clock, crew := t.crewn.toNat }
        .next ((i.effect p u body s).apply i len s)

end Sys2Proof.Machine
end

