-- ==== Sys2Proof/Machine/Scalar.lean ====
section
/-! DEFINITION. The scalar instructions (major opcodes 0x00 to 0x1F, R69 to R89), the pad word and ILLEGAL. -/

namespace Sys2Proof.Machine

/-- gD := F(gA, S) (R76). -/
def alu2 (p : Pred) (d a : Reg) (b : Src) (f : Word → Word → Word) (s : State) : Out :=
  issue p 8 { src := a :: srcRegs b, dst := [d] } (fun i s => i.put s d (f (i.reg a) (i.src b))) s

/-- gD := F(gA) (R79). -/
def alu1 (p : Pred) (d a : Reg) (f : Word → Word) (s : State) : Out :=
  issue p 8 { src := [a], dst := [d] } (fun i s => i.put s d (f (i.reg a))) s

/-- An integer written to a register. -/
def natWord (n : Nat) : Word := BitVec.ofNat 64 n

/-- PAD (R35): one issue slot, no effect, 4 bytes. -/
def execPad (s : State) : Out := issue ⟨false, 0⟩ 4 {} (fun _ s => .retire s) s
/-- ILLEGAL (R53): always ILLOP. -/
def execIllegal (s : State) : Out := issue ⟨false, 0⟩ 8 {} (fun _ _ => .user codeIllop) s
/-- NOP (R55). -/
def execNop (p : Pred) (s : State) : Out := issue p 8 {} (fun _ s => .retire s) s

/-- CLZ (Table 3.5). -/
def execClz (p : Pred) (d a : Reg) : State → Out := alu1 p d a fun x => natWord (leadZeros 64 x.toNat)
/-- CTZ (Table 3.5). -/
def execCtz (p : Pred) (d a : Reg) : State → Out := alu1 p d a fun x => natWord (trailZeros 64 x.toNat)
/-- POPC (Table 3.5). -/
def execPopc (p : Pred) (d a : Reg) : State → Out := alu1 p d a fun x => natWord (popCount 64 x.toNat)
/-- BREV (Table 3.5). -/
def execBrev (p : Pred) (d a : Reg) : State → Out := alu1 p d a fun x => natWord (revBits 64 x.toNat)
/-- ADD (Table 3.4). -/
def execAdd (p : Pred) (d a : Reg) (b : Src) : State → Out := alu2 p d a b (· + ·)
/-- SUB (Table 3.4). -/
def execSub (p : Pred) (d a : Reg) (b : Src) : State → Out := alu2 p d a b (· - ·)
/-- MUL (Table 3.4). -/
def execMul (p : Pred) (d a : Reg) (b : Src) : State → Out := alu2 p d a b (· * ·)

/-- Bits 127:64 of the product, signed or unsigned (Table 3.4). -/
def mulHigh (u : Bool) (x y : Word) : Word :=
  if u then natWord (x.toNat * y.toNat / 2 ^ 64) else toWord (x.toInt * y.toInt / 2 ^ 64)
/-- MULH, MULH.U. -/
def execMulh (p : Pred) (u : Bool) (d a : Reg) (b : Src) : State → Out := alu2 p d a b (mulHigh u)

/-- Quotient and remainder of R78, for a divisor that is not zero. -/
def divRem (u : Bool) (x y : Word) : Word × Word :=
  if u then (natWord (x.toNat / y.toNat), natWord (x.toNat % y.toNat))
  else (toWord (x.toInt.tdiv y.toInt), toWord (x.toInt.tmod y.toInt))

/-- DivRem of R78: DIVZ at issue, else a long operation. -/
def divide (p : Pred) (u : Bool) (d a : Reg) (b : Src) (pick : Word × Word → Word) (s : State) : Out :=
  issue p 8 { src := a :: srcRegs b, dst := [d], pend := true } (fun i s =>
    if i.src b = 0 then .user codeDivz else i.putLong s d (pick (divRem u (i.reg a) (i.src b)))) s
/-- DIV, DIV.U. -/
def execDiv (p : Pred) (u : Bool) (d a : Reg) (b : Src) : State → Out := divide p u d a b Prod.fst
/-- REM, REM.U. -/
def execRem (p : Pred) (u : Bool) (d a : Reg) (b : Src) : State → Out := divide p u d a b Prod.snd

/-- AND (Table 3.4). -/
def execAnd (p : Pred) (d a : Reg) (b : Src) : State → Out := alu2 p d a b (· &&& ·)
/-- OR (Table 3.4). -/
def execOr (p : Pred) (d a : Reg) (b : Src) : State → Out := alu2 p d a b (· ||| ·)
/-- XOR (Table 3.4). -/
def execXor (p : Pred) (d a : Reg) (b : Src) : State → Out := alu2 p d a b (· ^^^ ·)
/-- ANDN (Table 3.4). -/
def execAndn (p : Pred) (d a : Reg) (b : Src) : State → Out := alu2 p d a b fun x y => x &&& ~~~y

/-- A shift count: bits 5:0 of S (R77). -/
def shiftCount (y : Word) : Nat := y.toNat % 64
/-- SHL (Table 3.4). -/
def execShl (p : Pred) (d a : Reg) (b : Src) : State → Out := alu2 p d a b fun x y => x <<< shiftCount y
/-- SHR (Table 3.4). -/
def execShr (p : Pred) (d a : Reg) (b : Src) : State → Out := alu2 p d a b fun x y => x >>> shiftCount y
/-- SAR (Table 3.4). -/
def execSar (p : Pred) (d a : Reg) (b : Src) : State → Out := alu2 p d a b fun x y => x.sshiftRight (shiftCount y)
/-- ROT: rotated left (Table 3.4). -/
def execRot (p : Pred) (d a : Reg) (b : Src) : State → Out := alu2 p d a b fun x y => x.rotateLeft (shiftCount y)

/-- The smaller of two words, signed or unsigned (Table 3.4). -/
def smaller (u : Bool) (x y : Word) : Word := if (if u then y.ult x else y.slt x) then y else x
/-- The larger of two words, signed or unsigned (Table 3.4). -/
def larger (u : Bool) (x y : Word) : Word := if (if u then x.ult y else x.slt y) then y else x
/-- MIN, MIN.U. -/
def execMin (p : Pred) (u : Bool) (d a : Reg) (b : Src) : State → Out := alu2 p d a b (smaller u)
/-- MAX, MAX.U. -/
def execMax (p : Pred) (u : Bool) (d a : Reg) (b : Src) : State → Out := alu2 p d a b (larger u)
/-- ABS (Table 3.5). -/
def execAbs (p : Pred) (d a : Reg) : State → Out := alu1 p d a fun x => if x.slt 0 then -x else x

/-! ### Bit fields (R80, R81) -/

/-- P of R80: gB, or IMM28 as it stands. -/
def Issue.fieldSpec (i : Issue) : Src → Nat
  | .reg b => (i.reg b).toNat % 2 ^ 16
  | .imm v => v.toNat % 2 ^ 16

/-- BFX of R81. -/
def bitExtract (sgn : Bool) (x : Word) (spec : Nat) : Word :=
  let off := field spec 0 8
  let wid := field spec 8 8
  if wid = 0 ∨ 64 ≤ off then 0
  else
    let w := min wid (64 - off)
    let f := field x.toNat off w
    if sgn then sextWord f w else natWord f

/-- BFI of R81. -/
def bitInsert (old x : Word) (spec : Nat) : Word :=
  let off := field spec 0 8
  let wid := field spec 8 8
  if wid = 0 ∨ 64 ≤ off then old
  else natWord (putField old.toNat off (min wid (64 - off)) x.toNat)

/-- BFX, BFX.S. -/
def execBfx (p : Pred) (sgn : Bool) (d a : Reg) (b : Src) (s : State) : Out :=
  issue p 8 { src := a :: srcRegs b, dst := [d] } (fun i s => i.put s d (bitExtract sgn (i.reg a) (i.fieldSpec b))) s
/-- BFI. -/
def execBfi (p : Pred) (d a : Reg) (b : Src) (s : State) : Out :=
  issue p 8 { src := d :: a :: srcRegs b, dst := [d] } (fun i s =>
    i.put s d (bitInsert (i.reg d) (i.reg a) (i.fieldSpec b))) s

/-! ### Addresses, constants, selection (R82 to R85) -/

/-- LEA, MIN = 0. -/
def execLea (p : Pred) (sh : Fin 8) (d a : Reg) (b : Src) : State → Out := alu2 p d a b fun x y => x + (y <<< sh.val)
/-- LEA, MIN = 1: PC + SExt(IMM32). -/
def execLeaPc (p : Pred) (d : Reg) (imm : BitVec 32) (s : State) : Out :=
  issue p 8 { dst := [d] } (fun i s => i.put s d (i.t.pc.setWidth 64 + imm.signExtend 64)) s
/-- MOVI at 64 bits. -/
def execMovi (p : Pred) (d : Reg) (imm : BitVec 32) (s : State) : Out :=
  issue p 8 { dst := [d] } (fun i s => i.put s d (imm.signExtend 64)) s
/-- MOVI at 128 bits. -/
def execMovi128 (p : Pred) (d : Reg) (lo hi : BitVec 32) (s : State) : Out :=
  issue p 16 { dst := [d] } (fun i s => i.put s d (hi ++ lo)) s
/-- MOVHI. -/
def execMovhi (p : Pred) (d : Reg) (imm : BitVec 32) (s : State) : Out :=
  issue p 8 { src := [d], dst := [d] } (fun i s => i.put s d (imm ++ (i.reg d).setWidth 32)) s
/-- MOV. -/
def execMov (p : Pred) (d a : Reg) : State → Out := alu1 p d a id
/-- SEL. -/
def execSel (p : Pred) (d c a : Reg) (b : Src) (s : State) : Out :=
  issue p 8 { src := a :: srcRegs b, dst := [d] } (fun i s => i.put s d (if i.t.flag c then i.reg a else i.src b)) s
/-- CMP. -/
def execCmp (p : Pred) (c : CmpCond) (d a : Reg) (b : Src) (s : State) : Out :=
  issue p 8 { src := a :: srcRegs b } (fun i s => i.putFlag s d (cmpHolds c (i.reg a) (i.src b))) s

/-! ### Scalar float (R86 to R89) -/

/-- The format a float qualifier names. -/
def scalarFmt (single : Bool) : Fmt := if single then .f32 else .f64
/-- The encoding a source register holds (R86). -/
def rawOfReg (f : Fmt) (v : Word) : Nat := v.toNat % 2 ^ f.width
/-- A float source. -/
def numOfReg (f : Fmt) (v : Word) : Num := floatNum f (rawOfReg f v)
/-- A float result (R86). -/
def wordOfNum (f : Fmt) (x : Num) : Word := natWord (x.encode f)

/-- A float operation on two sources. -/
def float2 (p : Pred) (single : Bool) (d a b : Reg) (op : Num → Num → Num) (s : State) : Out :=
  let f := scalarFmt single
  issue p 8 { src := [a, b], dst := [d] } (fun i s =>
    i.put s d (wordOfNum f (op (numOfReg f (i.reg a)) (numOfReg f (i.reg b))))) s
/-- FADD. -/
def execFadd (p : Pred) (single : Bool) (d a b : Reg) : State → Out := float2 p single d a b Num.add
/-- FSUB. -/
def execFsub (p : Pred) (single : Bool) (d a b : Reg) : State → Out := float2 p single d a b Num.sub
/-- FMUL. -/
def execFmul (p : Pred) (single : Bool) (d a b : Reg) : State → Out := float2 p single d a b Num.mul
/-- FFMA. -/
def execFfma (p : Pred) (single : Bool) (d a b c : Reg) (s : State) : Out :=
  let f := scalarFmt single
  issue p 8 { src := [a, b, c], dst := [d] } (fun i s =>
    i.put s d (wordOfNum f ((numOfReg f (i.reg a)).fma (numOfReg f (i.reg b)) (numOfReg f (i.reg c))))) s
/-- FDIV, a long operation. -/
def execFdiv (p : Pred) (single : Bool) (d a b : Reg) (s : State) : Out :=
  let f := scalarFmt single
  issue p 8 { src := [a, b], dst := [d], pend := true } (fun i s =>
    i.putLong s d (wordOfNum f ((numOfReg f (i.reg a)).div (numOfReg f (i.reg b))))) s
/-- FSQRT, a long operation. -/
def execFsqrt (p : Pred) (single : Bool) (d a : Reg) (s : State) : Out :=
  let f := scalarFmt single
  issue p 8 { src := [a], dst := [d], pend := true } (fun i s =>
    i.putLong s d (wordOfNum f (numOfReg f (i.reg a)).sqrt)) s

/-- The encoding FMIN or FMAX gives (R88): one of the sources unchanged, or the canonical NaN. -/
def minMaxRaw (f : Fmt) (isMin : Bool) (x y : Nat) : Nat :=
  match minMaxFirst isMin (floatNum f x) (floatNum f y) with
  | some true => x
  | some false => y
  | none => f.canonNaN
/-- FMIN and FMAX on registers. -/
def floatPick (p : Pred) (isMin single : Bool) (d a b : Reg) (s : State) : Out :=
  let f := scalarFmt single
  issue p 8 { src := [a, b], dst := [d] } (fun i s =>
    i.put s d (natWord (minMaxRaw f isMin (rawOfReg f (i.reg a)) (rawOfReg f (i.reg b))))) s
/-- FMIN. -/
def execFmin (p : Pred) (single : Bool) (d a b : Reg) : State → Out := floatPick p true single d a b
/-- FMAX. -/
def execFmax (p : Pred) (single : Bool) (d a b : Reg) : State → Out := floatPick p false single d a b
/-- FCMP. -/
def execFcmp (p : Pred) (c : FCond) (single : Bool) (d a b : Reg) (s : State) : Out :=
  let f := scalarFmt single
  issue p 8 { src := [a, b] } (fun i s =>
    i.putFlag s d (fcondHolds c ((numOfReg f (i.reg a)).cmp (numOfReg f (i.reg b))))) s

end Sys2Proof.Machine
end

