-- ==== Sys2Proof/Machine/Control.lean ====
section
/-! DEFINITION. Branches, calls, flags and hardware loops (major opcodes 0x21 to 0x2B, R90 to R103). -/

namespace Sys2Proof.Machine

/-- The target of BRA and CALL: PC + SExt(IMM32) × 4 modulo 2^56 (R92). -/
def branchTarget (pc : BitVec 56) (imm : BitVec 32) : BitVec 56 := pc + imm.signExtend 56 * 4
/-- The target of BRX, CALLX and RET: bits 55:0 of the source (R92). -/
def registerTarget (v : Word) : BitVec 56 := v.setWidth 56

/-- Go to a target: ALIGN, with no effect, where it is not a multiple of 4 (R92). -/
def goTo (target : BitVec 56) (s : State) : Effect :=
  if target.toNat % 4 ≠ 0 then .user codeAlign 0 target.toNat else .jump target s

/-- BRA (R94). -/
def execBra (p : Pred) (imm : BitVec 32) (s : State) : Out :=
  issue p 8 {} (fun i s => goTo (branchTarget i.t.pc imm) s) s
/-- BRX (R94). -/
def execBrx (p : Pred) (a : Reg) (s : State) : Out :=
  issue p 8 { src := [a] } (fun i s => goTo (registerTarget (i.reg a)) s) s

/-- Call of R95: with .SV the old link goes to a register; the link takes the address after the call. -/
def Issue.callTo (i : Issue) (s : State) (sv : Option Reg) (target : BitVec 56) : Effect :=
  let s' := match sv with
    | some d => s.wr i.k d (i.t.link.setWidth 64)
    | none => s
  goTo target (s'.modThread i.k fun t => { t with link := i.t.pc + 8 })
/-- CALL, CALL.SV. -/
def execCall (p : Pred) (sv : Option Reg) (imm : BitVec 32) (s : State) : Out :=
  issue p 8 { dst := sv.toList } (fun i s => i.callTo s sv (branchTarget i.t.pc imm)) s
/-- CALLX, CALLX.SV. -/
def execCallx (p : Pred) (sv : Option Reg) (a : Reg) (s : State) : Out :=
  issue p 8 { src := [a], dst := sv.toList } (fun i s => i.callTo s sv (registerTarget (i.reg a))) s
/-- RET: the link then names the address returned to (R95). -/
def execRet (p : Pred) (r : Option Reg) (s : State) : Out :=
  issue p 8 { src := r.toList } (fun i s =>
    let t := match r with
      | some a => registerTarget (i.reg a)
      | none => i.t.link
    goTo t (s.modThread i.k fun x => { x with link := t })) s

/-! ### Hardware loops (R99 to R103) -/

/-- OpenLoop of R99, for a body of `len` units and a trip count. -/
def Issue.openLoop (i : Issue) (s : State) (len count : Nat) : Effect :=
  let a := i.t.pc.toNat
  let start := a + 8
  let stop := start + 4 * len
  if len = 0 then .user codeIllop
  else if a / 2 ^ 18 ≠ start / 2 ^ 18 ∨ a / 2 ^ 18 ≠ (stop - 1) / 2 ^ 18 then .user codeIllop
  else if i.t.lact0 ∧ i.t.lact1 then .user codeLoopdepth
  else if i.t.lact0 ∧ i.t.loop0.stop a < stop then .user codeIllop
  else if count = 0 then .jump (BitVec.ofNat 56 stop) s
  else
    let l : LoopLevel :=
      { count := BitVec.ofNat 32 count, blen := BitVec.ofNat 16 len, bstart := BitVec.ofNat 16 (start / 4) }
    .retire <| s.modThread i.k fun t =>
      if i.t.lact0 then { t with loop1 := l, lact1 := true } else { t with loop0 := l, lact0 := true }

/-- LOOP. -/
def execLoop (p : Pred) (len count : BitVec 16) (s : State) : Out :=
  issue p 8 {} (fun i s => i.openLoop s len.toNat count.toNat) s
/-- LOOPG: the count is clamped to 0 and 2^32 − 1. -/
def execLoopg (p : Pred) (a : Reg) (len : BitVec 16) (s : State) : Out :=
  issue p 8 { src := [a] } (fun i s =>
    i.openLoop s len.toNat (min ((i.reg a).toInt.toNat) (2 ^ 32 - 1))) s

/-- LBRK: closes the innermost active level (R102). -/
def execLbrk (p : Pred) (s : State) : Out :=
  issue p 8 { lbrk := true } (fun i s =>
    let a := i.t.pc.toNat
    if i.t.lact1 then
      .jump (BitVec.ofNat 56 (i.t.loop1.stop a)) (s.modThread i.k fun t => { t with lact1 := false })
    else if i.t.lact0 then
      .jump (BitVec.ofNat 56 (i.t.loop0.stop a)) (s.modThread i.k fun t => { t with lact0 := false })
    else .user codeLoopdepth) s
/-- LBRK.ALL: closes both levels (R102). -/
def execLbrkAll (p : Pred) (s : State) : Out :=
  issue p 8 { lbrk := true } (fun i s =>
    if i.t.lact0 || i.t.lact1 then
      .jump (BitVec.ofNat 56 (i.t.loop0.stop i.t.pc.toNat))
        (s.modThread i.k fun t => { t with lact0 := false, lact1 := false })
    else .user codeLoopdepth) s

/-! ### Flags (R96 to R98) -/

/-- FOP. -/
def execFop (p : Pred) (op : BoolOp) (d a b : Reg) (s : State) : Out :=
  issue p 8 {} (fun i s => i.putFlag s d (boolOp op (i.t.flag a) (i.t.flag b))) s
/-- FSET fD, v. -/
def execFset (p : Pred) (d : Reg) (v : Bool) (s : State) : Out :=
  issue p 8 {} (fun i s => i.putFlag s d v) s
/-- FSET.M gA, mask. -/
def execFsetM (p : Pred) (a : Reg) (mask : BitVec 8) (s : State) : Out :=
  issue p 8 { src := [a] } (fun i s =>
    .retire (s.modThread i.k fun t => { t with flags := flagsMasked t.flags (i.reg a) mask })) s
/-- FGET, FGET.P. -/
def execFget (p : Pred) (all : Bool) (d : Reg) (s : State) : Out :=
  issue p 8 { dst := [d] } (fun i s =>
    i.put s d (natWord (if all then i.t.predWord else i.t.predWord % 2 ^ 8))) s

end Sys2Proof.Machine
end

