-- ==== Sys2Proof/Machine/Save.lean ====
section
/-! DEFINITION. The save area of a crew (R195, R196, R231, R372, Table 8.8): what a save writes there, and how what is owed to
a displaced crew reaches it (R198). -/

namespace Sys2Proof.Machine

/-- A held slot is fault-marked. -/
def Queue.hasFault (q : Queue) : Bool := (List.range 16).any fun i => decide (i < q.count) && (q.slot (q.head + i)).fault

/-- The state word of Table 12.1. -/
def Queue.word (q : Queue) : Nat :=
  q.count + 2 ^ 5 * q.ready + 2 ^ 10 * q.head + 2 ^ 14 * q.limit + 2 ^ 19 * b2n q.hasFault + 2 ^ 20

/-! ### The words of a save area -/

/-- Words as bytes. -/
def wordsLe (ws : List Nat) : List Byte := ws.flatMap (natBytes 8)

def HState.code : HState → Nat
  | .idle => 0 | .configured => 1 | .binning => 2 | .binned => 3 | .streaming => 4 | .ended => 5

/-- The NLSTAT word of a context its crew holds (Table 20.6). -/
def HamperCtx.statWord (h : HamperCtx) (n : Nat) : Nat :=
  h.state.code + 2 ^ 4 * n + 2 ^ 7 + 2 ^ 8 * b2n h.stale + 2 ^ 9 * b2n h.overflow + 2 ^ 10 * b2n h.badpos +
    2 ^ 16 * (h.maxocc % 2 ^ 20) + 2 ^ 36 * (h.dropped % 2 ^ 20)

/-- The context a crew holds at a die site. -/
def State.hamperOf (s : State) (site crew : Nat) : Option (Fin 8 × HamperCtx) :=
  ((List.finRange 8).find? fun n => ((s.site site).hamper[n]).crew == some crew).map fun n => (n, (s.site site).hamper[n])

/-- The values a declaration holds. -/
def Decl.values (d : Decl) : List Nat :=
  [d.threads, d.scratch, d.tiles, d.acc, d.moments, d.lanes, d.queues, b2n d.hamper, d.house, d.meters.toNat]

/-- ACFG as it reads: KIND and PAIR, and LOCK (Table 17.2, R313). -/
def Crew.acfgWord (c : Crew) : Word :=
  BitVec.ofNat 64 (c.acfg.toNat % 2 ^ 12 +
    ((List.finRange 8).map fun n => if c.locks[n] = 0 then 0 else 2 ^ (16 + n.val)).sum)

/-- The crew system registers in selector order. -/
def Crew.sysWords (c : Crew) : List Nat :=
  ([c.tvec, c.tarea, c.mctl, c.mstat, c.cvctl, c.cvstat, c.acfgWord] ++ c.win.toList ++ [c.mgspill]).map BitVec.toNat

/-- The word of Table 6.4. -/
def Barrier.word (b : Barrier) : Nat := b.expected + 2 ^ 9 * b.arrived + 2 ^ 32 * b.phase.toNat

/-- Pad a list of words to a size. -/
def padTo (n : Nat) (ws : List Nat) : List Nat := ws ++ List.replicate (n - ws.length) 0

/-- Bits of a list of slots. -/
def slotBits (q : Queue) (p : Slot → Bool) : Nat :=
  ((List.range 16).map fun n => if p (q.slot n) then 2 ^ n else 0).sum

/-- The parts of Table 8.8 that are lists of words: offset and words. The model's choice: an inbox entry is the payload, the
sender's word and the time, and a restore keeps the inboxes that the lines hold (notes/assumptions/92.md). -/
def State.saveWords (s : State) (crew : Nat) (c : Crew) (dirty : Nat) : List (Nat × List Nat) :=
  let line (n : Nat) : Thread := (s.thread? (threadKey crew n)).getD Thread.reset
  let qs := c.queues.toList.take c.decl.queues
  let declWords := (List.range 26).map fun n => (Config.declWord n c.decl.values).toNat
  let hamper : List Nat := match s.hamperOf (c.tile / 24) crew with
    | some (n, h) =>
      (List.range 4).map (fun j => h.desc.getD (2 * j) 0 + 2 ^ 32 * h.desc.getD (2 * j + 1) 0) ++
        [h.statWord n.val, h.nextBatch]
    | none => []
  [(0, [1, c.task.gtid.toNat, crew, c.saveTime.toNat, c.owed % 2 ^ 48, c.saves] ++ declWords),
   (0x100, c.sysWords),
   (0x200, c.handles.toList.flatMap fun h => [h.toNat % 2 ^ 64, h.toNat / 2 ^ 64]),
   (0x300, c.mailbox.map BitVec.toNat),
   (0x400, c.barriers.toList.flatMap fun b => padTo 8 [b.word, b.pending.toNat, b.nt.toNat, b.ct.toNat]),
   (0x600, c.timelines.toList.flatMap fun t =>
     padTo 8 [t.issued.toNat, t.done.toNat, t.dt.toNat, t.failn.toNat, t.failc.toNat, t.more.toNat]),
   (0x700, (List.finRange 8).map fun k => b2n (c.tilePred k)),
   (0x740, c.shapes.toList.map BitVec.toNat),
   (0x780, qs.flatMap fun q => [q.word, slotBits q (·.filled) + 2 ^ 16 * slotBits q (·.fault)]),
   (0x800, qs.flatMap fun q => q.slots.toList.map fun x => x.val.toNat),
   (0xC00, (List.range 8).map fun n => dirty / 2 ^ (64 * n) % 2 ^ 64),
   (0xC40, qs.flatMap fun q => [0, 1].map fun h => ((List.range 8).map fun n => (q.slot (8 * h + n)).fmt * 2 ^ (8 * n)).sum),
   (0x1000, (List.range c.decl.threads).flatMap fun n => [b2n (line n).token, (line n).wt.toNat]),
   (0x4000, (List.range c.decl.threads).flatMap fun n => padTo 24 ((line n).inbox.flatMap fun m =>
     [m.payload.toNat, m.crew + 2 ^ 20 * m.tidx, m.time.toNat])),
   (0x18000, hamper)]

/-- The entries of the mangle in drain order, bank by bank, with the place each takes (R332). -/
def mangleWords (banks : Vector (List (BitVec 32 × Word)) 8) : List (Nat × List Nat) :=
  (List.finRange 8).flatMap fun b =>
    ((List.range banks[b].length).zip banks[b]).map fun e =>
      (0x80000 + 16 * (4096 * b.val + e.1), [e.2.1.toNat, e.2.2.toNat])

/-- Put bytes into an image. -/
def imagePut (m : Map Byte) (off : Nat) (bs : List Byte) : Map Byte :=
  ((List.range bs.length).zip bs).foldl (init := m) fun m e => Map.set m (off + e.1) 0 e.2

/-- The save area of a crew as it stands: offsets to bytes, zero bytes unlisted. What another owner has left in the crew's
registers and scratchpad reads as zero there too (R205). -/
def State.saveImage (s : State) (crew : Nat) (c : Crew) (dirty : Nat) : Map Byte :=
  let own (tags : List Nat) (n : Nat) : Bool := tags.getD n 0 == c.task.owner
  let m := (s.saveWords crew c dirty).foldl (init := ([] : Map Byte)) fun m e => imagePut m e.1 (wordsLe e.2)
  let m := c.gran.foldl (init := m) fun m e =>
    if e.2.full ∧ c.spadOwner (16 * e.1) = c.task.owner then
      let at_ := 0x2000 + e.1 / 8
      Map.put m at_ ((Map.getD m at_ 0) ||| BitVec.ofNat 8 (2 ^ (e.1 % 8)))
    else m
  let m := (c.momE.filter fun e => own c.momTag.toList (e.1 / 256)).foldl (init := m) fun m e => imagePut m (0x10000 + 8 * e.1) (natBytes 8 e.2.toNat)
  let m := (c.tileB.filter fun e => own c.tileTag.toList (e.1 / 16384)).foldl (init := m) fun m e => Map.set m (0x20000 + e.1) 0 e.2
  let m := (c.accE.filter fun e => own c.accTag.toList (e.1 / 4096)).foldl (init := m) fun m e => imagePut m (0x40000 + 8 * e.1) (natBytes 8 e.2.toNat)
  let m := match c.mgKept with
    | some k => (mangleWords k.1).foldl (init := m) fun m e => imagePut m e.1 (wordsLe e.2)
    | none => m
  (s.mem.mem.filter fun x => decide (spadPa crew 0 ≤ x.1) && decide (x.1 < spadPa crew 0 + c.decl.scratch) &&
      c.spadOwner (x.1 - spadPa crew 0) == c.task.owner).foldl
    (init := m) fun m x => Map.set m (0x100000 + (x.1 - spadPa crew 0)) 0 x.2

/-- The 4 KiB units that a crew's declaration gives contents (Table 8.8). -/
def Crew.saveUnits (c : Crew) : List Nat :=
  let d := c.decl
  let units (first bytes : Nat) : List Nat := (List.range (ceilDiv bytes 4096)).map (first + ·)
  [0, 1] ++ units 2 (ceilDiv (d.scratch / 16) 8) ++ units 4 (192 * d.threads) ++ units 16 (2048 * d.moments) ++
    (if d.hamper then [24] else []) ++ units 32 (16384 * d.tiles) ++ units 64 (32768 * d.acc) ++
    (if c.mgKept.isSome then units 128 524288 else []) ++ units 256 d.scratch

/-- The bytes of one part of an image. -/
def imageBytes (m : Map Byte) (off n : Nat) : List Byte := (List.range n).map fun j => Map.getD m (off + j) 0

/-- The aligned blocks of `n` bytes in which two images differ. -/
def imageDiff (n : Nat) (a b : Map Byte) : List Nat :=
  (((a ++ b).filter fun e => Map.getD a e.1 0 != Map.getD b e.1 0).map fun e => e.1 / n).dedup

/-- A crew with the mangle table it holds at its tile. -/
def State.withMangle (s : State) (crew : Nat) (c : Crew) : Crew :=
  let t := s.tile c.tile
  if t.mgHolder = some crew then { c with mgKept := some (t.mgBanks, t.mgSpilln, t.mgSpfull) } else c

/-- The 4 KiB units that a step from `pre` changes in the registers and scratchpad of a crew (R196): all of the mangle's once the
crew takes it. -/
def State.unitsChanged (pre post : State) (crew : Nat) (a b : Crew) : List Nat :=
  let x := pre.withMangle crew { a with saveTime := b.saveTime, owed := b.owed, saves := b.saves }
  let y := post.withMangle crew b
  (if x.mgKept.isNone && y.mgKept.isSome then (List.range 128).map (128 + ·) else []) ++
    imageDiff 4096 (pre.saveImage crew x 0) (post.saveImage crew y 0)

/-- Any change of a crew since its last save sets the dirty bit of its unit (R196): what a step from `pre` changes is noted.
A crew that has not been saved yet, or is displaced, keeps no bits. -/
def State.noteDirty (pre post : State) : State :=
  { post with crews := post.crews.map fun (e : Nat × Crew) =>
      match pre.crew? e.1 with
      | some a =>
        if e.2.lastSaved.isNone ∨ e.2.displaced ∨ a.displaced then e
        else (e.1, { e.2 with dirty := (e.2.dirty ++ pre.unitsChanged post e.1 a e.2).dedup })
      | none => e }

/-- The save routine's accesses: the crew's root, owner 0 (R195, R204). -/
def Crew.saveAgent (c : Crew) (crew : Nat) : Agent := { c.agent crew with owner := 0, privl := true }

/-- Virtual address of a crew's save area (Table 21.1). -/
def Crew.saveBase (c : Crew) (crew : Nat) : Nat := c.task.saveArea + crew * 2 ^ 21

/-- Write lines of an image into the save area. -/
def State.writeSave (s : State) (crew : Nat) (c : Crew) (image : Map Byte) (lines : List Nat) (t : LTime) : State :=
  lines.foldl (init := s) fun s l =>
    match s.resolve (c.saveAgent crew) (c.saveBase crew + 128 * l) 128 .write with
    | (.ok p, s) => (s.storeAt {} p.target 128 (leNat (imageBytes image (128 * l) 128)) (fullMask 128) p.attr.owner t).2
    | (.error _, s) => s

/-- The lines of global memory in the words of a save area that cannot be written yet: frozen, or held by the host (R210, R212). -/
def State.savesHeld (s : State) (crew : Nat) (c : Crew) (unit : Nat) (ns : List Nat) : List Nat :=
  (ns.flatMap fun n =>
    match (s.resolve (c.saveAgent crew) (c.saveBase crew + unit * n) unit .write).1 with
    | .ok p => (pieces 128 p.target.pos (unit / 128 + 2) unit).flatMap fun x =>
        let w := p.target.plus x.1
        if s.homeBusy w then linesOfParts [{ p with target := w }] else []
    | .error _ => []).dedup

/-- Bring these words of a save area from one image to another, bit by bit: what else stands there is kept (R198, R230, R231). -/
def State.writeDiff (s : State) (crew : Nat) (c : Crew) (words : List Nat) (old new : Map Byte) (t : LTime) : State :=
  words.foldl (init := s) fun s w =>
    let a := leNat (imageBytes old (8 * w) 8)
    let b := leNat (imageBytes new (8 * w) 8)
    match s.resolve (c.saveAgent crew) (c.saveBase crew + 8 * w) 8 .write with
    | (.ok p, s) => (s.storeAt {} p.target 8 b (a ^^^ b) p.attr.owner t).2
    | (.error _, s) => s

/-- The whole save area translates. -/
def State.saveReach (s : State) (crew : Nat) (c : Crew) : Bool :=
  (List.range 32).all fun n => match (s.resolve (c.saveAgent crew) (c.saveBase crew + 65536 * n) 8 .write).1 with
    | .ok _ => true
    | .error _ => false

/-! ### What is owed to a displaced crew (R198) -/

/-- Operations of a crew whose writes are still under way: carrier and conversion operations and LDQ elements. A copy that has
written its tile and only waits for its follow-on owes nothing (R316). -/
def State.underWay (s : State) (crew : Nat) : Bool :=
  s.tiles.any (fun e => e.2.copies.any (fun x => x.2.crew == crew && !(x.2.stepped && x.2.follow.isSome)) || e.2.convQ.any (fun x => x.crew == crew)) ||
    (s.linesOf crew).any fun e => !e.2.landing.isEmpty || e.2.unbound.any fun a => match a.kind with
      | .ldq _ _ _ => true
      | _ => false

/-- What stands in a displaced crew's save area follows the crew's state: a late byte, fill, decrement or retirement lands
there and changes nothing else, `n` bytes fewer are owed, and the remap entry is freed at zero (R198, R231). Words on a line the
host holds stay owed until it has answered (R212). The hamper's 256 bytes stay as the save wrote them (R372). -/
def State.late (s : State) (crew n : Nat) : State :=
  match s.crew? crew with
  | none => s
  | some c =>
    if !c.displaced then s
    else
      let left := if s.underWay crew then max 1 (c.owed - n) else 0
      let old := c.lastSaved.getD []
      let target (left : Nat) : Map Byte :=
        imagePut (s.saveImage crew { c with owed := left } (leNat (imageBytes old 0xC00 64))) 0x18000 (imageBytes old 0x18000 256)
      let held := imageDiff 8 old (target left) |>.filter fun w => !(s.savesHeld crew c 8 [w]).isEmpty
      let left := if held.isEmpty then left else max 1 left
      let image := held.foldl (init := target left) fun m w => imagePut m (8 * w) (imageBytes old (8 * w) 8)
      let s := s.snoop (s.savesHeld crew c 8 held)
      let s := s.setCrew crew { c with owed := left, lastSaved := some image }
      let s := s.writeDiff crew c (imageDiff 8 old image) old image c.saveTime
      if left = 0 then
        { s with tiles := s.tiles.map fun (e : Nat × Tile) =>
          (e.1, { e.2 with remaps := e.2.remaps.filter fun r => !(r.crew == crew && r.follows.isEmpty) }) }
      else s

/-- After a step from `pre`: what it changed of a crew that has been saved sets that crew's dirty bits (R196), and what it changed
of a displaced one reaches its save area (R198). -/
def State.afterStep (pre post : State) : State :=
  let s := pre.noteDirty post
  (s.crews.filter fun e => e.2.displaced).foldl (init := s) fun s e => s.late e.1 0

end Sys2Proof.Machine
end

