-- ==== Sys2Proof/Machine/Operands.lean ====
section
/-! DEFINITION. The operand forms of memory instructions: effective addresses (R40), the pieces an access is made of (R122),
what a loaded value becomes (R125, R127), and the fields a fault or trap of an access reports (R190, R223). -/

namespace Sys2Proof.Machine

/-- The registers a memory operand reads. -/
def memRegs (m : MemArg) : List Reg :=
  match m.mode with
  | .off _ => [m.base]
  | .index c => [m.base, c]

/-- A base and a signed byte offset, in the 56-bit space (R26, R40). -/
def Issue.baseOff (i : Issue) (a : Reg) (o : BitVec 17) : Nat := vaOf (i.reg a + o.signExtend 64)

/-- The effective address of a memory operand whose index is scaled by `size` (R40). -/
def Issue.effAddr (i : Issue) (m : MemArg) (size : Nat) : Nat :=
  match m.mode with
  | .off o => i.baseOff m.base o
  | .index c => vaOf (i.reg m.base + i.reg c * BitVec.ofNat 64 size)

/-- The bit address of a narrow element: byte address × 8, or gA × 8 + gC × width (R40, R127). -/
def Issue.bitAddr (i : Issue) (m : MemArg) (width : Nat) : Nat :=
  match m.mode with
  | .off o => 8 * i.baseOff m.base o
  | .index c => ((i.reg m.base).toNat * 8 + (i.reg c).toNat * width) % 2 ^ 59

/-- The two words of a register pair, the first lowest. -/
def Issue.pairNat (i : Issue) (b : Reg) : Nat := (i.reg b).toNat + 2 ^ 64 * (i.reg (nextReg b)).toNat

/-- log2 of an access size in bytes; a free value for an element narrower than a byte (notes/assumptions/5.md). The model's
choice for rows (R322): a size that is no power of two counts as the next one, and one of more than 128 bytes as 7, the largest
value of the field (notes/assumptions/84.md). -/
def sizeLog (width : Nat) : Nat :=
  if width < 8 then (Config.narrowSize width).toNat
  else if width = 8 then 0 else if width ≤ 16 then 1 else if width ≤ 32 then 2 else if width ≤ 64 then 3
  else if width ≤ 128 then 4 else if width ≤ 256 then 5 else if width ≤ 512 then 6 else 7

/-- Extend a loaded element to 64 bits: S formats by sign, all others by zeros (R125, R127, R238). -/
def extend (f : Fmt) (v : Nat) : Word := if f.isSigned then sextWord v f.width else BitVec.ofNat 64 v

/-- The accesses that supply data for a write: stores and atomics (R223). -/
def AccKind.stores : AccKind → Bool
  | .store | .storePair | .storeBits | .amo _ _ _ | .cas _ _ _ | .casp _ _ => true
  | .row st => st
  | _ => false

/-- The register owed to a load or atomic, and whether its successor is owed too. -/
def AccKind.dest : AccKind → Option Pending
  | .load d _ _ _ | .loadBits d _ _ | .amo _ d _ | .cas d _ _ => some { reg := d, pair := false }
  | .loadPair d _ _ | .casp d _ => some { reg := d, pair := true }
  | _ => none

/-- DATA of R223: bits 63:0 of the data supplied for a write. -/
def AccKind.dataField (k : AccKind) (data : Nat) : Nat := if k.stores then data % 2 ^ 64 else 0

/-- A user trap of an access (Table 8.5, R223). -/
def accTrap (code va : Nat) (k : AccKind) (width data : Nat) : TrapInfo :=
  { code := code, addr := va, size := sizeLog width, store := k.stores, data := k.dataField data }

/-- A system fault of an access, found at issue. -/
def accFault (code va : Nat) (k : AccKind) (width data : Nat) : FaultInfo :=
  { code := code, addr := va, size := sizeLog width, store := k.stores, data := k.dataField data }

/-- What an access that does not resolve raises. -/
def accStop (e : Stop) (va : Nat) (k : AccKind) (width data : Nat) : Effect :=
  match e with
  | .sys c => .stop (accFault c va k width data)
  | .user c => .trap (accTrap c va k width data)

/-- The access is of another crew's scratchpad (R346). -/
def remoteParts (crew : Nat) (ps : List Part) : Bool :=
  ps.any fun p => match p.target with
    | .spad c _ => c != crew
    | _ => false

/-- Build an access of `width` bits at byte `va`, bit `bit`, cut into pieces of `unit` bytes. -/
def Issue.access (i : Issue) (s : State) (k : AccKind) (r : Right) (va bit width unit data : Nat) (sc : Scope) (evp : Nat) :
    Except Effect Access × State :=
  let ag := s.agent i.t
  match s.resolveAll ag va r (pieces unit va 4 ((bit + width + 7) / 8)) with
  | (.error e, s) => (.error (accStop e va k width data), s)
  | (.ok ps, s) =>
    (.ok { kind := k, va := va, bit := bit, width := width, parts := ps, scope := sc, evp := evp, tile := ag.tile,
           pc := i.t.pc, data := data, remote := remoteParts i.crew ps }, s)

end Sys2Proof.Machine
end

