-- ==== Sys2Proof/Machine/Access.lean ====
section
/-! DEFINITION. Accesses as they bind: sequential, scoped and non-binding loads (R110, R116, R119), stores (R111), atomics
(R133), full/empty granules (R147 to R150), deferred home faults (R123, R190), and accesses to other crews' scratchpads
(R345, R346). -/

namespace Sys2Proof.Machine

/-! ### Granules (R147) -/

def Crew.granule (c : Crew) (g : Nat) : Granule := Map.getD c.gran g Granule.reset
def Crew.setGranule (c : Crew) (g : Nat) (x : Granule) : Crew := { c with gran := Map.set c.gran g Granule.reset x }

/-- Wake the lines that wait on a granule of `crew`: for full ones, those whose tag lacks bit 17; for empty ones, FEW.E's
(R149). -/
def State.wakeGranule (s : State) (crew g : Nat) (full : Bool) : State :=
  s.wakeWhere fun t =>
    t.st == .waiting && t.await == .granule crew && t.wobj.toNat % 2 ^ 16 == g && bitAt t.wobj.toNat 17 != full

/-- Set a granule full at a time, and wake its waiters (R115, R147, R150). -/
def State.fillGranule (s : State) (crew g : Nat) (time : LTime) : State :=
  (s.modCrew crew fun c =>
    let x := c.granule g
    c.setGranule g { x with full := true, ft := tmax x.ft time }).wakeGranule crew g true

/-- Set a granule empty at a clearer's time, and wake its waiters (R147, R150). -/
def State.clearGranule (s : State) (crew g : Nat) (time : LTime) : State :=
  (s.modCrew crew fun c =>
    let x := c.granule g
    c.setGranule g { x with full := false, et := tmax x.et time }).wakeGranule crew g false

/-- A granule is full for an agent of `owner`: across owners it is empty (R205). -/
def Crew.granuleFull (c : Crew) (owner g : Nat) : Bool := (c.granule g).full && c.spadOwner (16 * g) == owner

/-- The wait object of a granule (R128, R149). -/
def granuleObj (own crew g : Nat) (forEmpty : Bool) : Nat :=
  g % 2 ^ 16 + 2 ^ 16 * b2n (own != crew) + 2 ^ 17 * b2n forEmpty

/-- Wait on a granule with kind 3. -/
def granuleWait (own crew g : Nat) (forEmpty : Bool) : Effect := .waits 3 (granuleObj own crew g forEmpty) (.granule crew)

/-! ### Binding loads -/

/-- Every thread of the crew runs on the crew's own tile (R119). -/
def State.crewAtHome (s : State) (crew : Nat) : Bool :=
  match s.crew? crew with
  | some c => (s.linesOf crew).all fun e => (e.2.entryCore.elim true fun n => n / 8 == c.tile)
  | none => false

/-! ### Scopes (R19, R20, R119) -/

/-- The scope an access of a crew is performed with: crew scope is device scope while a thread of the crew runs on another tile,
and house scope is device scope without a house (R20, R119). -/
def State.scopeNow (s : State) (crew : Nat) : Scope → Scope
  | .crew => if s.crewAtHome crew then .crew else .device
  | .house => if (s.crew? crew).elim true fun c => c.decl.house == 0 then .device else .house
  | x => x

/-- Two crews both have a value under `f`, the same one. -/
def State.crewsAgree (s : State) (f : Crew → Option Nat) (a b : Option Nat) : Bool :=
  match a.bind fun c => (s.crew? c).bind f, b.bind fun c => (s.crew? c).bind f with
  | some x, some y => x == y
  | _, _ => false

/-- An access of agent `x` with its scope reaches agent `y` (R119): the domains of Table 1.4, the band that of the crew's
die (R20). Neither of band and house contains the other; the model's choice is that house scope reaches the crews of the house
alone (notes/assumptions/70.md). -/
def State.reaches (s : State) (x y : Writer) : Bool :=
  match x.scope with
  | .thread => x.thread.isSome && x.thread == y.thread
  | .crew => x.crew.isSome && x.crew == y.crew
  | .band => s.crewsAgree (fun c => some (c.tile / 24)) x.crew y.crew
  | .house => s.crewsAgree (fun c => if c.decl.house = 0 then none else some c.decl.house) x.crew y.crew
  | .device => y.place == .package
  | .convoy => y.place != .host
  | .system => true

/-- Two accesses order each other: each reaches the agent of the other (R119). -/
def State.mutual (s : State) (x y : Writer) : Bool := s.reaches x y && s.reaches y x

/-- The agent of a thread's access, with the scope it is performed with. -/
def State.writerOf (s : State) (t : Thread) (a : Access) : Writer :=
  { thread := some (threadKey t.crewn.toNat t.tidx.toNat), crew := some t.crewn.toNat, place := .package,
    scope := s.scopeNow t.crewn.toNat a.scope }

/-- How a store or atomic of a thread reaches its home: the issuing tile's copy and the crew's own are brought up to date
(R111, R119). -/
def State.viaOf (s : State) (t : Thread) (a : Access) : Via :=
  { (s.agent t).viaFrom a.tile .device a.evp with who := s.writerOf t a }

/-- The largest of some times. -/
def maxOf (ts : List LTime) : LTime := ts.foldl tmax 0

/-- A copy in the issuing tile's L1 that may answer a load whatever its lease (R119): one with thread or crew scope while the
crew's threads all run on the crew's tile, whose copy takes every store of theirs, if it holds those they made before the crew
came to this tile; and one whose line only agents that the load
does not order itself with have written since. A copy whose rts is MAXT is used under a permanent lease alone (R109). -/
def State.scopedCopy (s : State) (t : Thread) (a : Access) (p : Part) : Option L1Line :=
  match p.target with
  | .phys pa =>
    let ws := Map.getD s.mem.writers (pa / 128) []
    let crews := ws.filter fun w => w.1.thread.isSome && w.1.crew == some t.crewn.toNat
    let own (l : L1Line) : Bool := (a.scope == .thread || a.scope == .crew) && s.crewAtHome t.crewn.toNat && a.tile == s.homeOf t &&
      crews.all fun w => decide (w.2.toNat ≤ l.wts.toNat)
    let near := ws.filter fun w => s.mutual (s.writerOf t a) w.1
    let loose (l : L1Line) : Bool := decide (near.length < ws.length) && near.all fun w => decide (w.2.toNat ≤ l.wts.toNat)
    if p.attr.cached then
      ((s.tile a.tile).l1find (pa / 128)).filter fun l => (l.perm || l.rts != maxTime) && (own l || loose l)
    else none
  | _ => none

/-- The time a load takes from a line whose last store it need not order itself after: that of the stores it is ordered with
(R119; notes/assumptions/59.md). -/
def State.looseTime (s : State) (t : Thread) (a : Access) (p : Part) (before after : LTime) : LTime × State :=
  match p.target with
  | .phys pa =>
    let ws := Map.getD s.mem.writers (pa / 128) []
    let near := ws.filter fun w => s.mutual (s.writerOf t a) w.1
    if (ws.any fun w => w.2 == after) && !(near.any fun w => w.2 == after) then
      let (c, s) := s.choose
      (if c then tmax before (maxOf ((near.map (·.2)).filter fun x => decide (x.toNat ≤ after.toNat))) else after, s)
    else (after, s)
  | _ => (after, s)

/-- One piece of a sequential load at logical time `tm` (R110, R119). -/
def State.seqPiece (s : State) (t : Thread) (a : Access) (p : Part) (tm : LTime) : List Byte × LTime × State :=
  let plain (s : State) : List Byte × LTime × State :=
    let r := s.loadAt a.tile p.target p.bytes p.attr a.evp tm
    (r.1, r.2.2.looseTime t a p tm r.2.1)
  match s.scopedCopy t a p with
  | none => plain s
  | some l =>
    let (c, s) := s.choose
    if c then (s.l1Read l p.attr.owner (p.target.pos % 128) p.bytes, tmax tm l.wts, s.l1Touch a.tile l.line a.evp)
    else plain s

/-- What an access of a thread counts toward the meters, piece by piece, as reads and bytes: one read of each region it reaches,
and its bytes there (R214). The model's choice: an element narrower than a byte counts the whole bytes it touches
(notes/assumptions/85.md). -/
def meterParts : List Nat → List Part → List (PageAttr × Nat × Nat)
  | _, [] => []
  | seen, p :: ps =>
    let first := p.attr.metered && !seen.contains p.attr.mreg
    (p.attr, b2n first, p.bytes) :: meterParts (if first then p.attr.mreg :: seen else seen) ps

def Access.reads (a : Access) : List (PageAttr × Nat × Nat) := meterParts [] a.parts

/-- Count reads and bytes. -/
def State.meterAll (s : State) (xs : List (PageAttr × Nat × Nat)) : State := xs.foldl (init := s) fun s x => s.meterIf x.1 x.2.1 x.2.2

/-- The meters an access of a thread counts toward, once its value is written (R214). -/
def State.meterAccess (s : State) (a : Access) : State := s.meterAll a.reads

/-- One piece of a non-binding load of a line: a value whose lease covers a time at or after the acquire time, from a live copy
of the tile L1 or from the home (R116). -/
def State.nbLine (s : State) (t : Thread) (a : Access) (p : Part) (line off : Nat) (at_ : PageAttr) : List Byte × State :=
  let (c, s) := s.choose
  match s.l1Live a.tile line at_ t.acq, c with
  | some l, true => (s.l1Read l at_.owner off p.bytes, s.l1Touch a.tile line a.evp)
  | _, _ =>
    let r := s.lineFetch a.tile line off p.bytes at_ a.evp t.acq
    (r.1, r.2.2)

/-- One piece of a non-binding load. The model's choice: one of a scratchpad or of the weight store gives the value its home
holds when the load binds (notes/assumptions/68.md). -/
def State.nbPiece (s : State) (t : Thread) (a : Access) (p : Part) : List Byte × State :=
  match p.target with
  | .phys pa => s.nbLine t a p (pa / 128) (pa % 128) p.attr
  | .ctx th b => s.nbLine t a p (ctxLineKey th) b { p.attr with cached := true }
  | tgt => let r := s.loadAt a.tile tgt p.bytes p.attr a.evp t.acq; (r.1, r.2.2)

/-- A piece of a thread's load binds: its bytes, those of the thread's own buffered bits among them, and its times. -/
def State.loadPiece (s : State) (k : Nat) (t : Thread) (a : Access) (p : Part) (nb : Bool) : List Byte × State :=
  let own (s : State) (bs : List Byte) : List Byte := natBytes p.bytes (s.overlay k p (leNat bs))
  if nb then
    let (bs, s) := s.nbPiece t a p
    (own s bs, s)
  else
    let (bs, tm, s) := s.seqPiece t a p t.pts
    (own s bs, s.modThread k fun t => t.acquire tm)

/-- The value of an access's bits. -/
def Access.pick (a : Access) (v : Nat) : Nat := v / 2 ^ a.bit % 2 ^ a.width

/-- The pieces after the first `n` bytes. -/
def dropBytes : Nat → List Part → List Part
  | _, [] => []
  | 0, ps => ps
  | n, p :: ps => dropBytes (n - p.bytes) ps

/-- The pieces of an access that have not bound (R122). -/
def Access.left (a : Access) : List Part := dropBytes a.got.length a.parts

/-- An access with a piece still to bind goes back to its place. -/
def State.unfinished (s : State) (k : Nat) (a : Access) : State := s.modThread k fun t => { t with unbound := a :: t.unbound }

/-- The next piece of a load binds (R122): the access with that piece's bytes, metered once all are there; the rows of a TLD count
once its tile is written. -/
def State.bindLoad (s : State) (k : Nat) (t : Thread) (a : Access) (nb : Bool) : Access × State :=
  match a.left with
  | [] => (a, s)
  | p :: ps =>
    let (bs, s) := s.loadPiece k t a p nb
    ({ a with got := a.got ++ bs }, if ps.isEmpty && a.kind != .row false then s.meterAccess a else s)

/-! ### Binding stores and atomics -/

/-- The next piece of a store binds (R111, R122). -/
def State.bindStore (s : State) (k : Nat) (t : Thread) (a : Access) : Access × State :=
  match a.left with
  | [] => (a, s)
  | p :: _ =>
    let cut (x : Nat) : Nat := x * 2 ^ a.bit / 2 ^ (8 * a.got.length) % 2 ^ (8 * p.bytes)
    let (tm, s) := s.storeAt (s.viaOf t a) p.target p.bytes (cut a.data) (cut (2 ^ a.width - 1)) p.attr.owner t.pts
    ({ a with got := a.got ++ List.replicate p.bytes 0 }, s.modThread k fun t => t.raise tm)

/-- The coherent bytes at a home, no lease taken. -/
def State.homeBytes (s : State) (p : Part) : List Byte :=
  match p.target with
  | .phys pa => s.ownedBytes p.attr.owner pa p.bytes
  | .ws off => s.ownedBytes p.attr.owner (wsBase + off) p.bytes
  | .spad c off => s.spadBytes p.attr.owner c off p.bytes
  | .ctx th b => s.ctxBytes th b p.bytes

/-- A failed comparison: pts and the home's rts take the larger of each other's times (R133). -/
def State.touchHome (s : State) (p : Part) (evp : Nat) (t : LTime) : LTime × State :=
  match p.target with
  | .phys pa =>
    let l := s.lineLease (pa / 128)
    let x := tmax t l.wts
    (x, s.recordRead p.attr.owner (pa / 128) evp { l with rts := tmax l.rts x })
  | .ws _ => (t, s)
  | .spad c off =>
    let l := (s.crew? c).elim Lease.zero (·.spanLease off)
    let x := tmax t l.wts
    (x, s.modCrew c (·.setSpan off { l with rts := tmax l.rts x }))
  | .ctx th _ =>
    let l := s.lineLease (ctxLineKey th)
    let x := tmax t l.wts
    (x, s.setLease (ctxLineKey th) { l with rts := tmax l.rts x })

/-- AtomicBind of R133 on the access's one piece; `f` gives the new value from the old, none where nothing is written. -/
def State.atomicBind (s : State) (k : Nat) (t : Thread) (a : Access) (f : Nat → Option Nat) : Nat × State :=
  match a.parts with
  | [] => (0, s)
  | p :: _ =>
    let s := s.meterAccess a
    let old := leNat (s.homeBytes p)
    let r := match f old with
      | some v => s.storeAt (s.viaOf t a) p.target p.bytes v (fullMask p.bytes) p.attr.owner t.pts
      | none => s.touchHome p a.evp t.pts
    (old, r.2.modThread k fun t => t.acquire r.1)

/-- The new value of an AMO (Table 6.3, R136): F formats under R87, the memory value first. -/
def amoNew (op : AmoOp) (f : Fmt) (old opnd : Nat) : Nat :=
  let w := f.width
  match op with
  | .swap => opnd
  | .add => (old + opnd) % 2 ^ w
  | .and => old &&& opnd
  | .or => old ||| opnd
  | .xor => old ^^^ opnd
  | .min => if f.isSigned then (if signed opnd w < signed old w then opnd else old) else min old opnd
  | .max => if f.isSigned then (if signed old w < signed opnd w then opnd else old) else max old opnd
  | .fadd => ((floatNum f old).add (floatNum f opnd)).encode f

/-- What a register takes from an atomic's old value: sign-extended for S32 only (R136). -/
def amoOld (f : Fmt) (old : Nat) : Word := if f = .s32 then sextWord old 32 else BitVec.ofNat 64 old

/-! ### Landing -/

/-- A pair of registers lands (R126, R134). -/
def Thread.landPair (t : Thread) (d : Reg) (v : Nat) : Thread :=
  (t.setReg (nextReg d) (BitVec.ofNat 64 (v / 2 ^ 64))).land d (BitVec.ofNat 64 v)

/-- An LDQ element lands in the slot it reserved (R225, R231). -/
def State.landQueue (s : State) (k n : Nat) : State :=
  match s.thread? k with
  | none => s
  | some t =>
    match t.landing[n]? with
    | some (q, slot, v, f) =>
      let s := s.setThread k { t with landing := t.landing.eraseIdx n }
      (s.fillSlot t.crewn.toNat q slot v false).late t.crewn.toNat f.size
    | none => s

/-- The next piece of an access takes its place in the order, and with the last its result lands: what LOAD_FILL, STORE_BIND,
QUEUE_FILL and an acceptance at another crew's tile do. An LDQ element that has bound lands by itself (R225). Granule
instructions act in `bindGranule`. -/
def State.bindAccess (s : State) (k : Nat) (a : Access) : State :=
  match s.thread? k with
  | none => s
  | some t =>
    let last (r : Access × State) (f : Nat → State → State) : State :=
      if r.1.left.isEmpty then f (a.pick (leNat r.1.got)) r.2 else r.2.unfinished k r.1
    match a.kind with
    | .load d f nb _ | .loadBits d f nb =>
      last (s.bindLoad k t a nb) fun v s => s.modThread k fun t => t.land d (extend f v)
    | .loadPair d nb _ => last (s.bindLoad k t a nb) fun v s => s.modThread k fun t => t.landPair d v
    | .store | .storePair | .storeBits => last (s.bindStore k t a) fun _ s => s
    | .amo op d f =>
      let (old, s) := s.atomicBind k t a fun o => some (amoNew op f o a.data)
      s.modThread k fun t => t.land d (amoOld f old)
    | .cas d f e =>
      let (old, s) := s.atomicBind k t a fun o => if o = e then some a.data else none
      s.modThread k fun t => t.land d (amoOld f old)
    | .casp d e =>
      let (old, s) := s.atomicBind k t a fun o => if o = e then some a.data else none
      s.modThread k fun t => t.landPair d old
    | .ldq q slot f =>
      last (s.bindLoad k t a false) fun v s =>
        s.modThread k fun t => { t with landing := t.landing ++ [(q, slot, extend f v, f)] }
    | .granule _ _ => s
    | .row true => last (s.bindStore k t a) fun _ s => s
    | .row false =>
      last (s.bindLoad k t a false) fun v s => s.modThread k fun t =>
        { t with finish := t.finish.map fun f => { f with rows := f.rows ++ [natBytes (a.width / 8) v], reads := f.reads ++ a.reads } }

/-! ### Home faults (R123, R190, R230) -/

/-- Release the register owed to an access that will not land (R190). -/
def Thread.releasePend (t : Thread) (k : AccKind) : Thread :=
  match k.dest with
  | some _ => t.releaseReg
  | none => t

/-- A home fault of an unbound access: an LDQ's slot takes a fault mark (R230); any other access is owed to its thread,
its register released and memory unwritten (R190), and a TLD whose row it is leaves its tile unchanged (R322). -/
def State.deferFault (s : State) (k : Nat) (a : Access) (code : Nat) : State :=
  match s.thread? k with
  | none => s
  | some t =>
    match a.kind with
    | .ldq q slot f =>
      (s.fillSlot t.crewn.toNat q slot (BitVec.ofNat 64 (a.va + code * 2 ^ 56)) true).late t.crewn.toNat f.size
    | kind =>
      let d : Deferred :=
        { code := code, apc := a.pc, addr := a.va, reg := kind.dest.elim 0 (·.reg.val), regv := kind.dest.isSome,
          size := sizeLog a.width, store := kind.stores, data := kind.dataField a.data,
          pair := kind.dest.elim false (·.pair), wc := false }
      let t : Thread := match kind with
        | .row false => { t with finish := t.finish.map fun f => { f with tile := none } }
        | _ => t
      s.setThread k { t.releasePend kind with deferred := t.deferred ++ [d] }

/-! ### Prefetch (R121, R130) -/

/-- A line of global memory stands with what another owner has left there. -/
def State.foreign (s : State) (w : Target) (owner : Nat) : Bool :=
  match w with
  | .phys pa => (Map.get? s.mem.tags (pa / 512)).elim false (· != owner)
  | _ => false

/-- The line of a tile L1 that holds a target, where one can (R114). -/
def Target.l1Key : Target → Option Nat
  | .phys pa => some (pa / 128)
  | .ctx th _ => some (ctxLineKey th)
  | _ => none

/-- Bring a line ahead into a tile L1, or with e7 into L2 alone (R120): no lease moves at the home, no fault is raised, nothing is
counted, and only the requester's own data under an installed key is fetched (R121). A line that is there is used (R120). -/
def State.prefetchLine (s : State) (tile : Nat) (w : Target) (a : PageAttr) (evp : Nat) : State :=
  match w.l1Key with
  | none => s
  | some line =>
    if s.homeBusy w ∨ s.homeFault w a.owner ≠ 0 ∨ s.foreign w a.owner then s
    else if a.cached ∧ ((s.tile tile).l1find line).isSome then s.l1Touch tile line evp
    else
      let h := s.lineLease line
      let s := s.touchL2 line evp
      let s := s.setLease line h
      if !a.cached ∨ evp = 7 then s
      else
        let (st, s) := s.stamp
        s.modTile tile fun x => x.l1install
          { line := line, data := s.lineBytes a.owner line, wts := h.wts, rts := h.rts, perm := a.perm,
            owner := a.owner, evp := evp, stamp := st }

/-! ### The thread's next access -/

/-- Take an unbound access off a line. -/
def State.popAccess (s : State) (k : Nat) (a : Access) : State := s.modThread k fun t => { t with unbound := t.unbound.erase a }

/-- The accesses of a thread that may bind now: its oldest sequential one, and its non-binding load, which keeps no order with
the others (R112, R116). -/
def Thread.nextAccesses (t : Thread) : List Access :=
  t.sequential.take 1 ++ (t.unbound.filter fun a => a.kind.isNb).take 1

/-- The access of a thread that may bind now, if it is one `p` accepts and is not on its way to another crew's tile. -/
def State.headAccess (s : State) (k : Nat) (p : AccKind → Bool) : Option Access :=
  match s.thread? k with
  | some t => t.nextAccesses.find? fun a => p a.kind && !a.remote
  | none => none

/-- A target lies in the scratchpad of a displaced crew: an access there waits until the crew is restored (R346). -/
def State.spadAway (s : State) (w : Target) : Bool :=
  match w with
  | .spad c _ => (s.crew? c).elim false (·.displaced)
  | _ => false

def AccKind.isRow : AccKind → Bool
  | .row _ => true
  | _ => false

/-- The home of an access's next piece cannot answer yet. -/
def State.nextBusy (s : State) (a : Access) : Bool :=
  (a.left.take 1).any fun x => s.homeBusy x.target || (a.kind.isRow && s.spadAway x.target)

/-- What the home of an access's next piece answers: 0, or a fault's code. -/
def State.nextFault (s : State) (a : Access) : Nat := s.partsFault (a.left.take 1)

/-- Bind a thread's next access if it is one `p` accepts, one piece at a time (R122): a busy line delays it (R210, R212), a
fault at the home is left to DEFERRED_FAULT. -/
def State.bindHead (s : State) (k : Nat) (p : AccKind → Bool) : State :=
  match s.headAccess k p with
  | none => s
  | some a =>
    if s.nextBusy a then s.snoop (linesOfParts (a.left.take 1))
    else if s.nextFault a ≠ 0 then s
    else ((s.popAccess k a).bindAccess k a).wakeOwn k

/-- The next access of a thread faults at its home (R123). -/
def State.faultHead (s : State) (k : Nat) : State :=
  match s.thread? k with
  | none => s
  | some t =>
    match t.nextAccesses.find? fun a => !a.remote && !s.nextBusy a && s.nextFault a != 0 with
    | some a => ((s.popAccess k a).deferFault k a (s.nextFault a)).wakeOwn k
    | none => s

/-! ### Tile registers and accumulators as loads write them (R205, R308, R311) -/

/-- Bytes of a tile register and of one of its rows (R308). -/
def tileSize : Nat := 16384
def tileRow : Nat := 256

/-- The listed bytes of a tile register, by offset: none where it belongs to another owner (R205). -/
def Crew.tileBytes (c : Crew) (t : Reg) : Map Byte :=
  if c.tileTag[t] = c.task.owner then
    (c.tileB.filter fun e => e.1 / tileSize == t.val).map fun (e : Nat × Byte) => (e.1 % tileSize, e.2)
  else []

/-- All 16,384 bytes become zero, and the register the crew's owner's. -/
def Crew.zeroTile (c : Crew) (t : Reg) : Crew :=
  { c with tileB := c.tileB.filter fun e => e.1 / tileSize ≠ t.val, tileTag := c.tileTag.set t c.task.owner }

/-- Write bytes into a tile register from an offset on; the first write of another owner clears it (R205). -/
def Crew.setTileBytes (c : Crew) (t : Reg) (off : Nat) (bs : List Byte) : Crew :=
  let c := if c.tileTag[t] = c.task.owner then c else c.zeroTile t
  { c with tileB := ((List.range bs.length).zip bs).foldl (init := c.tileB) fun m e =>
      Map.set m (tileSize * t.val + off + e.1) 0 e.2 }

/-- Write rows from row 0 on. -/
def Crew.setTileRows (c : Crew) (t : Reg) (rows : List (List Byte)) : Crew :=
  ((List.range rows.length).zip rows).foldl (init := c) fun c e => c.setTileBytes t (tileRow * e.1) e.2

/-- An entry of an accumulator: zero where it belongs to another owner (R205). -/
def Crew.acc (c : Crew) (a : Reg) (n : Nat) : Nat :=
  if c.accTag[a] = c.task.owner then (Map.getD c.accE (4096 * a.val + n) 0).toNat else 0

/-- Every entry of an accumulator becomes zero, and the accumulator the crew's owner's. -/
def Crew.zeroAcc (c : Crew) (a : Reg) : Crew :=
  { c with accE := c.accE.filter fun e => e.1 / 4096 ≠ a.val, accTag := c.accTag.set a c.task.owner }

/-- The key of an entry. -/
def accKey (a : Reg) (n : Nat) : Nat := 4096 * a.val + n

/-- Write entries of the accumulators `accs`; the first write of another owner clears one (R205). -/
def Crew.setAccs (c : Crew) (accs : List Reg) (es : List (Nat × Word)) : Crew :=
  let c := accs.foldl (init := c) fun c a => if c.accTag[a] = c.task.owner then c else c.zeroAcc a
  { c with accE := es.foldl (init := c.accE) fun m e => Map.set m e.1 0 e.2 }

/-- A TLD, a TST or an AWR all of whose accesses have bound: a TLD writes its tile in one step once no read hold is left (R314,
R322); an AWR writes its entries in one step, and waits again with kind 7 where one of its accumulators is locked (R330). -/
def State.finishRows (s : State) (k : Nat) : State :=
  match s.thread? k with
  | none => s
  | some t =>
    match t.finish, s.crew? t.crewn.toNat with
    | some f, some c =>
      if t.await ≠ .rows ∨ t.unbound.any (fun a => a.kind.isRow) ∨ c.displaced then s
      else
        match f.accs.find? fun a => c.locks[a] ≠ 0 with
        | some a => s.setThread k (t.toWait 7 a.val .rows)
        | none =>
          if f.tile.any fun d => c.holds[d] ≠ 0 then s
          else
            let c := f.tile.elim c fun d => c.setTileRows d f.rows
            ((if f.tile.isSome then s.meterAll f.reads else s).setCrew t.crewn.toNat (c.setAccs f.accs f.entries)).complete k
    | _, _ => s

/-! ### Write-combining entries (R117) -/

/-- The target of the first byte of the 64-byte block that holds a piece. -/
def Target.blockBase (t : Target) (o : Nat) : Target :=
  match t with
  | .phys pa => .phys (pa - o)
  | .ws off => .ws (off - o)
  | .spad c off => .spad c (off - o)
  | .ctx th b => .ctx th (b - o)

/-- Put the bits of one block into the write-combining buffer of a core's tile: merged into the entry the thread has there,
whichever core's it is, or a new entry of the core; none where the core has none left (R117). -/
def State.wcPut (s : State) (core k : Nat) (a : Access) (p : Part) (va data mask : Nat) (pts : LTime) : Option State :=
  let sh := va % 64 * 8
  let bits := data * 2 ^ sh
  let mask := mask * 2 ^ sh
  match (s.wcOf k).find? fun e => e.1 / 8 == core / 8 && e.2.target.block == p.target.block with
  | some e =>
    some (s.modCore e.1 fun c => { c with wc := c.wc.map fun w =>
      if w = e.2 then { w with bits := mergeBits w.bits bits mask, mask := w.mask ||| mask } else w })
  | none =>
    if Config.wcEntries ≤ (s.core core).wc.length then none
    else some (s.modCore core fun c => { c with wc := c.wc ++
      [{ thread := k, target := p.target.blockBase (va % 64), attr := p.attr, path := p.path, bits := bits &&& mask,
         mask := mask, pts := pts, evp := a.evp, scope := a.scope, va := a.va, pc := a.pc, size := sizeLog a.width,
         data := a.data % 2 ^ 64, draining := false }] })

/-- The pieces of a write-combining store, each within one block, put one after another. -/
def State.wcParts (core k : Nat) (a : Access) (pts : LTime) : (va data mask : Nat) → List Part → State → Option State
  | _, _, _, [], s => some s
  | va, data, mask, p :: ps, s =>
    let m := 2 ^ (8 * p.bytes)
    match s.wcPut core k a p va (data % m) (mask % m) pts with
    | none => none
    | some s => State.wcParts core k a pts (va + p.bytes) (data / m) (mask / m) ps s

/-- A full buffer starts to drain its oldest entry (R117). -/
def Core.drainOldest (c : Core) : Core :=
  { c with wc := match c.wc with
      | [] => []
      | w :: ws => { w with draining := true } :: ws }

/-- WcBuffer of R117 for a store of a thread at a core. -/
def State.wcBuffer (s : State) (core k : Nat) (a : Access) (pts : LTime) : Option State :=
  State.wcParts core k a pts a.va (a.data * 2 ^ a.bit) ((2 ^ a.width - 1) * 2 ^ a.bit) a.parts s

/-- The thread holds a block of this store in an entry that is draining or stands at another tile: the store waits for it, so
that a block has one entry of the thread (R117, R118; notes/assumptions/66.md). -/
def State.wcBlocked (s : State) (core k : Nat) (a : Access) : Bool :=
  (s.wcOf k).any fun e => e.2.touches a.parts && (e.2.draining || e.1 / 8 != core / 8)

/-! ### Accesses to another crew's scratchpad (R346) -/

/-- The rights a window must grant (Table 18.2). -/
def AccKind.windowRights : AccKind → Bool × Bool
  | .load _ _ _ q | .loadPair _ _ q => (q != .fec, q == .fec)
  | .loadBits _ _ _ | .ldq _ _ _ => (true, false)
  | .row st => (!st, st)
  | .store | .storePair | .storeBits | .amo _ _ _ | .cas _ _ _ | .casp _ _ => (false, true)
  | .granule _ set => (set.isNone, set.isSome)

/-- The full/empty qualifier of a load. -/
def AccKind.feQual : AccKind → FeQual
  | .load _ _ _ q | .loadPair _ _ q => q
  | _ => .plain

/-- The granule an access starts in. -/
def Access.granuleOf (a : Access) : Nat × Nat :=
  match a.parts with
  | { target := .spad c off, .. } :: _ => (c, off / 16)
  | _ => (0, 0)

/-- FESET, FECLR, FEW and FEW.E at a granule, once nothing holds them (R149, R150). -/
def State.bindGranule (s : State) (k c g : Nat) (waitFull : Bool) (set : Option Bool) : State :=
  match s.thread? k, s.crew? c with
  | some t, some x =>
    match set with
    | some true => s.fillGranule c g t.pts
    | some false => s.clearGranule c g t.pts
    | none => s.modThread k fun t => t.acquire (if waitFull then (x.granule g).ft else (x.granule g).et)
  | _, _ => s

/-- The granule state that keeps an access waiting: none, or whether it waits for empty. -/
def State.granuleHolds (s : State) (a : Access) : Option Bool :=
  let (c, g) := a.granuleOf
  let owner := (a.parts.head?).elim 0 (·.attr.owner)
  let full := (s.crew? c).elim false fun x => x.granuleFull owner g
  match a.kind with
  | .granule w none => if w == full then none else some (!w)
  | kind => if kind.feQual != .plain && !full then some false else none

/-- The step of R128 at a full granule, and the access with it. The model's choice: a .FEC load's clear raises ET to the pts
the load has after its read (notes/assumptions/69.md). -/
def State.bindQualified (s : State) (k : Nat) (a : Access) : State :=
  let (c, g) := a.granuleOf
  match a.kind with
  | .granule w set => s.bindGranule k c g w set
  | kind =>
    if kind.feQual = .plain then s.bindAccess k a
    else
      let ft := (s.crew? c).elim 0 fun x => (x.granule g).ft
      let s := (s.modThread k fun t => t.acquire ft).bindAccess k { a with kind := match a.kind with
        | .load d f _ q => .load d f false q
        | .loadPair d _ q => .loadPair d false q
        | x => x }
      if kind.feQual = .fec then s.clearGranule c g ((s.thread? k).elim 0 (·.pts)) else s

/-- The slot an LDQ reserved. -/
def Access.slot (a : Access) : Option (Reg × Nat) :=
  match a.kind with
  | .ldq q slot _ => some (q, slot)
  | _ => none

/-- An access to another crew's scratchpad is taken back with what is left of its instruction, which gives back what it took of
its crew's queues (R228). -/
def State.giveBack (s : State) (k : Nat) (a : Access) : State :=
  match s.thread? k with
  | none => s
  | some t =>
    let left := if a.kind.isRow then t.unbound.filter fun x => !x.kind.isRow else t.unbound.erase a
    (s.setThread k { t.clearWait with st := .ready, unbound := left, finish := none }).returnSlots t.crewn.toNat a.slot
      (t.finish.bind (·.popped))

/-- The slot an LDQ reserves. -/
def ldqSlot (f : Fmt) : Slot := { val := 0, filled := false, fault := false, ldq := true, fmt := f.code }

/-- An access to another crew's scratchpad has been accepted and binds, one piece of it at a time: a write-combining store goes
into the buffer of the issuing tile (R117), an LDQ element lands at once, and a home fault is owed to the thread (R123); a granule
instruction reads and writes no data that could be poisoned. None while the buffer has no entry for it. -/
def State.remoteBind (s : State) (k : Nat) (t : Thread) (a : Access) : Option State :=
  let f := match a.kind with
    | .granule _ _ => 0
    | _ => s.nextFault a
  let s' := s.popAccess k a
  if f ≠ 0 ∧ !a.wc then some (s'.deferFault k a f)
  else if a.wc then
    let core := t.entryCore.getD (8 * a.tile)
    if s.wcBlocked core k a then none else s'.wcBuffer core k a t.pts
  else
    let s' := s'.bindQualified k { a with accepted := a.kind.isRow }
    some (match a.kind with
      | .ldq _ _ _ => s'.landQueue k (t.landing.length)
      | _ => s')

/-- The instruction of an access that has bound at another crew's tile retires once nothing of it is left (R346). -/
def State.finishRemote (s : State) (k : Nat) (a : Access) : State :=
  match s.thread? k with
  | some t => if t.unbound.any (·.remote) then s else if a.kind.isRow then s.finishRows k else s.complete k
  | none => s

/-- The pieces that another crew's tile tests when they arrive: a row of a TLD or TST, or a write-combining store, as one access,
any other by the piece (R122, R345). -/
def Access.tested (a : Access) : List Part := if a.kind.isRow || a.wc then a.left else a.left.take 1

/-- The test of an access that arrives; none where it has been accepted already, unless its crew is displaced (R344, R346). -/
def State.arrivalTest (s : State) (t : Thread) (a : Access) : Option Block :=
  let rw := a.kind.windowRights
  if a.accepted then (if a.left.any fun p => s.spadAway p.target then some (.busy .remote []) else none)
  else s.remoteTest t.crewn.toNat a.tested rw.1 rw.2

/-- A thread's access arrives at another crew's tile: it waits while that crew is displaced, is refused with REMREF, waits
accepted on its granule (R344), or binds there, and its instruction then retires (R345, R346). -/
def State.remoteArrive (s : State) (k : Nat) : State :=
  match s.thread? k with
  | none => s
  | some t =>
    match t.nextAccesses.find? (·.remote) with
    | none => s
    | some a =>
      if t.trapq.isSome ∨ s.nextBusy a then s
      else
        match s.arrivalTest t a with
        | some (.busy _ _) => s
        | some _ => (s.giveBack k a).userTrap k (accTrap codeRemref a.va a.kind a.width a.data)
        | none =>
          match s.granuleHolds a with
          | some e =>
            let (c, g) := a.granuleOf
            s.setThread k { t.toWait 3 (granuleObj t.crewn.toNat c g e) (.granule c) with
              unbound := t.unbound.map fun x => if x = a then { a with accepted := true } else x }
          | none =>
            match s.remoteBind k t a with
            | some s => s.finishRemote k a
            | none =>
              let core := t.entryCore.getD (8 * a.tile)
              if s.wcBlocked core k a then s.drainBlocks k a.parts else s.modCore core Core.drainOldest

end Sys2Proof.Machine
end

