-- ==== Sys2Proof/Machine/Sync.lean ====
section
/-! DEFINITION. Barriers (R137 to R144), timelines (R145, R146) and messages (R151 to R156): major opcodes 0x43 to 0x48 and
0x4C to 0x4E. -/

namespace Sys2Proof.Machine

/-- Offer an event of a line as it now stands. -/
def State.offerOf (s : State) (k kind sub code : Nat) (payload : Word) : State :=
  match s.thread? k with
  | some t => s.offer (t.event kind sub code payload)
  | none => s

/-! ### Barriers -/

/-- A phase that ends when ARRIVED ≥ EXPECTED and PENDING = 0 (R138). -/
def Barrier.testEnd (b : Barrier) : Barrier :=
  if b.expected ≤ b.arrived ∧ b.pending = 0 then
    { b with phase := b.phase + 1, arrived := 0, ct := tmax b.ct b.nt, nt := 0 }
  else b

def Crew.barrier (c : Crew) (b : Reg) : Barrier := c.barriers[b]
def Crew.setBarrier (c : Crew) (b : Reg) (x : Barrier) : Crew := { c with barriers := c.barriers.set b x }

/-- The wait object of BARW (R141). -/
def barObj (b phase : Nat) : Nat := b + 8 * phase

/-- An event of a crew that no thread makes (Table 24.2): its index is 0. -/
def Crew.event (c : Crew) (crew kind sub code : Nat) (lt : LTime) (payload : Word) : TraceEv :=
  { kind := kind, sub := sub, code := code, crew := crew, tidx := 0, lt := lt, gtid := c.task.gtid, payload := payload }

/-- Change a barrier of a crew, test for the end of its phase, and make ready every BARW whose phase now differs (R138). -/
def State.modBarrier (s : State) (crew : Nat) (b : Reg) (f : Barrier → Barrier) : State :=
  match s.crew? crew with
  | none => s
  | some c =>
    let y := f (c.barrier b)
    let x := y.testEnd
    let s := (s.setCrew crew (c.setBarrier b x)).wakeKind crew 5 fun o =>
      o % 8 == b.val && o / 8 % 2 ^ 16 != x.phase.toNat
    if x.phase = y.phase then s else s.offer (c.event crew 4 b.val x.phase.toNat x.ct 0)

/-- The barrier of the issuing crew. -/
def Issue.barrier (i : Issue) (s : State) (b : Reg) : Barrier := (s.crew? i.crew).elim (Barrier.reset 0) (·.barrier b)

/-- BARA (R140): a release and a draining event. -/
def execBara (p : Pred) (d a : Reg) (s : State) : Out :=
  issue p 8 { dst := [d], drains := true } (fun i s =>
    i.afterDrain s fun s =>
      let phase := (i.barrier s a).phase
      let pts := (s.thread? i.k).elim i.t.pts (·.pts)
      let s := s.modBarrier i.crew a fun b => { b with nt := tmax b.nt pts, arrived := min (b.arrived + 1) 511 }
      i.put s d (phase.setWidth 64)) s

/-- BARW (R141): waits while PHASE = gB[15:0], then acquires at CT. -/
def execBarw (p : Pred) (a b : Reg) (s : State) : Out :=
  issue p 8 { src := [b] } (fun i s =>
    let x := i.barrier s a
    let want := (i.reg b).toNat % 2 ^ 16
    if x.phase.toNat = want then .waits 5 (barObj a.val want)
    else .retire (s.modThread i.k fun t => t.acquire x.ct)) s

/-- BARX (R142): S is added to PENDING modulo 2^48. -/
def execBarx (p : Pred) (a : Reg) (b : Src) (s : State) : Out :=
  issue p 8 { src := srcRegs b } (fun i s =>
    .retire (s.modBarrier i.crew a fun x => { x with pending := x.pending + (i.src b).setWidth 48 })) s

/-- BARCFG (R143): EXPECTED := S, 1 to 256. The model's choice: S is the whole of gB, not the 48 bits R142 takes
(notes/assumptions/71.md). -/
def execBarcfg (p : Pred) (a : Reg) (b : Src) (s : State) : Out :=
  issue p 8 { src := srcRegs b } (fun i s =>
    let v := (i.src b).toNat
    if v = 0 ∨ 256 < v then .user codeRange 0 v
    else .retire (s.modBarrier i.crew a fun x => { x with expected := v })) s

/-- BARCFG.RD (R143). -/
def execBarcfgRd (p : Pred) (d a : Reg) (s : State) : Out :=
  issue p 8 { dst := [d] } (fun i s => i.put s d (BitVec.ofNat 64 (i.barrier s a).word)) s

/-- BARCFG.PB (R143). -/
def execBarcfgPb (p : Pred) (d a : Reg) (s : State) : Out :=
  issue p 8 { dst := [d] } (fun i s => i.put s d ((i.barrier s a).pending.signExtend 64)) s

/-! ### Timelines -/

def Crew.timeline (c : Crew) (t : Tl) : Timeline := c.timelines[t]
def Crew.setTimeline (c : Crew) (t : Tl) (x : Timeline) : Crew := { c with timelines := c.timelines.set t x }

/-- Change a timeline and wake the waiters whose number DONE has reached (R146, R159). -/
def State.modTimeline (s : State) (crew : Nat) (t : Tl) (f : Timeline → Timeline) : State :=
  let s := s.modCrew crew fun c => c.setTimeline t (f (c.timeline t))
  let done := (s.crew? crew).elim 0 fun c => (c.timeline t).done.toNat
  s.wakeWhere fun x =>
    x.st == .waiting && x.crewn.toNat == crew && x.wkind.toNat == 4 && x.wobj.toNat % 4 == t.val && decide (x.target.toNat ≤ done)

/-- Some mangle operation of a crew has not retired (R333). -/
def Crew.mangleOpen (c : Crew) : Bool := c.mgOps.any fun o => decide ((c.timeline o.tl).done.toNat < o.num.toNat)

/-- An engine operation takes the next number of its timeline at issue (R145). -/
def State.takeNumber (s : State) (crew : Nat) (t : Tl) : Word × State :=
  let n := (s.crew? crew).elim 0 fun c => (c.timeline t).issued + 1
  (n, s.modCrew crew fun c => c.setTimeline t { c.timeline t with issued := n })

/-- An operation has ended, with failure code `code` (0 for none) at `time`; it retires in number order. -/
def State.opEnded (s : State) (crew : Nat) (t : Tl) (num : Word) (code : Nat) (time : LTime) : State :=
  s.modCrew crew fun c => c.setTimeline t
    { c.timeline t with finished := (c.timeline t).finished ++ [(num, code, time)] }

/-- The operation that retires next, if it has ended. -/
def Timeline.nextEnded (t : Timeline) : Option (Word × Nat × LTime) := t.finished.find? fun x => x.1 == t.done + 1

/-- The operation after DONE retires (R145): DONE and DT advance, and a failure is recorded. -/
def Timeline.retireNext (t : Timeline) : Timeline :=
  match t.nextEnded with
  | none => t
  | some x =>
    let t := { t with done := t.done + 1, dt := tmax t.dt x.2.2, finished := t.finished.erase x }
    if x.2.1 % 256 = 0 then t
    else if t.failn = 0 then { t with failn := x.1, failc := BitVec.ofNat 8 x.2.1 }
    else { t with more := BitVec.ofNat 8 (min (t.more.toNat + 1) 255) }

/-- OR sticky bits into CVSTAT; FIRSTROW is written only when NEGROW goes from 0 to 1 (R249, Table 13.7). -/
def Crew.setSticky (c : Crew) (flags : Nat) : Crew :=
  let old := c.cvstat.toNat
  let row := if bitAt old 3 then field old 16 32 else field flags 16 32
  { c with cvstat := BitVec.ofNat 64 ((old % 64 ||| flags % 64) + 2 ^ 16 * row) }

/-- TIMELINE_RETIRE (R145). -/
def execTimelineRetire (crew : Nat) (t : Tl) (s : State) : Out :=
  .next <|
    match s.crew? crew with
    | none => s
    | some c =>
      let x := (c.timeline t).retireNext
      let flags := (c.timeline t).nextEnded.elim 0 fun e => e.2.1 / 256
      let s := (s.modTimeline crew t fun _ => x).modCrew crew (·.setSticky flags)
      let idle := (s.crew? crew).elim false fun c => !c.mangleOpen
      let s := (s.late crew 0).wakeWhere fun t => idle && t.st == .waiting && t.crewn.toNat == crew && t.await == .mangle
      if x.done = (c.timeline t).done then s else s.offer (c.event crew 5 t.val 0 x.dt x.done)

/-- The timeline of the issuing crew. -/
def Issue.timeline (i : Issue) (s : State) (t : Tl) : Timeline := (s.crew? i.crew).elim Timeline.reset (·.timeline t)

/-- TLWAIT (R146): waits while DONE < n, acquires at DT, and reports a failure numbered at most n. -/
def execTlwait (p : Pred) (d : Reg) (t : Tl) (b : Src) (s : State) : Out :=
  issue p 8 { src := srcRegs b, dst := [d] } (fun i s =>
    let x := i.timeline s t
    let n := (i.src b).toNat
    if x.done.toNat < n then .wait 4 t.val .nothing fun s => s.modThread i.k fun y => { y with target := i.src b }
    else
      let s := s.modThread i.k fun y => y.acquire x.dt
      if x.failn ≠ 0 ∧ x.failn.toNat ≤ n then
        let v := x.failc.toNat + 2 ^ 8 * x.more.toNat + 2 ^ 16 * (x.failn.toNat % 2 ^ 48)
        let s := s.modCrew i.crew fun c => c.setTimeline t { x with failn := 0, failc := 0, more := 0 }
        i.put s d (BitVec.ofNat 64 v)
      else i.put s d 0) s

/-- TLGET (R146). -/
def execTlget (p : Pred) (d : Reg) (t : Tl) (s : State) : Out :=
  issue p 8 { dst := [d] } (fun i s => i.put s d (i.timeline s t).done) s

/-- TLGET.I (R146). -/
def execTlgetI (p : Pred) (d : Reg) (t : Tl) (s : State) : Out :=
  issue p 8 { dst := [d] } (fun i s => i.put s d (i.timeline s t).issued) s

/-! ### Destinations of messages and wakes -/

/-- The crew and index a destination word names (R151). -/
def Issue.destOf (i : Issue) (w : Word) : Nat × Nat :=
  let c := field w.toNat 0 20
  (if c = 0xFFFFF then i.crew else c, field w.toNat 20 8)

/-- A target in the issuing task (R152, R180): bits 63:28 zero, its crew bound and of the task, its index below the crew
size. -/
def Issue.targetOf (i : Issue) (s : State) (w : Word) : Option (Nat × Thread) :=
  let (c, n) := i.destOf w
  if w.toNat / 2 ^ 28 ≠ 0 then none
  else
    match s.crew? c with
    | none => none
    | some x =>
      if x.task.gtid ≠ i.c.task.gtid ∨ x.decl.threads ≤ n then none
      else (s.thread? (threadKey c n)).map fun t => (threadKey c n, t)

/-- Resolve of R152: a target that has not exited. -/
def Issue.resolveDest (i : Issue) (s : State) (w : Word) : Option (Nat × Thread) :=
  (i.targetOf s w).filter fun e => e.2.st != .exited

/-! ### Messages -/

/-- Entries of an inbox. -/
def inboxSize : Nat := 8

/-- The wait object of a SEND (R152), and of a RECV (R153). -/
def sendObj (crew idx : Nat) : Nat := crew + 2 ^ 20 * idx
def recvObj : Nat := 0xFFFFFFF

/-- An inbox takes no message: it is full, or its crew is displaced (R152, R155). -/
def State.inboxFull (s : State) (k : Nat) (t : Thread) : Bool :=
  decide (inboxSize ≤ t.inbox.length) || (s.crew? (crewOf k)).elim false (·.displaced)

/-- Change a launch that is accepted. -/
def State.modLaunch (s : State) (l : Nat) (f : Launch → Launch) : State :=
  match Map.get? s.work.launches l with
  | some x => { s with work := { s.work with launches := Map.put s.work.launches l (f x) } }
  | none => s

/-- S(L) and R(L) of R390. -/
def State.countSent (s : State) (l : Nat) : State := s.modLaunch l fun x => { x with sent := x.sent + 1 }
def State.countRecv (s : State) (l : Option Nat) : State :=
  match l with
  | some l => s.modLaunch l fun x => { x with recvd := x.recvd + 1 }
  | none => s

/-- The line waits in a SEND on the inbox of line `k`. -/
def Thread.sendsTo (t : Thread) (k : Nat) : Bool :=
  t.st == .waiting && t.wkind == 6 && t.wobj.toNat == sendObj (crewOf k) (tidxOf k)

/-- Every SEND waiting on an inbox that has room looks again (R152, R155, R159). The model's choice: of several, the first that
issues again enters first (notes/assumptions/72.md). -/
def State.wakeSenders (s : State) (k : Nat) : State :=
  if (s.thread? k).any (s.inboxFull k) then s else s.wakeWhere (·.sendsTo k)

/-- Append a message to an inbox, and wake a RECV that waits on it. -/
def State.deliver (s : State) (k : Nat) (m : Msg) : State :=
  s.modThread k fun t =>
    let t := { t with inbox := t.inbox ++ [m] }
    if t.st = .waiting ∧ t.wkind = 6 ∧ t.wobj.toNat = recvObj then t.wake else t

/-- Discard what is left in the inbox of a thread that ends (R155): each message counts as received, and every SEND waiting on it
is to raise REMREF, whatever takes the thread's index meanwhile. -/
def State.discardInbox (s : State) (k : Nat) : State :=
  match s.thread? k with
  | none => s
  | some t =>
    let s := t.inbox.foldl (init := s) fun s m => s.countRecv m.launch
    let s := s.modThread k fun t => { t with inbox := [], token := false, wt := 0 }
    { s with threads := s.threads.map fun (e : Nat × Thread) =>
        if e.2.sendsTo k then (e.1, { e.2.wake with gone := some k }) else e }

/-- Where a SEND goes: none where it names no thread, or the thread it waited on has exited (R152, R155). -/
def Issue.sendDest (i : Issue) (s : State) (w : Word) : Option (Nat × Thread) :=
  (i.resolveDest s w).filter fun e => i.t.gone != some e.1

/-- SEND and SEND.T (R152). -/
def sendTo (f : Option Reg) (p : Pred) (a b : Reg) (s : State) : Out :=
  issue p 8 { src := [a, b], drains := true } (fun i s =>
    i.afterDrain s fun s =>
      match i.sendDest s (i.reg a) with
      | none => .user codeRemref 0 (i.reg a).toNat
      | some (k, t) =>
        if s.inboxFull k t then
          match f with
          | some f => i.putFlag s f false
          | none => .waits 6 (sendObj (crewOf k) (tidxOf k))
        else
          let pts := (s.thread? i.k).elim i.t.pts (·.pts)
          let s := (s.deliver k { payload := i.reg b, crew := i.crew, tidx := i.t.tidx.toNat, time := pts,
                                  launch := some i.c.launch }).countSent i.c.launch
          let s := s.offerOf i.k 6 0 0 (i.reg a)
          match f with
          | some f => i.putFlag s f true
          | none => .retire s) s

/-- SEND (R152). -/
def execSend (p : Pred) (a b : Reg) : State → Out := sendTo none p a b
/-- SEND.T (R152). -/
def execSendT (p : Pred) (d a b : Reg) : State → Out := sendTo (some d) p a b

/-- RECV (R153). -/
def execRecv (p : Pred) (f : Option Reg) (id : Bool) (d : Reg) (s : State) : Out :=
  issue p 8 (if id then { dstPair := [d] } else { dst := [d] }) (fun i s =>
    match i.t.inbox with
    | [] =>
      match f with
      | some f => i.putFlag s f false
      | none => .waits 6 recvObj
    | m :: ms =>
      let s := s.modThread i.k fun t => { t with inbox := ms }.acquire m.time
      let s := (s.countRecv m.launch).wakeSenders i.k
      let s := s.offerOf i.k 6 1 0 (BitVec.ofNat 64 (sendObj m.crew m.tidx))
      let s := s.wr i.k d m.payload
      let s := if id then s.wr i.k (nextReg d) (BitVec.ofNat 64 (sendObj m.crew m.tidx)) else s
      match f with
      | some f => i.putFlag s f true
      | none => .retire s) s

/-- CHSTAT (R154). -/
def execChstat (p : Pred) (d : Reg) (s : State) : Out :=
  issue p 8 { dst := [d] } (fun i s => i.put s d (BitVec.ofNat 64 i.t.inbox.length)) s

/-- CHSTAT.D (R154): the occupancy of the named inbox, whatever its task, and bit 4 where a SEND would not raise REMREF. -/
def execChstatD (p : Pred) (d a : Reg) (s : State) : Out :=
  issue p 8 { src := [a], dst := [d] } (fun i s =>
    let (c, n) := i.destOf (i.reg a)
    let held := (s.thread? (threadKey c n)).elim 0 fun t => if (s.crew? c).isSome then t.inbox.length else 0
    i.put s d (BitVec.ofNat 64 (held + 16 * b2n (i.resolveDest s (i.reg a)).isSome))) s

end Sys2Proof.Machine
end

