-- ==== Sys2Proof/Machine/Handles.lean ====
section
/-! DEFINITION. Handles (R265 to R267) and the elements they name: location (R243, R266), reads and writes of a thread's
batch at the crew's scratchpad with the W and C flags (R268, R270), and those of the tile's engines (R253, R290). -/

namespace Sys2Proof.Machine

/-- A handle entry (Table 14.1). -/
structure Handle where
  base   : Nat
  len    : Nat
  stride : Nat
  fmt    : Nat
  w      : Bool
  c      : Bool
  d      : Bool
  x      : Bool
deriving DecidableEq, Repr

def Handle.ofBits (v : BitVec 128) : Handle :=
  let n := v.toNat
  { base := field n 0 23, len := field n 23 20, stride := field n 43 16, fmt := field n 59 8, w := bitAt n 67,
    c := bitAt n 68, d := bitAt n 69, x := bitAt n 70 }

def Crew.handle (c : Crew) (x : Reg16) : Handle := Handle.ofBits c.handles[x]

/-- Reserved bits of a handle entry read as zero (R6, R269). -/
def handleBits (v : Nat) : BitVec 128 := BitVec.ofNat 128 (v % 2 ^ 71)

/-- The element format, where FMT is a code of Table 2.8. -/
def Handle.fmt? (h : Handle) : Option Fmt := Fmt.ofCode h.fmt

/-- Element width in bits. -/
def Handle.width (h : Handle) : Nat := h.fmt?.elim 8 Fmt.width

/-- The bit address of element i (R266). -/
def Handle.bitOf (h : Handle) (i : Nat) : Nat := h.base + i * (if h.stride = 0 then h.width else 8 * h.stride)

/-- First byte and end byte of element i. -/
def Handle.bytesOf (h : Handle) (i : Nat) : Nat × Nat := (h.bitOf i / 8, (h.bitOf i + h.width + 7) / 8)

/-- The checks of R267 on one handle: true where they pass. -/
def Handle.sound (h : Handle) (accept : Fmt → Bool) : Bool :=
  match h.fmt? with
  | none => false
  | some f =>
    accept f && !(decide (8 ≤ f.width) && h.base % 8 != 0) && !(h.stride != 0 && decide (8 * h.stride < f.width))

/-- HANDLE on a handle: INFO its number, DETAIL its FMT. -/
def handleTrap (x : Reg16) (h : Handle) : Effect := .user codeHandle x.val 0 h.fmt

/-- The first failing handle of a list, in order. -/
def badHandle (c : Crew) : List (Reg16 × (Fmt → Bool)) → Option Effect
  | [] => none
  | (x, accept) :: rest => if (c.handle x).sound accept then badHandle c rest else some (handleTrap x (c.handle x))

/-- A handle's format is the same code. -/
def Handle.is (h : Handle) (f : Fmt) : Bool := h.fmt == f.code

/-! ### Elements -/

/-- Elements of a handle: the handle and the indices. -/
structure Elems where
  h   : Handle
  idx : List Nat
deriving DecidableEq, Repr

/-- The virtual address of a byte of the issuing crew's scratchpad (R26). -/
def spadVa (off : Nat) : Nat := 0x9 * 2 ^ 52 + 0xFFFFF * 2 ^ 32 + off % 2 ^ 20

/-- The first element that lies outside the declared regions: the address PROT reports. -/
def Elems.outside (e : Elems) (scratch : Nat) : Option Nat :=
  (e.idx.find? fun i => decide (scratch < (e.h.bytesOf i).2)).map fun i => spadVa (e.h.bytesOf i).1

/-- The granules an element touches. -/
def Handle.granulesOf (h : Handle) (i : Nat) : List Nat :=
  let b := h.bytesOf i
  (List.range ((b.2 + 15) / 16 - b.1 / 16)).map (b.1 / 16 + ·)

def Elems.granules (e : Elems) : List Nat := (e.idx.flatMap e.h.granulesOf).dedup

/-- A byte of poison under an element: its address. -/
def State.poisoned (s : State) (crew : Nat) (e : Elems) : Option Nat :=
  (e.idx.find? fun i =>
    let b := e.h.bytesOf i
    s.homeFault (.spad crew b.1) 0 != 0 || s.homeFault (.spad crew (b.2 - 1)) 0 != 0).map fun i => spadVa (e.h.bytesOf i).1

/-- The owner tag of a crew's accesses. -/
def State.crewOwner (s : State) (crew : Nat) : Nat := (s.crew? crew).elim 0 (·.task.owner)

/-- The bits of an element as they stand, no lease taken. -/
def State.peek (s : State) (crew : Nat) (h : Handle) (i : Nat) : Nat :=
  let b := h.bytesOf i
  leNat (s.spadBytes (s.crewOwner crew) crew b.1 (b.2 - b.1)) / 2 ^ (h.bitOf i % 8) % 2 ^ h.width

/-- The pieces of an element: one access, or two where it straddles two 64-bit words (R267). -/
def Handle.piecesOf (h : Handle) (i : Nat) : List (Nat × Nat) :=
  let b := h.bytesOf i
  (pieces 8 b.1 3 (b.2 - b.1)).map fun p => (b.1 + p.1, p.2)

/-- Read one element as a sequential load at a logical time (R110 with LL = 0). -/
def State.elemLoad (s : State) (crew : Nat) (h : Handle) (i : Nat) (t : LTime) : Nat × LTime × State :=
  let r := (h.piecesOf i).foldl (init := (t, s)) fun acc p =>
    let r := acc.2.loadAt 0 (.spad crew p.1) p.2 (bareAttr (s.crewOwner crew)) 3 acc.1
    (r.2.1, r.2.2)
  (s.peek crew h i, r)

/-- Write one element as a sequential store at a logical time (R111). -/
def State.elemStore (s : State) (crew : Nat) (h : Handle) (i v : Nat) (t : LTime) : LTime × State :=
  let b := h.bytesOf i
  let sh := h.bitOf i % 8
  let data := v % 2 ^ h.width * 2 ^ sh
  let mask := (2 ^ h.width - 1) * 2 ^ sh
  (h.piecesOf i).foldl (init := (t, s)) fun acc p =>
    let cut (x : Nat) : Nat := x / 2 ^ (8 * (p.1 - b.1)) % 2 ^ (8 * p.2)
    acc.2.storeAt {} (.spad crew p.1) p.2 (cut data) (cut mask) (s.crewOwner crew) acc.1

/-- Read elements in ascending order. -/
def State.elemsLoad (s : State) (crew : Nat) (e : Elems) (t : LTime) : List Nat × LTime × State :=
  e.idx.foldl (init := ([], t, s)) fun acc i =>
    let r := acc.2.2.elemLoad crew e.h i acc.2.1
    (acc.1 ++ [r.1], r.2)

/-- Read several lists of elements, source by source. -/
def State.sourcesLoad (s : State) (crew : Nat) (es : List Elems) (t : LTime) : List (List Nat) × LTime × State :=
  es.foldl (init := ([], t, s)) fun acc e =>
    let r := acc.2.2.elemsLoad crew e acc.2.1
    (acc.1 ++ [r.1], r.2)

/-- Write elements in ascending order; with them, for each granule written, the time its last byte bound. -/
def State.elemsStore (s : State) (crew : Nat) (e : Elems) (vs : List Nat) (t : LTime) : Map LTime × LTime × State :=
  (e.idx.zip vs).foldl (init := ([], t, s)) fun acc iv =>
    let r := acc.2.2.elemStore crew e.h iv.1 iv.2 acc.2.1
    ((e.h.granulesOf iv.1).foldl (init := acc.1) fun m g => Map.put m g r.1, r)

/-- Set granules full, each at its time (R115). -/
def State.fillGranules (s : State) (crew : Nat) (m : Map LTime) : State :=
  m.foldl (init := s) fun s e => s.fillGranule crew e.1 e.2

/-! ### A thread's batch -/

/-- The thread's write-combining entries that hold a block of the crew's scratchpad that `es` reach (R117, R119). -/
def State.wcOver (s : State) (k crew : Nat) (es : List Elems) : Bool :=
  (s.wcOf k).any fun w =>
    match w.2.target with
    | .spad c off => c == crew && es.any fun e => e.idx.any fun i =>
        decide ((e.h.bytesOf i).1 < off + 64 ∧ off < (e.h.bytesOf i).2)
    | _ => false

/-- The lowest empty granule that the W sources among some elements touch (R268). -/
def State.emptyGranule (s : State) (c : Crew) (crew : Nat) (srcs : List Elems) : Option Nat :=
  let c := (s.crew? crew).getD c
  (((srcs.filter (·.h.w)).flatMap Elems.granules).dedup.filter fun g => !c.granuleFull c.task.owner g).min?

/-- The wait of W sources on their lowest empty granule (R268). -/
def Issue.waitFull (i : Issue) (s : State) (srcs : List Elems) : Option Effect :=
  (s.emptyGranule i.c i.crew srcs).map fun g => granuleWait i.crew i.crew g false

/-- POISON met at an element's home: it is owed to the thread, and the access that met it has no effect (R123). -/
def Thread.oweElem (t : Thread) (apc : BitVec 56) (h : Handle) (va : Nat) (reg : Option Reg) (store : Option Nat) : Thread :=
  { t with deferred := t.deferred ++
      [{ code := codePoison, apc := apc, addr := va, reg := reg.elim 0 (·.val), regv := reg.isSome, size := sizeLog h.width,
         store := store.isSome, data := store.getD 0, pair := false, wc := false }] }

/-- The reads of a batch (R268, R270): PROT at the first element outside the declared regions; the wait on the lowest empty
granule of a W source; then in one step the granules' times, the reads, and the clears of C sources. `body` receives the
values source by source. POISON under a source is owed to the thread, `owed` being the register a load would have written. -/
def Issue.batchRead (i : Issue) (s : State) (srcs dsts : List Elems) (body : List (List Nat) → State → Effect)
    (owed : Option Reg := none) : Effect :=
  match (srcs ++ dsts).findSome? fun e => e.outside i.c.decl.scratch with
  | some va => .sys codeProt va
  | none =>
    if s.wcOver i.k i.crew (srcs ++ dsts) then .wait 0 0 .accesses fun s => s.markDraining i.k
    else
      match i.waitFull s srcs with
      | some e => e
      | none =>
        match srcs.findSome? fun e => (s.poisoned i.crew e).map fun va => (e.h, va) with
        | some (h, va) => .retire (s.modThread i.k fun t => t.oweElem i.t.pc h va owed none)
        | none =>
          let ws := ((srcs.filter (·.h.w)).flatMap Elems.granules).dedup
          let c := (s.crew? i.crew).getD i.c
          let ft := ws.foldl (init := (0 : LTime)) fun m g => tmax m (c.granule g).ft
          let s := if ws.isEmpty then s else s.modThread i.k fun t => t.acquire ft
          let pts := (s.thread? i.k).elim i.t.pts (·.pts)
          let (vs, tm, s) := s.sourcesLoad i.crew srcs pts
          let s := if srcs.all fun e => e.idx.isEmpty then s else s.modThread i.k fun t => t.acquire tm
          let cs := ((srcs.filter (·.h.c)).flatMap Elems.granules).dedup
          let s := cs.foldl (init := s) fun s g => s.clearGranule i.crew g tm
          body vs s

/-- The writes of a batch (R268, R270): a W destination's granules are set full. An element whose home is poisoned is not
written, and the fault is owed to the thread (R123). -/
def Issue.batchWrite (i : Issue) (s : State) (e : Elems) (vs : List Nat) : State :=
  let pts := (s.thread? i.k).elim i.t.pts (·.pts)
  let bad (x : Nat × Nat) : Option Nat := s.poisoned i.crew { e with idx := [x.1] }
  let all := e.idx.zip vs
  let good := all.filter fun x => (bad x).isNone
  let (gs, tm, s) := s.elemsStore i.crew { e with idx := good.map (·.1) } (good.map (·.2)) pts
  let s := if good.isEmpty then s else s.modThread i.k fun t => t.raise tm
  let s := all.foldl (init := s) fun s x => (bad x).elim s fun va => s.modThread i.k fun t =>
    t.oweElem i.t.pc e.h va none (some (x.2 % 2 ^ e.h.width))
  if e.h.w then s.fillGranules i.crew gs else s

/-- Indices s to e − 1. -/
def span (lo hi : Nat) : List Nat := (List.range (hi - lo)).map (lo + ·)

end Sys2Proof.Machine
end

