-- ==== Sys2Proof/Machine/Conv.lean ====
section
/-! DEFINITION. Conversions (R244 to R252), the tile's conversion engine (R253 to R259) and CVSTAT (R248, R249, R260): major
opcodes 0x60 to 0x67. -/

namespace Sys2Proof.Machine

/-- OR sticky bits into the issuing crew's CVSTAT. -/
def Issue.sticky (i : Issue) (s : State) (flags : Nat) : State := s.writeCrew i.crew (·.setSticky flags)

/-! ### CVT (R251) -/

/-- A converted value in a register: sign-extended for an S format, else its bits (R238). -/
def convWord (f : Fmt) (code : Nat) : Word := if f.isSigned then sextWord code f.width else BitVec.ofNat 64 code

/-- CVT (R251). -/
def execCvt (p : Pred) (rm : Rounding) (ov : Bool) (dst src : BitVec 8) (d a : Reg) (s : State) : Out :=
  issue p 8 { src := [a], dst := [d] } (fun i s =>
    match Fmt.ofCode src.toNat, Fmt.ofCode dst.toNat with
    | none, _ => .user codeHandle 0 0 src.toNat
    | _, none => .user codeHandle 0 0 dst.toNat
    | some sf, some df =>
      if sf.isPair || df.isPair then .user codeIllop
      else if (sf == .k16 || df == .k16) && rm != .rne then .user codeIllop
      else
        let raw := (i.reg a).toNat % 2 ^ sf.width
        let r := convert df rm (Num.decode sf raw)
        if r.ov && ov then .user codeRange 0 raw
        else i.put (i.sticky s r.sticky) d (convWord df r.code)) s

/-! ### VCVT (R252) -/

/-- The parts of an element that are converted each by itself: a pair's mean and variance, or the element. -/
def partsOf (f : Fmt) : Fmt × Nat :=
  match f with
  | .mf32 => (.f32, 2)
  | .mb16 => (.bf16, 2)
  | f => (f, 1)

/-- Convert an element of a handle: its code, whether a part overflowed, and the sticky bits. -/
def convertElem (sf df : Fmt) (rm : Rounding) (raw : Nat) : Nat × Bool × Nat :=
  let (sp, n) := partsOf sf
  let (dp, _) := partsOf df
  let rs := (List.range n).map fun k => convert dp rm (Num.decode sp (raw / 2 ^ (k * sp.width)))
  (((List.range n).zip rs).foldl (fun v kr => v + kr.2.code * 2 ^ (kr.1 * dp.width)) 0, rs.any (·.ov),
   rs.foldl (fun m r => m ||| r.sticky) 0)

/-- VCVT (R252). -/
def execVcvt (p : Pred) (rm : Rounding) (ov : Bool) (d a : Reg) (x0 x1 : Reg16) (s : State) : Out :=
  issue p 12 { src := [a], dst := [d], seq := true } (fun i s =>
    let h0 := i.c.handle x0
    let h1 := i.c.handle x1
    match h0.fmt?, h1.fmt? with
    | none, _ => handleTrap x0 h0
    | _, none => handleTrap x1 h1
    | some df, some sf =>
      if sf.isPair != df.isPair || sf == .k16 || df == .k16 then handleTrap x0 h0
      else
        match badHandle i.c [(x0, fun _ => true), (x1, fun _ => true)] with
        | some e => e
        | none =>
          if i.t.lgrant = 0 then .user codeLane
          else
            let lo := (i.reg a).toNat
            let hi := min (lo + 8 * i.t.lgrant.toNat) (min h1.len h0.len)
            if hi ≤ lo then i.put s d 0
            else
              let idx := span lo hi
              i.batchRead s [{ h := h1, idx := idx }] [{ h := h0, idx := idx }] fun vs s =>
                let raws := vs.headD []
                let rs := raws.map (convertElem sf df rm)
                match (List.range idx.length).find? fun n => ov && (rs.getD n (0, false, 0)).2.1 with
                | some n => .user codeRange n (raws.getD n 0)
                | none =>
                  let s := i.batchWrite s { h := h0, idx := idx } (rs.map (·.1))
                  i.put (i.sticky s (rs.foldl (fun m r => m ||| r.2.2) 0)) d (BitVec.ofNat 64 idx.length)) s

/-! ### Acceptance of engine operations (R253, R254) -/

/-- Bytes an operation names of a handle. -/
def Elems.bytes (e : Elems) : List Nat :=
  (e.idx.flatMap fun n => let b := e.h.bytesOf n; span b.1 b.2).dedup

/-- The first destination whose bytes overlap a source's (R254). -/
def overlapping (dsts : List (Reg16 × Elems)) (srcs : List Elems) : Option (Reg16 × Elems) :=
  let bs := (srcs.flatMap Elems.bytes)
  dsts.find? fun e => e.2.bytes.any bs.contains

/-- The conversion engine's time once an operation of this issuer is accepted (R253). -/
def Issue.convStart (i : Issue) (s : State) : LTime :=
  tmax (s.tile i.c.tile).convTime ((s.thread? i.k).elim i.t.pts (·.pts))

/-- An operation as its instruction gives it, with number `n`. -/
def Issue.engineOp (i : Issue) (a b : Reg) (t : Tl) (instr : Instr) (xs : List Reg16) (n : Word) (time : LTime) : EngineOp :=
  { crew := i.crew, tl := t, num := n, time := time, pc := i.t.pc, instr := instr,
    handles := xs.map fun x => i.c.handles[x], a := i.reg a, b := i.reg b, ctl := i.c.cvctl, next := 0, ptrs := [],
    flags := 0, held := none, told := false }

/-- An operation is accepted: it takes its number, gD := the number, and joins the engine's queue. -/
def Issue.acceptConv (i : Issue) (s : State) (d a b : Reg) (t : Tl) (instr : Instr) (xs : List Reg16) : Effect :=
  let time := i.convStart s
  let (n, s) := s.takeNumber i.crew t
  let op := i.engineOp a b t instr xs n time
  i.put (s.modTile i.c.tile fun x => { x with convTime := time, convQ := x.convQ ++ [op] }) d n

/-- The uses of an engine operation: a release and a draining event. -/
def engineUses (d a b : Reg) : Uses := { src := [a, b], dst := [d], drains := true }

/-! ### Quantisation (R257) -/

/-- Elements in a superblock and in a block (R241). -/
def superblock : Nat := 16384
def blockLen : Nat := 64

/-- Elements `lo` to `hi` − 1 of a handle, of its blocks, of its superblocks. -/
def Handle.range (h : Handle) (lo hi : Nat) : Elems := { h := h, idx := span lo hi }

/-- The checks of R257 at issue: start and count, formats, lengths, overlap, declared regions. `elems` lists (handle, whether
it is a destination, elements per entry). -/
def Issue.quantChecks (i : Issue) (a b : Nat) (ops : List (Reg16 × Bool × Nat × (Fmt → Bool))) : Option Effect :=
  if a % superblock ≠ 0 then some (.user codeRange 0 a)
  else if b % blockLen ≠ 0 then some (.user codeRange 0 b)
  else
    match badHandle i.c (ops.map fun o => (o.1, o.2.2.2)) with
    | some e => some e
    | none =>
      match ops.find? fun o => decide ((i.c.handle o.1).len < ceilDiv (a + b) o.2.2.1) with
      | some o => some (handleTrap o.1 (i.c.handle o.1))
      | none =>
        let el (o : Reg16 × Bool × Nat × (Fmt → Bool)) : Elems :=
          (i.c.handle o.1).range (a / o.2.2.1) (ceilDiv (a + b) o.2.2.1)
        let dsts := (ops.filter (·.2.1)).map fun o => (o.1, el o)
        let srcs := (ops.filter fun o => !o.2.1).map el
        if b = 0 then none
        else
          match overlapping dsts srcs with
          | some (x, e) => some (handleTrap x e.h)
          | none => (ops.findSome? fun o => (el o).outside i.c.decl.scratch).map fun va => .sys codeProt va

def isSrcFloat (f : Fmt) : Bool := f == .f32 || f == .f16 || f == .bf16

/-- QNTK (R257). -/
def execQntk (p : Pred) (ov : Bool) (d a b : Reg) (t : Tl) (x0 x1 x2 x3 : Reg16) (s : State) : Out :=
  issue p 12 (engineUses d a b) (fun i s =>
    match i.quantChecks (i.reg a).toNat (i.reg b).toNat
        [(x0, true, 1, (· == .k16)), (x1, false, 1, isSrcFloat), (x2, true, blockLen, (· == .z8)),
         (x3, true, superblock, (· == .f32))] with
    | some e => e
    | none => i.afterDrain s fun s =>
        i.acceptConv s d a b t (.qntk p ov d a b t x0 x1 x2 x3) [x0, x1, x2, x3]) s

/-- DQNK (R257). -/
def execDqnk (p : Pred) (rm : Rounding) (ov : Bool) (d a b : Reg) (t : Tl) (x0 x1 x2 x3 : Reg16) (s : State) : Out :=
  issue p 12 (engineUses d a b) (fun i s =>
    match i.quantChecks (i.reg a).toNat (i.reg b).toNat
        [(x0, true, 1, isSrcFloat), (x1, false, 1, (· == .k16)), (x2, false, blockLen, (· == .z8)),
         (x3, false, superblock, (· == .f32))] with
    | some e => e
    | none => i.afterDrain s fun s =>
        i.acceptConv s d a b t (.dqnk p rm ov d a b t x0 x1 x2 x3) [x0, x1, x2, x3]) s

/-- QSCL (R257). -/
def execQscl (p : Pred) (ov : Bool) (d a b : Reg) (t : Tl) (x1 x2 x3 : Reg16) (s : State) : Out :=
  issue p 12 (engineUses d a b) (fun i s =>
    match i.quantChecks (i.reg a).toNat (i.reg b).toNat
        [(x1, false, 1, isSrcFloat), (x2, true, blockLen, (· == .z8)), (x3, true, superblock, (· == .f32))] with
    | some e => e
    | none => i.afterDrain s fun s =>
        i.acceptConv s d a b t (.qscl p ov d a b t x1 x2 x3) [x1, x1, x2, x3]) s

/-- The magnitude an infinite source counts as (R247): the largest finite F32. -/
def maxF32 : Num := floatNum .f32 Fmt.f32.maxFinite

/-- A source value of a quantisation: NaN counts as +0 and sets INV, infinity as ±maxF32 and sets OF. -/
def quantSource (x : Num) : Num × Nat :=
  match x with
  | .nan _ _ | .bad => (.zero false, 2)
  | .inf n => (maxF32.setSign n, 1)
  | x => (x, 0)

/-- Max |x| of a list. -/
def amaxOf (xs : List Num) : Num :=
  xs.foldl (fun m x => if m.lt (x.setSign false) then x.setSign false else m) (.zero false)

/-- A superscale and its blocks' scale codes (R242). -/
def scalesOf (blocks : List (List Num)) : Nat × List Nat :=
  let am := blocks.map amaxOf
  let sup := ((amaxOf am).div (.ofInt 255)).encode .f32
  let sn := floatNum .f32 sup
  (sup, am.map fun x => if sn.isZero then 0 else
    match x.div sn with
    | .fin n m e => min 255 (roundTo .rne n m e 0).1
    | _ => 255)

/-- The index of the magnitude nearest |x| ÷ (c × S), ties to the even index (R242). -/
def quantCode (c : Nat) (sup : Num) (x : Num) : Nat :=
  if c = 0 then 0
  else
    let unit := (Num.ofInt c).mul sup
    let above (k : Nat) : Bool :=
      let mid := (Num.fin false (k16Mag k + k16Mag (k + 1)) (-16)).mul unit
      let o := (x.setSign false).cmp mid
      o == some .gt || (o == some .eq && k % 2 == 1)
    let k := ((List.range 7).filter above).length
    if k = 0 ∨ !x.sign then k else k + 8

/-- The value of a K16 element (R241): +0 in a block with c = 0. The model's choice: a code of value 0 under an infinite superscale
is NaN, as the product of 0 and infinity (notes/assumptions/97.md). -/
def k16Value (code c sup : Nat) : Num :=
  if c = 0 then .zero false else ((k16Num code).mul (.ofInt c)).mul (floatNum .f32 sup)

/-- Split a list into blocks of `n`. -/
def chunks {α : Type} (n : Nat) (xs : List α) : List (List α) :=
  (List.range (ceilDiv xs.length n)).map fun j => (xs.drop (n * j)).take n

/-! ### The engine's steps -/

/-- What the engine still has to do after a part of an operation: go on, stop with a failure code, or wait at a fault. -/
inductive ConvEnd where
  | done (code : Nat)
  | held (code addr : Nat)
deriving DecidableEq, Repr

/-- An engine's accesses of one part: reads of `srcs`, then `f` gives the values of `dsts` or a failure, and the sticky bits.
A fault found at a byte holds the operation before it writes anything of the part (R256). -/
def State.enginePart (s : State) (crew : Nat) (t : LTime) (srcs dsts : List Elems)
    (f : List (List Nat) → Option (List (List Nat)) × Nat) : Except (Nat × Nat) (Bool × Nat × LTime × State) :=
  match (srcs ++ dsts).findSome? fun e => s.poisoned crew e with
  | some va => .error (codePoison, va)
  | none =>
    match (srcs ++ dsts).findSome? fun e => e.outside ((s.crew? crew).elim 0 (·.decl.scratch)) with
    | some va => .error (codeProt, va)
    | none =>
      let (vs, t, s) := s.sourcesLoad crew srcs t
      match f vs with
      | (none, fl) => .ok (false, fl, t, s)
      | (some rs, fl) =>
        let r := (dsts.zip rs).foldl (init := (t, s)) fun acc e => (acc.2.elemsStore crew e.1 e.2 acc.1).2
        .ok (true, fl, r.1, r.2)

/-- Set granules full at the engine's time, but those that later parts still write (R253). -/
def State.fillThese (s : State) (crew : Nat) (written : List Nat) (later : List Elems) (t : LTime) : State :=
  let keep := (later.flatMap Elems.granules)
  (written.dedup.filter fun g => !keep.contains g).foldl (init := s) fun s g => s.fillGranule crew g t

/-- The same, of the granules of whole parts. -/
def State.engineFill (s : State) (crew : Nat) (written later : List Elems) (t : LTime) : State :=
  s.fillThese crew (written.flatMap Elems.granules) later t

/-- One superblock of QNTK, QSCL or DQNK: the elements it reads and writes, and what it computes. -/
structure QuantPart where
  srcs : List Elems
  dsts : List Elems
  f    : List (List Nat) → Option (List (List Nat)) × Nat

/-- The superblocks of an operation from the j-th on. -/
def quantParts (op : EngineOp) : List QuantPart :=
  let hs := op.handles.map Handle.ofBits
  let h (n : Nat) : Handle := hs.getD n (Handle.ofBits 0)
  let a := op.a.toNat
  let hi := a + op.b.toNat
  (List.range (ceilDiv op.b.toNat superblock)).map fun j =>
    let lo := a + j * superblock
    let up := min hi (lo + superblock)
    let codes (n : Nat) : Elems := (h n).range lo up
    let scales := (h 2).range (lo / blockLen) (up / blockLen)
    let sup := (h 3).range (lo / superblock) (lo / superblock + 1)
    let quant (withCodes ov : Bool) : QuantPart :=
      { srcs := [codes 1], dsts := if withCodes then [codes 0, scales, sup] else [scales, sup],
        f := fun vs =>
          let xs := (vs.headD []).map fun raw => quantSource (Num.decode ((h 1).fmt?.getD .f32) raw)
          let fl := xs.foldl (fun m x => m ||| x.2) 0
          if ov ∧ fl ≠ 0 then (none, 0)
          else
            let bl := chunks blockLen (xs.map (·.1))
            let sc := scalesOf bl
            let sn := floatNum .f32 sc.1
            let cs := (bl.zip sc.2).flatMap fun b => b.1.map (quantCode b.2 sn)
            (some (if withCodes then [cs, sc.2, [sc.1]] else [sc.2, [sc.1]]), fl) }
    match op.instr with
    | .qntk _ ov _ _ _ _ _ _ _ _ => quant true ov
    | .qscl _ ov _ _ _ _ _ _ _ => quant false ov
    | .dqnk _ rm ov _ _ _ _ _ _ _ _ =>
      { srcs := [codes 1, scales, sup], dsts := [codes 0],
        f := fun vs =>
          let su := (vs.getD 2 []).headD 0
          let cs := vs.getD 1 []
          let df := (h 0).fmt?.getD .f32
          let rs := ((List.range (up - lo)).zip (vs.headD [])).map fun e =>
            convert df rm (k16Value e.2 (cs.getD (e.1 / blockLen) 0) su)
          if ov ∧ rs.any (·.ov) then (none, 0)
          else (some [rs.map (·.code)], rs.foldl (fun m r => m ||| r.sticky) 0) }
    | _ => { srcs := [], dsts := [], f := fun _ => (none, 0) }

/-- Run superblocks until one faults, one fails, or none is left; `written` lists the granules written so far and not yet full. -/
def State.runQuant (crew : Nat) : List QuantPart → (done : Nat) → (written : List Nat) → (flags : Nat) → LTime → State →
    ConvEnd × Nat × Nat × LTime × State
  | [], done, written, flags, t, s => (.done 0, done, flags, t, s.fillThese crew written [] t)
  | q :: qs, done, written, flags, t, s =>
    match s.enginePart crew t q.srcs q.dsts q.f with
    | .error (c, va) =>
      (.held c va, done, flags, t, s.fillThese crew written ((q :: qs).flatMap (·.dsts)) t)
    | .ok (false, _, t, s) => (.done codeRange, done, flags, t, s.fillThese crew written [] t)
    | .ok (true, fl, t, s) => State.runQuant crew qs (done + 1) (written ++ q.dsts.flatMap Elems.granules) (flags ||| fl) t s

/-! ### Compressed rows (R258, R259) -/

/-- A nonzero element (R258): an integer other than 0, a float other than ±0; a NaN is not zero. -/
def nonzero (f : Fmt) (raw : Nat) : Bool := if f.isFloat then !(floatNum f raw).isZero else raw != 0

/-- Entries of a CSRX: row, column and value of each nonzero, in row-major order. -/
def nonzeros (f : Fmt) (cols : Nat) (xs : List Nat) : List (Nat × Nat × Nat) :=
  ((List.range xs.length).zip xs).filterMap fun e =>
    if nonzero f e.2 then some (e.1 / cols, e.1 % cols, e.2) else none

/-- Row pointers from the entries. -/
def rowPtrs (rows : Nat) (es : List (Nat × Nat × Nat)) : List Nat :=
  (List.range (rows + 1)).map fun r => (es.filter fun e => decide (e.1 < r)).length

/-- CSRX at the engine (R258): values and indices first, row pointers once every row is written; 1 of the two parts is finished
where the row pointers hold it, and the granules of the first are then full (R253). -/
def State.runCsrx (s : State) (op : EngineOp) (t : LTime) : ConvEnd × Nat × Nat × LTime × State :=
  let hs := op.handles.map Handle.ofBits
  let h (n : Nat) : Handle := hs.getD n (Handle.ofBits 0)
  let rows := op.a.toNat
  let cols := op.b.toNat
  let src := (h 1).range 0 (rows * cols)
  let es := nonzeros ((h 1).fmt?.getD .s8) cols ((span 0 (rows * cols)).map (s.peek op.crew (h 1)))
  let n := min es.length (min (h 0).len (h 2).len)
  let e0 := (h 0).range 0 n
  let e2 := (h 2).range 0 n
  let e3 := (h 3).range 0 (rows + 1)
  match s.enginePart op.crew t [src] [e0, e2] fun _ => (some [es.map (·.2.2), es.map (·.2.1)], 0) with
  | .error (c, va) => (.held c va, 0, 0, t, s)
  | .ok (_, _, t, s) =>
    if n < es.length then (.done codeRange, 0, 0, t, s.engineFill op.crew [e0, e2] [] t)
    else
      let s := s.engineFill op.crew [e0, e2] [e3] t
      match s.enginePart op.crew t [] [e3] fun _ => (some [rowPtrs rows es], 0) with
      | .error (c, va) => (.held c va, 1, 0, t, s)
      | .ok (_, _, t, s) => (.done 0, 1, 0, t, s.engineFill op.crew [e3] [] t)

/-- The positions of each row of CSRD: none where a row's end lies below its start. -/
def rowSpans (ptrs : List Nat) : List (List Nat) := (ptrs.zip (ptrs.drop 1)).map fun e => span e.1 e.2

/-- CSRD at the engine (R259): X0 is cleared, and then each row's values are written in order of position. A column index
beyond the end of X2 is a free value (notes/assumptions/10.md). -/
def State.runCsrd (s : State) (op : EngineOp) (t : LTime) : ConvEnd × Nat × Nat × LTime × State :=
  let hs := op.handles.map Handle.ofBits
  let h (n : Nat) : Handle := hs.getD n (Handle.ofBits 0)
  let cols := op.b.toNat
  let spans := rowSpans op.ptrs
  let pos := spans.flatten.dedup
  let e0 := (h 0).range 0 (h 0).len
  let e1 : Elems := { h := h 1, idx := pos }
  let e2 : Elems := { h := h 2, idx := pos.filter fun n => decide (n < (h 2).len) }
  let beyond := pos.any fun n => decide ((h 2).len ≤ n)
  let (fw, s) := if beyond then s.freeWord else (0, s)
  let col (n : Nat) : Nat :=
    if n < (h 2).len then s.peek op.crew (h 2) n else (fw + BitVec.ofNat 64 n).toNat % 2 ^ (h 2).width
  let entries := ((List.range spans.length).zip spans).flatMap fun r => r.2.map fun n => (r.1, col n, s.peek op.crew (h 1) n)
  let kept := entries.filter fun e => decide (e.2.1 < cols)
  let bad := decide (kept.length < entries.length)
  let cells := kept.map fun e => (e.1 * cols + e.2.1, e.2.2)
  let zeros := e0.idx.map fun _ => 0
  let w : Elems := { h := h 0, idx := cells.map (·.1) }
  match s.enginePart op.crew t [e1, e2] [e0, w] fun _ => (some [zeros, cells.map (·.2)], 0) with
  | .error (c, va) => (.held c va, 0, 0, t, s)
  | .ok (_, _, t, s) =>
    (.done (if bad && bitAt op.ctl.toNat 0 then codeRange else 0), 0, if bad then 16 else 0, t,
     s.engineFill op.crew [e0] [] t)

/-- CSRX and CSRD accept the same integer or float code in X0 and X1, and Z32 or Z64 indices (R258). -/
def csrChecks (i : Issue) (rows cols : Nat) (x0 x1 x2 x3 dense : Reg16) : Option Effect :=
  let ok (v : Nat) : Bool := decide (1 ≤ v ∧ v ≤ 1048575)
  if !ok rows then some (.user codeRange 0 rows)
  else if !ok cols then some (.user codeRange 0 cols)
  else
    let ix : Fmt := if bitAt i.c.cvctl.toNat 1 then .z64 else .z32
    match badHandle i.c [(x0, fun f => f.isInt || f.isFloat), (x1, (i.c.handle x0).is), (x2, (· == ix)), (x3, (· == ix))] with
    | some e => some e
    | none =>
      if (i.c.handle dense).len < rows * cols then some (handleTrap dense (i.c.handle dense))
      else if (i.c.handle x3).len < rows + 1 then some (handleTrap x3 (i.c.handle x3))
      else none

/-- Overlap and region checks of a compressed-row operation. -/
def Issue.csrPlaces (i : Issue) (dsts : List (Reg16 × Elems)) (srcs sure : List Elems) : Option Effect :=
  match overlapping dsts srcs with
  | some (x, e) => some (handleTrap x e.h)
  | none => (sure.findSome? fun e => e.outside i.c.decl.scratch).map fun va => .sys codeProt va

/-- CSRX (R258). -/
def execCsrx (p : Pred) (d a b : Reg) (t : Tl) (x0 x1 x2 x3 : Reg16) (s : State) : Out :=
  issue p 12 (engineUses d a b) (fun i s =>
    let rows := (i.reg a).toNat
    let cols := (i.reg b).toNat
    let h := i.c.handle
    match csrChecks i rows cols x0 x1 x2 x3 x1 with
    | some e => e
    | none =>
      let src := (h x1).range 0 (rows * cols)
      let e3 := (h x3).range 0 (rows + 1)
      match i.csrPlaces [(x0, (h x0).range 0 (h x0).len), (x2, (h x2).range 0 (h x2).len), (x3, e3)] [src] [src, e3] with
      | some e => e
      | none => i.afterDrain s fun s =>
          i.acceptConv s d a b t (.csrx p d a b t x0 x1 x2 x3) [x0, x1, x2, x3]) s

/-- CSRD (R259): the thread waits with kind 0 while the engine reads the row pointers in its turn. -/
def execCsrd (p : Pred) (d a b : Reg) (t : Tl) (x0 x1 x2 x3 : Reg16) (s : State) : Out :=
  issue p 12 (engineUses d a b) (fun i s =>
    let rows := (i.reg a).toNat
    let cols := (i.reg b).toNat
    let h := i.c.handle
    match csrChecks i rows cols x0 x1 x2 x3 x0 with
    | some e => e
    | none =>
      let e0 := (h x0).range 0 (h x0).len
      let e3 := (h x3).range 0 (rows + 1)
      match i.csrPlaces [(x0, e0)] [(h x1).range 0 (h x1).len, (h x2).range 0 (h x2).len, e3] [e0, e3] with
      | some e => e
      | none => i.afterDrain s fun s =>
          let op := { i.engineOp a b t (.csrd p d a b t x0 x1 x2 x3) [x0, x1, x2, x3] 0 (i.convStart s) with asker := some i.k }
          let (slot, s) := i.reserve (i.holdPop s) d
          .hold <| (s.modTile i.c.tile fun x => { x with convQ := x.convQ ++ [op] }).modThread i.k fun t =>
            { t.toWait 0 0 .rowPtrs with finish := some { dest := none, len := 12, slot := slot, popped := i.popped } }) s

/-- The row pointers of a CSRD, judged (R259): clamped to len(X1), with the flags they set, or the ROWPTR of STRICT = 1. The model's
choice: NEGROW is a test of the clamped pointers, and DETAIL gives them as they were read (notes/assumptions/87.md). -/
def EngineOp.judge (op : EngineOp) (vs : List Nat) : Except TrapInfo (List Nat × Nat) :=
  let n := (Handle.ofBits (op.handles.getD 1 0)).len
  let rows := op.a.toNat
  let ptrs := vs.map (min n)
  let back := (List.range rows).find? fun r => decide (ptrs.getD (r + 1) 0 < ptrs.getD r 0)
  let high := (List.range (rows + 1)).find? fun r => decide (n < vs.getD r 0)
  let first := match back, high with
    | some x, some y => some (min x (y - 1))
    | some x, none => some x
    | none, some y => some (y - 1)
    | none, none => none
  match first, bitAt op.ctl.toNat 0 with
  | some r, true =>
    .error { code := codeRowptr, addr := r, detail := vs.getD r 0 % 2 ^ 32 + 2 ^ 32 * (vs.getD (r + 1) 0 % 2 ^ 32) }
  | _, _ => .ok (ptrs, (back.elim 0 fun r => 8 + 2 ^ 16 * r) + (if high.isSome then 32 else 0))

/-- The register a CSRD writes. -/
def csrdDest : Instr → Reg
  | .csrd _ d _ _ _ _ _ _ _ => d
  | _ => 0

/-- A waiting CSRD is accepted or ended: its thread's gD takes the operation's number, and it retires wherever it is. -/
def State.answerCsrd (s : State) (k : Nat) (op : EngineOp) (num : Word) : State :=
  match s.thread? k with
  | none => s
  | some t =>
    if t.st = .waiting then
      (s.setThread k { t with finish := t.finish.map fun f => { f with dest := some (csrdDest op.instr, num) } }).complete k
    else s

/-- A waiting CSRD gives back what it took of its crew's queues (R228) and leaves its wait. -/
def State.backCsrd (s : State) (k : Nat) : State :=
  match s.thread? k with
  | none => s
  | some t =>
    let crew := t.crewn.toNat
    let s := s.setThread k { t.clearWait with st := .ready, finish := none }
    s.returnSlots crew (t.finish.bind (·.slot)) (t.finish.bind (·.popped))

/-- What a CSRD took at issue is what it would take now (R248, R254): the handles and CVCTL. -/
def State.csrdFresh (s : State) (op : EngineOp) : Bool :=
  match op.instr, s.crew? op.crew with
  | .csrd _ _ _ _ _ x0 x1 x2 x3, some c => op.handles == [x0, x1, x2, x3].map (fun x => c.handles[x]) && op.ctl == c.cvctl
  | _, _ => false

/-- The engine reads the row pointers of the CSRD at its head, whose thread `k` waits: the operation is accepted, behind those
accepted before it, or its thread takes ROWPTR. Where a handle or CVCTL has changed since it issued, it issues again, so that what
it was checked with is what it is accepted with (R248, R254). POISON under a pointer holds the operation, which takes its number
then (R256; notes/assumptions/75.md). -/
def State.readRowPtrs (s : State) (tile k : Nat) (op : EngineOp) (ops : List EngineOp) : State :=
  let put (q : List EngineOp) (s : State) : State := s.modTile tile fun x => { x with convQ := q }
  let place (o : EngineOp) : List EngineOp := if op.num = 0 then ops ++ [o] else o :: ops
  let number (s : State) : Word × State := if op.num = 0 then s.takeNumber op.crew op.tl else (op.num, s)
  let e3 := (Handle.ofBits (op.handles.getD 3 0)).range 0 (op.a.toNat + 1)
  if op.num = 0 ∧ !s.csrdFresh op then (put ops s).backCsrd k
  else
    match s.poisoned op.crew e3 with
    | some va =>
      let (n, s) := number s
      put (place { op with num := n, held := some (codePoison, va), told := false }) s
    | none =>
      let (vs, tm, s) := s.elemsLoad op.crew e3 (tmax (s.tile tile).convTime op.time)
      let s := s.modTile tile fun x => { x with convTime := tm }
      match op.judge vs with
      | .error ti =>
        let s := put ops s
        let s := if op.num = 0 then s else s.opEnded op.crew op.tl op.num codeRowptr tm
        (s.backCsrd k).userTrap k ti
      | .ok (ptrs, flags) =>
        let (n, s) := number s
        (put (place { op with num := n, time := tm, ptrs := ptrs, flags := flags, asker := none }) s).answerCsrd k op n

/-! ### The engine -/

/-- The granules that superblocks already written share with those still to write: they are not full yet (R253). -/
def EngineOp.shared (op : EngineOp) : List Nat :=
  let rest := ((quantParts op).drop op.next).flatMap fun q => q.dsts.flatMap Elems.granules
  (((quantParts op).take op.next).flatMap fun q => q.dsts.flatMap Elems.granules).filter rest.contains

/-- Run an accepted operation. -/
def State.runConv (s : State) (op : EngineOp) (t : LTime) : ConvEnd × Nat × Nat × LTime × State :=
  match op.instr with
  | .csrx _ _ _ _ _ _ _ _ _ => s.runCsrx op t
  | .csrd _ _ _ _ _ _ _ _ _ => s.runCsrd op t
  | _ => State.runQuant op.crew ((quantParts op).drop op.next) op.next op.shared 0 t s

/-- Entries a CSRX writes: of the nonzeros as they stand, those that X0 and X2 hold. -/
def State.csrxCount (s : State) (op : EngineOp) : Nat :=
  let hs := op.handles.map Handle.ofBits
  let h (n : Nat) : Handle := hs.getD n (Handle.ofBits 0)
  let cols := op.b.toNat
  let n := (nonzeros ((h 1).fmt?.getD .s8) cols ((span 0 (op.a.toNat * cols)).map (s.peek op.crew (h 1)))).length
  min n (min (h 0).len (h 2).len)

/-- Bytes an accepted operation has still to write (R256): of CSRX, those of the nonzeros as they stand; of CSRD, every element
of X0, which it clears. -/
def State.bytesLeft (s : State) (op : EngineOp) : Nat :=
  let hs := op.handles.map Handle.ofBits
  let h (n : Nat) : Handle := hs.getD n (Handle.ofBits 0)
  let size (es : List Elems) : Nat := (es.map fun e => ceilDiv (e.idx.length * e.h.width) 8).sum
  match op.instr with
  | .csrx _ _ _ _ _ _ _ _ _ =>
    let n := s.csrxCount op
    size [(h 0).range 0 n, (h 2).range 0 n, (h 3).range 0 (op.a.toNat + 1)]
  | .csrd _ _ _ _ _ _ _ _ _ => if op.num = 0 then 0 else size [(h 0).range 0 (h 0).len]
  | _ => (((quantParts op).drop op.next).map fun q => size q.dsts).sum

/-- The destination granules that an operation ended at its fault has written in part: their last written byte has bound, since
nothing more is written, and they are full (R253, R343). -/
def State.fillEnded (s : State) (op : EngineOp) (t : LTime) : State :=
  let hs := op.handles.map Handle.ofBits
  let h (n : Nat) : Handle := hs.getD n (Handle.ofBits 0)
  let both (done later : List Elems) : State :=
    let rest := later.flatMap Elems.granules
    (((done.flatMap Elems.granules).dedup).filter rest.contains).foldl (init := s) fun s g => s.fillGranule op.crew g t
  match op.instr with
  | .csrx _ _ _ _ _ _ _ _ _ =>
    if op.next = 0 then s
    else both [(h 0).range 0 (s.csrxCount op), (h 2).range 0 (s.csrxCount op)] [(h 3).range 0 (op.a.toNat + 1)]
  | .csrd _ _ _ _ _ _ _ _ _ => s
  | _ => both (((quantParts op).take op.next).flatMap (·.dsts)) (((quantParts op).drop op.next).flatMap (·.dsts))

/-- CONV_ENGINE_RUN (R253 to R259): the operation at the head of the engine's queue runs to its end, or to the fault that
holds it; the engine first reads the row pointers of a CSRD. -/
def execConvEngineRun (tile : Nat) (s : State) : Out :=
  .next <|
    match (s.tile tile).convQ with
    | [] => s
    | op :: ops =>
      if op.held.isSome then s
      else if let some k := op.asker then s.readRowPtrs tile k op ops
      else
        let owed := s.bytesLeft op
        match s.runConv op (tmax (s.tile tile).convTime op.time) with
        | (.held c va, next, fl, t, s) =>
          let op := { op with next := next, flags := op.flags ||| fl, held := some (c, va), told := false }
          (s.modTile tile fun x => { x with convTime := t, convQ := op :: ops }).late op.crew (owed - s.bytesLeft op)
        | (.done c, _, fl, t, s) =>
          ((s.modTile tile fun x => { x with convTime := t, convQ := ops }).opEnded op.crew op.tl op.num
            (c + 256 * (op.flags ||| fl)) t).late op.crew owed

/-! ### CVSTAT -/

/-- CVSTAT (R260). -/
def execCvstat (p : Pred) (d : Reg) (s : State) : Out :=
  issue p 8 { dst := [d] } (fun i s => i.put s d i.c.cvstat) s

/-- CVSTAT.CLR (R260): every sticky bit and FIRSTROW are cleared in the same step, which comes before the sets of its cycle
(`slotRank`). -/
def execCvstatClr (p : Pred) (d : Reg) (s : State) : Out :=
  issue p 8 { dst := [d] } (fun i s =>
    i.put (s.writeCrew i.crew fun c => { c with cvstat := 0 }) d i.c.cvstat) s

/-- A W1C write of CVSTAT (R6, R249): FIRSTROW is cleared when NEGROW is. -/
def Crew.clearCvstat (c : Crew) (v : Word) : Crew :=
  let old := c.cvstat.toNat
  let low := old % 64 - (old % 64 &&& v.toNat % 64)
  { c with cvstat := BitVec.ofNat 64 (low + if bitAt low 3 then 2 ^ 16 * field old 16 32 else 0) }

/-- CVSTAT_W1C_WRITE (R249). -/
def execCvstatW1cWrite (crew : Nat) (v : Word) (s : State) : Out := .next (s.modCrew crew (·.clearCvstat v))

end Sys2Proof.Machine
end

