-- ==== Sys2Proof/Machine/Special.lean ====
section
/-! DEFINITION. The special functions (R278, Table 14.5) and the nonlinear moment functions (R300, R301): the exact value
is located by fixed-point arithmetic hundreds of bits wide, the two bracketing values of the destination follow from it, and
which of the two is returned is left to the free choice of Config. -/

namespace Sys2Proof.Machine

/-! ### Fixed point: integers over 2^p -/

def fixMul (p : Nat) (a b : Int) : Int := a * b / 2 ^ p
def fixDiv (p : Nat) (a b : Int) : Int := a * 2 ^ p / b

/-- A finite number over 2^p, rounded down. -/
def toFix (p : Nat) (neg : Bool) (m : Nat) (e : Int) : Int :=
  let v : Int := if 0 ≤ e + p then (m * 2 ^ (e + p).toNat : Nat) else (m / 2 ^ (-(e + p)).toNat : Nat)
  if neg then -v else v

/-- A value known not to be representable, as a number: a last bit stands for the rest. -/
def ofFix (p : Nat) (v : Int) : Num := .fin (decide (v < 0)) (2 * v.natAbs + 1) (-(p : Int) - 1)

/-- Σ t/(k) with t multiplied by `r` and k raised by 2 at each term: the series of atan and atanh. -/
def oddSeries (p : Nat) (r : Int) : Nat → (k : Nat) → (t : Int) → Int
  | 0, _, _ => 0
  | fuel + 1, k, t => if t = 0 then 0 else t / (k : Int) + oddSeries p r fuel (k + 2) (fixMul p t r)

/-- atanh of a fixed-point number of magnitude at most 1/3. -/
def atanhFix (p : Nat) (x : Int) : Int := oddSeries p (fixMul p x x) p 1 x

/-- atan(1/n). -/
def atanInv (p n : Nat) : Int := oddSeries p (-(2 ^ p / (n * n : Nat) : Int)) p 1 (2 ^ p / (n : Int))

/-- π and ln 2 over 2^p. -/
def piFix (p : Nat) : Int := (16 * atanInv (p + 32) 5 - 4 * atanInv (p + 32) 239) / 2 ^ 32
def ln2Fix (p : Nat) : Int := 2 * atanhFix (p + 32) (2 ^ (p + 32) / 3) / 2 ^ 32

/-- Σ xⁿ/n! from term `t` = x^(n−1)/(n−1)! on. -/
def expSeries (p : Nat) (x : Int) : Nat → (n : Nat) → (t : Int) → Int
  | 0, _, _ => 0
  | fuel + 1, n, t => if t = 0 then 0 else t + expSeries p x fuel (n + 1) (fixMul p t x / (n : Int))

/-- e^x for x over 2^p. -/
def expFix (p : Nat) (x : Int) : Int :=
  let l := ln2Fix p
  let k := x / l
  let r := expSeries p (x - k * l) p 1 (2 ^ p)
  if 0 ≤ k then r * 2 ^ k.toNat else r / 2 ^ (-k).toNat

/-- ln x for x > 0 over 2^p, 1 ≤ x < 2. -/
def lnFix (p : Nat) (x : Int) : Int := 2 * atanhFix p (fixDiv p (x - 2 ^ p) (x + 2 ^ p))

/-- Sine and cosine of a fixed-point angle below 1: Σ ± x^n/n! over every second n. -/
def circSeries (p : Nat) (xx : Int) : Nat → (n : Nat) → (t : Int) → Int
  | 0, _, _ => 0
  | fuel + 1, n, t => if t = 0 then 0 else t + circSeries p xx fuel (n + 2) (-(fixMul p t xx) / ((n + 1) * (n + 2) : Nat))

def sinFix (p : Nat) (x : Int) : Int := circSeries p (fixMul p x x) p 1 x
def cosFix (p : Nat) (x : Int) : Int := circSeries p (fixMul p x x) p 0 (2 ^ p)

/-- The square root of a fixed-point number. -/
def sqrtFix (p : Nat) (x : Int) : Int := isqrt (x.toNat * 2 ^ p)

/-! ### Special functions (R278) -/

/-- The six functions, by major opcode. -/
inductive SpecialFn where
  | rcp | rsq | exp2 | log2 | sin | cos
deriving DecidableEq, Repr

def SpecialFn.code : SpecialFn → Nat
  | .rcp => 0x84 | .rsq => 0x85 | .exp2 => 0x86 | .log2 => 0x87 | .sin => 0x88 | .cos => 0x89

/-- Just below a magnitude: no destination value lies between. -/
def justBelow (neg : Bool) (m : Nat) (e : Int) : Num := .fin neg (m * 2 ^ 200 - 1) (e - 200)
/-- Just above it. -/
def justAbove (neg : Bool) (m : Nat) (e : Int) : Num := .fin neg (m * 2 ^ 200 + 1) (e - 200)

/-- 1/√x of a positive number, exact or with a sticky last bit. -/
def rsqrtFin (m : Nat) (e : Int) : Num :=
  let odd := e % 2 ≠ 0
  let m' := if odd then 2 * m else m
  let e' := if odd then e - 1 else e
  let k := 2 * (150 + Nat.log2 m')
  let r := isqrt (2 ^ k / m')
  let st := stickied (r * r * m' == 2 ^ k) r (-(k / 2 : Nat) - e' / 2)
  .fin false st.1 st.2

/-- 2^x. -/
def exp2Fin (neg : Bool) (m : Nat) (e : Int) : Num :=
  if 0 ≤ e + (Nat.log2 m : Int) - 15 then .fin false 1 (if neg then -40000 else 40000)
  else if 0 ≤ e then .fin false 1 (if neg then -((m * 2 ^ e.toNat : Nat) : Int) else (m * 2 ^ e.toNat : Nat))
  else if m % 2 ^ (-e).toNat = 0 then
    .fin false 1 (if neg then -((m / 2 ^ (-e).toNat : Nat) : Int) else (m / 2 ^ (-e).toNat : Nat))
  else if e + (Nat.log2 m : Int) < -100 then (if neg then justBelow false 1 0 else justAbove false 1 0)
  else
    let p := 400
    let x := toFix p neg m e
    let n := x / 2 ^ p
    match ofFix p (expFix p (fixMul p (x - n * 2 ^ p) (ln2Fix p))) with
    | .fin s a g => .fin s a (g + n)
    | y => y

/-- log2 x of a positive number. -/
def log2Fin (m : Nat) (e : Int) : Num :=
  let k := Nat.log2 m
  if m = 2 ^ k then .ofInt (e + k)
  else
    let p := 400
    let y : Int := (m * 2 ^ p / 2 ^ k : Nat)
    ofFix p (fixDiv p (lnFix p y) (ln2Fix p) + (e + k) * 2 ^ p)

/-- sin x or cos x, with exact argument reduction. -/
def circFin (isSin neg : Bool) (m : Nat) (e : Int) : Num :=
  let top := e + (Nat.log2 m : Int)
  if top < -100 then (if isSin then justBelow neg m e else justBelow false 1 0)
  else
    let p := 400
    let q := p + top.toNat + 64
    let half := piFix q / 2
    let x := toFix q neg m e
    let k := (x + half / 2) / half
    let r := (x - k * half) / 2 ^ (q - p)
    let j := (if isSin then k else k + 1) % 4
    let v := if j = 0 then sinFix p r else if j = 1 then cosFix p r else if j = 2 then -sinFix p r else -cosFix p r
    ofFix p v

/-- The value of a special function, special values of Table 14.5 among them. -/
def specialValue (fn : SpecialFn) (x : Num) : Num :=
  match fn, x with
  | _, .nan n f => .nan n f
  | _, .bad => .bad
  | .rcp, x => Num.div (.ofInt 1) x
  | .rsq, .inf n => if n then .bad else .zero false
  | .rsq, .fin n m e => if m = 0 then .inf n else if n then .bad else rsqrtFin m e
  | .exp2, .inf n => if n then .zero false else .inf false
  | .exp2, .fin n m e => if m = 0 then .ofInt 1 else exp2Fin n m e
  | .log2, .inf n => if n then .bad else .inf false
  | .log2, .fin n m e => if m = 0 then .inf true else if n then .bad else log2Fin m e
  | .sin, .inf _ => .bad
  | .sin, .fin n m e => if m = 0 then .zero n else circFin true n m e
  | .cos, .inf _ => .bad
  | .cos, .fin n m e => if m = 0 then .ofInt 1 else circFin false n m e

/-- The destination value on the side `up` chooses: the one of larger magnitude, or the one nearer zero; the value itself
when it is representable. Above the largest finite value R271 applies: the result is rounded to nearest. -/
def Num.encodeSide (f : Fmt) (up : Bool) : Num → Nat
  | .fin n m e =>
    let r := roundCode f .rz n m e
    if f.maxFinite ≤ r.1 then (Num.fin n m e).encode f
    else signBit f n + (if r.2 || !up then r.1 else r.1 + 1)
  | x => x.encode f

/-- The result of a special function in a destination format: the choice depends on the function, the destination format
and the source value alone (R278). -/
def specialResult (fn : SpecialFn) (f : Fmt) (x : Num) : Nat :=
  (specialValue fn x).encodeSide f (Config.specialUp fn.code f.code (x.encode .f64))

/-! ### Nonlinear moment functions (R300) -/

/-- Bits of the fixed point of MNL: e^(−400) is still resolved. -/
def mnlBits : Nat := 1200

/-- Exponents beyond this bound leave the F32 range by far. -/
def mnlFar : Int := 200 * 2 ^ mnlBits

/-- e^(−x) for x ≥ 0, zero where it is below the fixed point's last bit. -/
def expNeg (x : Int) : Int := if 830 * 2 ^ mnlBits < x then 0 else expFix mnlBits (-x)

/-- s(t) = 1/(1 + e^(−t)). -/
def logistic (t : Int) : Int :=
  let one : Int := 2 ^ mnlBits
  if 0 ≤ t then fixDiv mnlBits one (one + expNeg t)
  else let x := expNeg (-t); fixDiv mnlBits x (one + x)

/-- φ(α) and Φ(α) for |α| ≤ 20: Φ(α) = 1/2 + φ(α)·Σ α^(2k+1)/(1·3·…·(2k+1)). -/
def normSeries (p : Nat) (aa : Int) : Nat → (n : Nat) → (t : Int) → Int
  | 0, _, _ => 0
  | fuel + 1, n, t => if t = 0 then 0 else t + normSeries p aa fuel (n + 2) (fixMul p t aa / (n : Int))

def normPdf (a : Int) : Int :=
  let p := mnlBits
  fixDiv p (expFix p (-(fixMul p a a) / 2)) (sqrtFix p (2 * piFix p))

def normCdf (a : Int) : Int :=
  let p := mnlBits
  2 ^ p / 2 + fixMul p (normPdf a) (normSeries p (fixMul p a a) (4 * p) 3 a)

/-- A result of MNL: exact, or known not to be representable. -/
def mnlNum (v : Int) : Num := ofFix mnlBits v

/-- A tiny positive value, below every F32. -/
def mnlTiny : Num := .fin false 1 (-400)

/-- .RELU for v > 0: mean and variance. -/
def mnlRelu (mu v : Int) : Num × Num :=
  let p := mnlBits
  let sd := sqrtFix p v
  let a := fixDiv p mu sd
  if a < -(20 * 2 ^ p) then (mnlTiny, mnlTiny)
  else if 20 * 2 ^ p < a then
    (justAbove false mu.toNat (-(p : Int)), justBelow false v.toNat (-(p : Int)))
  else
    let cdf := normCdf a
    let pdf := normPdf a
    let y := fixMul p mu cdf + fixMul p sd pdf
    let var := fixMul p (fixMul p mu mu + v) cdf + fixMul p (fixMul p mu sd) pdf - fixMul p y y
    (mnlNum y, if var ≤ 0 then .zero false else mnlNum var)

/-- ā = 4 − 2√2. -/
def mnlA : Int := 4 * 2 ^ mnlBits - 2 * sqrtFix mnlBits (2 * 2 ^ mnlBits)

/-- b̄ = −ln(√2 + 1), with √2 + 1 taken as 2 × (√2 + 1)/2. -/
def mnlB : Int :=
  let root := sqrtFix mnlBits (2 * 2 ^ mnlBits)
  0 - (ln2Fix mnlBits + lnFix mnlBits ((root + 2 ^ mnlBits) / 2))

/-- The argument of the mean's s, and of the variance's first term. -/
def mnlArgs (mu v : Int) : Int × Int :=
  let p := mnlBits
  let one : Int := 2 ^ p
  let pv := fixMul p (piFix p) v / 8
  let a := mnlA
  (fixDiv p mu (sqrtFix p (one + pv)),
   fixDiv p (fixMul p a (mu + mnlB)) (sqrtFix p (one + fixMul p (fixMul p a a) pv)))

/-- s(u) − s(t)², or only its sign where both are beyond the fixed point. -/
def mnlVar (t u : Int) : Num :=
  let p := mnlBits
  let far : Int := 800 * 2 ^ p
  let pos := if far < t ∧ far < u then decide (t - ln2Fix p < u) else decide (2 * t < u)
  if (far < t ∧ far < u) ∨ (t < -far ∧ u < -far) then (if pos then mnlTiny else .zero false)
  else
    let d := logistic u - fixMul p (logistic t) (logistic t)
    if d ≤ 0 then .zero false else mnlNum d

/-- s(t) as a number. -/
def mnlSigma (t : Int) : Num :=
  if t = 0 then .fin false 1 (-1)
  else if mnlFar < t then justBelow false 1 0
  else if t < -mnlFar then mnlTiny
  else mnlNum (logistic t)

/-- .SIGMOID for finite sources. -/
def mnlSigmoid (mu v : Int) : Num × Num :=
  let a := mnlArgs mu v
  (mnlSigma a.1, if v = 0 then .zero false else mnlVar a.1 a.2)

/-- Four times a number. -/
def Num.times4 : Num → Num
  | .fin n m e => .fin n m (e + 2)
  | x => x

/-- .TANH for finite sources: 2μs − 1 and 4vs of the pair (2μ, 4v). -/
def mnlTanh (mu v : Int) : Num × Num :=
  let a := mnlArgs (2 * mu) (4 * v)
  let mean :=
    if a.1 = 0 then .zero false
    else if mnlFar < a.1 then justBelow false 1 0
    else if a.1 < -mnlFar then justBelow true 1 0
    else mnlNum (2 * logistic a.1 - 2 ^ mnlBits)
  (mean, if v = 0 then .zero false else (mnlVar a.1 a.2).times4)

/-- .EXP for finite sources: exp(μ + v/2), and exp(2μ + 2v)·(1 − exp(−v)). -/
def mnlExp (mu v : Int) : Num × Num :=
  let p := mnlBits
  let ex (x : Int) (f : Int) : Num :=
    if mnlFar < x then .fin false 1 400
    else if x < -mnlFar then mnlTiny
    else mnlNum (fixMul p (expFix p x) f)
  let x := mu + v / 2
  (if x = 0 then .ofInt 1 else ex x (2 ^ p),
   if v = 0 then .zero false else ex (2 * (mu + v)) (2 ^ p - expNeg v))

end Sys2Proof.Machine
end

