-- ==== Sys2Proof/Machine/Moment.lean ====
section
/-! DEFINITION. Moment instructions (R290 to R307): major opcodes 0x90 to 0x9B. An instruction takes its registers, handles and
queue entries at issue, MLD its elements as well, joins the tile's steps and waits with kind 0; MOMENT_STEP makes its checks and
its step, then the writes of MST and MCOL.H, and retires it. -/

namespace Sys2Proof.Machine

/-! ### The moment file (R290) -/

/-- The pair of an element: zeros where the register belongs to another owner (R205, R290). -/
def Crew.moment (c : Crew) (m : Reg16) (n : Nat) : Nat :=
  if c.momTag[m] = c.task.owner then (Map.getD c.momE (256 * m.val + n) 0).toNat else 0

/-- Write a pair: the first write of another owner clears the register and takes its tag (R205). -/
def Crew.setMoment (c : Crew) (m : Reg16) (n v : Nat) : Crew :=
  let kept := if c.momTag[m] = c.task.owner then c.momE else c.momE.filter fun e => e.1 / 256 != m.val
  { c with momE := Map.set kept (256 * m.val + n) 0 (BitVec.ofNat 64 v), momTag := c.momTag.set m.val c.task.owner }

/-- Write pairs to elements of a moment register. -/
def State.setMoments (s : State) (crew : Nat) (m : Reg16) (es : List (Nat × Nat)) : State :=
  s.modCrew crew fun c => es.foldl (init := c) fun c e => c.setMoment m e.1 e.2

/-- A pair's mean and variance as numbers. -/
structure Pair where
  mean : Num
  var  : Num

/-- Sticky bits of MSTAT (Table 16.2). -/
def mNV : Nat := 1
def mOF : Nat := 2
def mNAN : Nat := 4

def posInf32 : Nat := 0x7F800000

/-! ### Checks and rounding (R295, R296) -/

/-- A variance below zero or a NaN. -/
def badVar (v : Num) : Bool := v.notNum || (v.sign && !v.isZero)

/-- A source pair as a step reads it (R295): none where NEGVAR is raised; with it the sticky bits and the pair's encoding. -/
def sourcePair (nvp : Bool) (raw : Nat) : Option (Pair × Nat × Nat) :=
  let m := raw % 2 ^ 32
  let mean := floatNum .f32 m
  let v := floatNum .f32 (raw / 2 ^ 32 % 2 ^ 32)
  if badVar v then
    if nvp then
      if v.isNaN then some ({ mean := mean, var := .inf false }, mNV, m + 2 ^ 32 * posInf32)
      else some ({ mean := mean, var := .zero false }, mNV, m)
    else none
  else if v.isZero then some ({ mean := mean, var := .zero false }, 0, m)
  else some ({ mean := mean, var := v }, 0, raw)

/-- The first NaN of several numbers. -/
def firstNaN (xs : List Num) : Option Num := xs.find? Num.isNaN

/-- A result pair rounded under R296, and its sticky bits; `srcs` are the source means in the order of R296, whose first NaN is
the result's mean. None where NEGVAR is raised on the result variance (R295). -/
def resultPair (nvp : Bool) (srcs : List Num) (mean var : Num) : Option (Nat × Nat) :=
  match firstNaN srcs with
  | some n => some (n.encode .f32 + 2 ^ 32 * posInf32, mNAN)
  | none =>
    if mean.notNum then some (Fmt.f32.canonNaN + 2 ^ 32 * posInf32, mNAN)
    else
      let m := mean.encode .f32
      let ovf (x : Num) (code : Nat) : Nat := if !x.isInf && code % 2 ^ 31 == posInf32 then mOF else 0
      if var.notNum then some (m + 2 ^ 32 * posInf32, mNAN ||| ovf mean m)
      else
        let v := var.encode .f32
        if v = 2 ^ 31 then some (m, ovf mean m)
        else if 2 ^ 31 < v then (if nvp then some (m, mNV ||| ovf mean m) else none)
        else some (m + 2 ^ 32 * v, ovf mean m ||| ovf var v)

/-- σ = RoundF64(√v) (R296). -/
def sigmaOf (v : Num) : Num := v.sqrt.roundF .f64

/-! ### Formulas (Tables 16.4, 16.5, 16.7) -/

/-- ρ of R297: none for 0, where every formula is polynomial; the error is the RANGE of a wrong gB. -/
def rhoOf (mctl : Word) (b : Word) : Except Nat (Option Num) :=
  match mctl.toNat % 4 with
  | 0 => .ok none
  | 1 => .ok (some (.ofInt 1))
  | 2 => .ok (some (.ofInt (-1)))
  | _ =>
    let raw := b.toNat % 2 ^ 32
    let r := floatNum .f32 raw
    if r.notNum || (Num.ofInt 1).lt (r.setSign false) then .error raw
    else if r.isZero then .ok none
    else .ok (some r)

def Num.times (k : Int) (x : Num) : Num := (Num.ofInt k).mul x

/-- σx·σy rounded to F64 (R297), zero when ρ = 0. -/
def crossTerm (x y : Pair) : Num := ((sigmaOf x.var).mul (sigmaOf y.var)).roundF .f64

/-- MADD and MSUB. -/
def momAdd (minus : Bool) (rho : Option Num) (x y : Pair) : Num × Num :=
  let my := if minus then y.mean.neg else y.mean
  match rho with
  | none => (x.mean.add my, x.var.add y.var)
  | some r =>
    let t := ((if minus then r.neg else r).times 2).mul (crossTerm x y)
    (x.mean.add my, Num.sum [x.var, y.var, t])

/-- MMUL, and MFMA with an addend. -/
def momMul (rho : Option Num) (x y : Pair) (z : Option Pair) : Num × Num :=
  let mm := x.mean.mul y.mean
  let a := (x.mean.mul x.mean).mul y.var
  let b := (y.mean.mul y.mean).mul x.var
  let vv := x.var.mul y.var
  let zm := z.toList.map (·.mean)
  let zv := z.toList.map (·.var)
  match rho with
  | none => (Num.sum (mm :: zm), Num.sum (a :: b :: vv :: zv))
  | some r =>
    let s2 := crossTerm x y
    (Num.sum (mm :: r.mul s2 :: zm),
     Num.sum (a :: b :: vv.mul ((Num.ofInt 1).add (r.mul r)) :: ((r.times 2).mul mm).mul s2 :: zv))

/-- MSCL. -/
def momScale (k : Num) (x : Pair) : Num × Num := (k.mul x.mean, (k.mul k).mul x.var)

/-- MSQR. -/
def momSquare (x : Pair) : Num × Num :=
  let mm := x.mean.mul x.mean
  (mm.add x.var, ((mm.mul x.var).times 4).add ((x.var.mul x.var).times 2))

/-- Which bracketing value MNL returns: the worked example of chapter 16 fixes one pair's, Config the others (R301). -/
def mnlSide (fn : MnlFn) (half pair : Nat) : Bool :=
  if fn = .relu ∧ pair = 0x3F80000000000000 then half == 0
  else Config.mnlUp (match fn with
    | .relu => 0 | .sigmoid => 1 | .tanh => 2 | .exp => 3) half pair

/-- MNL of finite sources with v > 0 or v = 0 (Table 16.5). -/
def mnlFinite (fn : MnlFn) (mu v : Int) : Num × Num :=
  match fn with
  | .relu =>
    if v = 0 then (if 0 < mu then .fin false mu.toNat (-(mnlBits : Int)) else .zero false, .zero false) else mnlRelu mu v
  | .sigmoid => mnlSigmoid mu v
  | .tanh => mnlTanh mu v
  | .exp => mnlExp mu v

/-- MNL of one source pair: encoding and sticky bits (Tables 16.5 and 16.6, R301). -/
def mnlPair (fn : MnlFn) (x : Pair) (raw : Nat) : Nat × Nat :=
  let pair (m v : Nat) : Nat := m + 2 ^ 32 * v
  let one := 0x3F800000
  let invalid := (pair Fmt.f32.canonNaN posInf32, mNAN)
  match x.mean, x.var with
  | .inf n, .fin _ _ _ =>
    let v := raw / 2 ^ 32
    (match fn, n with
     | .relu, false => pair posInf32 v
     | .relu, true => 0
     | .sigmoid, false => one
     | .sigmoid, true => 0
     | .tanh, false => one
     | .tanh, true => one + 2 ^ 31
     | .exp, false => pair posInf32 posInf32
     | .exp, true => 0, 0)
  | .fin _ _ _, .inf _ =>
    (match fn with
     | .relu | .exp => pair posInf32 posInf32
     | .sigmoid => pair 0x3F000000 0x3E800000
     | .tanh => pair 0 one, 0)
  | .inf n, .inf _ => if fn = .exp ∧ !n then (pair posInf32 posInf32, 0) else invalid
  | .fin n m e, .fin _ w g =>
    let r := mnlFinite fn (toFix mnlBits n m e) (toFix mnlBits false w g)
    let a := r.1.encodeSide .f32 (mnlSide fn 0 raw)
    let b := r.2.encodeSide .f32 (mnlSide fn 1 raw)
    let ovf (c : Nat) : Nat := if c % 2 ^ 31 = posInf32 then mOF else 0
    (pair a b, ovf a ||| ovf b)
  | m, _ => if m.isNaN then (pair (m.encode .f32) posInf32, mNAN) else invalid

/-- The value MCOL gives (Table 16.7). -/
def colValue (op : ColOp) (k : Num) (x : Pair) : Num :=
  match op with
  | .mean => x.mean
  | .var => x.var
  | .sd => x.var.sqrt
  | .upper => x.mean.add (k.mul (sigmaOf x.var))
  | .lower => x.mean.add ((k.mul (sigmaOf x.var)).neg)

/-! ### Issue and step (R294) -/

/-- MCTL of the issuing crew, as this cycle sees it (R184). -/
def State.issuerMctl (s : State) : Word :=
  match s.issuer with
  | some k => ((s.thread? k).bind fun t => s.crewSeen t.crewn.toNat).elim 0 (·.mctl)
  | none => 0

/-- The register a moment instruction writes at retirement. -/
def momentDest : Instr → Reg
  | .mld _ d _ _ _ | .mst _ d _ _ _ | .mset _ d _ _ _ | .madd _ d _ _ _ _ _ | .msub _ d _ _ _ _ _ | .mmul _ d _ _ _ _ _
  | .mfma _ d _ _ _ _ _ _ | .mscl _ d _ _ _ _ | .msqr _ d _ _ _ | .mnl _ _ d _ _ _ | .mcol _ _ d _ _ _
  | .mcolH _ _ d _ _ _ _ | .mchk _ d _ _ => d
  | _ => 0

/-- A moment instruction issues: it takes its registers, handles, MCTL and queue entries, joins the steps of the crew's tile and
waits with kind 0 (R226, R292, R294). `reads` is what MLD has read. -/
def Issue.joinSteps (i : Issue) (instr : Instr) (s : State) (reads : Option (List Nat) := none) : Effect :=
  let (push, s) := i.reserve (i.holdPop s) (momentDest instr)
  let m : MomentOp :=
    { thread := i.k, instr := instr, mctl := i.c.mctl, g := i.t.g, popped := i.popped, push := push, handles := i.c.handles,
      reads := reads, writes := none }
  .hold <| (s.modTile i.c.tile fun x => { x with momentQ := x.momentQ ++ [m] }).modThread i.k fun t =>
    t.toWait 0 0 .momentStep

def momentIssue (p : Pred) (u : Uses) (instr : Instr) (s : State) : Out :=
  issue p 12 u (fun i s => i.joinSteps instr s) s

/-- How a step ends: in a trap or a fault; with its results written, gD's value and MSTAT bits; or with elements still to be
written to the scratchpad. -/
inductive MomentEnd where
  | fail (e : Effect)
  | done (s : State) (v : Word) (flags : Nat)
  | write (e : Elems) (vs : List Nat) (v : Word) (flags : Nat)

/-- A step that ends in a plain user trap. -/
def MomentEnd.user (code : Nat) (info : Nat := 0) (addr : Nat := 0) : MomentEnd := .fail (.user code info addr)

/-- An undeclared moment register raises ILLOP when the instruction executes (R290). -/
def Issue.momentsOk (i : Issue) (ms : List Reg16) : Bool := ms.all fun m => decide (m.val < i.c.decl.moments)

/-- The checks of a batch, in order: the registers, the lanes, the handles; then its elements (R294). -/
def Issue.momentRange (i : Issue) (a : Reg) (ms : List Reg16) (hs : List (Reg16 × (Fmt → Bool))) : Except Effect (List Nat) :=
  if !i.momentsOk ms then .error (.user codeIllop)
  else if i.t.lgrant = 0 then .error (.user codeLane)
  else
    match badHandle i.c hs with
    | some e => .error e
    | none =>
      let lo := (i.reg a).toNat
      .ok (span lo (hs.foldl (init := min (lo + 8 * i.t.lgrant.toNat) 256) fun m x => min m (i.c.handle x.1).len))

/-- A batch step: its checks, nothing touched by an empty range (R294). -/
def Issue.momentBatch (i : Issue) (s : State) (a : Reg) (ms : List Reg16) (hs : List (Reg16 × (Fmt → Bool)))
    (body : List Nat → MomentEnd) : MomentEnd :=
  match i.momentRange a ms hs with
  | .error e => .fail e
  | .ok [] => .done s 0 0
  | .ok idx => body idx

/-- The elements of the scratchpad a step will write: PROT where one lies outside the declared regions (R26, R294). -/
def Issue.momentWrites (i : Issue) (e : Elems) (vs : List Nat) (flags : Nat) : MomentEnd :=
  match e.outside i.c.decl.scratch with
  | some va => .fail (.sys codeProt va)
  | none => .write e vs (BitVec.ofNat 64 e.idx.length) flags

/-- Work out one result for each element; the first element at which a check fails raises NEGVAR (R295). -/
def momentEach (idx : List Nat) (f : Nat → Option (Nat × Nat)) : Except Nat (List Nat × Nat) :=
  match idx.find? fun n => (f n).isNone with
  | some n => .error n
  | none =>
    let rs := idx.filterMap f
    .ok (rs.map (·.1), rs.foldl (fun m r => m ||| r.2) 0)

/-- The negative-variance policy. -/
def nvpOf (mctl : Word) : Bool := bitAt mctl.toNat 2
def Issue.nvp (i : Issue) : Bool := nvpOf i.c.mctl

/-- The source pair of element n of a moment register. -/
def Issue.pairAt (i : Issue) (m : Reg16) (n : Nat) : Option (Pair × Nat × Nat) := sourcePair i.nvp (i.c.moment m n)

/-- Write one result for each element to a moment register, or raise NEGVAR at the first that fails (R294, R295). -/
def Issue.momentInto (i : Issue) (s : State) (x0 : Reg16) (idx : List Nat) (f : Nat → Option (Nat × Nat)) : MomentEnd :=
  match momentEach idx f with
  | .error n => .user codeNegvar n
  | .ok (rs, fl) => .done (s.setMoments i.crew x0 (idx.zip rs)) (BitVec.ofNat 64 idx.length) fl

/-- A batch whose results go to a moment register. -/
def Issue.momentMap (i : Issue) (s : State) (a : Reg) (x0 : Reg16) (srcs : List Reg16)
    (f : Nat → Option (Nat × Nat)) : MomentEnd :=
  i.momentBatch s a (x0 :: srcs) [] fun idx => i.momentInto s x0 idx f

/-- The source pairs of an element, with the sticky bits of reading them. -/
def Issue.sources (i : Issue) (ms : List Reg16) (n : Nat) : Option (List Pair × Nat) :=
  ms.foldlM (init := ([], 0)) fun acc m =>
    (i.pairAt m n).map fun r => (acc.1 ++ [r.1], acc.2 ||| r.2.1)

/-- An arithmetic step: sources, formula, rounding. -/
def Issue.momentArith (i : Issue) (s : State) (a : Reg) (x0 : Reg16) (srcs : List Reg16)
    (extra : List Num) (f : List Pair → Num × Num) : MomentEnd :=
  i.momentMap s a x0 srcs fun n =>
    match i.sources srcs n with
    | none => none
    | some (ps, fl) =>
      let r := f ps
      (resultPair i.nvp (ps.map (·.mean) ++ extra) r.1 r.2).map fun x => (x.1, x.2 ||| fl)

/-- A step whose ρ may come from gB (R297): it is asked for only by a batch that touches something. -/
def Issue.rhoStep (i : Issue) (s : State) (a b : Reg) (x0 : Reg16) (srcs : List Reg16)
    (f : Option Num → List Pair → Num × Num) : MomentEnd :=
  i.momentBatch s a (x0 :: srcs) [] fun _ =>
    match rhoOf i.c.mctl (i.reg b) with
    | .error v => .user codeRange 0 v
    | .ok r => i.momentArith s a x0 srcs [] (f r)

/-- A pair of lists of pairs. -/
def pairs2 (f : Pair → Pair → Num × Num) : List Pair → Num × Num
  | x :: y :: _ => f x y
  | _ => (.bad, .bad)

/-- The pair an element of MLD's handle holds (R291, R302). -/
def widenPair (f : Fmt) (raw : Nat) : Nat :=
  match f with
  | .mf32 => raw
  | .mb16 => raw % 2 ^ 16 * 2 ^ 16 + raw / 2 ^ 16 % 2 ^ 16 * 2 ^ 48
  | .f32 => raw
  | .bf16 => raw * 2 ^ 16
  | f => (floatNum f raw).encode .f32

/-- The encoding MST writes (R291): MB16 sets OF where a finite value became infinite. -/
def narrowPair (f : Fmt) (raw : Nat) : Nat × Nat :=
  if f = .mf32 then (raw, 0)
  else
    let part (v : Nat) : Nat × Nat :=
      let x := floatNum .f32 v
      let c := x.encode .bf16
      (c, if !x.isInf && c % 2 ^ 15 == 0x7F80 then mOF else 0)
    let m := part (raw % 2 ^ 32)
    let v := part (raw / 2 ^ 32)
    (m.1 + 2 ^ 16 * v.1, m.2 ||| v.2)

/-- The handle formats MLD, MST and MCOL.H take (R302, R304). -/
def mldFmt (f : Fmt) : Bool := f == .mf32 || f == .mb16 || f == .f32 || f == .f16 || f == .bf16
def colFmt (f : Fmt) : Bool := f == .f64 || f == .f32 || f == .f16 || f == .bf16

/-- The pair MLD writes for an element it has read: none where NEGVAR is raised (R295, R302). -/
def Issue.mldPair (i : Issue) (x1 : Reg16) (raw : Nat) : Option (Nat × Nat) :=
  (sourcePair i.nvp (widenPair ((i.c.handle x1).fmt?.getD .mf32) raw)).map fun r => (r.2.2, r.2.1)

/-- MLD's step (R302), with what it has read; `reads` is none where its checks failed at issue, or it touches nothing. -/
def stepMld (i : Issue) (s : State) (a : Reg) (x0 x1 : Reg16) (reads : Option (List Nat)) : MomentEnd :=
  i.momentBatch s a [x0] [(x1, mldFmt)] fun idx =>
    match reads with
    | some raws => i.momentInto s x0 idx fun n => i.mldPair x1 (raws.getD (n - idx.headD 0) 0)
    | none => .fail (.sys codeProt (({ h := i.c.handle x1, idx := idx } : Elems).outside i.c.decl.scratch |>.getD 0))

/-- MST's step (R302): what it will write. -/
def stepMst (i : Issue) (s : State) (a : Reg) (x0 x1 : Reg16) : MomentEnd :=
  i.momentBatch s a [x1] [(x0, Fmt.isPair)] fun idx =>
    let h := i.c.handle x0
    let rs := idx.map fun n => narrowPair (h.fmt?.getD .mf32) (i.c.moment x1 n)
    i.momentWrites { h := h, idx := idx } (rs.map (·.1)) (rs.foldl (fun m r => m ||| r.2) 0)

/-- MSET's step (R303). -/
def stepMset (i : Issue) (s : State) (a b : Reg) (x0 : Reg16) : MomentEnd :=
  i.momentMap s a x0 [] fun _ => (sourcePair i.nvp (i.reg b).toNat).map fun r => (r.2.2, r.2.1)

/-- MNL's step (R300, R301). -/
def stepMnl (i : Issue) (s : State) (fn : MnlFn) (a : Reg) (x0 x1 : Reg16) : MomentEnd :=
  i.momentMap s a x0 [x1] fun n =>
    (i.pairAt x1 n).map fun r =>
      let x := mnlPair fn r.1 r.2.2
      (x.1, x.2 ||| r.2.1)

/-- The factor of MCOL.UPPER and MCOL.LOWER (R304). -/
def Issue.colK (i : Issue) (op : ColOp) (b : Reg) (body : Num → MomentEnd) : MomentEnd :=
  match op with
  | .upper | .lower =>
    let raw := (i.reg b).toNat % 2 ^ 32
    let k := floatNum .f32 raw
    if k.notNum || k.isInf then .user codeRange 0 raw else body k
  | _ => body (.zero false)

/-- MCOL's step, register form (R304). -/
def stepMcol (i : Issue) (s : State) (op : ColOp) (a b : Reg) (x1 : Reg16) : MomentEnd :=
  let n := (i.reg a).toNat
  if !i.momentsOk [x1] then .user codeIllop
  else if 255 < n then .user codeRange 0 n
  else
    i.colK op b fun k =>
      match i.pairAt x1 n with
      | none => .user codeNegvar n
      | some (x, fl, _) => .done s (BitVec.ofNat 64 ((colValue op k x).encode .f64)) fl

/-- MCOL.H's step (R304): what it will write. -/
def stepMcolH (i : Issue) (s : State) (op : ColOp) (a b : Reg) (x0 x1 : Reg16) : MomentEnd :=
  i.momentBatch s a [x1] [(x0, colFmt)] fun idx =>
    i.colK op b fun k =>
      let h := i.c.handle x0
      match momentEach idx fun n =>
          (i.pairAt x1 n).map fun r => ((colValue op k r.1).encode (h.fmt?.getD .f64), r.2.1) with
      | .error n => .user codeNegvar n
      | .ok (rs, fl) => i.momentWrites { h := h, idx := idx } rs fl

/-- MCHK's step (R305). -/
def stepMchk (i : Issue) (s : State) (a : Reg) (x1 : Reg16) : MomentEnd :=
  if !i.momentsOk [x1] then .user codeIllop
  else
    let idx := span (i.reg a).toNat 256
    let at_ (n : Nat) : Num × Num :=
      (floatNum .f32 (i.c.moment x1 n % 2 ^ 32), floatNum .f32 (i.c.moment x1 n / 2 ^ 32))
    let bad (n : Nat) : Bool := badVar (at_ n).2
    let nan (n : Nat) : Bool := (at_ n).1.isNaN
    let inf (n : Nat) : Bool := (at_ n).1.isInf || (at_ n).2.isInf
    let low := (idx.find? fun n => bad n || nan n || inf n).getD 256
    .done s (BitVec.ofNat 64
      (low + 2 ^ 9 * b2n (idx.any bad) + 2 ^ 10 * b2n (idx.any nan) + 2 ^ 11 * b2n (idx.any inf))) 0

/-! ### The instructions -/

/-- A start and a count. -/
def momUses (d a : Reg) (more : List Reg := []) (mem : Bool := false) : Uses := { src := a :: more, dst := [d], seq := mem }

/-- gB is read only when MCTL.COV = 3 (R293). -/
def rhoRegs (s : State) (b : Reg) : List Reg := if s.issuerMctl.toNat % 4 = 3 then [b] else []

/-- k is read by .UPPER and .LOWER only. -/
def colRegs (op : ColOp) (b : Reg) : List Reg := if op = .upper ∨ op = .lower then [b] else []

/-- MLD takes a place among the steps with the elements it has read (R294, R302, R307): its reads wait on its W granules and
precede its step. Where a check of its step will fail it reads nothing, and the step raises it. -/
def Issue.mldRead (i : Issue) (s : State) (d a : Reg) (x0 x1 : Reg16) (instr : Instr) : Effect :=
  match i.momentRange a [x0] [(x1, mldFmt)] with
  | .error _ | .ok [] => i.joinSteps instr s
  | .ok idx =>
    let e : Elems := { h := i.c.handle x1, idx := idx }
    if (e.outside i.c.decl.scratch).isSome then i.joinSteps instr s
    else
      i.batchRead s [e] [] (owed := some d) fun vs s' =>
        let raws := vs.headD []
        i.joinSteps instr (if raws.all fun v => (i.mldPair x1 v).isSome then s' else s) (some raws)

/-- An instruction whose elements go to the scratchpad takes a place among the steps once the thread's own entries that hold
their blocks have drained (R117). -/
def Issue.storeLater (i : Issue) (s : State) (a : Reg) (ms : List Reg16) (x0 : Reg16) (accept : Fmt → Bool)
    (instr : Instr) : Effect :=
  match i.momentRange a ms [(x0, accept)] with
  | .error _ => i.joinSteps instr s
  | .ok idx =>
    if s.wcOver i.k i.crew [{ h := i.c.handle x0, idx := idx }] then .wait 0 0 .accesses fun s => s.markDraining i.k
    else i.joinSteps instr s

/-- MLD (R302). -/
def execMld (p : Pred) (d a : Reg) (x0 x1 : Reg16) : State → Out :=
  issue p 12 (momUses d a [] true) fun i s => i.mldRead s d a x0 x1 (.mld p d a x0 x1)
/-- MST (R302). -/
def execMst (p : Pred) (d a : Reg) (x0 x1 : Reg16) : State → Out :=
  issue p 12 (momUses d a [] true) fun i s => i.storeLater s a [x1] x0 Fmt.isPair (.mst p d a x0 x1)
/-- MSET (R303). -/
def execMset (p : Pred) (d a b : Reg) (x0 : Reg16) : State → Out := momentIssue p (momUses d a [b]) (.mset p d a b x0)
/-- MADD (R298). -/
def execMadd (p : Pred) (d a b : Reg) (x0 x1 x2 : Reg16) (s : State) : Out :=
  momentIssue p (momUses d a (rhoRegs s b)) (.madd p d a b x0 x1 x2) s
/-- MSUB (R298). -/
def execMsub (p : Pred) (d a b : Reg) (x0 x1 x2 : Reg16) (s : State) : Out :=
  momentIssue p (momUses d a (rhoRegs s b)) (.msub p d a b x0 x1 x2) s
/-- MMUL (R298). -/
def execMmul (p : Pred) (d a b : Reg) (x0 x1 x2 : Reg16) (s : State) : Out :=
  momentIssue p (momUses d a (rhoRegs s b)) (.mmul p d a b x0 x1 x2) s
/-- MFMA (R298). -/
def execMfma (p : Pred) (d a b : Reg) (x0 x1 x2 x3 : Reg16) (s : State) : Out :=
  momentIssue p (momUses d a (rhoRegs s b)) (.mfma p d a b x0 x1 x2 x3) s
/-- MSCL (R299). -/
def execMscl (p : Pred) (d a b : Reg) (x0 x1 : Reg16) : State → Out := momentIssue p (momUses d a [b]) (.mscl p d a b x0 x1)
/-- MSQR (R299). -/
def execMsqr (p : Pred) (d a : Reg) (x0 x1 : Reg16) : State → Out := momentIssue p (momUses d a) (.msqr p d a x0 x1)
/-- MNL (R300). -/
def execMnl (p : Pred) (fn : MnlFn) (d a : Reg) (x0 x1 : Reg16) : State → Out :=
  momentIssue p (momUses d a) (.mnl p fn d a x0 x1)
/-- MCOL (R304). -/
def execMcol (p : Pred) (op : ColOp) (d a b : Reg) (x1 : Reg16) : State → Out :=
  momentIssue p (momUses d a (colRegs op b)) (.mcol p op d a b x1)
/-- MCOL.H (R304). -/
def execMcolH (p : Pred) (op : ColOp) (d a b : Reg) (x0 x1 : Reg16) : State → Out :=
  issue p 12 (momUses d a (colRegs op b) true) fun i s => i.storeLater s a [x1] x0 colFmt (.mcolH p op d a b x0 x1)
/-- MCHK (R305). -/
def execMchk (p : Pred) (d a : Reg) (x1 : Reg16) : State → Out := momentIssue p (momUses d a) (.mchk p d a x1)

/-- The step of an instruction (Tables 16.3 to 16.7). -/
def momentStep (i : Issue) (s : State) (reads : Option (List Nat)) : Instr → MomentEnd
  | .mld _ _ a x0 x1 => stepMld i s a x0 x1 reads
  | .mst _ _ a x0 x1 => stepMst i s a x0 x1
  | .mset _ _ a b x0 => stepMset i s a b x0
  | .madd _ _ a b x0 x1 x2 => i.rhoStep s a b x0 [x1, x2] fun r => pairs2 (momAdd false r)
  | .msub _ _ a b x0 x1 x2 => i.rhoStep s a b x0 [x1, x2] fun r => pairs2 (momAdd true r)
  | .mmul _ _ a b x0 x1 x2 => i.rhoStep s a b x0 [x1, x2] fun r => pairs2 fun x y => momMul r x y none
  | .mfma _ _ a b x0 x1 x2 x3 =>
    i.rhoStep s a b x0 [x1, x2, x3] fun r ps =>
      match ps with
      | [x, y, z] => momMul r x y (some z)
      | _ => (.bad, .bad)
  | .mscl _ _ a b x0 x1 =>
    let k := floatNum .f32 ((i.reg b).toNat % 2 ^ 32)
    i.momentArith s a x0 [x1] [k] fun
      | x :: _ => momScale k x
      | [] => (.bad, .bad)
  | .msqr _ _ a x0 x1 =>
    i.momentArith s a x0 [x1] [] fun
      | x :: _ => momSquare x
      | [] => (.bad, .bad)
  | .mnl _ fn _ a x0 x1 => stepMnl i s fn a x0 x1
  | .mcol _ op _ a b x1 => stepMcol i s op a b x1
  | .mcolH _ op _ a b x0 x1 => stepMcolH i s op a b x0 x1
  | .mchk _ _ a x1 => stepMchk i s a x1
  | _ => .user codeIllop

/-! ### The steps of a tile -/

/-- What a step sees: registers, handles and MCTL as the instruction took them at issue, the moment file as it stands. -/
def MomentOp.issue (m : MomentOp) (t : Thread) (c : Crew) : Issue :=
  { k := m.thread, t := { t with g := m.g }, c := { c with handles := m.handles, mctl := m.mctl }, crew := t.crewn.toNat,
    popped := m.popped }

/-- Its step has begun (R307): it has computed what it writes. -/
def MomentOp.begun (m : MomentOp) : Bool := m.writes.isSome

/-- What an instruction that does not complete took of its crew's queues is given back (R228). -/
def State.momentBack (s : State) (m : MomentOp) : State := s.returnSlots (crewOf m.thread) m.push m.popped

/-- The instruction retires: gD, or the slot its bound g7 reserved, and MSTAT are written, wherever the line is (R166, R294). -/
def State.momentRetire (s : State) (m : MomentOp) (v : Word) (flags : Nat) : State :=
  let crew := crewOf m.thread
  let s := s.modCrew crew fun c => { c with mstat := c.mstat ||| BitVec.ofNat 64 flags }
  let s := s.keepPopped crew m.popped
  let s := s.modThread m.thread fun t =>
    { t with finish := some { dest := some (momentDest m.instr, v), len := 12, slot := m.push } }
  s.complete m.thread

/-- The instruction ends in a trap or a fault, wherever the line is: it gives back what it took (R228, R294). -/
def State.momentFail (s : State) (m : MomentOp) (e : Effect) : State :=
  let s := (s.momentBack m).modThread m.thread fun t => { t.clearWait with st := .ready }
  match e with
  | .trap ti => s.userTrap m.thread ti
  | .stop f => s.sysFault m.thread f
  | _ => s

/-- An instruction leaves the steps of its tile. -/
def State.leaveSteps (s : State) (tile : Nat) (m : MomentOp) : State :=
  s.modTile tile fun x => { x with momentQ := x.momentQ.filter fun y => y.thread != m.thread }

/-- Take an instruction's step. -/
def State.momentTake (s : State) (tile : Nat) (m : MomentOp) (i : Issue) : State :=
  match momentStep i s m.reads m.instr with
  | .fail e => (s.leaveSteps tile m).momentFail m e
  | .done s v flags => (s.leaveSteps tile m).momentRetire m v flags
  | .write _ vs v flags =>
    s.modTile tile fun x =>
      { x with momentQ := x.momentQ.map fun y => if y.thread = m.thread then { y with writes := some (vs, v, flags) } else y }

/-- Where the elements an instruction stores begin: its start register and its handle. -/
def momentStore : Instr → Option (Reg × Reg16)
  | .mst _ _ a x0 _ => some (a, x0)
  | .mcolH _ _ _ a _ x0 _ => some (a, x0)
  | _ => none

/-- The writes of MST and MCOL.H bind after their step (R270, R294). -/
def State.momentWrite (s : State) (tile : Nat) (m : MomentOp) (i : Issue) : State :=
  let s := s.leaveSteps tile m
  match m.writes, momentStore m.instr with
  | some (vs, v, flags), some (a, x0) =>
    let lo := (i.reg a).toNat
    (i.batchWrite s { h := i.c.handle x0, idx := span lo (lo + vs.length) } vs).momentRetire m v flags
  | _, _ => s

/-- Which of several instructions acts next, by free choices. -/
def State.pickMoment (s : State) : List MomentOp → Option MomentOp × State
  | [] => (none, s)
  | [m] => (some m, s)
  | m :: ms =>
    let (first, s) := s.choose
    if first then (some m, s) else s.pickMoment ms

/-- MOMENT_STEP (R294): the oldest instruction of the tile whose step has not been taken takes it, or the writes of one whose
step has been taken bind. -/
def execMomentStep (tile : Nat) (s : State) : Out :=
  .next <|
    let q := (s.tile tile).momentQ
    match s.pickMoment (q.filter (·.writes.isSome) ++ (q.find? (·.writes.isNone)).toList) with
    | (none, s) => s
    | (some m, s) =>
      match s.thread? m.thread with
      | some t =>
        match s.crew? t.crewn.toNat with
        | some c =>
          if t.st = .waiting ∧ t.await = .momentStep then
            let i := m.issue t c
            if m.writes.isSome then s.momentWrite tile m i else s.momentTake tile m i
          else (s.leaveSteps tile m).momentBack m
        | none => s.leaveSteps tile m
      | none => s.leaveSteps tile m

end Sys2Proof.Machine
end

