-- ==== Sys2Proof/Machine/Lanes.lean ====
section
/-! DEFINITION. The lane pool of a tile (R261 to R264): VCLAIM, VREL and the service of waiting restores and claims. -/

namespace Sys2Proof.Machine

/-- Lanes a line holds: its grant, while it is resident and the grant has been given back (R261). -/
def Thread.lanes (t : Thread) : Nat := if t.resident.isSome && !t.restoring then 8 * t.lgrant.toNat else 0

/-- Hc: the lanes held by a crew's threads. -/
def State.lanesHeld (s : State) (crew : Nat) : Nat := ((s.linesOf crew).map fun e => e.2.lanes).sum

/-- The crews bound to a tile. -/
def State.crewsOf (s : State) (tile : Nat) : List (Nat × Crew) :=
  s.crews.filter fun e => e.2.tile == tile && !e.2.displaced

/-- F: lanes neither reserved nor held; below zero where crews hold what a crew bound since has reserved. -/
def State.lanesFree (s : State) (tile : Nat) : Int :=
  256 - ((((s.crewsOf tile).map fun e => max e.2.decl.lanes (s.lanesHeld e.1)).sum : Nat) : Int)

/-- A(c): lanes a thread of the crew can obtain beyond those it holds (R261). -/
def State.lanesFor (s : State) (crew : Nat) : Int :=
  match s.crew? crew with
  | some c => (((c.decl.lanes - s.lanesHeld crew : Nat)) : Int) + s.lanesFree c.tile
  | none => 0

/-- The waiting restores of a tile, oldest check-in first (R263). -/
def State.restores (s : State) (tile : Nat) : List (Nat × Thread) :=
  (s.threads.filter fun e =>
    e.2.restoring && e.2.resident.isSome && (s.crew? e.2.crewn.toNat).elim false fun c => c.tile == tile).mergeSort fun a b =>
    decide (a.2.entryStamp ≤ b.2.entryStamp)

/-- Lines checked out while they wait for their grant, which stays in their wait tag (R167): the oldest check-in first. -/
def State.restoresOut (s : State) (tile : Nat) : List (Nat × Thread) :=
  (s.threads.filter fun e =>
    e.2.restoring && e.2.entryCore.isNone && (s.crew? e.2.crewn.toNat).elim false fun c => c.tile == tile && !c.displaced).mergeSort
    fun a b => decide (a.2.entryStamp ≤ b.2.entryStamp)

/-- The waiting VCLAIM.W claims of a tile, in the order in which they began to wait: line and lanes sought. -/
def State.claims (s : State) (tile : Nat) : List (Nat × Thread) :=
  (s.threads.filter fun e =>
    e.2.claim.isSome && (e.2.st == .ready || (e.2.st == .waiting && e.2.wkind == 8)) &&
      (s.crew? e.2.crewn.toNat).elim false fun c => c.tile == tile && !c.displaced).mergeSort fun a b =>
    decide ((a.2.claim.getD (0, 0)).1 ≤ (b.2.claim.getD (0, 0)).1)

/-- The lanes a waiting VCLAIM.W seeks. -/
def Thread.sought (t : Thread) : Nat := (t.claim.getD (0, 0)).2

/-- A claim that has been served: its line holds the lanes and has still to issue its VCLAIM.W again. -/
def Thread.claimMet (t : Thread) : Bool := t.resident.isSome && t.st == .ready && 8 * t.lgrant.toNat == t.sought

/-- The claims of a tile that have not been served. -/
def State.claimsLeft (s : State) (tile : Nat) : List (Nat × Thread) := (s.claims tile).filter fun e => !e.2.claimMet

/-- Owed() of R263: what the oldest waiting restore lacks, which is its whole grant, else what the oldest waiting claim lacks
beyond the lanes its line holds (notes/assumptions/30.md). -/
def State.lanesOwed (s : State) (tile : Nat) : Nat :=
  match s.restores tile with
  | e :: _ => 8 * e.2.lgrant.toNat
  | [] =>
    match s.claimsLeft tile with
    | e :: _ => e.2.sought - e.2.lanes
    | [] => 0

/-- The request of a VCLAIM, or the trap of a wrong one (R262); a wrong immediate is refused at decoding, as a limit of the word
alone (notes/assumptions/4.md). -/
def Issue.claimSize (i : Issue) (b : Src) : Except Effect Nat :=
  let n := (i.src b).toNat
  if n % 8 ≠ 0 ∨ n < 8 ∨ 256 < n then
    .error (match b with
      | .imm _ => .user codeIllop
      | .reg _ => .user codeRange 0 n)
  else .ok n

/-- Grant lanes: LGRANT and gD. -/
def Issue.grant (i : Issue) (s : State) (d : Reg) (g : Nat) : Effect :=
  i.put (s.modThread i.k fun t => { t with lgrant := BitVec.ofNat 8 (g / 8), claim := none }) d (BitVec.ofNat 64 g)

/-- Give the waiting restores of a tile their grants, oldest first, while each can have exactly its own. -/
def State.serveRestores (tile : Nat) : Nat → State → State
  | 0, s => s
  | fuel + 1, s =>
    match s.restores tile with
    | [] => s
    | e :: _ =>
      if 8 * e.2.lgrant.toNat ≤ s.lanesFor (crewOf e.1) then
        State.serveRestores tile fuel (s.setThread e.1 { e.2.wake with restoring := false })
      else s

/-- Make ready the lines checked out while they waited for their grant, for each that the tile could now give it back. -/
def State.serveOut (tile : Nat) (s : State) : State :=
  (s.restoresOut tile).foldl (init := s) fun s e =>
    if 8 * e.2.lgrant.toNat ≤ s.lanesFor (crewOf e.1) then s.setThread e.1 { e.2.wake with restoring := false } else s

/-- Give the waiting claims of a tile their lanes in the order in which they began to wait, while each can have all it seeks: a
resident line holds them from now on; one that is checked out only looks again. -/
def State.serveClaims (tile : Nat) : Nat → State → State
  | 0, s => s
  | fuel + 1, s =>
    match s.claimsLeft tile with
    | [] => s
    | e :: _ =>
      if s.lanesFor (crewOf e.1) + e.2.lanes < e.2.sought then s
      else if e.2.resident.isSome then
        State.serveClaims tile fuel (s.setThread e.1 { e.2.wake with lgrant := BitVec.ofNat 8 (e.2.sought / 8) })
      else s.setThread e.1 e.2.wake

/-- Waiting restores are served, then waiting claims (R263). -/
def State.serveLanes (s : State) (tile : Nat) : State :=
  let s := (State.serveRestores tile (s.restores tile).length s).serveOut tile
  State.serveClaims tile (s.claimsLeft tile).length s

/-- A claim that asks for more lanes comes after the restores and the claims that wait and can now be served (R263). -/
def Issue.claimFirst (i : Issue) (s : State) (n : Nat) : State :=
  if 8 * i.t.lgrant.toNat < n then s.serveLanes i.c.tile else s

/-- VCLAIM (R262): never waits, and takes no lanes owed to a waiting line. -/
def execVclaim (p : Pred) (d : Reg) (b : Src) (s : State) : Out :=
  issue p 8 { src := srcRegs b, dst := [d] } (fun i s =>
    match i.claimSize b with
    | .error e => e
    | .ok n =>
      let cur := 8 * i.t.lgrant.toNat
      let s := i.claimFirst s n
      i.grant s d (min n ((s.lanesFor i.crew + cur - s.lanesOwed i.c.tile).toNat / 8 * 8))) s

/-- VCLAIM.W (R262): LANE where the crew could never hold so many; waits until the lanes are there and no earlier claim waits. -/
def execVclaimW (p : Pred) (d : Reg) (b : Src) (s : State) : Out :=
  issue p 8 { src := srcRegs b, dst := [d] } (fun i s =>
    match i.claimSize b with
    | .error e => e
    | .ok n =>
      let others := (((s.crewsOf i.c.tile).filter fun e => e.1 ≠ i.crew).map fun e => e.2.decl.lanes).sum
      if i.c.decl.lanes + 256 - others < n then .user codeLane (n / 8)
      else
        let cur := 8 * i.t.lgrant.toNat
        if i.t.claim.isSome ∧ cur = n then i.grant s d n
        else
          let s := i.claimFirst s n
          let first := (s.claimsLeft i.c.tile).head?.elim true fun e => e.1 == i.k
          if s.lanesFor i.crew + cur < n ∨ !first then
            .wait 8 (n / 8) .nothing fun s =>
              if i.t.claim.isSome then s
              else
                let (st, s) := s.stamp
                s.modThread i.k fun t => { t with claim := some (st, n) }
          else i.grant s d n) s

/-- VREL (R262). -/
def execVrel (p : Pred) (s : State) : Out :=
  issue p 8 {} (fun i s => .retire (s.modThread i.k fun t => { t with lgrant := 0 })) s

/-- LANE_GRANT_SERVE (R263): restores first, then the waiting claims in order. -/
def execLaneGrantServe (tile : Nat) (s : State) : Out := .next (s.serveLanes tile)

end Sys2Proof.Machine
end

