-- ==== Sys2Proof/Machine/Vector.lean ====
section
/-! DEFINITION. Vector instructions (R269 to R277), special functions (R278) and table interpolation (R280 to R282): major
opcodes 0x72 to 0x8B. -/

namespace Sys2Proof.Machine

/-! ### Handles as registers (R269) -/

/-- HSET (R269). -/
def execHset (p : Pred) (a : Reg) (x0 : Reg16) (s : State) : Out :=
  issue p 12 { srcPair := [a] } (fun i s =>
    .retire (s.writeCrew i.crew fun c => { c with handles := c.handles.set x0 (handleBits (i.pairNat a)) })) s

/-- HGET (R269). -/
def execHget (p : Pred) (d : Reg) (x0 : Reg16) (s : State) : Out :=
  issue p 12 { dstPair := [d] } (fun i s =>
    let v := i.c.handles[x0].toNat
    .retire ((s.wr i.k d (BitVec.ofNat 64 v)).wr i.k (nextReg d) (BitVec.ofNat 64 (v / 2 ^ 64)))) s

/-! ### The batch (R270) -/

/-- The uses of a batch instruction: a sequential access of its thread. -/
def batchUses (d : Reg) (src : List Reg) : Uses := { src := src, dst := [d], seq := true }

/-- A batch: LANE without a grant, the handle checks, then `body` on the first index and the end; an empty batch runs
`empty`. -/
def Issue.batch (i : Issue) (a : Reg) (checks : List (Reg16 × (Fmt → Bool))) (lens : List Reg16) (empty : Effect)
    (body : (lo hi : Nat) → Effect) : Effect :=
  if i.t.lgrant = 0 then .user codeLane
  else
    match badHandle i.c checks with
    | some e => e
    | none =>
      let lo := (i.reg a).toNat
      let hi := lens.foldl (init := lo + 8 * i.t.lgrant.toNat) fun m x => min m (i.c.handle x).len
      if hi ≤ lo then empty else body lo hi

/-- A handle of the issuing crew, its elements, and its format. -/
def Issue.elems (i : Issue) (x : Reg16) (idx : List Nat) : Elems := { h := i.c.handle x, idx := idx }
def Issue.fmt (i : Issue) (x : Reg16) : Fmt := (i.c.handle x).fmt?.getD .s8

/-- The exact value of an integer element. -/
def intOf (f : Fmt) (raw : Nat) : Int := if f.isSigned then signed raw f.width else raw % 2 ^ f.width

/-- Float or one of the integer codes 0x01 to 0x08 (Table 14.3). -/
def arithFmt (f : Fmt) : Bool := f.isFloat || f.isVecInt
/-- Float where the other handle is; else the same integer code. -/
def Handle.kindOf (h : Handle) (f : Fmt) : Bool :=
  if h.fmt?.elim false Fmt.isFloat then f.isFloat else h.is f && f.isVecInt
def anyFmt (_ : Fmt) : Bool := true

/-- Element-wise results: rows of source values by index. -/
def rowsOf (n : Nat) (vs : List (List Nat)) : List (List Nat) := (List.range n).map fun j => vs.map fun v => v.getD j 0

/-- A batch that maps source elements of equal index to a destination element. -/
def mapBatch (p : Pred) (d a : Reg) (x0 : Reg16) (srcs : List Reg16) (checks : Issue → List (Reg16 × (Fmt → Bool)))
    (f : Fmt → List (Fmt × Nat) → Nat) (s : State) : Out :=
  issue p 12 (batchUses d [a]) (fun i s =>
    i.batch a (checks i) (x0 :: srcs) (i.put s d 0) fun lo hi =>
      let idx := span lo hi
      i.batchRead s (srcs.map fun x => i.elems x idx) [i.elems x0 idx] fun vs s =>
        let fs := srcs.map i.fmt
        let rs := (rowsOf idx.length vs).map fun row => f (i.fmt x0) (fs.zip row)
        i.put (i.batchWrite s (i.elems x0 idx) rs) d (BitVec.ofNat 64 idx.length)) s

/-- X0 float or integer, every source of its kind. -/
def arithChecks (x0 : Reg16) (srcs : List Reg16) (i : Issue) : List (Reg16 × (Fmt → Bool)) :=
  (x0, arithFmt) :: srcs.map fun x => (x, (i.c.handle x0).kindOf)

/-- All operands float. -/
def floatChecks (xs : List Reg16) (_ : Issue) : List (Reg16 × (Fmt → Bool)) := xs.map fun x => (x, Fmt.isFloat)

/-- An element-wise operation under R271 on floats and R272 on integers. -/
def vecArith (fl : List Num → Num) (int : List Int → Int) (f : Fmt) (row : List (Fmt × Nat)) : Nat :=
  if f.isFloat then (fl (row.map fun e => Num.decode e.1 e.2)).encode f
  else lowBits (int (row.map fun e => intOf e.1 e.2)) f.width

/-- Two-operand and one-operand forms on lists. -/
def on2 {α : Type} (dflt : α) (f : α → α → α) : List α → α
  | a :: b :: _ => f a b
  | _ => dflt
def on1 {α : Type} (dflt : α) (f : α → α) : List α → α
  | a :: _ => f a
  | _ => dflt

/-- VADD. -/
def execVadd (p : Pred) (d a : Reg) (x0 x1 x2 : Reg16) : State → Out :=
  mapBatch p d a x0 [x1, x2] (arithChecks x0 [x1, x2]) (vecArith (on2 .bad Num.add) (on2 0 (· + ·)))
/-- VSUB. -/
def execVsub (p : Pred) (d a : Reg) (x0 x1 x2 : Reg16) : State → Out :=
  mapBatch p d a x0 [x1, x2] (arithChecks x0 [x1, x2]) (vecArith (on2 .bad Num.sub) (on2 0 (· - ·)))
/-- VMUL. -/
def execVmul (p : Pred) (d a : Reg) (x0 x1 x2 : Reg16) : State → Out :=
  mapBatch p d a x0 [x1, x2] (arithChecks x0 [x1, x2]) (vecArith (on2 .bad Num.mul) (on2 0 (· * ·)))
/-- VFMA: one rounding. -/
def execVfma (p : Pred) (d a : Reg) (x0 x1 x2 x3 : Reg16) : State → Out :=
  mapBatch p d a x0 [x1, x2, x3] (floatChecks [x0, x1, x2, x3]) (vecArith (fun
    | [x, y, z] => x.fma y z
    | _ => .bad) fun _ => 0)
/-- VDIV. -/
def execVdiv (p : Pred) (d a : Reg) (x0 x1 x2 : Reg16) : State → Out :=
  mapBatch p d a x0 [x1, x2] (floatChecks [x0, x1, x2]) (vecArith (on2 .bad Num.div) fun _ => 0)

/-- FMIN or FMAX of two numbers (R88): an invalid outcome where both are NaNs, which encodes as the canonical NaN. -/
def Num.pick (isMin : Bool) (x y : Num) : Num :=
  match minMaxFirst isMin x y with
  | some true => x
  | some false => y
  | none => .bad

/-- VMIN. -/
def execVmin (p : Pred) (d a : Reg) (x0 x1 x2 : Reg16) : State → Out :=
  mapBatch p d a x0 [x1, x2] (arithChecks x0 [x1, x2]) (vecArith (on2 .bad (Num.pick true)) (on2 0 min))
/-- VMAX. -/
def execVmax (p : Pred) (d a : Reg) (x0 x1 x2 : Reg16) : State → Out :=
  mapBatch p d a x0 [x1, x2] (arithChecks x0 [x1, x2]) (vecArith (on2 .bad (Num.pick false)) (on2 0 max))
/-- VABS: the sign bit is cleared, a NaN's among them. -/
def execVabs (p : Pred) (d a : Reg) (x0 x1 : Reg16) : State → Out :=
  mapBatch p d a x0 [x1] (arithChecks x0 [x1]) (vecArith (on1 .bad (Num.setSign false)) (on1 0 fun x => (x.natAbs : Int)))
/-- VNEG: the sign bit is flipped, a NaN's among them. -/
def execVneg (p : Pred) (d a : Reg) (x0 x1 : Reg16) : State → Out :=
  mapBatch p d a x0 [x1] (arithChecks x0 [x1]) (vecArith (on1 .bad fun x => x.setSign (!x.sign)) (on1 0 fun x => -x))

/-- How two elements of one kind stand (R272, R89). -/
def elemCmp (f g : Fmt) (x y : Nat) : Option Ordering :=
  if f.isFloat then (Num.decode f x).cmp (Num.decode g y) else some (compare (intOf f x) (intOf g y))

/-- VCMP. -/
def execVcmp (p : Pred) (c : FCond) (d a : Reg) (x0 x1 x2 : Reg16) : State → Out :=
  mapBatch p d a x0 [x1, x2] (fun i => [(x0, Fmt.isVecInt), (x1, arithFmt), (x2, (i.c.handle x1).kindOf)]) fun _ row =>
    match row with
    | [(f, x), (g, y)] => b2n (fcondHolds c (elemCmp f g x y))
    | _ => 0

/-- VSEL. -/
def execVsel (p : Pred) (d a : Reg) (x0 x1 x2 x3 : Reg16) : State → Out :=
  mapBatch p d a x0 [x1, x2, x3]
    (fun i => [(x0, anyFmt), (x1, Fmt.isVecInt), (x2, (i.c.handle x0).is), (x3, (i.c.handle x0).is)]) fun _ row =>
    match row with
    | [(_, m), (_, x), (_, y)] => if m ≠ 0 then x else y
    | _ => 0

/-- VBCAST. -/
def execVbcast (p : Pred) (d a b : Reg) (x0 : Reg16) (s : State) : Out :=
  issue p 12 (batchUses d [a, b]) (fun i s =>
    i.batch a [(x0, anyFmt)] [x0] (i.put s d 0) fun lo hi =>
      let idx := span lo hi
      let v := (i.reg b).toNat % 2 ^ (i.fmt x0).width
      i.batchRead s [] [i.elems x0 idx] fun _ s =>
        i.put (i.batchWrite s (i.elems x0 idx) (idx.map fun _ => v)) d (BitVec.ofNat 64 idx.length)) s

/-- VPERM: X2 gives the index into X1, zero bits outside it; which elements of X1 are read is known once X2's granules are full
(R268). -/
def execVperm (p : Pred) (d a : Reg) (x0 x1 x2 : Reg16) (s : State) : Out :=
  issue p 12 (batchUses d [a]) (fun i s =>
    i.batch a [(x0, anyFmt), (x1, (i.c.handle x0).is), (x2, Fmt.isVecInt)] [x0, x2] (i.put s d 0) fun lo hi =>
      let idx := span lo hi
      let h1 := i.c.handle x1
      let js := idx.map fun n => intOf (i.fmt x2) (s.peek i.crew (i.c.handle x2) n)
      let inside (j : Int) : Bool := decide (0 ≤ j ∧ j < h1.len)
      let e1 : Elems := { h := h1, idx := (js.filter inside).map Int.toNat }
      match (i.elems x2 idx).outside i.c.decl.scratch, i.waitFull s [i.elems x2 idx] with
      | some va, _ => .sys codeProt va
      | none, some e => e
      | none, none =>
        i.batchRead s [e1, i.elems x2 idx] [i.elems x0 idx] fun _ s' =>
          let rs := js.map fun j => if inside j then s.peek i.crew h1 j.toNat else 0
          i.put (i.batchWrite s' (i.elems x0 idx) rs) d (BitVec.ofNat 64 idx.length)) s

/-! ### Reductions, scans, extraction -/

/-- A reduction of float terms (R275). -/
def redFloat (op : RedOp) : List Num → Num
  | [] =>
    match op with
    | .add | .amax => .zero false
    | .min => .inf false
    | .max => .inf true
  | x :: xs =>
    match op with
    | .add => Num.sum (x :: xs)
    | .min => xs.foldl (Num.pick true) x
    | .max => xs.foldl (Num.pick false) x
    | .amax => xs.foldl (fun m y => Num.pick false m (y.setSign false)) (x.setSign false)

/-- A reduction of integer terms of a format, as a 64-bit number. -/
def redInt (op : RedOp) (f : Fmt) : List Int → Int
  | [] =>
    match op with
    | .add | .amax => 0
    | .min => if f.isSigned then 2 ^ (f.width - 1) - 1 else 2 ^ f.width - 1
    | .max => if f.isSigned then -(2 ^ 63) else 0
  | x :: xs =>
    match op with
    | .add => (x :: xs).sum
    | .min => xs.foldl min x
    | .max => xs.foldl max x
    | .amax => xs.foldl (fun m y => max m (y.natAbs : Int)) (x.natAbs : Int)

/-- A 64-bit register as a term beside elements of a format. -/
def wordTerm (f : Fmt) (w : Word) : Int := if f.isSigned then w.toInt else w.toNat

/-- A reduction of raw elements, an earlier result going first, as the register it is written to. -/
def redWord (op : RedOp) (f : Fmt) (first : Option Word) (xs : List Nat) : Word :=
  if f.isFloat then
    BitVec.ofNat 64 ((redFloat op ((first.toList.map fun w => floatNum .f64 w.toNat) ++ xs.map (Num.decode f))).encode .f64)
  else toWord (redInt op f ((first.toList.map (wordTerm f)) ++ xs.map (intOf f)))

/-- VRED (R275). -/
def execVred (p : Pred) (op : RedOp) (acc : Bool) (d a : Reg) (x1 : Reg16) (s : State) : Out :=
  issue p 12 { batchUses d (if acc then [d, a] else [a]) with pend := true } (fun i s =>
    let first := if acc then some (i.reg d) else none
    i.batch a [(x1, arithFmt)] [x1]
      (if acc then .retire s else i.putLong s d (redWord op (i.fmt x1) none [])) fun lo hi =>
        i.batchRead (owed := some d) s [i.elems x1 (span lo hi)] [] fun vs s =>
          i.putLong s d (redWord op (i.fmt x1) first (vs.headD []))) s

/-- The reduction a scan's prefixes are. -/
def scanRed : ScanOp → RedOp
  | .add => .add | .min => .min | .max => .max

/-- VSCAN (R276): inclusive prefixes, the carry gB going first. -/
def execVscan (p : Pred) (op : ScanOp) (d a b : Reg) (x0 x1 : Reg16) (s : State) : Out :=
  issue p 12 { batchUses d [a, b] with pend := true } (fun i s =>
    i.batch a (arithChecks x0 [x1] i) [x0, x1] (i.putLong s d (i.reg b)) fun lo hi =>
      let idx := span lo hi
      let f := i.fmt x0
      i.batchRead (owed := some d) s [i.elems x1 idx] [i.elems x0 idx] fun vs s =>
        let raw := vs.headD []
        let prefixAt (n : Nat) : Num × Int :=
          if f.isFloat then
            (redFloat (scanRed op) (floatNum .f64 (i.reg b).toNat :: (raw.take n).map (Num.decode (i.fmt x1))), 0)
          else (.bad, redInt (scanRed op) f (wordTerm f (i.reg b) :: (raw.take n).map (intOf f)))
        let rs := (List.range idx.length).map fun n =>
          let r := prefixAt (n + 1)
          if f.isFloat then r.1.encode f else lowBits r.2 f.width
        let last := prefixAt idx.length
        i.putLong (i.batchWrite s (i.elems x0 idx) rs) d
          (if f.isFloat then BitVec.ofNat 64 (last.1.encode .f64) else toWord last.2)) s

/-- VEXTR (R277). -/
def execVextr (p : Pred) (d b : Reg) (x1 : Reg16) (s : State) : Out :=
  issue p 12 { batchUses d [b] with pend := true } (fun i s =>
    match badHandle i.c [(x1, anyFmt)] with
    | some e => e
    | none =>
      let n := (i.reg b).toNat
      if (i.c.handle x1).len ≤ n then .user codeRange 0 n
      else
        i.batchRead (owed := some d) s [i.elems x1 [n]] [] fun vs s =>
          let v := (vs.headD []).headD 0
          i.putLong s d (if (i.fmt x1).isSigned then sextWord v (i.fmt x1).width else BitVec.ofNat 64 v)) s

/-! ### Special functions (R278) -/

/-- A special function over a batch. -/
def special (fn : SpecialFn) (p : Pred) (d a : Reg) (x0 x1 : Reg16) : State → Out :=
  mapBatch p d a x0 [x1] (floatChecks [x0, x1]) fun f row =>
    match row with
    | [(g, x)] => specialResult fn f (Num.decode g x)
    | _ => 0
/-- VRCP. -/
def execVrcp (p : Pred) (d a : Reg) (x0 x1 : Reg16) : State → Out := special .rcp p d a x0 x1
/-- VRSQ. -/
def execVrsq (p : Pred) (d a : Reg) (x0 x1 : Reg16) : State → Out := special .rsq p d a x0 x1
/-- VEXP2. -/
def execVexp2 (p : Pred) (d a : Reg) (x0 x1 : Reg16) : State → Out := special .exp2 p d a x0 x1
/-- VLOG2. -/
def execVlog2 (p : Pred) (d a : Reg) (x0 x1 : Reg16) : State → Out := special .log2 p d a x0 x1
/-- VSIN. -/
def execVsin (p : Pred) (d a : Reg) (x0 x1 : Reg16) : State → Out := special .sin p d a x0 x1
/-- VCOS. -/
def execVcos (p : Pred) (d a : Reg) (x0 x1 : Reg16) : State → Out := special .cos p d a x0 x1

/-! ### Tables (R280 to R282) -/

/-- A table's words (R280). -/
structure Table where
  xlo   : Num
  scale : Num
  nseg  : Nat
  lo    : Nat
  hi    : Nat
  coef  : List Nat
deriving DecidableEq, Repr

/-- A finite number. -/
def Num.isFin : Num → Bool
  | .fin _ _ _ => true
  | _ => false

/-- The table the words of a handle hold, `len` being its LEN; none where it is invalid (R280). -/
def tableOf (len : Nat) (ws : List Nat) : Option Table :=
  match ws with
  | w0 :: w1 :: n :: fl :: coef =>
    let x := floatNum .f32 w0
    let sc := floatNum .f32 w1
    if x.isFin ∧ sc.isFin ∧ (Num.zero false).lt sc ∧ 1 ≤ n ∧ n ≤ 1024 ∧ fl % 4 < 2 ∧ fl / 4 < 2 ∧ 4 + 4 * n ≤ len then
      some { xlo := x, scale := sc, nseg := n, lo := fl % 4, hi := fl / 4, coef := coef }
    else none
  | _ => none

/-- Coefficient j of segment k. -/
def Table.c (t : Table) (k j : Nat) : Num := floatNum .f32 (t.coef.getD (4 * k + j) 0)

/-- Horner of R281: each fused step is rounded to F32. -/
def Table.horner (t : Table) (k : Nat) (x : Num) : Num :=
  let p := ((t.c k 3).fma x (t.c k 2)).roundF .f32
  let p := (p.fma x (t.c k 1)).roundF .f32
  (p.fma x (t.c k 0)).roundF .f32

/-- TblEval of R281, for a source of format `f`. -/
def Table.eval (t : Table) (f : Fmt) (x : Num) : Num :=
  let last := t.nseg - 1
  let holdHi := t.horner last (.ofInt 1)
  if x.isNaN then x
  else
    let xf := if f = .f64 then x.roundF .f32 else x
    match xf with
    | .inf true => t.c 0 0
    | .inf false => holdHi
    | xf =>
      let u := ((xf.sub t.xlo).mul t.scale).roundF .f32
      if u.lt (.zero false) then
        (if t.lo = 1 ∨ u = .inf true then t.c 0 0 else t.horner 0 u)
      else if (Num.ofInt t.nseg).le u then
        (if t.hi = 1 ∨ u = .inf false then holdHi
         else t.horner last ((u.sub (.ofInt last)).roundF .f32))
      else
        let k := match u with
          | .fin _ m e => if 0 ≤ e then m * 2 ^ e.toNat else m / 2 ^ (-e).toNat
          | _ => 0
        t.horner k (u.sub (.ofInt k))

/-- The words of a table handle that an instruction reads: all of a valid table, or its header. -/
def State.tableWords (s : State) (crew : Nat) (h : Handle) : List Nat :=
  let head := (List.range (min 4 h.len)).map (s.peek crew h)
  match tableOf h.len head with
  | some t => span 0 (4 + 4 * t.nseg)
  | none => span 0 (min 4 h.len)

/-- The extent of a table in the scratchpad: crew, first byte, past last byte. -/
def tableExtent (crew : Nat) (h : Handle) (n : Nat) : Nat × Nat × Nat :=
  (crew, (h.bytesOf 0).1, (h.bytesOf (n - 1)).2)

/-- A table has been used: it is the most recently used (R282). -/
def Tile.useTable (t : Tile) (x : Nat × Nat × Nat) : Tile :=
  { t with tables := (x :: t.tables.filter fun y => y ≠ x).take 4 }

/-- The elements of a table's header, from which its extent is known. -/
def Issue.tableHead (i : Issue) (x : Reg16) : Elems := i.elems x (List.range (min 4 (i.c.handle x).len))

/-- VTBL (R281, R282): a table that is cached adds no reads; the others wait for the table's granules, the header's first, before
the table is judged (R268). -/
def execVtbl (p : Pred) (d a : Reg) (x0 x1 x2 : Reg16) (s : State) : Out :=
  issue p 12 (batchUses d [a]) (fun i s =>
    i.batch a [(x0, Fmt.isFloat), (x1, Fmt.isFloat), (x2, fun f => f == .f32)] [x0, x1] (i.put s d 0) fun lo hi =>
      let idx := span lo hi
      let h := i.c.handle x2
      let ws := s.tableWords i.crew h
      let ext := tableExtent i.crew h ws.length
      let cached := (s.tile i.c.tile).tables.contains ext
      let head := if cached then [] else [i.tableHead x2]
      match head.findSome? fun e => e.outside i.c.decl.scratch, i.waitFull s (i.elems x1 idx :: head) with
      | some va, _ => .sys codeProt va
      | none, some e => e
      | none, none =>
        i.batchRead s (i.elems x1 idx :: if cached then [] else [i.elems x2 ws]) [i.elems x0 idx] fun vs s' =>
          match tableOf h.len (ws.map (s.peek i.crew h)) with
          | none => handleTrap x2 h
          | some t =>
            let s' := if cached then s'.modTile i.c.tile (·.useTable ext) else s'
            let rs := (vs.headD []).map fun raw => (t.eval (i.fmt x1) (Num.decode (i.fmt x1) raw)).encode (i.fmt x0)
            i.put (i.batchWrite s' (i.elems x0 idx) rs) d (BitVec.ofNat 64 idx.length)) s

/-- VTBLCFG (R282): NSEG of a valid table, which is cached; else 0. Its reads wait as VTBL's do. -/
def execVtblcfg (p : Pred) (d : Reg) (x0 : Reg16) (s : State) : Out :=
  issue p 12 { dst := [d], pend := true, seq := true } (fun i s =>
    let h := i.c.handle x0
    if !h.sound (fun f => f == .f32) then i.putLong s d 0
    else
      match (i.tableHead x0).outside i.c.decl.scratch, i.waitFull s [i.tableHead x0] with
      | some va, _ => .sys codeProt va
      | none, some e => e
      | none, none =>
        let ws := s.tableWords i.crew h
        i.batchRead (owed := some d) s [i.elems x0 ws] [] fun vs s =>
          match tableOf h.len (vs.headD []) with
          | some t =>
            i.putLong (s.modTile i.c.tile (·.useTable (tableExtent i.crew h ws.length))) d (BitVec.ofNat 64 t.nseg)
          | none => i.putLong s d 0) s

end Sys2Proof.Machine
end

