-- ==== Sys2Proof/Machine/Matrix.lean ====
section
/-! DEFINITION. Tile registers and shapes, the array queue with its locks and read holds, the matrix multiplies, and the moves
between accumulators and handles (R308 to R331, R418): major opcodes 0xA0 to 0xAC. -/

namespace Sys2Proof.Machine

/-! ### Tile registers (R308, R309) -/

/-- A shape word (Table 17.1): format code, rows in use, row bytes. -/
structure TileShape where
  fmt  : Nat
  rows : Nat
  bytes : Nat
deriving DecidableEq, Repr

def TileShape.ofBits (v : BitVec 64) : TileShape :=
  { fmt := field v.toNat 0 8, rows := field v.toNat 8 6 + 1, bytes := 8 * (field v.toNat 14 5 + 1) }

def TileShape.fmt? (x : TileShape) : Option Fmt := Fmt.ofCode x.fmt
/-- Element width; 8 where there is no format. -/
def TileShape.width (x : TileShape) : Nat := x.fmt?.elim 8 Fmt.width
/-- E: elements of a row (R309). -/
def TileShape.elems (x : TileShape) : Nat := x.bytes * 8 / x.width

/-- The word of a shape. -/
def TileShape.word (x : TileShape) : Nat := x.fmt + 2 ^ 8 * (x.rows - 1) + 2 ^ 14 * (x.bytes / 8 - 1)

def Crew.shape (c : Crew) (t : Reg) : TileShape := TileShape.ofBits c.shapes[t]

/-- Row r of a tile's bytes as a number, first byte lowest. -/
def rowNat (bs : Map Byte) (r : Nat) : Nat :=
  (bs.filter fun e => e.1 / tileRow == r).foldl (init := 0) fun n e => n + e.2.toNat * 2 ^ (8 * (e.1 % tileRow))

/-- The first `n` elements of width `w` of a row (R309). -/
def rowElems (row w n : Nat) : List Nat := (List.range n).map fun j => row / 2 ^ (j * w) % 2 ^ w

/-- The elements in use of a tile register, row by row. -/
def Crew.tileElems (c : Crew) (t : Reg) (x : TileShape) : List (List Nat) :=
  let bs := c.tileBytes t
  (List.range x.rows).map fun r => rowElems (rowNat bs r) x.width x.elems

/-- A tile register the crew declared (R310). -/
def Crew.hasTile (c : Crew) (t : Reg) : Bool := decide (t.val < c.decl.tiles)
/-- An accumulator the crew declared (R310). -/
def Crew.hasAcc (c : Crew) (a : Reg) : Bool := decide (a.val < c.decl.acc)

/-- HANDLE on a tile register (R310). -/
def tileTrap (t : Reg) (x : TileShape) : Effect := .user codeHandle (16 + t.val) 0 x.fmt

/-! ### ACFG (R311) -/

/-- KIND and PAIR (Table 17.2). -/
def acfgKind (v : Word) (a : Reg) : Bool := bitAt v.toNat a.val
def acfgPair (v : Word) (a : Reg) : Bool := bitAt v.toNat (8 + a.val / 2)

/-! ### Locks and read holds (R313, R314) -/

/-- Change the lock counts of accumulators; one that reaches zero lets its waiters go on. -/
def State.lockBy (s : State) (crew : Nat) (accs : List Reg) (f : Nat → Nat) : State :=
  accs.foldl (init := s) fun s (a : Reg) =>
    match s.crew? crew with
    | some c =>
      let n := f c.locks[a]
      let s := s.setCrew crew { c with locks := c.locks.set a n }
      if n = 0 then s.wakeKind crew 7 fun o => o == a.val else s
    | none => s

/-- Change the read holds of tile registers; one that reaches zero lets its waiters go on. -/
def State.holdBy (s : State) (crew : Nat) (ts : List Reg) (f : Nat → Nat) : State :=
  ts.foldl (init := s) fun s (t : Reg) =>
    match s.crew? crew with
    | some c =>
      let n := f c.holds[t]
      let s := s.setCrew crew { c with holds := c.holds.set t n }
      if n = 0 then s.wakeWhere fun x => x.st == .waiting && x.crewn.toNat == crew && x.await == .hold t else s
    | none => s

/-- A write to a tile register waits while it is held for reading (R314). -/
def Issue.afterHold (i : Issue) (t : Reg) (e : Effect) : Effect :=
  if i.c.holds[t] = 0 then e else .waits 0 0 (.hold t)

/-- An accumulator access waits with kind 7 while one it names is locked (R314). -/
def Issue.afterLocks (i : Issue) (accs : List Reg) (e : Effect) : Effect :=
  match accs.find? fun a => i.c.locks[a] ≠ 0 with
  | some a => .waits 7 a.val
  | none => e

/-! ### Shapes, moves and predicates -/

/-- The uses of a tile instruction: it is predicated by a tile predicate (R320). -/
def tileUses (src dst : List Reg) (mem : Bool := false) : Uses := { src := src, dst := dst, tile := true, seq := mem }

/-- Write the crew of the issuing line and retire. -/
def Issue.putCrew (i : Issue) (s : State) (f : Crew → Crew) : Effect := .retire (s.writeCrew i.crew f)

/-- TSET (R321). -/
def execTset (p : Pred) (d : Reg) (b : Src) (s : State) : Out :=
  issue p 8 (tileUses (srcRegs b) []) (fun i s =>
    let v : Nat := match b with
      | .imm x => x.toNat
      | .reg r => (i.reg r).toNat
    if !i.c.hasTile d then .user codeIllop
    else if v / 2 ^ 19 ≠ 0 then
      (match b with
       | .imm _ => .user codeIllop
       | .reg _ => .user codeRange 0 v)
    else if v % 256 ≠ 0 ∧ (Fmt.ofCode (v % 256)).isNone then .user codeHandle (16 + d.val) 0 (v % 256)
    else i.afterHold d (i.putCrew s fun c => { c with shapes := c.shapes.set d (BitVec.ofNat 64 v) })) s

/-- TGET (R321). -/
def execTget (p : Pred) (d a : Reg) (s : State) : Out :=
  issue p 8 (tileUses [] [d]) (fun i s =>
    if !i.c.hasTile a then .user codeIllop else i.put s d i.c.shapes[a]) s

/-- The accesses of TLD and TST, row by row, each checked at issue (R322, R123). -/
def Issue.rowAccesses (i : Issue) (st : Bool) (sc : Scope) (evp nb : Nat) :
    List (Nat × Nat) → State → Except Effect (List Access) × State
  | [], s => (.ok [], s)
  | (va, data) :: rest, s =>
    match i.access s (.row st) (if st then .write else .read) va 0 (8 * nb) 128 data sc evp with
    | (.error e, s) => (.error e, s)
    | (.ok a, s) =>
      match i.rowAccesses st sc evp nb rest s with
      | (.error e, s) => (.error e, s)
      | (.ok as, s) => (.ok (a :: as), s)

/-- What keeps the rows from starting: a bank of the weight store is being refreshed or written (R107, R211), or a store meets a
block the thread holds in a write-combining entry (R117). -/
def Issue.rowsBlocked (i : Issue) (s : State) (st : Bool) (as : List Access) : Option Effect :=
  let ps := as.flatMap (·.parts)
  match s.wsWait ps with
  | some b => some (.waits 11 b .bankWrite)
  | none =>
    if st && s.wcHolds i.k ps then some (.wait 0 0 .accesses fun s => s.drainBlocks i.k ps) else none

/-- TileMove of R322: the rows are on their way in order, and the thread waits with kind 0 until the instruction retires. `st`
says that the tile, read now, is stored. -/
def Issue.tileMove (i : Issue) (s : State) (st : Bool) (t a c : Reg) (sc : Scope) (evp : Nat) : Effect :=
  let x := i.c.shape t
  let bs := i.c.tileBytes t
  let rowData (n : Nat) : Nat := if st then rowNat bs n % 2 ^ (8 * x.bytes) else 0
  let align (r : Reg) (n : Nat) : Effect := .trap (accTrap codeAlign (vaOf (i.reg r)) (.row st) (8 * x.bytes) (rowData n))
  if !i.c.hasTile t then .user codeIllop
  else if x.fmt = 0 then tileTrap t x
  else if (i.reg a).toNat % 8 ≠ 0 then align a 0
  else if (i.reg c).toNat % 8 ≠ 0 then align c 0
  else
    let rows := (List.range x.rows).map fun n => (vaOf (i.reg a + i.reg c * BitVec.ofNat 64 n), rowData n)
    match i.rowAccesses st sc evp x.bytes rows s with
    | (.error e, _) => e
    | (.ok as, s) =>
      match i.rowsBlocked s st as with
      | some e => e
      | none =>
        .hold <| (i.holdPop s).modThread i.k fun y =>
          { y.toWait 0 0 .rows with
            unbound := y.unbound ++ as,
            finish := some { dest := none, len := 8, popped := i.popped, tile := if st then none else some t } }

/-- TLD (R322): the tile is written in one step once every row has landed and no read hold is left; a home fault leaves it
unchanged. -/
def execTld (p : Pred) (sc : Scope) (evp : Fin 8) (d a c : Reg) (s : State) : Out :=
  issue p 8 (tileUses [a, c] [] true) (fun i s => i.tileMove s false d a c sc evp.val) s

/-- TST (R322): the tile is read before the first store. -/
def execTst (p : Pred) (sc : Scope) (evp : Fin 8) (b a c : Reg) (s : State) : Out :=
  issue p 8 (tileUses [a, c] [] true) (fun i s => i.tileMove s true b a c sc evp.val) s

/-- TZERO (R323). -/
def execTzero (p : Pred) (d : Reg) (s : State) : Out :=
  issue p 8 (tileUses [] []) (fun i s =>
    if !i.c.hasTile d then .user codeIllop else i.afterHold d (i.putCrew s (·.zeroTile d))) s

/-- The bytes of one row of elements. -/
def packRow (w : Nat) (xs : List Nat) (nb : Nat) : List Byte :=
  natBytes nb (((List.range xs.length).zip xs).foldl (init := 0) fun n e => n + e.2 * 2 ^ (e.1 * w))

/-- Bytes that a row of a transpose needs (R323). -/
def TileShape.turnedBytes (x : TileShape) : Nat := ceilDiv (x.rows * x.width) 64 * 8

/-- The shape of a transpose: where its rows need more than the 256 bytes of a tile's row (more than 32 rows of 64-bit
elements) the spec gives the row bytes no value, and they are free (notes/assumptions/60.md). -/
def TileShape.turned (x : TileShape) (s : State) : TileShape × State :=
  if x.turnedBytes ≤ tileRow then ({ fmt := x.fmt, rows := x.elems, bytes := x.turnedBytes }, s)
  else
    let (w, s) := s.freeWord
    ({ fmt := x.fmt, rows := x.elems, bytes := 8 * (w.toNat % 32 + 1) }, s)

/-- TTRN (R323). -/
def execTtrn (p : Pred) (d a : Reg) (s : State) : Out :=
  issue p 8 (tileUses [] []) (fun i s =>
    let x := i.c.shape a
    if !(i.c.hasTile d && i.c.hasTile a) then .user codeIllop
    else if x.fmt?.isNone then tileTrap a x
    else if 64 < x.elems then .user codeRange 0 x.elems
    else
      let rows := i.c.tileElems a x
      let (y, s) := x.turned s
      i.afterHold d <| i.putCrew s fun c =>
        let c := { c.zeroTile d with shapes := c.shapes.set d (BitVec.ofNat 64 y.word) }
        (List.range x.elems).foldl (init := c) fun c j =>
          c.setTileBytes d (tileRow * j) (packRow x.width (rows.map fun r => r.getD j 0)
            (min x.turnedBytes tileRow))) s

/-- An element that TPRED counts as zero (R324). -/
def elemZero (f : Fmt) (raw : Nat) : Bool :=
  match f with
  | .k16 => raw % 8 == 0
  | .mf32 => raw % 2 ^ 31 == 0 && raw / 2 ^ 32 % 2 ^ 31 == 0
  | .mb16 => raw % 2 ^ 15 == 0 && raw / 2 ^ 16 % 2 ^ 15 == 0
  | f => !nonzero f raw

/-- TPRED (R324). -/
def execTpred (p : Pred) (z : Bool) (d a : Reg) (s : State) : Out :=
  issue p 8 (tileUses [] []) (fun i s =>
    let x := i.c.shape a
    if !i.c.hasTile a then .user codeIllop
    else
      match x.fmt? with
      | none => tileTrap a x
      | some f =>
        let nz := (i.c.tileElems a x).any fun r => r.any fun v => !elemZero f v
        i.putCrew s (·.setTilePred d (xor nz z))) s

/-- KOP (R324). -/
def execKop (p : Pred) (op : BoolOp) (d a b : Reg) (s : State) : Out :=
  issue p 8 (tileUses [] []) (fun i s =>
    i.putCrew s (·.setTilePred d (boolOp op (i.c.tilePred a) (i.c.tilePred b)))) s

/-! ### What an array operation is (R313, R325 to R329) -/

/-- Which multiply, with its qualifiers. -/
inductive MatKind where
  | dense
  | sparse (one tp tr : Bool)
  | moment
deriving DecidableEq, Repr

/-- The registers of an array operation. -/
structure MatOp where
  kind : MatKind
  z : Bool
  d : Reg
  a : Reg
  b : Reg
  c : Reg
deriving DecidableEq, Repr

/-- The array operation an instruction asks for. -/
def MatOp.of : Instr → Option MatOp
  | .tmma _ z d a b c => some { kind := .dense, z := z, d := d, a := a, b := b, c := c }
  | .tmms _ z one tp tr d a b c => some { kind := .sparse one tp tr, z := z, d := d, a := a, b := b, c := c }
  | .tmmm _ z d a b => some { kind := .moment, z := z, d := d, a := a, b := b, c := 0 }
  | _ => none

/-- It names a third tile: metadata, or the scales of a K16 operand. -/
def MatOp.usesC (o : MatOp) (fa : Nat) : Bool :=
  match o.kind with
  | .dense => fa == Fmt.k16.code
  | .sparse _ _ _ => true
  | .moment => false

/-- The accumulators it writes. -/
def MatOp.accs (o : MatOp) : List Reg := if o.kind = .moment then [o.d, nextReg o.d] else [o.d]

/-- The tile registers it reads. -/
def MatOp.reads (o : MatOp) (shapes : Vector (BitVec 64) 8) : List Reg :=
  ((if o.usesC (TileShape.ofBits shapes[o.a]).fmt then [o.a, o.b, o.c] else [o.a, o.b])).dedup

def isFp8 (f : Fmt) : Bool := f == .e4m3 || f == .e5m2 || f == .f6
def isI8 (f : Fmt) : Bool := f == .s8 || f == .z8
def isHalf (f : Fmt) : Bool := f == .bf16 || f == .f16

/-- Table 17.3: the K-group of a pair of formats, and whether its KIND is S64. -/
def matPair (k : MatKind) (a b : Fmt) : Option (Nat × Bool) :=
  match k with
  | .dense =>
    if a == .f64 && b == .f64 then some (1, false)
    else if a == .f32 && b == .f32 then some (4, false)
    else if isHalf a && isHalf b then some (16, false)
    else if isFp8 a && isFp8 b then some (32, false)
    else if isI8 a && isI8 b then some (32, true)
    else if a == .k16 && isFp8 b then some (32, false)
    else none
  | .sparse _ _ _ =>
    if isFp8 a && isFp8 b then some (32, false) else if isI8 a && isI8 b then some (32, true) else none
  | .moment => if a == .mb16 && b == .mb16 then some (16, false) else none

/-- Columns of the sparse matrix per kept element (R326). -/
def MatKind.spread : MatKind → Nat
  | .sparse one _ _ => if one then 4 else 2
  | _ => 1

/-- M and K (R325, R326). -/
def MatOp.dims (o : MatOp) (x : TileShape) : Nat × Nat :=
  match o.kind with
  | .sparse _ _ tr =>
    let c := o.kind.spread * x.elems
    if tr then (c, x.rows) else (x.rows, c)
  | _ => (x.rows, x.elems)

/-! ### Metadata (R326, R327) -/

/-- The mask of group g in a row of metadata. -/
def maskOf (row g : Nat) : Nat := field row (64 * (g / 16) + 4 * (g % 16)) 4

/-- A mask the pattern allows. -/
def maskLegal (one : Bool) (m : Nat) : Bool :=
  if one then [0x1, 0x2, 0x4, 0x8].contains m else [0x3, 0x5, 0x6, 0x9, 0xA, 0xC].contains m

/-- The scan of one block: SPMETA's INFO, ADDR and DETAIL at its first failure (Table 17.5). -/
def scanBlock (rows : List Nat) (one cols : Bool) (b g : Nat) : Option (Nat × Nat × Nat) :=
  let ms := (List.range 4).map fun r => maskOf (rows.getD (4 * b + r) 0) g
  match (List.range 4).find? fun r => !maskLegal one (ms.getD r 0) with
  | some r => some (4 * b + r, g, ms.getD r 0)
  | none =>
    let count (i : Nat) : Nat := (ms.filter fun m => bitAt m i).length
    match (List.range 4).find? fun i => cols && count i != (if one then 1 else 2) with
    | some i => some (4 * b, g, 16 + i + 2 ^ 8 * count i)
    | none => none

/-- The scan of R327 over P rows and C columns. -/
def scanMeta (rows : List Nat) (p c : Nat) (one cols : Bool) : Option (Nat × Nat × Nat) :=
  (List.range (p / 4)).findSome? fun b => (List.range (c / 4)).findSome? fun g => scanBlock rows one cols b g

/-- The rows of a metadata tile as numbers. -/
def Crew.metaRows (c : Crew) (t : Reg) (n : Nat) : List Nat :=
  let bs := c.tileBytes t
  (List.range n).map (rowNat bs)

/-! ### Checks at issue (R310, R325, R327, R328) -/

/-- The variances of a moment tile (R329): the first bad one, as row, column. -/
def badVariance (rows : List (List Nat)) : Option (Nat × Nat) :=
  ((List.range rows.length).zip rows).findSome? fun r =>
    (((List.range r.2.length).zip r.2).find? fun e => badVar (floatNum .bf16 (e.2 / 2 ^ 16))).map fun e => (r.1, e.1)

/-- NEGVAR's INFO for a moment multiply (R329). -/
def MatOp.negvar (o : MatOp) (c : Crew) : Option Nat :=
  let at_ (t : Reg) : Option Nat := (badVariance (c.tileElems t (c.shape t))).map fun e => 64 * e.1 + e.2 + 2 ^ 12 * t.val
  (at_ o.a).orElse fun _ => at_ o.b

/-- The checks of an array operation, in order: none where they all pass. `via` is the tile a CPYM writes (R315); without
`scan`, the checks that come before the scan of the metadata. -/
def MatOp.check (o : MatOp) (c : Crew) (via : Option Reg) (scan : Bool := true) : Option Effect :=
  let xa := c.shape o.a
  let xb := c.shape o.b
  let xc := c.shape o.c
  let useC := o.usesC xa.fmt
  let tiles := if useC then [o.a, o.b, o.c] else [o.a, o.b]
  if !(o.accs.all c.hasAcc && tiles.all c.hasTile) then some (.user codeIllop)
  else if useC && via == some o.c then some (.user codeIllop)
  else
    match tiles.find? fun t => (c.shape t).fmt?.isNone with
    | some t => some (tileTrap t (c.shape t))
    | none =>
      match xa.fmt?, xb.fmt? with
      | some fa, some fb =>
        let sparse := match o.kind with
          | .sparse _ _ _ => true
          | _ => false
        if sparse && xc.fmt != Fmt.z64.code then some (tileTrap o.c xc)
        else
          match matPair o.kind fa fb with
          | none => some (tileTrap o.b xb)
          | some (_, s64) =>
            let (m, k) := o.dims xa
            let wide := o.kind.spread * xa.elems
            let range (bad : Bool) (v : Nat) : Option Effect := if bad then some (.user codeRange 0 v) else none
            let acfgOk := if o.kind = .moment then
                o.d.val % 2 == 0 && acfgPair c.acfg o.d && !acfgKind c.acfg o.d && !acfgKind c.acfg (nextReg o.d)
              else acfgKind c.acfg o.d == s64 && !acfgPair c.acfg o.d
            let illop (bad : Bool) : Option Effect := if bad then some (.user codeIllop) else none
            let small (rows bytes : Nat) : Option Effect :=
              if xc.rows < rows ∨ xc.bytes < bytes then some (tileTrap o.c xc) else none
            match o.kind with
            | .dense =>
              (illop (!useC && o.c != 0)).orElse fun _ =>
              (range (xb.elems != k) xb.elems).orElse fun _ =>
              (illop (!acfgOk)).orElse fun _ =>
              if !useC then none
              else if xc.fmt != Fmt.z8.code then some (tileTrap o.c xc) else small m 16
            | .sparse one tp tr =>
              (range (xa.rows % 4 != 0) xa.rows).orElse fun _ =>
              (range (wide % 4 != 0) wide).orElse fun _ =>
              (range (xb.elems != k) xb.elems).orElse fun _ =>
              (range (tr && decide (64 < wide)) wide).orElse fun _ =>
              (small xa.rows (8 * ceilDiv wide 64)).orElse fun _ =>
              (illop (!acfgOk)).orElse fun _ =>
              (if scan then scanMeta (c.metaRows o.c xa.rows) xa.rows wide one (tp || tr) else none).map fun f =>
                .user codeSpmeta f.1 f.2.1 f.2.2
            | .moment =>
              (range (xb.elems != k) xb.elems).orElse fun _ => illop (!acfgOk)
      | _, _ => none

/-- An array operation is accepted (R313): it takes its place in the tile's queue, its locks and its read holds. -/
def State.acceptArray (s : State) (crew : Nat) (c : Crew) (o : MatOp) (instr : Instr) (follow : Option Nat) : Nat × State :=
  let (id, s) := s.stamp
  let op : ArrayOp :=
    { id := id, crew := crew, instr := instr, acfg := c.acfg, mctl := c.mctl, shapes := c.shapes, follow := follow,
      dispatched := follow.isNone, result := none }
  let s := s.modTile c.tile fun x => { x with arrayQ := x.arrayQ ++ [op] }
  (id, (s.lockBy crew o.accs (· + 1)).holdBy crew (o.reads c.shapes) (· + 1))

/-- The thread waits with kind 0 while the array reads its metadata or its sources, as the array has for it when it issues
again (R327, R329). -/
def MatOp.unread (o : MatOp) (t : Thread) : Bool := o.kind != .dense && t.await != .scanned t.pc.toNat

/-- The array has read what a waiting line's instruction checks: the line issues again. -/
def State.scanned (s : State) (k : Nat) : State :=
  s.modThread k fun t => if t.st = .waiting ∧ t.await = .scan then
    match t.wake with
    | w => if w.st = .ready then { w with await := .scanned w.pc.toNat } else t
  else t

/-- TMMA, TMMS and TMMM issued by a thread (R313). -/
def Issue.matrix (i : Issue) (s : State) (instr : Instr) : Effect :=
  match MatOp.of instr with
  | none => .user codeIllop
  | some o =>
    match (o.check i.c none false).orElse fun _ =>
        if o.unread i.t then some (.waits 0 0 .scan) else o.check i.c none with
    | some e => e
    | none =>
      let bad := if o.kind = .moment ∧ !nvpOf i.c.mctl then o.negvar i.c else none
      match bad with
      | some info => .user codeNegvar info
      | none =>
        if Config.arraySlots ≤ (s.tile i.c.tile).arrayQ.length then .waits 0 0 .arraySlot
        else .retire ((s.acceptArray i.crew i.c o instr none).2.modThread i.k fun t => { t with await := .nothing })

/-- TMMA (R325). -/
def execTmma (p : Pred) (z : Bool) (d a b c : Reg) (s : State) : Out :=
  issue p 8 (tileUses [] []) (fun i s => i.matrix s (.tmma p z d a b c)) s
/-- TMMS (R326, R327). -/
def execTmms (p : Pred) (z one tp tr : Bool) (d a b c : Reg) (s : State) : Out :=
  issue p 8 (tileUses [] []) (fun i s => i.matrix s (.tmms p z one tp tr d a b c)) s
/-- TMMM (R328, R329). -/
def execTmmm (p : Pred) (z : Bool) (d a b : Reg) (s : State) : Out :=
  issue p 8 (tileUses [] []) (fun i s => i.matrix s (.tmmm p z d a b)) s

/-! ### Sums (R317, R318, R328) -/

/-- The group term of R318. -/
def groupTerm (ps : List Num) : Num := if ps.any Num.notNum then .bad else Num.sum ps

/-- AddF64 of R317 on an entry's bits. -/
def addF64 (s : Nat) (t : Num) : Nat := ((floatNum .f64 s).add t).encode .f64

/-- The products of a row of A and a row of B; a column that a mask drops makes none. -/
def rowProducts (a : List (Option Num)) (b : List Num) : List Num :=
  (a.zip b).filterMap fun e => e.1.map fun x => x.mul e.2

/-- MatSum of R317 for an F64 entry: `s` is its starting value. -/
def sumF64 (g s : Nat) (a : List (Option Num)) (b : List Num) : Nat :=
  (chunks g (a.zip b)).foldl (init := s) fun s ps =>
    addF64 s (groupTerm (rowProducts (ps.map (·.1)) (ps.map (·.2))))

/-- MatSum of R317 for an S64 entry. -/
def sumS64 (s : Nat) (a : List (Option Int)) (b : List Int) : Nat :=
  let t := (a.zip b).foldl (init := (0 : Int)) fun t e => t + e.1.getD 0 * e.2
  (((s : Int) + t) % 2 ^ 64).toNat

/-- Rows of W from kept elements and masks (R326). -/
def expandRow {α : Type} (masks : List Nat) : List α → List (Option α)
  | kept =>
    (masks.foldl (init := (([] : List (Option α)), kept)) fun acc m =>
      (List.range 4).foldl (init := acc) fun acc i =>
        if bitAt m i then (acc.1 ++ [acc.2.head?], acc.2.drop 1) else (acc.1 ++ [none], acc.2)).1

/-- Columns become rows. -/
def transpose {α : Type} (n : Nat) (rows : List (List (Option α))) : List (List (Option α)) :=
  (List.range n).map fun j => rows.map fun r => (r[j]?).join

/-- The left operand of a dense or sparse multiply, in the values `val` gives. -/
def MatOp.left {α : Type} (o : MatOp) (c : Crew) (x : TileShape) (val : Nat → α) : List (List (Option α)) :=
  let rows := (c.tileElems o.a x).map fun r => r.map val
  match o.kind with
  | .sparse _ _ tr =>
    let wide := o.kind.spread * x.elems
    let ms := c.metaRows o.c x.rows
    let w := (rows.zip ms).map fun e => expandRow ((List.range (wide / 4)).map (maskOf e.2)) e.1
    if tr then transpose wide w else w
  | _ => rows.map fun r => r.map some

/-- A K16 left operand: K16(code) × c × S, with no rounding; +0 in a block with c = 0 (R325). -/
def MatOp.leftK16 (o : MatOp) (c : Crew) (x : TileShape) : List (List (Option Num)) :=
  let ss := c.metaRows o.c x.rows
  ((c.tileElems o.a x).zip ss).map fun e =>
    let sup := field e.2 64 32
    ((List.range e.1.length).zip e.1).map fun v => some (k16Value v.2 (field e.2 (8 * (v.1 / blockLen)) 8) sup)

/-- The entries of a dense or sparse operation. -/
def MatOp.entries (o : MatOp) (c : Crew) (shapes : Vector (BitVec 64) 8) : List (Nat × Word) :=
  let xa := TileShape.ofBits shapes[o.a]
  let xb := TileShape.ofBits shapes[o.b]
  match xa.fmt?, xb.fmt? with
  | some fa, some fb =>
    match matPair o.kind fa fb with
    | none => []
    | some (g, s64) =>
      let start (n : Nat) : Nat := if o.z then 0 else c.acc o.d n
      let each {α : Type} (l : List α) : List (Nat × α) := (List.range l.length).zip l
      let rb := c.tileElems o.b xb
      if s64 then
        let l := o.left c xa (intOf fa)
        let r := rb.map fun row => row.map (intOf fb)
        (each l).flatMap fun a => (each r).map fun b =>
          let n := 64 * a.1 + b.1
          (accKey o.d n, BitVec.ofNat 64 (sumS64 (start n) a.2 b.2))
      else
        let l := if fa = .k16 then o.leftK16 c xa else o.left c xa (Num.decode fa)
        let r := rb.map fun row => row.map (Num.decode fb)
        (each l).flatMap fun a => (each r).map fun b =>
          let n := 64 * a.1 + b.1
          (accKey o.d n, BitVec.ofNat 64 (sumF64 g (start n) a.2 b.2))
  | _, _ => []

/-! ### The moment multiply (R328, R329) -/

/-- A pair of an MB16 element after R295; with it MSTAT.NV. -/
def mb16Pair (raw : Nat) : Pair × Nat :=
  match sourcePair true (widenPair .mb16 raw) with
  | some (p, fl, _) => (p, fl)
  | none => ({ mean := .zero false, var := .zero false }, 0)

/-- A running pair of sums: entries' bits, and MSTAT bits. -/
structure PairSum where
  mean : Nat
  var  : Nat
  meanNaN : Bool   -- some mean term, or a sum of means, was a NaN
  varNaN : Bool
  flags : Nat
deriving DecidableEq, Repr

/-- Overflow of one addition: finite operands and an infinite sum. -/
def overflowed (s : Nat) (t : Num) (r : Nat) : Bool :=
  match floatNum .f64 s, t with
  | .fin _ _ _, .fin _ _ _ => (floatNum .f64 r).isInf
  | _, _ => false

/-- One K-group of TMMM. -/
def PairSum.group (x : PairSum) (ps : List (Pair × Pair)) : PairSum :=
  let mt := groupTerm (ps.map fun e => e.1.mean.mul e.2.mean)
  let vt := groupTerm (ps.flatMap fun e =>
    [(e.1.mean.mul e.1.mean).mul e.2.var, (e.2.mean.mul e.2.mean).mul e.1.var, e.1.var.mul e.2.var])
  let m := addF64 x.mean mt
  let v := addF64 x.var vt
  let fresh := !(floatNum .f64 x.mean).isNaN && (floatNum .f64 m).isNaN
  { mean := m, var := v, meanNaN := x.meanNaN || mt.notNum || fresh,
    varNaN := x.varNaN || vt.notNum,
    flags := x.flags ||| (if overflowed x.mean mt m || overflowed x.var vt v then mOF else 0) }

def posInf64 : Nat := 0x7FF0000000000000

/-- The entries of a pair of sums, and its MSTAT bits (R329). -/
def PairSum.finish (x : PairSum) : Nat × Nat × Nat :=
  if x.meanNaN then (Fmt.f64.canonNaN, posInf64, x.flags ||| mNAN)
  else if x.varNaN then (x.mean, posInf64, x.flags ||| mNAN)
  else (x.mean, x.var, x.flags)

/-- The entries of TMMM and its MSTAT bits. -/
def MatOp.momentEntries (o : MatOp) (c : Crew) (shapes : Vector (BitVec 64) 8) : List (Nat × Word) × Nat :=
  let pairsOf (t : Reg) : List (List (Pair × Nat)) :=
    (c.tileElems t (TileShape.ofBits shapes[t])).map fun r => r.map mb16Pair
  let l := pairsOf o.a
  let r := pairsOf o.b
  let nv (rows : List (List (Pair × Nat))) : Nat := rows.foldl (fun f row => row.foldl (fun f e => f ||| e.2) f) 0
  let dv := nextReg o.d
  ((List.range l.length).zip l).foldl (init := ([], nv l ||| nv r)) fun acc a =>
    ((List.range r.length).zip r).foldl (init := acc) fun acc b =>
      let n := 64 * a.1 + b.1
      let start : PairSum :=
        { mean := if o.z then 0 else c.acc o.d n, var := if o.z then 0 else c.acc dv n, meanNaN := false, varNaN := false, flags := 0 }
      let x := ((chunks 16 ((a.2.map (·.1)).zip (b.2.map (·.1)))).foldl (init := start) PairSum.group).finish
      (acc.1 ++ [(accKey o.d n, BitVec.ofNat 64 x.1), (accKey dv n, BitVec.ofNat 64 x.2.1)], acc.2 ||| x.2.2)

/-! ### The array (R313, R315) -/

/-- Change a carrier operation, whatever tile's carrier holds it. -/
def State.modCopy (s : State) (n : Nat) (f : CopyOp → CopyOp) : State :=
  { s with tiles := s.tiles.map fun (e : Nat × Tile) =>
    match Map.get? e.2.copies n with
    | some y => (e.1, { e.2 with copies := Map.put e.2.copies n (f y) })
    | none => e }

/-- The follow-on of a copy operation has completed, or failed with a code. -/
def State.followEnded (s : State) (op : ArrayOp) (code : Nat) : State :=
  match op.follow with
  | none => s
  | some n => s.modCopy n fun y => { y with follow := none, failed := if code = 0 then y.failed else some code }

/-- A place in a tile's array queue is free. -/
def State.wakeArray (s : State) (tile : Nat) : State :=
  s.wakeWhere fun t =>
    t.st == .waiting && t.await == .arraySlot && (s.crew? t.crewn.toNat).elim false fun c => c.tile == tile

/-- The operation at the head of a tile's array queue, if it may start. -/
def Tile.arrayReady (t : Tile) : Option ArrayOp :=
  t.arrayQ.head?.filter fun op => op.dispatched && op.result.isNone && !t.failed

/-- Take an operation out of the array queue. -/
def State.dropArray (s : State) (tile id : Nat) : State :=
  (s.modTile tile fun x => { x with arrayQ := x.arrayQ.filter fun o => o.id ≠ id }).wakeArray tile

/-- The array reads the operands of the operation at its head (R313): a follow-on whose variances fail has no effect. -/
def State.startArray (s : State) (tile : Nat) : State :=
  match (s.tile tile).arrayReady with
  | none => s
  | some op =>
    match MatOp.of op.instr, s.crew? op.crew with
    | some o, some c =>
      let s := s.holdBy op.crew (o.reads op.shapes) (· - 1)
      if o.kind = .moment ∧ !nvpOf op.mctl ∧ (o.negvar c).isSome then
        ((s.lockBy op.crew o.accs (· - 1)).dropArray tile op.id).followEnded op codeNegvar
      else
        let r : List (Nat × Word) × Nat :=
          if o.kind = .moment then o.momentEntries c op.shapes else (o.entries c op.shapes, 0)
        s.modTile tile fun x =>
          { x with arrayQ := x.arrayQ.map fun y =>
              if y.id = op.id then { y with result := some (r.1, BitVec.ofNat 64 r.2) } else y }
    | _, _ => s

/-- The array writes the last entry of its operation (R313). -/
def State.completeArray (s : State) (tile : Nat) : State :=
  match (s.tile tile).arrayQ.head?.filter fun _ => !(s.tile tile).failed with
  | none => s
  | some op =>
    match op.result, MatOp.of op.instr with
    | some (es, flags), some o =>
      let s := s.modCrew op.crew fun c => { c.setAccs o.accs es with mstat := c.mstat ||| flags }
      ((s.lockBy op.crew o.accs (· - 1)).dropArray tile op.id).followEnded op 0
    | _, _ => s

/-- ARRAY_OP_START (R313). -/
def execArrayOpStart (tile : Nat) (s : State) : Out := .next (s.startArray tile)
/-- ARRAY_OP_COMPLETE (R313, R319). -/
def execArrayOpComplete (tile : Nat) (s : State) : Out := .next (s.completeArray tile)

/-! ### Accumulators and handles (R330, R331) -/

/-- ACLR (R330). -/
def execAclr (p : Pred) (d : Reg) (s : State) : Out :=
  issue p 8 (tileUses [] []) (fun i s =>
    if !i.c.hasAcc d then .user codeIllop
    else i.afterLocks [d] (i.putCrew s (·.zeroAcc d))) s

/-- The accumulators ARD and AWR name: with .M an even one and its pair, PAIR set (R331). -/
def Issue.accsOf (i : Issue) (m : Bool) (a : Reg) : Option (List Reg) :=
  if !m then (if i.c.hasAcc a then some [a] else none)
  else if a.val % 2 = 0 ∧ i.c.hasAcc a ∧ i.c.hasAcc (nextReg a) ∧ acfgPair i.c.acfg a then some [a, nextReg a]
  else none

/-- The formats a handle of ARD and AWR may hold (R331). -/
def accFmt (m s64 : Bool) (f : Fmt) : Bool := if m then f.isPair else if s64 then f.isVecInt else f.isFloat

/-- The checks of ARD and AWR, up to the wait for locks; `body` takes the handle and the number of entries. -/
def Issue.accMove (i : Issue) (m : Bool) (a b : Reg) (x : Reg16) (body : Handle → List Reg → Nat → Effect) : Effect :=
  match i.accsOf m a with
  | none => .user codeIllop
  | some accs =>
    let h := i.c.handle x
    if !h.sound (accFmt m (acfgKind i.c.acfg a)) then handleTrap x h
    else
      let st := (i.reg b).toNat
      if 4095 < st then .user codeRange 0 st
      else
        let n := min h.len (4096 - st)
        match ({ h := h, idx := List.range n } : Elems).outside i.c.decl.scratch with
        | some va => .sys codeProt va
        | none => i.afterLocks accs (body h accs n)

/-- An entry as ARD reads it: of a pair, always binary64. -/
def accValue (s64 : Bool) (v : Nat) : Num := if s64 then Num.decode .s64 v else floatNum .f64 v

/-- The element of an ARD: its code, the bits of the first entry that overflows, and the sticky bits. -/
def accElem (f : Fmt) (rm : Rounding) (s64 : Bool) (vs : List Nat) : Nat × Option Nat × Nat :=
  let (part, _) := partsOf f
  let rs := vs.map fun v => (v, convert part rm (accValue s64 v))
  (((List.range rs.length).zip rs).foldl (fun n e => n + e.2.2.code * 2 ^ (e.1 * part.width)) 0,
   (rs.find? fun r => r.2.ov).map (·.1), rs.foldl (fun m r => m ||| r.2.sticky) 0)

/-- ARD (R330, R331): it reads its entries and stores them, and waits with kind 0 until the stores are done. -/
def execArd (p : Pred) (rm : Rounding) (ov m : Bool) (d a b : Reg) (x0 : Reg16) (s : State) : Out :=
  issue p 12 (tileUses [b] [d] true) (fun i s =>
    i.accMove m a b x0 fun h accs n =>
      let st := (i.reg b).toNat
      let s64 := !m && acfgKind i.c.acfg a
      let f := h.fmt?.getD .f64
      let rs := (List.range n).map fun j => accElem f rm s64 (accs.map fun r => i.c.acc r (st + j))
      match ((List.range n).zip rs).findSome? fun e => if ov then e.2.2.1.map fun v => (e.1, v) else none with
      | some (j, v) => .user codeRange j v
      | none =>
        let e : Elems := { h := h, idx := List.range n }
        i.batchRead s [] [e] fun _ s =>
          let s := i.sticky (i.batchWrite s e (rs.map (·.1))) (rs.foldl (fun m r => m ||| r.2.2) 0)
          let (slot, s) := i.reserve s d
          .hold <| s.modThread i.k fun t =>
            { t.toWait 0 0 .rows with finish := some { dest := some (d, BitVec.ofNat 64 n), len := 12, slot := slot } }) s

/-- An element widened to the entries AWR writes: one, or a pair's two. -/
def accWiden (f : Fmt) (raw : Nat) : List Nat :=
  match f with
  | .mf32 => [(floatNum .f32 (raw % 2 ^ 32)).encode .f64, (floatNum .f32 (raw / 2 ^ 32)).encode .f64]
  | .mb16 => [(floatNum .bf16 (raw % 2 ^ 16)).encode .f64, (floatNum .bf16 (raw / 2 ^ 16)).encode .f64]
  | f => if f.isFloat then [(floatNum f raw).encode .f64] else [lowBits (intOf f raw) 64]

/-- AWR (R330, R331): its elements are loaded; the entries are written in one step, which waits while an accumulator is locked. -/
def execAwr (p : Pred) (m : Bool) (d a b : Reg) (x1 : Reg16) (s : State) : Out :=
  issue p 12 (tileUses [b] [d] true) (fun i s =>
    i.accMove m a b x1 fun h accs n =>
      let st := (i.reg b).toNat
      let f := h.fmt?.getD .f64
      i.batchRead s [{ h := h, idx := List.range n }] [] (owed := some d) fun vs s =>
        let es := ((List.range n).zip (vs.headD [])).flatMap fun e =>
          (accs.zip (accWiden f e.2)).map fun r => (accKey r.1 (st + e.1), BitVec.ofNat 64 r.2)
        let (slot, s) := i.reserve s d
        .hold <| s.modThread i.k fun t =>
          { t.toWait 0 0 .rows with
            finish := some { dest := some (d, BitVec.ofNat 64 n), len := 12, slot := slot, accs := accs, entries := es } }) s

end Sys2Proof.Machine
end

