-- ==== Sys2Proof/Machine/Mangle.lean ====
section
/-! DEFINITION. The mangle (R332 to R334): major opcodes 0xAD to 0xAF, MGSPILL, and the mangle's own runs. -/

namespace Sys2Proof.Machine

/-! ### MGSPILL and the table -/

/-- BASE and CAP of MGSPILL (Table 17.6). -/
def spillBase (v : Word) : Nat := field v.toNat 4 16 * 16
def spillCap (v : Word) : Nat := field v.toNat 20 17

/-- A write of MGSPILL: CAP above 65,536 writes 65,536. -/
def mgspillWrite (v : Word) : Word :=
  BitVec.ofNat 64 (field v.toNat 4 16 * 2 ^ 4 + min (field v.toNat 20 17) 65536 * 2 ^ 20)

/-- Entries of one bank (R332). -/
def bankSize : Nat := 4096

/-- The bank of a coordinate (R332). -/
def bankOf (x : BitVec 32) : Fin 8 :=
  let n := x.toNat
  Fin.ofNat 8 ((n % 8) ^^^ (n / 8 % 8) ^^^ (n / 64 % 8) ^^^ (n / 512 % 8))

/-- The entries of a bank for an owner: none across owners (R205). -/
def Tile.mgBank (t : Tile) (owner : Nat) (b : Fin 8) : List (BitVec 32 × Word) := if t.mgTag[b] = owner then t.mgBanks[b] else []

/-- Entries in use. -/
def Tile.mgUsed (t : Tile) : Nat := (t.mgBanks.toList.map List.length).sum

/-- Empty the mangle. -/
def Tile.mgClear (t : Tile) : Tile :=
  { t with mgBanks := Vector.replicate 8 [], mgSpilln := 0, mgSpfull := false }

/-- A mangle operation of the crew has retired. -/
def Crew.mgRetired (c : Crew) (o : MgRun) : Bool := decide (o.num.toNat ≤ (c.timeline o.tl).done.toNat)

/-- The crew has a mangle operation that has not retired (R333). -/
def State.mangleBusy (s : State) (crew tile : Nat) : Bool :=
  ((s.tile tile).mangleQ.any fun o => o.crew == crew) || (s.crew? crew).elim false Crew.mangleOpen

/-! ### MGCFG and MGSTAT (R333) -/

/-- MGCFG and MGCFG.REL wait with kind 0 until the crew's mangle operations have retired. -/
def Issue.afterMangle (i : Issue) (s : State) (e : Effect) : Effect :=
  if s.mangleBusy i.crew i.c.tile then .waits 0 0 .mangle else e

/-- MGCFG (R333). -/
def execMgcfg (p : Pred) (d : Reg) (s : State) : Out :=
  issue p 8 (tileUses [] [d]) (fun i s =>
    i.afterMangle s <|
      match (s.tile i.c.tile).mgHolder with
      | some n =>
        if n = i.crew then i.put ((s.modTile i.c.tile (·.mgClear)).modCrew i.crew fun c => { c with mgOps := [] }) d 0
        else i.put s d 1
      | none => i.put ((s.modTile i.c.tile fun x =>
          { x.mgClear with mgHolder := some i.crew, mgTag := Vector.replicate 8 i.c.task.owner }).modCrew i.crew fun c =>
            { c with mgOps := [] }) d 0) s

/-- MGCFG.REL (R333). -/
def execMgcfgRel (p : Pred) (d : Reg) (s : State) : Out :=
  issue p 8 (tileUses [] [d]) (fun i s =>
    i.afterMangle s <|
      if (s.tile i.c.tile).mgHolder = some i.crew then
        i.put (s.modTile i.c.tile fun x => { x.mgClear with mgHolder := none }) d 0
      else i.put s d 1) s

/-- What the operations that have retired changed of a count: as it stood when the first began, and what each retired one added
or took, from its beginning to the next one's (to `now` for the last). -/
def mgCount (retired : MgRun → Bool) (count : MgRun → Nat) (runs : List MgRun) (now : Nat) : Nat :=
  let each := runs.zip ((runs.drop 1).map count ++ [now])
  let change := ((each.filter fun x => retired x.1).map fun x => (x.2 : Int) - (count x.1 : Int)).sum
  (((runs.head?.map count).getD now : Nat) + change).toNat

/-- The word of Table 17.7, counted over the operations that have retired. Operations of two timelines may retire in another
order than they ran in: each retired one counts what it changed itself. -/
def State.mgWord (s : State) (tile crew : Nat) : Nat :=
  let t := s.tile tile
  let holder := t.mgHolder.bind s.crew?
  let runs := holder.elim [] (·.mgOps)
  let retired (o : MgRun) : Bool := holder.elim true (·.mgRetired o)
  let used := mgCount retired (·.used) runs t.mgUsed
  let spill := mgCount retired (·.spill) runs t.mgSpilln
  let full := (runs.head?.map (·.full)).getD t.mgSpfull || runs.any fun o => o.found && retired o
  used + 2 ^ 16 * b2n (t.mgHolder == some crew) + 2 ^ 17 * b2n (t.mgHolder.isSome && t.mgHolder != some crew) +
    2 ^ 32 * spill + 2 ^ 49 * b2n full

/-- MGSTAT (R333). -/
def execMgstat (p : Pred) (d : Reg) (s : State) : Out :=
  issue p 8 (tileUses [] [d]) (fun i s => i.put s d (BitVec.ofNat 64 (s.mgWord i.c.tile i.crew))) s

/-! ### Acceptance (R334) -/

/-- An operation of the mangle is accepted as R253 gives. -/
def Issue.acceptMangle (i : Issue) (s : State) (d a b : Reg) (t : Tl) (instr : Instr) (xs : List Reg16) : Effect :=
  i.afterDrain s fun s =>
    let time := tmax (s.tile i.c.tile).mangleTime ((s.thread? i.k).elim i.t.pts (·.pts))
    let (n, s) := s.takeNumber i.crew t
    let op := { i.engineOp a b t instr xs n time with ctl := i.c.mgspill }
    i.put (s.modTile i.c.tile fun x => { x with mangleTime := time, mangleQ := x.mangleQ ++ [op] }) d n

/-- The checks of R334 on the two handles: formats, then that the first `n` elements from `lo` lie in both. -/
def Issue.mangleChecks (i : Issue) (x y : Reg16) (lo n : Nat) : Option Effect :=
  match badHandle i.c [(x, (· == .z32)), (y, (· == .f64))] with
  | some e => some e
  | none =>
    ([x, y].find? fun h => decide ((i.c.handle h).len < lo + n)).map fun h => handleTrap h (i.c.handle h)

/-- MGADD (R334). Its handles are both sources, so no destination handle can overlap one; a source may lie in the spill area
(R334's last paragraph). DEDUCED, log entry 88. -/
def execMgadd (p : Pred) (d a b : Reg) (t : Tl) (x1 x2 : Reg16) (s : State) : Out :=
  issue p 12 { engineUses d a b with tile := true } (fun i s =>
    let lo := (i.reg a).toNat
    let n := (i.reg b).toNat
    if (s.tile i.c.tile).mgHolder ≠ some i.crew then .user codeIllop
    else if 1048575 < n then .user codeRange 0 n
    else
      match i.mangleChecks x1 x2 lo n with
      | some e => e
      | none =>
        match ([x1, x2].findSome? fun x => ((i.c.handle x).range lo (lo + n)).outside i.c.decl.scratch) with
        | some va => .sys codeProt va
        | none => i.acceptMangle s d a b t (.mgadd p d a b t x1 x2) [x1, x2]) s

/-- MGDRAIN (R334): its start must lie in both destinations. Its source is the table, so no byte of a source handle can lie
under a destination. DEDUCED, log entry 88. -/
def execMgdrain (p : Pred) (d a : Reg) (t : Tl) (x0 x1 : Reg16) (s : State) : Out :=
  issue p 12 { src := [a], dst := [d], drains := true, tile := true } (fun i s =>
    let lo := (i.reg a).toNat
    if (s.tile i.c.tile).mgHolder ≠ some i.crew then .user codeIllop
    else
      match i.mangleChecks x0 x1 lo 0 with
      | some e => e
      | none => i.acceptMangle s d a a t (.mgdrain p d a t x0 x1) [x0, x1]) s

/-! ### Runs (R334) -/

/-- The outcome of one pair: go on, stop with a failure code, or wait at a fault. -/
inductive PairEnd where
  | next (t : LTime) (s : State)
  | stop (code : Nat) (t : LTime) (s : State)
  | held (code addr : Nat)

/-- Insert a pair into its bank, adding to an old value; none where the bank is full. The first write of another owner clears
the bank and takes its tag (R205). -/
def Tile.mgInsert (t : Tile) (owner : Nat) (x : BitVec 32) (v : Word) : Option Tile :=
  let b := bankOf x
  let es := t.mgBank owner b
  let put (es : List (BitVec 32 × Word)) : Tile := { t with mgBanks := t.mgBanks.set b es, mgTag := t.mgTag.set b owner }
  if es.any fun e => e.1 == x then
    some (put (es.map fun e => if e.1 = x then (x, BitVec.ofNat 64 (addF64 e.2.toNat (floatNum .f64 v.toNat))) else e))
  else if es.length < bankSize then some (put (es ++ [(x, v)]))
  else none

/-- One pair of MgAdd (R334). -/
def State.mgAddOne (s : State) (tile : Nat) (op : EngineOp) (n : Nat) (t : LTime) : PairEnd :=
  let h (j : Nat) : Handle := Handle.ofBits (op.handles.getD j 0)
  let i := op.a.toNat + n
  match ([0, 1].findSome? fun j => s.poisoned op.crew { h := h j, idx := [i] }) with
  | some va => .held codePoison va
  | none =>
    let (x, t, s) := s.elemLoad op.crew (h 0) i t
    let (v, t, s) := s.elemLoad op.crew (h 1) i t
    let y := s.tile tile
    let owner := s.crewOwner op.crew
    match y.mgInsert owner (BitVec.ofNat 32 x) (BitVec.ofNat 64 v) with
    | some y => .next t { s with tiles := Map.put s.tiles tile y }
    | none =>
      if y.mgSpilln < spillCap op.ctl then
        let off := spillBase op.ctl + 16 * y.mgSpilln
        if (s.crew? op.crew).elim 0 (·.decl.scratch) < off + 16 then .held codeProt (spadVa off)
        else if s.homeFault (.spad op.crew off) owner ≠ 0 then .held codePoison (spadVa off)
        else
          let (t, s) := s.storeAt {} (.spad op.crew off) 16 (x + 2 ^ 64 * v) (fullMask 16) owner t
          .next t ((s.fillGranule op.crew (off / 16) t).modTile tile fun z => { z with mgSpilln := z.mgSpilln + 1 })
      else .stop codeRange t (s.modTile tile fun z => { z with mgSpfull := true })

/-- The first entry in drain order: its bank, coordinate and value. -/
def Tile.mgFirst (t : Tile) (owner : Nat) : Option (Fin 8 × BitVec 32 × Word) :=
  (List.finRange 8).findSome? fun b => (t.mgBank owner b).head?.map fun e => (b, e)

/-- One entry of MgDrain (R334). -/
def State.mgDrainOne (s : State) (tile : Nat) (op : EngineOp) (n : Nat) (t : LTime) : Option PairEnd :=
  match (s.tile tile).mgFirst (s.crewOwner op.crew) with
  | none => none
  | some (b, x, v) =>
    let h (j : Nat) : Handle := Handle.ofBits (op.handles.getD j 0)
    let i := op.a.toNat + n
    if min (h 0).len (h 1).len ≤ i then some (.stop codeRange t s)
    else
      let es : List Elems := [{ h := h 0, idx := [i] }, { h := h 1, idx := [i] }]
      match es.findSome? fun e => e.outside ((s.crew? op.crew).elim 0 (·.decl.scratch)) with
      | some va => some (.held codeProt va)
      | none =>
        match es.findSome? fun e => s.poisoned op.crew e with
        | some va => some (.held codePoison va)
        | none =>
          let (t, s) := s.elemStore op.crew (h 0) i x.toNat t
          let (t, s) := s.elemStore op.crew (h 1) i v.toNat t
          some (.next t (s.modTile tile fun z => { z with mgBanks := z.mgBanks.set b (z.mgBanks[b].drop 1) }))

/-- Pairs of an operation from the n-th on, at most `fuel`. -/
def State.mgPairs (tile : Nat) (op : EngineOp) : (fuel n : Nat) → LTime → State → ConvEnd × Nat × LTime × State
  | 0, n, t, s => (.done 0, n, t, s)
  | fuel + 1, n, t, s =>
    let r : Option PairEnd := match op.instr with
      | .mgadd _ _ _ _ _ _ _ => some (s.mgAddOne tile op n t)
      | _ => s.mgDrainOne tile op n t
    match r with
    | none => (.done 0, n, t, s)
    | some (.next t s) => State.mgPairs tile op fuel (n + 1) t s
    | some (.stop c t s) => (.done c, n, t, s)
    | some (.held c va) => (.held c va, n, t, s)

/-- The operation is an MGADD. -/
def EngineOp.adds (op : EngineOp) : Bool := match op.instr with
  | .mgadd _ _ _ _ _ _ _ => true
  | _ => false

/-- Pairs an operation may still take. -/
def EngineOp.mgFuel (op : EngineOp) (t : Tile) : Nat :=
  match op.instr with
  | .mgadd _ _ _ _ _ _ _ => op.b.toNat - op.next
  | _ => t.mgUsed + 1

/-- MGDRAIN's elements written so far, and those still to write: a granule of both stays as it is (R253). -/
def State.mgFill (s : State) (op : EngineOp) (n : Nat) (t : LTime) (more : Bool) : State :=
  match op.instr with
  | .mgdrain _ _ _ _ _ _ =>
    let hs := op.handles.map Handle.ofBits
    let lo := op.a.toNat
    s.engineFill op.crew (hs.map fun h => h.range (lo + op.next) (lo + n))
      (if more then hs.map fun h => h.range (lo + n) (lo + n + 1) else []) t
  | _ => s

/-- The granules an MGDRAIN that a mender ends has written in part are full: nothing more is written (R253, R343). -/
def State.fillDrained (s : State) (op : EngineOp) : State :=
  match op.instr with
  | .mgdrain _ _ _ _ _ _ =>
    let hs := op.handles.map Handle.ofBits
    let lo := op.a.toNat
    let rest := (hs.map fun h => h.range (lo + op.next) (lo + op.next + 1)).flatMap Elems.granules
    let done := ((hs.map fun h => h.range lo (lo + op.next)).flatMap Elems.granules).dedup
    (done.filter rest.contains).foldl (init := s) fun s g => s.fillGranule op.crew g op.time
  | _ => s

/-- A mangle operation begins: the counts MGSTAT gives until it has retired are noted (R333). -/
def Crew.mgBegin (c : Crew) (op : EngineOp) (t : Tile) : Crew :=
  if c.mgOps.any fun o => o.tl == op.tl && o.num == op.num then c
  else
    let run : MgRun :=
      { tl := op.tl, num := op.num, used := t.mgUsed, spill := t.mgSpilln, full := t.mgSpfull, found := false }
    { c with mgOps := c.mgOps.dropWhile c.mgRetired ++ [run] }

/-- The operation that ran last found the spill area full (R334). -/
def Crew.mgFull (c : Crew) (op : EngineOp) : Crew :=
  let mark (o : MgRun) : MgRun := if o.tl = op.tl ∧ o.num = op.num then { o with found := true } else o
  { c with mgOps := c.mgOps.map mark }

/-- The operation at the head of a tile's mangle runs to its end, or to the fault that holds it. -/
def State.runMangle (s : State) (tile : Nat) : State :=
  match (s.tile tile).mangleQ with
  | [] => s
  | op :: ops =>
    if op.held.isSome then s
    else
      let x := s.tile tile
      let s := s.modCrew op.crew fun c => c.mgBegin op x
      let (e, n, t, s) := State.mgPairs tile op (op.mgFuel x) op.next (tmax x.mangleTime op.time) s
      match e with
      | .held c va =>
        (s.mgFill op n t true).modTile tile fun z =>
          { z with mangleTime := t, mangleQ := { op with next := n, held := some (c, va), told := false } :: ops }
      | .done c =>
        let s := if (s.tile tile).mgSpfull && c == codeRange && op.adds then s.modCrew op.crew (·.mgFull op) else s
        ((s.mgFill op n t false).modTile tile fun z =>
          { z with mangleTime := t, mangleQ := ops }).opEnded op.crew op.tl op.num c t

/-- MANGLE_OP_RUN (R334). -/
def execMangleOpRun (tile : Nat) (s : State) : Out := .next (s.runMangle tile)

/-- A W1C write of MSTAT (R6, R292). -/
def execMstatW1cWrite (crew : Nat) (v : Word) (s : State) : Out :=
  .next (s.modCrew crew fun c => { c with mstat := c.mstat &&& ~~~(v &&& 7) })

end Sys2Proof.Machine
end

