-- ==== Sys2Proof/Machine/Copy.lean ====
section
/-! DEFINITION. The carrier: copies, gathers and scatters, and windows (R335 to R357): major opcodes 0xB0 to 0xB3 and 0xB5, and
the carrier's own steps. -/

namespace Sys2Proof.Machine

/-! ### Ranges and segments (R340, R350) -/

/-- The region of Table 1.7 an address lies in, global memory being one. -/
def regionOf (va : Nat) : Nat := max (va / 2 ^ 52) 7

/-- A range of a copy lies within one region, which its end may use (R350 step 3). -/
def rangeCheck (lo : Int) (n : Nat) (dst : Bool) : Option Effect :=
  let hi := lo + max n 1 - 1
  let start := lowBits lo 64
  if lo < 0 ∨ 2 ^ 56 ≤ hi ∨ regionOf lo.toNat ≠ regionOf hi.toNat then some (.user codeRange 0 start)
  else
    let r := regionOf lo.toNat
    if 0xB ≤ r then some (.sys codeXlate start)
    else if r = 0xA ∨ (dst ∧ r = 0x8) then some (.sys codeProt start)
    else none

/-- The extent of rows: the lowest address and the length. -/
def rowsExtent (base : Nat) (rows rb : Nat) (pitch : Int) : Int × Nat :=
  if rows = 0 ∨ rb = 0 then (base, 0)
  else
    let sp := ((rows : Int) - 1) * pitch
    ((base : Int) + min 0 sp, rb + sp.natAbs)

/-- The first address past the page, or the 1 MiB of a scratchpad, that holds `va`; the weight store has neither (R340). -/
def State.segmentEnd (s : State) (a : Agent) (va : Nat) : Nat × State :=
  if va / 2 ^ 52 ≤ 7 then
    match s.translate a.tile a.root va with
    | (some e, s) => (e.va + e.size, s)
    | (none, s) => ((va / 65536 + 1) * 65536, s)
  else if va / 2 ^ 52 = 8 then (9 * 2 ^ 52, s)
  else ((va / 2 ^ 20 + 1) * 2 ^ 20, s)

/-- Address of a row of an operation's end. -/
def rowVa (base r : Nat) (pitch : Int) : Nat := lowBits ((base : Int) + r * pitch) 56

/-- Bytes of an operation. -/
def CopyOp.total (op : CopyOp) : Nat :=
  match op.kind with
  | .gather z | .scatter z => op.count * z
  | _ => op.rows * op.rowBytes

/-- The tile register an operation writes. -/
def CopyOp.tileReg (op : CopyOp) : Option Reg :=
  match op.kind with
  | .tile t => some t
  | _ => none

/-- The segment of a copy that starts at an offset: source, destination, length (R340). -/
def State.segmentAt (s : State) (a : Agent) (op : CopyOp) (off : Nat) : Nat × Nat × Nat × State :=
  let r := off / op.rowBytes
  let b := off % op.rowBytes
  let src := lowBits ((rowVa op.src r op.spitch : Int) + b) 56
  let (e, s) := s.segmentEnd a src
  let n := min (op.rowBytes - b) (e - src)
  match op.kind with
  | .linear =>
    let dst := lowBits ((rowVa op.dst r op.dpitch : Int) + b) 56
    let (e, s) := s.segmentEnd a dst
    (src, dst, min n (e - dst), s)
  | _ => (src, 0, n, s)

/-! ### Binding pieces of a segment -/

/-- Why a segment does not bind. -/
inductive SegStop where
  | wait (lines : List Nat)
  | refused
  | order (code addr : Nat)   -- found in order of offset: holds every later segment (R341)
  | home (code addr : Nat)    -- found at a home: holds this one only
deriving DecidableEq, Repr

/-- The home faults of a range, piece by piece: code and offset. -/
def State.rangeFault (s : State) (p : Part) : Option (Nat × Nat) :=
  (pieces 128 p.target.pos (p.bytes / 128 + 2) p.bytes).findSome? fun x =>
    let f := s.homeFault (p.target.plus x.1) p.attr.owner
    if f ≠ 0 then some (f, x.1) else none

/-- The checks of one end of a segment that are made in order of offset: translation and rights, the windows of another crew,
and MEMGONE (R341, R345). A destination's rights are those of a write. -/
def State.segmentRights (s : State) (a : Agent) (va n : Nat) (write : Bool) : Except SegStop Part × State :=
  match s.resolve a va n (if write then .write else .read) with
  | (.error (.sys c), s) => (.error (.order c va), s)
  | (.error (.user _), s) => (.error .refused, s)
  | (.ok p, s) =>
    match s.remoteCheck a.crew p (!write) write with
    | .error (.busy _ ls) => (.error (.wait ls), s)
    | .error _ => (.error .refused, s)
    | .ok _ =>
      let gone : Bool := match p.target with
        | .phys pa => s.memGone pa || s.memGone (pa + n - 1)
        | _ => false
      (if gone then .error (.order codeMemgone va) else .ok p, s)

/-- What the home of one end of a segment answers: a fault, a wait for a line or a bank, or nothing (R107, R341). -/
def State.segmentHome (s : State) (va : Nat) (p : Part) : Option SegStop :=
  match s.rangeFault p with
  | some (f, o) => some (.home f (va + o))
  | none =>
    let ls := (List.range (p.bytes / 128 + 2)).filterMap fun j => match p.target with
      | .phys pa => if pa / 128 + j ≤ (pa + p.bytes - 1) / 128 then some (pa / 128 + j) else none
      | _ => none
    if ls.any fun l => s.homeBusy (.phys (l * 128)) then some (.wait ls)
    else if (s.wsWait [p]).isSome then some (.wait [])
    else none

/-- One end of a segment, tested whole. -/
def State.segmentPart (s : State) (a : Agent) (va n : Nat) (write : Bool) : Except SegStop Part × State :=
  match s.segmentRights a va n write with
  | (.error e, s) => (.error e, s)
  | (.ok p, s) => ((s.segmentHome va p).elim (.ok p) .error, s)

/-- Count an engine transfer: one read per line and its bytes, each under the metering of its own span (R211, R214). -/
def State.meterEngine (s : State) (p : Part) : State :=
  (pieces 128 p.target.pos (p.bytes / 128 + 2) p.bytes).foldl (init := s) fun s x =>
    let at_ := match p.target with
      | .ws off => s.wsAttr p.attr.owner (off + x.1)
      | _ => p.attr
    s.meterIf at_ 1 x.2

/-- Granules of a scratchpad range. -/
def granulesIn (off n : Nat) : List Nat := (List.range ((off + n + 15) / 16 - off / 16)).map (off / 16 + ·)

/-- Subtract bytes from the barrier an operation names, as they bind (R142, R338): each byte is one event, so the end is tested
where PENDING reaches 0, within the bytes or after them (R138). -/
def State.subtractBytes (s : State) (op : CopyOp) (n : Nat) (t : LTime) : State :=
  match op.bar with
  | some b =>
    let take (m : Nat) (s : State) : State :=
      s.modBarrier op.crew b fun x => { x with pending := x.pending - BitVec.ofNat 48 m, nt := tmax x.nt t }
    let p := (s.crew? op.crew).elim 0 fun c => (c.barrier b).pending.toNat
    if 0 < p ∧ p < n then take (n - p) (take p s) else if n = 0 then s else take n s
  | none => s

/-- The parts of [lo, hi) outside some holes, which stand in ascending order. -/
def gaps : (lo hi : Nat) → List HeldSeg → List (Nat × Nat)
  | lo, hi, [] => if lo < hi then [(lo, hi - lo)] else []
  | lo, hi, h :: hs => (if lo < h.off then [(lo, h.off - lo)] else []) ++ gaps (max lo (h.off + h.len)) hi hs

/-- Where the bytes [o, o + n) of an operation go: addresses and lengths, row by row. -/
def CopyOp.runs (op : CopyOp) (o n : Nat) : List (Nat × Nat) :=
  (List.range op.rows).filterMap fun r =>
    let a := max o (r * op.rowBytes)
    let b := min (o + n) ((r + 1) * op.rowBytes)
    if a < b then some (rowVa op.dst r op.dpitch + (a - r * op.rowBytes), b - a) else none

/-- Some of these bytes of an operation go to [lo, hi). -/
def CopyOp.meets (op : CopyOp) (parts : List (Nat × Nat)) (lo hi : Nat) : Bool :=
  parts.any fun x => (op.runs x.1 x.2).any fun y => decide (y.1 < hi ∧ lo < y.1 + y.2)

/-- The segments of an operation that are held, the blocked one among them, in order of offset. -/
def CopyOp.stopped (op : CopyOp) : List HeldSeg :=
  op.blocked.elim op.held fun b => op.held.filter (fun x => decide (x.off < b.off)) ++ b :: op.held.filter fun x => decide (b.off < x.off)

/-- The parts of an operation that are held, and those past its cursor. -/
def CopyOp.heldParts (op : CopyOp) : List (Nat × Nat) := op.stopped.map fun h => (h.off, h.len)
def CopyOp.restParts (op : CopyOp) : List (Nat × Nat) := [(op.cursor, op.total - op.cursor)]

/-- An operation still has bytes to write in [lo, hi) of its destination: what it holds, and, unless it has been refused, the
bytes past its cursor (R348). -/
def CopyOp.stillWrites (op : CopyOp) (lo hi : Nat) : Bool :=
  op.meets (op.heldParts ++ if op.failed.isSome then [] else op.restParts) lo hi

/-- Set the granules of a bound piece full, but those the operation still writes (R337). -/
def State.fillCopied (s : State) (op : CopyOp) (va : Nat) (p : Part) (t : LTime) : State :=
  match p.target with
  | .spad c off =>
    let base := va - off % 16
    (granulesIn off p.bytes).foldl (init := s) fun s g =>
      let lo := base + 16 * (g - off / 16)
      if op.stillWrites lo (lo + 16) then s else s.fillGranule c g t
  | _ => s

/-- Bytes that a copy would have written will not come: of the granules it has written in part, those that `lost` bytes were to
complete and that it writes no more are full (R337, R343, R348). -/
def State.fillCut (s : State) (op : CopyOp) (lost more : List (Nat × Nat)) : State :=
  match op.kind with
  | .linear =>
    if op.dst / 2 ^ 52 ≠ 9 then s
    else
      ((gaps 0 op.cursor op.stopped).flatMap fun x => op.runs x.1 x.2).foldl (init := s) fun s x =>
        (granulesIn (x.1 % 2 ^ 20) x.2).foldl (init := s) fun s g =>
          let lo := x.1 / 2 ^ 20 * 2 ^ 20 + 16 * g
          if op.meets lost lo (lo + 16) && !op.meets more lo (lo + 16) then s.fillGranule (spadCrew op.crew x.1) g op.time else s
  | _ => s

/-- Read a range piece by piece at a logical time: the bytes, the time after each piece with its length, the state (R336). -/
def State.readPieces (s : State) (a : Agent) (p : Part) (t : LTime) : List Byte × List (Nat × LTime) × State :=
  (pieces 128 p.target.pos (p.bytes / 128 + 2) p.bytes).foldl (init := ([], [], s)) fun acc x =>
    let now := (acc.2.1.getLast?).elim t (·.2)
    let r := acc.2.2.loadAt a.tile (p.target.plus x.1) x.2 p.attr 3 now
    (acc.1 ++ r.1, acc.2.1 ++ [(x.2, r.2.1)], r.2.2)

/-- Write a range piece by piece at a logical time: the time after each piece with its length, the state (R336). -/
def State.writePieces (s : State) (a : Agent) (p : Part) (bs : List Byte) (t : LTime) : List (Nat × LTime) × State :=
  (pieces 128 p.target.pos (p.bytes / 128 + 2) p.bytes).foldl (init := ([], s)) fun acc x =>
    let now := (acc.1.getLast?).elim t (·.2)
    let r := acc.2.storeAt (a.via .device 3) (p.target.plus x.1) x.2 (leNat (slice bs x.1 x.2)) (fullMask x.2) p.attr.owner now
    (acc.1 ++ [(x.2, r.1)], r.2)

/-- The bytes of a segment bind: read, written, counted, and each piece subtracted as it binds. `op` has moved past them. -/
def State.bindSegment (s : State) (a : Agent) (op : CopyOp) (src : Part) (dst : Option (Nat × Part)) (off : Nat) :
    CopyOp × State :=
  let s := s.meterEngine src
  let (bs, reads, s) := s.readPieces a src op.time
  let t := (reads.getLast?).elim op.time (·.2)
  let (ends, s) := match dst with
    | some (va, d) =>
      let (ends, s) := s.writePieces a d bs t
      (ends, s.fillCopied op va d ((ends.getLast?).elim t (·.2)))
    | none => (reads, s)
  let landed := match op.kind with
    | .tile _ => ((List.range bs.length).zip bs).foldl (init := op.landed) fun m e =>
        let o := off + e.1
        Map.set m (tileRow * (o / op.rowBytes) + o % op.rowBytes) 0 e.2
    | _ => op.landed
  ({ op with time := (ends.getLast?).elim t (·.2), landed := landed, bound := op.bound + src.bytes },
   ends.foldl (init := s) fun s x => s.subtractBytes op x.1 x.2)

/-- Store a carrier operation back; the carrier's time is the largest of its operations' (R336). -/
def State.putCopy (s : State) (tile n : Nat) (op : CopyOp) : State :=
  (s.modTile tile fun x => { x with copies := Map.put x.copies n op, copyTime := tmax x.copyTime op.time }).late op.crew 0

/-- A segment at an offset is tried: it binds, or stops. The rights of both its ends come before what their homes answer
(R341). -/
def State.trySegment (s : State) (a : Agent) (op : CopyOp) (off len : Nat) : Except SegStop (CopyOp × State) × State :=
  let (src, dst, n, s1) := s.segmentAt a op off
  let n := min n len
  let after (op : CopyOp) : CopyOp := if off = op.cursor then { op with cursor := off + n } else op
  match s1.segmentRights a src n false with
  | (.error e, s1) => (.error e, s1)
  | (.ok p, s1) =>
    match op.kind with
    | .linear =>
      match s1.segmentRights a dst n true with
      | (.error e, s1) => (.error e, s1)
      | (.ok d, s1) =>
        match (s1.segmentHome src p).orElse fun _ => s1.segmentHome dst d with
        | some e => (.error e, s1)
        | none => (.ok (s1.bindSegment a (after op) p (some (dst, d)) off), s1)
    | _ =>
      match s1.segmentHome src p with
      | some e => (.error e, s1)
      | none => (.ok (s1.bindSegment a (after op) p none off), s1)

/-- The next segment of a copy: a resumed one first, in order of offset and not past the one that blocks it, then the one at the
cursor (R341, R343). -/
def CopyOp.nextSegment (op : CopyOp) : Option (Nat × Nat × Option HeldSeg) :=
  match op.held.find? fun h => h.again && h.told && op.blocked.elim true fun b => decide (h.off < b.off) with
  | some h => some (h.off, h.len, some h)
  | none =>
    if op.blocked.isSome ∨ op.failed.isSome ∨ op.total ≤ op.cursor then none
    else some (op.cursor, op.total - op.cursor, none)

/-- Put held segments among the others, in order of offset. -/
def holdSegs (new held : List HeldSeg) : List HeldSeg :=
  new.foldl (init := held) fun hs h => (hs.filter fun x => decide (x.off < h.off)) ++ h :: hs.filter fun x => decide (h.off < x.off)

/-- A copy's next segment binds, or is held or refused (R336 to R348). A segment of a refused copy that its home holds is tried
again once its record has been sent, since no CPST acts on the copy (R348; notes/assumptions/77.md). -/
def State.copyStep (s : State) (tile n : Nat) (op : CopyOp) (c : Crew) : State :=
  match op.nextSegment with
  | none => s
  | some (off, len, seg) =>
    let a := c.agent op.crew
    let without : CopyOp := match seg with
      | some h => { op with held := op.held.erase h }
      | none => op
    match s.trySegment a without off len with
    | (.ok (op', s'), _) =>
      let done := op'.bound - op.bound
      let op' := match seg with
        | some h =>
          if done < h.len then { op' with held := holdSegs [{ h with off := off + done, len := h.len - done }] op'.held } else op'
        | none => op'
      (s'.putCopy tile n op').late op.crew done
    | (.error (.wait ls), s) => s.snoop ls
    | (.error .refused, s) =>
      let kept := (without.held.filter fun h => decide (h.off < off)).map fun h => { h with again := true }
      let lost := without.restParts ++ (off, len) :: (without.held.filter fun h => decide (off < h.off)).map fun h => (h.off, h.len)
      let op' := { without with failed := some codeRemref, blocked := none, held := kept }
      (s.fillCut { op' with held := holdSegs seg.toList without.held } lost op'.heldParts).putCopy tile n op'
    | (.error (.order code addr), s) =>
      let seg : HeldSeg := { off := off, len := len, code := code, addr := addr, told := false, again := false }
      s.putCopy tile n { without with blocked := some seg }
    | (.error (.home code addr), s1) =>
      let (_, _, m, s) := s1.segmentAt a op off
      let m := min m len
      let h : HeldSeg :=
        { off := off, len := m, code := code, addr := addr, told := op.failed.isSome && seg.isSome, again := op.failed.isSome }
      let rest := match seg with
        | some x => if m < x.len then [{ x with off := off + m, len := x.len - m }] else []
        | none => []
      let op := { without with
        held := holdSegs (h :: rest) without.held, cursor := if off = op.cursor then off + m else op.cursor }
      s.putCopy tile n op

/-! ### Gathers and scatters (R352 to R354) -/

/-- The index entry to read next: one that a home held and a mender has resumed, or the one after the last (R341, R352). -/
def CopyOp.nextEntry (op : CopyOp) (z : Nat) : Option Nat :=
  (op.unread.find? fun i => op.held.any fun h => h.again && h.off == i * z).orElse fun _ =>
    if op.blocked.isSome ∨ op.failed.isSome ∨ op.count ≤ op.entries.length then none else some op.entries.length

/-- Take the next index entry, a sequential load of the operation (R352). An entry whose home faults holds its own element alone
(R341; notes/assumptions/91.md). -/
def State.takeEntry (s : State) (tile n : Nat) (op : CopyOp) (c : Crew) (list z : Nat) : State :=
  match op.nextEntry z with
  | none => s
  | some i =>
    let a := c.agent op.crew
    let seg (code addr : Nat) : HeldSeg := { off := i * z, len := z, code := code, addr := addr, told := false, again := false }
    let rest := op.held.filter fun h => h.off ≠ i * z
    match s.segmentPart a (list + 8 * i) 8 false with
    | (.ok p, s) =>
      let (bs, t, s) := s.loadRange a.tile p.target 8 128 p.attr 3 op.time
      s.putCopy tile n { op with entries := op.entries.take i ++ leNat bs :: op.entries.drop (i + 1), time := t,
                                 unread := op.unread.erase i, held := rest }
    | (.error (.order code addr), s) => s.putCopy tile n { op with blocked := some (seg code addr) }
    | (.error (.home code addr), s) =>
      s.putCopy tile n { op with entries := op.entries.take i ++ 0 :: op.entries.drop (i + 1), unread := i :: op.unread.erase i,
                                 held := rest ++ [seg code addr] }
    | (.error .refused, s) => s.putCopy tile n { op with blocked := some (seg codeProt (list + 8 * i)) }
    | (.error (.wait ls), s) => s.snoop ls

/-- COPY_SEGMENT_BIND (R336): the next segment of a copy, or the next index entry of a gather or scatter. -/
def execCopySegmentBind (tile op : Nat) (s : State) : Out :=
  .next <|
    match Map.get? (s.tile tile).copies op with
    | none => s
    | some x =>
      match s.crew? x.crew, x.kind with
      | some c, .gather z => s.takeEntry tile op x c x.src z
      | some c, .scatter z => s.takeEntry tile op x c x.dst z
      | some c, _ => s.copyStep tile op x c
      | none, _ => s

/-- An index entry: the crew and offset it names; none where it is malformed (R352, R353). -/
def entryOf (own e z : Nat) : Option (Nat × Nat) :=
  let off := field e 0 20
  let c := field e 32 20
  if e / 2 ^ 52 ≠ 0 ∨ field e 20 12 ≠ 0 ∨ off % 16 ≠ 0 ∨ 2 ^ 20 < off + z then none
  else some (if c = 0xFFFFF then own else c, off)

/-- The remote side of an element: where it lies, or none where it is refused (R353). -/
def State.remoteElem (s : State) (crew : Nat) (c : Crew) (e z : Nat) (write : Bool) : Except SegStop (Nat × Nat) :=
  match entryOf crew e z with
  | none => .error .refused
  | some (d, off) =>
    if d = crew then (if c.decl.scratch < off + z then .error .refused else .ok (d, off))
    else
      match s.remoteCheck crew { target := .spad d off, attr := bareAttr 0, bytes := z } (!write) write with
      | .error (.busy _ ls) => .error (.wait ls)
      | .error _ => .error .refused
      | .ok _ => .ok (d, off)

/-- Virtual address of a scratchpad byte of a crew. -/
def crewVa (crew off : Nat) : Nat := 0x9 * 2 ^ 52 + crew * 2 ^ 32 + off

/-- A poisoned piece of a scratchpad range: its address. -/
def State.spadPoison (s : State) (crew off n : Nat) : Option Nat :=
  (s.rangeFault { target := .spad crew off, attr := bareAttr 0, bytes := n }).map fun x => crewVa crew (off + x.2)

/-- Move `z` bytes from one scratchpad place to another at the operation's time, under its crew's owner (R205). -/
def State.moveElem (s : State) (owner : Nat) (t : LTime) (src dst : Nat × Nat) (z : Nat) : LTime × State :=
  let (bs, t, s) := s.loadRange 0 (.spad src.1 src.2) z 128 (bareAttr owner) 3 t
  s.storeRange {} (.spad dst.1 dst.2) 128 bs owner t

/-- Granules of the elements that have bound in an unbroken run from element 0 on become full (R354). -/
def State.fillRun (crew dst z : Nat) : Nat → CopyOp → State → CopyOp × State
  | 0, op, s => (op, s)
  | fuel + 1, op, s =>
    match Map.get? op.gone op.filled with
    | some t =>
      let s := (granulesIn (dst + z * op.filled) z).foldl (init := s) fun s g => s.fillGranule crew g t
      State.fillRun crew dst z fuel { op with filled := op.filled + 1 } s
    | none => (op, s)

/-- An element has bound or been refused. -/
def CopyOp.elemDone (op : CopyOp) (i z : Nat) (t : LTime) (refused : Bool) : CopyOp :=
  { op with gone := Map.put op.gone i t, time := tmax op.time t, bound := op.bound + z,
            refused := if refused then i :: op.refused else op.refused,
            held := op.held.filter fun h => h.off ≠ i * z }

/-- An element faults at a home and is held by itself (R341). -/
def CopyOp.elemHeld (op : CopyOp) (i z addr : Nat) : CopyOp :=
  { op with held := op.held.filter (fun h => h.off ≠ i * z) ++
      [{ off := i * z, len := z, code := codePoison, addr := addr, told := false, again := false }] }

/-- A gather's reply binds at its local element (R353, R354). -/
def State.gatherElem (s : State) (tile n : Nat) (op : CopyOp) (c : Crew) (i z : Nat) : State :=
  let loc := op.dst % 2 ^ 20 + z * i
  let finish (t : LTime) (refused : Bool) (s : State) : State :=
    let op := op.elemDone i z t refused
    let s := s.subtractBytes op z t
    let (op, s) := State.fillRun op.crew (op.dst % 2 ^ 20) z (op.count + 1) op s
    (s.putCopy tile n op).late op.crew z
  match s.remoteElem op.crew c (op.entries.getD i 0) z false with
  | .error (.wait ls) => s.snoop ls
  | .error _ =>
    match s.spadPoison op.crew loc z with
    | some va => s.putCopy tile n (op.elemHeld i z va)
    | none =>
      let (t, s) := s.storeRange {} (.spad op.crew loc) 128 (List.replicate z 0) c.task.owner op.time
      finish t true s
  | .ok src =>
    match (s.spadPoison src.1 src.2 z).orElse fun _ => s.spadPoison op.crew loc z with
    | some va => s.putCopy tile n (op.elemHeld i z va)
    | none =>
      let (t, s) := s.moveElem c.task.owner op.time src (op.crew, loc) z
      finish t false s

/-- Elements of `z` bytes of a scatter, other than `i`, that satisfy `p` and touch a granule of the `n` bytes of crew `d` from
`off` on. An entry that is malformed, or has not been read, names none. -/
def CopyOp.sameGranule (op : CopyOp) (z i d off n : Nat) (p : Nat → Bool) : Bool :=
  ((List.range op.entries.length).zip op.entries).any fun e =>
    e.1 != i && !op.unread.contains e.1 && p e.1 && match entryOf op.crew e.2 z with
      | some (c, o) => c == d && decide (o / 16 < (off + n + 15) / 16 ∧ off / 16 < (o + z + 15) / 16)
      | none => false

/-- An element has still to bind; an element has bound and was not refused. -/
def CopyOp.waits (op : CopyOp) (j : Nat) : Bool := (Map.get? op.gone j).isNone
def CopyOp.wrote (op : CopyOp) (j : Nat) : Bool := !op.waits j && !op.refused.contains j

/-- The granules of a scatter's element that some element has written and that no element `later` allows writes any more: full
(R337, R354). -/
def State.fillScattered (s : State) (op : CopyOp) (i z : Nat) (t : LTime) (later : Nat → Bool) : State :=
  match entryOf op.crew (op.entries.getD i 0) z with
  | none => s
  | some (d, off) =>
    (granulesIn off z).foldl (init := s) fun s g =>
      if (op.wrote i || op.sameGranule z i d (16 * g) 16 op.wrote) && !op.sameGranule z i d (16 * g) 16 later then s.fillGranule d g t
      else s

/-- A scatter's element is written (R353, R354): in ascending order where elements share a granule. A granule is full once every
element that touches it has been written or refused (R337). -/
def State.scatterElem (s : State) (tile n : Nat) (op : CopyOp) (c : Crew) (i z : Nat) : State :=
  let loc := op.src % 2 ^ 20 + z * i
  let finish (t : LTime) (refused : Bool) (s : State) : State :=
    let op := op.elemDone i z t refused
    let s := s.fillScattered op i z (if refused then op.time else t) op.waits
    ((s.subtractBytes op z t).putCopy tile n op).late op.crew z
  match s.remoteElem op.crew c (op.entries.getD i 0) z true with
  | .error (.wait ls) => s.snoop ls
  | .error _ => finish op.time true s
  | .ok (d, off) =>
    if (op.entries.length < op.count ∧ op.blocked.isNone) ∨ op.sameGranule z i d off z (fun j => decide (j < i) && op.waits j) then s
    else
      match (s.spadPoison op.crew loc z).orElse fun _ => s.spadPoison d off z with
      | some va => s.putCopy tile n (op.elemHeld i z va)
      | none =>
        let (t, s) := s.moveElem c.task.owner op.time (op.crew, loc) (d, off) z
        finish t false s

/-- GATHER_REPLY (R354): an element of a gather or scatter whose entry has been read. -/
def execGatherReply (tile op elem : Nat) (s : State) : Out :=
  .next <|
    match Map.get? (s.tile tile).copies op with
    | none => s
    | some x =>
      let waiting := (Map.get? x.gone elem).isNone && decide (elem < x.entries.length) && !x.unread.contains elem &&
        !(x.held.any fun h => h.off == elem * (x.total / max x.count 1) && !h.again)
      match s.crew? x.crew, x.kind with
      | some c, .gather z => if waiting then s.gatherElem tile op x c elem z else s
      | some c, .scatter z => if waiting then s.scatterElem tile op x c elem z else s
      | _, _ => s

/-! ### The tile step, dispatch and retirement -/

/-- A copy has landed every byte of its tile. -/
def CopyOp.allLanded (op : CopyOp) : Bool :=
  op.failed.isNone && op.blocked.isNone && op.held.isEmpty && decide (op.total ≤ op.cursor)

/-- Operations whose read holds keep a copy from its tile: for a copy with a follow-on, those before it in the queue (R337). -/
def State.tileHeld (s : State) (op : CopyOp) (c : Crew) (t : Reg) : Bool :=
  match op.follow with
  | none => c.holds[t] != 0
  | some id =>
    ((s.tile c.tile).arrayQ.takeWhile fun x => x.id != id).any fun x =>
      x.crew == op.crew && x.result.isNone && (MatOp.of x.instr).elim false fun o => (o.reads x.shapes).contains t

/-- TILE_STEP (R337): the tile register is written in one step. -/
def execTileStep (tile op : Nat) (s : State) : Out :=
  .next <|
    match Map.get? (s.tile tile).copies op with
    | none => s
    | some x =>
      match x.kind, s.crew? x.crew with
      | .tile t, some c =>
        if x.stepped || !x.allLanded || s.tileHeld x c t then s
        else
          let s := s.modCrew x.crew fun c =>
            c.setTileRows t <| (List.range x.rows).map fun r =>
              (List.range x.rowBytes).map fun b => Map.getD x.landed (tileRow * r + b) 0
          s.putCopy tile op { x with stepped := true, landed := [] }
      | _, _ => s

/-- FOLLOW_ON_DISPATCH (R351): after its tile step the carrier dispatches the follow-on. -/
def execFollowOnDispatch (tile op : Nat) (s : State) : Out :=
  .next <|
    match Map.get? (s.tile tile).copies op with
    | none => s
    | some x =>
      match x.stepped, x.follow with
      | true, some id =>
        let go (o : ArrayOp) : ArrayOp := if o.id = id then { o with dispatched := true } else o
        { s with tiles := s.tiles.map fun (e : Nat × Tile) =>
          (e.1, { e.2 with arrayQ := e.2.arrayQ.map go,
                           remaps := e.2.remaps.map fun r => { r with follows := r.follows.map go } }) }
      | _, _ => s

/-- A follow-on that will not be dispatched leaves the queue; its locks and read holds are released (R343, R348). -/
def State.cancelFollow (s : State) (op : CopyOp) : State :=
  match op.follow with
  | none => s
  | some id =>
    let all := s.tiles.flatMap fun e => (e.2.arrayQ ++ e.2.remaps.flatMap (·.follows)).map fun o => (e.1, o)
    match all.find? fun e => e.2.id == id with
    | none => s
    | some (tile, o) =>
      let s := { s with tiles := s.tiles.map fun (e : Nat × Tile) =>
        (e.1, { e.2 with remaps := e.2.remaps.map fun r => { r with follows := r.follows.filter fun y => y.id ≠ id } }) }
      match MatOp.of o.instr with
      | some m => ((s.lockBy o.crew m.accs (· - 1)).holdBy o.crew (m.reads o.shapes) (· - 1)).dropArray tile id
      | none => s

/-- A line that waits for a copy slot of a core may look again (R335). -/
def State.wakeCopySlot (s : State) (core : Nat) : State :=
  s.wakeWhere fun t => t.st == .waiting && t.await == .copySlot && t.entryCore.elim true (· == core)

/-- An operation that ends with elements or segments unwritten: the granules it has written and now writes no more are full
(R337, R343). -/
def State.fillCutOff (s : State) (op : CopyOp) : State :=
  match op.kind with
  | .scatter z =>
    (List.range op.entries.length).foldl (init := s) fun s i =>
      match entryOf op.crew (op.entries.getD i 0) z with
      | some (d, off) =>
        (granulesIn off z).foldl (init := s) fun s g =>
          if op.wrote i && op.sameGranule z i d (16 * g) 16 op.waits then s.fillGranule d g op.time else s
      | none => s
  | _ => if op.failed.isSome then s else s.fillCut op (op.heldParts ++ op.restParts) []

/-- An operation retires (R338): what it has not bound is subtracted, its slot is free, and its number is done. -/
def State.retireCopy (s : State) (tile n : Nat) (op : CopyOp) (code : Nat) : State :=
  let left := op.total - op.bound
  let s := if left = 0 then s else s.fillCutOff op
  let s := if left = 0 then s else s.subtractBytes op left op.time
  let s := if code = 0 then s else s.cancelFollow op
  let s := s.modTile tile fun x => { x with copies := Map.del x.copies n }
  (((s.opEnded op.crew op.tl op.num code op.time).wakeCopySlot op.core)).late op.crew left

/-- An operation has nothing more to do: all bound, its fills, tile step and follow-on done; or refused, with its earlier
segments bound. -/
def CopyOp.finished (op : CopyOp) : Option Nat :=
  if op.blocked.isSome || !op.held.isEmpty then none
  else
    match op.kind with
    | .gather _ | .scatter _ =>
      if op.gone.length = op.count ∧ op.entries.length = op.count then some (if op.refused.isEmpty then 0 else codeRemref) else none
    | .linear => match op.failed with
      | some c => some c
      | none => if op.total ≤ op.cursor then some 0 else none
    | .tile _ => match op.failed with
      | some c => some c
      | none => if op.stepped && op.follow.isNone then some 0 else none

/-- COPY_RETIRE (R338, R348). -/
def execCopyRetire (tile op : Nat) (s : State) : Out :=
  .next <|
    match Map.get? (s.tile tile).copies op with
    | none => s
    | some x =>
      match x.finished with
      | some code => s.retireCopy tile op x code
      | none => s

/-! ### Acceptance (R335) -/

/-- The core on which a line issues. -/
def Issue.onCore (i : Issue) : Nat := i.t.entryCore.getD 0

/-- Copy slots a core has in use. -/
def State.slotsUsed (s : State) (core : Nat) : Nat :=
  (s.tiles.map fun e => (e.2.copies.filter fun x => x.2.core == core).length).sum

/-- Steps 1 to 4 of R335: a copy slot, the release, the number, the time. `mk` makes the operation. -/
def Issue.acceptCopy (i : Issue) (s : State) (d : Reg) (t : Tl) (follow : Option Instr) (mk : CopyOp → CopyOp) : Effect :=
  if Config.copySlots ≤ s.slotsUsed i.onCore then .waits 0 0 .copySlot
  else i.afterDrain s fun s =>
    let time := tmax (s.tile i.c.tile).copyTime ((s.thread? i.k).elim i.t.pts (·.pts))
    let (num, s) := s.takeNumber i.crew t
    let (id, s) := s.stamp
    let (fid, s) : Option Nat × State := match follow with
      | some instr => match MatOp.of instr, s.crew? i.crew with
        | some o, some c =>
          let r := s.acceptArray i.crew c o instr (some id)
          (some r.1, r.2)
        | _, _ => (none, s)
      | none => (none, s)
    let op : CopyOp :=
      { crew := i.crew, tl := t, num := num, core := i.onCore, time := time, pc := i.t.pc, kind := .linear, dst := 0,
        src := 0, rows := 0, rowBytes := 0, spitch := 0, dpitch := 0, count := 0, bar := none, cursor := 0, blocked := none,
        held := [], failed := none, entries := [], gone := [], filled := 0, refused := [], bound := 0, landed := [],
        stepped := false, follow := fid }
    i.put (s.putCopy i.c.tile id (mk op)) d num

/-- A signed field of a word. -/
def signedField (v l w : Nat) : Int := signed (v / 2 ^ l) w

/-! ### CPY and CPYM (R350, R351) -/

/-- The uses of a carrier instruction: a release and a draining event (R335). -/
def copyUses (d : Reg) (src : List Reg) : Uses := { src := src, dst := [d], drains := true }

/-- CPY, linear (R350). -/
def execCpy (p : Pred) (d a b : Reg) (t : Tl) (len : Reg) (bar : Option Reg) (s : State) : Out :=
  issue p 12 (copyUses d [a, b, len]) (fun i s =>
    let n := (i.reg len).toNat
    let src := vaOf (i.reg b)
    let dst := vaOf (i.reg a)
    if 2 ^ 36 ≤ n then .user codeRange 0 n
    else
      match (rangeCheck src n false).orElse fun _ => rangeCheck dst n true with
      | some e => e
      | none => i.acceptCopy s d t none fun op =>
          { op with kind := .linear, dst := dst, src := src, rows := 1, rowBytes := n, bar := bar }) s

/-- CPY.2D (R350). -/
def execCpy2d (p : Pred) (d a b : Reg) (t : Tl) (row shape : Reg) (bar : Option Reg) (s : State) : Out :=
  issue p 12 (copyUses d [a, b, row, shape]) (fun i s =>
    let rb := (i.reg row).toNat
    let v := (i.reg shape).toNat
    let rows := field v 0 16
    let sp := signedField v 16 24
    let dp := signedField v 40 24
    let src := vaOf (i.reg b)
    let dst := vaOf (i.reg a)
    if 2 ^ 24 ≤ rb then .user codeRange 0 rb
    else if 2 ^ 36 < rows * rb then .user codeRange 0 (rows * rb)
    else
      let x := rowsExtent src rows rb sp
      let y := rowsExtent dst rows rb dp
      match (rangeCheck x.1 x.2 false).orElse fun _ => rangeCheck y.1 y.2 true with
      | some e => e
      | none => i.acceptCopy s d t none fun op =>
          { op with kind := .linear, dst := dst, src := src, rows := rows, rowBytes := rb, spitch := sp, dpitch := dp,
                    bar := bar }) s

/-- The checks of a copy into a tile register, up to its acceptance (R350). -/
def Issue.tileCopy (i : Issue) (b pitch tile : Reg) (body : Nat → TileShape → Int → Effect) : Effect :=
  let sp := (i.reg pitch).toInt
  let x := i.c.shape tile
  let src := vaOf (i.reg b)
  if 2 ^ 36 ≤ sp.natAbs then .user codeRange 0 (i.reg pitch).toNat
  else if !i.c.hasTile tile then .user codeIllop
  else if x.fmt = 0 then tileTrap tile x
  else
    let e := rowsExtent src x.rows x.bytes sp
    match rangeCheck e.1 e.2 false with
    | some e => e
    | none => body src x sp

/-- CPY.T (R350). -/
def execCpyT (p : Pred) (d b : Reg) (t : Tl) (pitch tile : Reg) (bar : Option Reg) (s : State) : Out :=
  issue p 12 (copyUses d [b, pitch]) (fun i s =>
    i.tileCopy b pitch tile fun src x sp =>
      i.acceptCopy s d t none fun op =>
        { op with kind := .tile tile, src := src, rows := x.rows, rowBytes := x.bytes, spitch := sp, bar := bar }) s

/-- The follow-on a CPYM carries: ILLOP where its word is not a 64-bit array operation's (R351). -/
def followOn (follow : BitVec 32) (fc : Reg) : Option Instr :=
  let r := unpack (follow.toNat + 2 ^ 32 * fc.val)
  if r.len ≠ 0 ∨ r.min ≠ 0 then none
  else (parseA r).filter fun i => (MatOp.of i).isSome && rawOf i == some r

/-- The predicate of an array operation. -/
def matPred : Instr → Pred
  | .tmma p _ _ _ _ _ => p
  | .tmms p _ _ _ _ _ _ _ _ => p
  | .tmmm p _ _ _ _ => p
  | _ => Pred.always

/-- CPYM (R351, R315): the follow-on is checked at issue, against the shapes as they stand. -/
def execCpym (p : Pred) (d b : Reg) (t : Tl) (pitch tile : Reg) (bar : Option Reg) (fc : Reg) (follow : BitVec 32)
    (s : State) : Out :=
  issue p 16 (copyUses d [b, pitch]) (fun i s =>
    i.tileCopy b pitch tile fun src x sp =>
      let mk (op : CopyOp) : CopyOp :=
        { op with kind := .tile tile, src := src, rows := x.rows, rowBytes := x.bytes, spitch := sp, bar := bar }
      match followOn follow fc with
      | none => .user codeIllop
      | some instr =>
        match MatOp.of instr with
        | none => .user codeIllop
        | some o =>
          if tile ≠ o.a ∧ tile ≠ o.b then .user codeIllop
          else if !predTrue (matPred instr) true i.t i.c then i.acceptCopy s d t none mk
          else
            match o.check i.c (some tile) with
            | some e => e
            | none =>
              if Config.arraySlots ≤ (s.tile i.c.tile).arrayQ.length then .waits 0 0 .arraySlot
              else i.acceptCopy s d t (some instr) mk) s

/-! ### GATH and SCAT (R352) -/

/-- A range of the issuing crew's own scratchpad: its offset (R352). -/
def Issue.ownRange (i : Issue) (va n : Nat) : Option Nat :=
  if va / 2 ^ 52 = 9 ∧ field va 20 12 = 0 ∧ spadCrew i.crew va = i.crew ∧ va % 2 ^ 20 + n ≤ 2 ^ 20 then some (va % 2 ^ 20)
  else none

/-- The checks of a gather or scatter, and its acceptance. -/
def Issue.indexed (i : Issue) (s : State) (d : Reg) (t : Tl) (z : Nat) (list loc count : Reg) (mk : CopyOp → CopyOp) : Effect :=
  let n := (i.reg count).toNat
  let lv := vaOf (i.reg list)
  let ev := vaOf (i.reg loc)
  if 1048575 < n then .user codeRange 0 n
  else
    match i.ownRange lv (8 * n), i.ownRange ev (z * n) with
    | some lo, some eo =>
      if i.c.decl.scratch < lo + 8 * n then .sys codeProt lv
      else if i.c.decl.scratch < eo + z * n then .sys codeProt ev
      else if lv % 8 ≠ 0 then .user codeAlign 0 lv
      else if ev % 16 ≠ 0 then .user codeAlign 0 ev
      else i.acceptCopy s d t none fun op => { mk op with count := n }
    | _, _ => .user codeIllop

/-- Bytes of an element of GATH and SCAT. -/
def gatBytes (z : GatSize) : Nat := 16 * 2 ^ z.code

/-- GATH (R352 to R354). -/
def execGath (p : Pred) (z : GatSize) (d a b : Reg) (t : Tl) (count : Reg) (bar : Option Reg) (s : State) : Out :=
  issue p 12 (copyUses d [a, b, count]) (fun i s =>
    i.indexed s d t (gatBytes z) b a count fun op =>
      { op with kind := .gather (gatBytes z), dst := vaOf (i.reg a), src := vaOf (i.reg b), bar := bar }) s

/-- SCAT (R352 to R354). -/
def execScat (p : Pred) (z : GatSize) (d a b : Reg) (t : Tl) (count : Reg) (bar : Option Reg) (s : State) : Out :=
  issue p 12 (copyUses d [a, b, count]) (fun i s =>
    i.indexed s d t (gatBytes z) a b count fun op =>
      { op with kind := .scatter (gatBytes z), dst := vaOf (i.reg a), src := vaOf (i.reg b), bar := bar }) s

/-! ### Windows (R344, R356) -/

/-- A write of WINn (Table 18.2): LEN above 65,536 writes 65,536. -/
def winWrite (v : Word) : Word :=
  let n := v.toNat
  BitVec.ofNat 64 (n % 8 + 2 ^ 4 * field n 4 16 + 2 ^ 20 * min (field n 20 17) 65536 + 2 ^ 40 * field n 40 20)

/-- WINSET (R356). -/
def execWinset (p : Pred) (rt : WinRight) (n : Tl) (b : Reg) (x0 : Reg16) (s : State) : Out :=
  issue p 12 { src := [b] } (fun i s =>
    let h := i.c.handle x0
    let peer := (i.reg b).toNat
    if !h.sound fun _ => true then handleTrap x0 h
    else
      let first := h.base / 8
      let stop := if h.len = 0 then 0 else (h.bytesOf (h.len - 1)).2
      let last := stop - 1
      if 2 ^ 20 < stop then .user codeRange 0 last
      else if 2 ^ 20 ≤ peer then .user codeRange 0 peer
      else
        let len := if h.len = 0 then 0 else last / 16 - first / 16 + 1
        let v := 1 + 2 * rt.code + 2 ^ 4 * (first / 16 % 2 ^ 16) + 2 ^ 20 * len + 2 ^ 40 * peer
        .retire (s.writeCrew i.crew fun c =>
          { c with win := c.win.set n (BitVec.ofNat 64 v), handles := c.handles.set x0 (c.handles[x0] ||| (1#128 <<< 70)) })) s

/-- WINSET.CL (R356). -/
def execWinsetCl (p : Pred) (n : Tl) (s : State) : Out :=
  issue p 12 {} (fun i s => .retire (s.writeCrew i.crew fun c => { c with win := c.win.set n (c.win[n] &&& ~~~1#64) })) s

end Sys2Proof.Machine
end

