-- ==== Sys2Proof/Machine/Hamper.lean ====
section
/-! DEFINITION. The hamper, the neighbour-list engine of a die (R359 to R373): major opcodes 0xB8 to 0xBD, and the hamper's own
steps. -/

namespace Sys2Proof.Machine

/-! ### The descriptor (Tables 20.2 and R363) -/

def hLen (d : List Nat) (a : Nat) : Nat := d.getD a 0
def hRc (d : List Nat) : Nat := d.getD 3 0
/-- Cells along axis `a`. -/
def hCells (d : List Nat) (a : Nat) : Nat := field (d.getD 4 0) (8 * a) 8
def hCap (d : List Nat) : Nat := field (d.getD 4 0) 24 6 + 1
def hPer (d : List Nat) (a : Nat) : Bool := bitAt (d.getD 5 0) a
def hMax (d : List Nat) : Nat := d.getD 6 0

/-- A finite binary32 as an integer multiple of 2^−149; none for a NaN or an infinity. -/
def fix32 (raw : Nat) : Option Int :=
  match floatNum .f32 raw with
  | .fin n m e => some (scaled n m e (-149))
  | _ => none

/-- RC2 of R363. -/
def hRc2 (d : List Nat) : Num := ((floatNum .f32 (hRc d)).mul (floatNum .f32 (hRc d))).roundF .f32

/-- The status NLCFG writes (R363). -/
def hamperStatus (d : List Nat) : Nat :=
  let good (raw : Nat) : Bool := (fix32 raw).elim false fun v => decide (0 < v)
  let L (a : Nat) : Int := (fix32 (hLen d a)).getD 0
  let rc : Int := (fix32 (hRc d)).getD 0
  let axes := [0, 1, 2]
  if !(axes.all fun a => good (hLen d a)) || !good (hRc d) then 3
  else if axes.any fun a => hCells d a == 0 || decide (128 < hCells d a) then 3
  else if hMax d = 0 ∨ 1048575 < hMax d ∨ field (d.getD 4 0) 30 2 ≠ 0 ∨ d.getD 5 0 / 8 ≠ 0 ∨ d.getD 7 0 ≠ 0 then 3
  else if axes.any fun a =>
      (hPer d a && (decide (L a < 2 * rc) || decide (hCells d a < 3))) || decide (L a < hCells d a * rc) then 1
  else if 2097152 < 4 * (hCells d 0 * hCells d 1 * hCells d 2) * (hCap d + 1) + 16 * hMax d then 2
  else 0

/-! ### Contexts -/

/-- Change a context of a die's hamper. -/
def State.modHamper (s : State) (site : Nat) (n : Fin 8) (f : HamperCtx → HamperCtx) : State :=
  s.modSite site fun x => { x with hamper := x.hamper.set n (f x.hamper[n]) }

/-- The context the issuing crew holds. -/
def Issue.hamper (i : Issue) (s : State) : Option (Fin 8 × HamperCtx) := s.hamperOf (i.c.tile / 24) i.crew

/-- A stream is open from the acceptance of an NLPAIR to an NLNEXT that returns DONE (R360). -/
def HamperCtx.streamOpen (h : HamperCtx) : Bool :=
  h.stream.isSome || h.ops.any fun o => match o with
    | .pair _ _ _ _ _ _ => true
    | .bin _ _ _ _ _ _ => false

/-- A line that waits in NLNEXT for a batch. -/
def Thread.awaitsBatch (t : Thread) (crew : Nat) : Bool :=
  t.st == .waiting && t.wkind == 10 && t.crewn.toNat == crew

/-- Lines that wait in NLNEXT look again; what they took of the crew's queues for the
answer of a closed stream goes back (R228). -/
def State.wakeBatch (s : State) (crew : Nat) : State :=
  (s.threads.filter fun e => e.2.awaitsBatch crew).foldl (init := s) fun s e =>
    let f := (s.thread? e.1).bind (·.finish)
    let s := s.modThread e.1 fun t => { t with finish := none }.wake
    s.returnSlots crew (f.bind (·.slot)) (f.bind (·.popped))

/-- Close a context's streams (R371): accepted operations retire without a failure code, and every line that waits in NLNEXT
receives COUNT 0 with DONE and NOBIN, the answer it keeps in its `finish`. -/
def State.closeStreams (s : State) (crew : Nat) (h : HamperCtx) : State :=
  let s := match h.stream with
    | some x => if x.finished then s else s.opEnded crew x.tl x.num 0 h.time
    | none => s
  let s := h.ops.foldl (init := s) fun s o => match o with
    | .bin _ _ tl num _ _ => s.opEnded crew tl num 0 h.time
    | .pair _ _ tl num _ _ => s.opEnded crew tl num 0 h.time
  ((s.threads.filter fun e => e.2.awaitsBatch crew).map (·.1)).foldl (init := s) fun s k => s.complete k

/-- A context whose streams are closed and whose bins and watches are dropped; its crew keeps it. -/
def HamperCtx.cleared (h : HamperCtx) : HamperCtx :=
  { HamperCtx.reset with crew := h.crew, time := h.time }

/-- DONE and NOBIN of Table 20.5, with COUNT 0. -/
def nlNoBins : Word := BitVec.ofNat 64 (2 ^ 16 + 2 ^ 19)

/-! ### Configuration and status -/

/-- NLCFG (R362, R363). -/
def execNlcfg (p : Pred) (d a : Reg) (s : State) : Out :=
  issue p 8 { src := [a], dst := [d], seq := true } (fun i s =>
    let va := vaOf (i.reg a)
    match i.hamper s with
    | none => .user codeIllop
    | some (n, h) =>
      if va % 16 ≠ 0 then .ofStop (.user codeAlign) va { size := 4 }
      else if va / 2 ^ 52 = 0xA then .ofStop (.sys codeProt) va { size := 4 }
      else
        match s.readNow i.k va 32 16 with
        | (.error b, _) => .ofBlock b { size := 4 }
        | (.ok bs, s) =>
          let desc := (List.range 8).map fun j => leNat (slice bs (4 * j) 4)
          let st := hamperStatus desc
          let s := if st ≠ 0 then s
            else (s.closeStreams i.crew h).modHamper (i.c.tile / 24) n fun h =>
              { h.cleared with desc := desc, state := .configured }
          i.put s d (BitVec.ofNat 64 st)) s

/-- NLSTAT (R370). -/
def execNlstat (p : Pred) (d : Reg) (s : State) : Out :=
  issue p 8 { dst := [d] } (fun i s =>
    i.put s d ((i.hamper s).elim 0 fun x => BitVec.ofNat 64 (x.2.statWord x.1.val))) s

/-- NLREL (R371). -/
def execNlrel (p : Pred) (s : State) : Out :=
  issue p 8 {} (fun i s =>
    match i.hamper s with
    | none => .user codeIllop
    | some (n, h) =>
      .retire ((s.closeStreams i.crew h).modHamper (i.c.tile / 24) n fun _ => HamperCtx.reset)) s

/-! ### Acceptance (R364, R368) -/

/-- An operation of the hamper is accepted as R253 gives: it starts at the issuer's pts. -/
def Issue.acceptHamper (i : Issue) (s : State) (d : Reg) (t : Tl) (n : Fin 8) (mk : Word → LTime → HamperCtx → HamperCtx) :
    Effect :=
  i.afterDrain s fun s =>
    let time := (s.thread? i.k).elim i.t.pts (·.pts)
    let (num, s) := s.takeNumber i.crew t
    i.put (s.modHamper (i.c.tile / 24) n fun h => mk num time { h with time := tmax h.time time }) d num

/-- Where the positions of NLBIN may lie (R364 steps 4 and 5). -/
def Issue.positionCheck (i : Issue) (va n : Nat) : Option Effect :=
  let last := va + 16 * max n 1 - 1
  if 2 ^ 56 ≤ last ∨ regionOf va ≠ regionOf last ∨ 9 < regionOf va then some (.user codeIllop)
  else if regionOf va = 9 then
    if spadCrew i.crew va ≠ i.crew then some (.user codeIllop)
    else if field va 20 12 ≠ 0 then some (.sys codeXlate va)
    else
      let off := va % 2 ^ 20
      if i.c.decl.scratch < off + 16 * n then some (.sys codeProt (va + 16 * ((i.c.decl.scratch - off) / 16)))
      else none
  else none

/-- NLBIN (R364). -/
def execNlbin (p : Pred) (d a b : Reg) (t : Tl) (s : State) : Out :=
  issue p 8 { src := [a, b], dst := [d], drains := true } (fun i s =>
    let va := vaOf (i.reg a)
    let cnt := (i.reg b).toNat
    match i.hamper s with
    | none => .user codeIllop
    | some (n, h) =>
      if h.state = .idle ∨ h.streamOpen then .user codeIllop
      else if hMax h.desc < cnt then .user codeRange 0 cnt
      else if va % 16 ≠ 0 then .user codeAlign 0 va
      else
        match i.positionCheck va cnt with
        | some e => e
        | none => i.acceptHamper s d t n fun num time h =>
            { h with state := .binning, ops := h.ops ++ [.bin va cnt t num i.t.pc time] }) s

/-- A buffer of NLPAIR (R368 step 2). -/
def Handle.isBuffer (h : Handle) : Bool :=
  h.sound (· == .z64) && h.stride == 0 && decide (1024 ≤ h.len) && h.base % 2048 == 0

/-- NLPAIR (R368). -/
def execNlpair (p : Pred) (d : Reg) (t : Tl) (x0 x1 : Reg16) (s : State) : Out :=
  issue p 12 { dst := [d], drains := true } (fun i s =>
    match i.hamper s with
    | none => .user codeIllop
    | some (n, h) =>
      if h.state = .idle ∨ h.streamOpen then .user codeIllop
      else
        let h0 := i.c.handle x0
        let h1 := i.c.handle x1
        let lo (h : Handle) : Nat := h.base / 8
        let hi (h : Handle) : Nat := h.base / 8 + 8 * h.len
        if !h0.isBuffer then handleTrap x0 h0
        else if !h1.isBuffer then handleTrap x1 h1
        else if lo h0 < hi h1 ∧ lo h1 < hi h0 then handleTrap x1 h1
        else
          match [h0, h1].find? fun h => decide (i.c.decl.scratch < hi h) with
          | some h => .sys codeProt (spadVa (lo h + (i.c.decl.scratch - lo h) / 8 * 8))
          | none => i.acceptHamper s d t n fun num time h =>
              { h with state := if h.state = .binning then .binning else .streaming,
                       ops := h.ops ++ [.pair (lo h0, lo h1) (8 * h0.len, 8 * h1.len) t num i.t.pc time],
                       opened := true, lastDone := false, nextBatch := 0 }) s

/-! ### Binning (R365, R366) -/

/-- The bins as they grow: each cell's finite particles so far, and those placed. -/
structure Binning where
  occ  : Map Nat
  bins : Map (List Nat)
  bad  : Nat
  full : Nat
deriving DecidableEq, Repr

/-- The cell index of a coordinate on an axis (R365). -/
def cellIndex (d : List Nat) (a : Nat) (x : Int) : Nat :=
  let L := (fix32 (hLen d a)).getD 1
  let N : Int := hCells d a
  if hPer d a then (N * (x % L) / L).toNat else (min (N - 1) (max 0 (N * x / L))).toNat

/-- The cell of a position; none where a coordinate is not finite. -/
def cellOf (d : List Nat) (q : Pos) : Option Nat :=
  match fix32 q.1, fix32 q.2.1, fix32 q.2.2 with
  | some x, some y, some z =>
    some (cellIndex d 0 x + hCells d 0 * (cellIndex d 1 y + hCells d 1 * cellIndex d 2 z))
  | _, _, _ => none

/-- Place particle `p` (R365). -/
def Binning.place (b : Binning) (d : List Nat) (p : Nat) (q : Pos) : Binning :=
  match cellOf d q with
  | none => { b with bad := b.bad + 1 }
  | some c =>
    let here := Map.getD b.bins c []
    let b := { b with occ := Map.put b.occ c (Map.getD b.occ c 0 + 1) }
    if hCap d ≤ here.length then { b with full := b.full + 1 }
    else { b with bins := Map.put b.bins c (here ++ [p]) }

/-- The watch on a record's line or span (R366): the weight store takes none. -/
def watchOf : Target → Option Target
  | .phys pa => some (.phys (pa / 128))
  | .spad c off => some (.spad c (off / 512))
  | _ => none

/-- Watches after one more record read at a time. -/
def addWatch (ws : List (Target × LTime)) (t : Target) (time : LTime) : List (Target × LTime) :=
  match watchOf t with
  | some w => if ws.any fun x => x.1 == w then ws else ws ++ [(w, time)]
  | none => ws

/-- Reading the positions ends, waits for a line, or faults. -/
inductive PosEnd where
  | done
  | wait (lines : List Nat)
  | held (code addr : Nat)
deriving DecidableEq, Repr

/-- Read the records of NLBIN in ascending order as sequential loads at the hamper's time (R365), at their homes, since the
hamper is no tile's and has no tile L1; each counts the bytes that bind, and a read for each new line (R214). -/
def State.readPositions (a : Agent) (va : Nat) : (fuel p : Nat) → List Pos → List (Target × LTime) → LTime → State →
    PosEnd × List Pos × List (Target × LTime) × LTime × State
  | 0, _, ps, ws, t, s => (.done, ps, ws, t, s)
  | fuel + 1, p, ps, ws, t, s =>
    let at_ := va + 16 * p
    match s.segmentPart a at_ 16 false with
    | (.ok x, s) =>
      let s := s.meterIf x.attr (if p = 0 ∨ at_ % 128 = 0 then 1 else 0) 16
      let (bs, t, s) := s.loadRange a.tile x.target 16 128 { x.attr with cached := false } 3 t
      let q : Pos := (leNat (slice bs 0 4), leNat (slice bs 4 4), leNat (slice bs 8 4))
      State.readPositions a va fuel (p + 1) (ps ++ [q]) (addWatch ws x.target t) t s
    | (.error (.wait ls), s) => (.wait ls, ps, ws, t, s)
    | (.error (.order c va), s) => (.held c va, ps, ws, t, s)
    | (.error (.home c va), s) => (.held c va, ps, ws, t, s)
    | (.error .refused, s) => (.held codeProt at_, ps, ws, t, s)

/-- The state after the completion of an NLBIN (Table 20.1). -/
def HamperCtx.afterBin (h : HamperCtx) : HState :=
  if h.ops.any fun o => match o with
      | .bin _ _ _ _ _ _ => true
      | .pair _ _ _ _ _ _ => false
  then .binning
  else if h.ops.isEmpty then .binned else .streaming

/-- Run the NLBIN at the head of a context (R365): earlier bins, watches and status are dropped, and all its positions are
read and placed, or it is held at a fault and restarts from particle 0. -/
def State.runBin (s : State) (site : Nat) (n : Fin 8) (h : HamperCtx) (crew : Nat) (c : Crew) (va cnt : Nat) (tl : Tl)
    (num : Word) (time : LTime) : State :=
  let h := { h with bins := [], binsOk := false, pos := [], watches := [], stale := false, overflow := false,
                    badpos := false, maxocc := 0, dropped := 0 }
  match State.readPositions (c.agent crew) va cnt 0 [] [] (tmax h.time time) s with
  | (.wait ls, _, _, _, _) => s.snoop ls
  | (.held code addr, _, ws, t, s) =>
    s.modHamper site n fun _ => { h with watches := ws, time := t, held := some (code, addr), told := false }
  | (.done, ps, ws, t, s) =>
    let b := ((List.range cnt).zip ps).foldl (init := ({ occ := [], bins := [], bad := 0, full := 0 } : Binning)) fun b e =>
      b.place h.desc e.1 e.2
    let h := { h with ops := h.ops.drop 1 }
    let h := { h with bins := b.bins, binsOk := true, pos := ps, watches := ws, overflow := decide (b.full ≠ 0),
                      badpos := decide (b.bad ≠ 0), maxocc := b.occ.foldl (fun m e => max m e.2) 0,
                      dropped := b.bad + b.full, time := t, state := h.afterBin }
    (s.modHamper site n fun _ => h).opEnded crew tl num 0 t

/-- A context that a crew holds, with nothing held at a fault. -/
def State.hamperAt (s : State) (site ctx : Nat) : Option (Fin 8 × HamperCtx × Nat × Crew) :=
  if h : ctx < 8 then
    let n : Fin 8 := ⟨ctx, h⟩
    let x := (s.site site).hamper[n]
    match x.crew with
    | some k => if x.held.isSome then none else (s.crew? k).map fun c => (n, x, k, c)
    | none => none
  else none

/-- HAMPER_BIN_RUN (R365). -/
def execHamperBinRun (site ctx : Nat) (s : State) : Out :=
  .next <|
    match s.hamperAt site ctx with
    | some (n, h, k, c) =>
      match h.ops with
      | .bin va cnt tl num _ time :: _ => s.runBin site n h k c va cnt tl num time
      | _ => s
    | none => s

/-! ### The pair stream (R367) -/

/-- Table 20.3. -/
def stencil : List (Int × Int × Int) :=
  [(0, 0, 0), (1, 0, 0), (-1, 1, 0), (0, 1, 0), (1, 1, 0), (-1, -1, 1), (0, -1, 1), (1, -1, 1), (-1, 0, 1), (0, 0, 1),
   (1, 0, 1), (-1, 1, 1), (0, 1, 1), (1, 1, 1)]

/-- One axis of a neighbour: wrapped on a periodic axis, absent off the edge of another. -/
def neighbourAxis (d : List Nat) (a : Nat) (k : Int) : Option Nat :=
  let N : Int := hCells d a
  if hPer d a then some (k % N).toNat else if 0 ≤ k ∧ k < N then some k.toNat else none

/-- Neighbour(c, s) of R367. -/
def neighbour (d : List Nat) (c : Nat) (o : Int × Int × Int) : Option Nat :=
  let nx := hCells d 0
  let ny := hCells d 1
  match neighbourAxis d 0 ((c % nx : Nat) + o.1), neighbourAxis d 1 ((c / nx % ny : Nat) + o.2.1),
      neighbourAxis d 2 ((c / (nx * ny) : Nat) + o.2.2) with
  | some x, some y, some z => some (x + nx * (y + ny * z))
  | _, _, _ => none

/-- The integer nearest x / y for a positive y, ties to even. -/
def roundHalfEven (x y : Int) : Int :=
  let q := x / y
  let r := 2 * (x % y)
  if r < y then q else if y < r then q + 1 else if q % 2 = 0 then q else q + 1

/-- MinImage of R367 on one axis: the binary32 displacement and the image. -/
def minImage (d : List Nat) (a ui uj : Nat) : Nat × Int :=
  let L := (fix32 (hLen d a)).getD 1
  let diff := (fix32 uj).getD 0 - (fix32 ui).getD 0
  let n := if hPer d a then roundHalfEven diff L else 0
  let v := diff - n * L
  ((Num.fin (decide (v < 0)) v.natAbs (-149)).encode .f32, n)

/-- Code of an image (Table 20.4). -/
def imageCode (n : Int) : Nat := if n = 0 then 0 else if n = 1 then 1 else if n = -1 then 2 else 3

/-- The record of a pair, if it lies within the cut-off. -/
def pairRec (d : List Nat) (rc2 : Num) (pos : List Pos) (i j : Nat) : Option PairRec :=
  let pi := pos.getD i (0, 0, 0)
  let pj := pos.getD j (0, 0, 0)
  let x := minImage d 0 pi.1 pj.1
  let y := minImage d 1 pi.2.1 pj.2.1
  let z := minImage d 2 pi.2.2 pj.2.2
  let sq (raw : Nat) : Num := (floatNum .f32 raw).mul (floatNum .f32 raw)
  let r2 := (Num.sum [sq x.1, sq y.1, sq z.1]).encode .f32
  if (floatNum .f32 r2).le rc2 then
    some { i := i, j := j, dx := x.1, dy := y.1, dz := z.1, r2 := r2,
           img := imageCode x.2 + 4 * imageCode y.2 + 16 * imageCode z.2 }
  else none

/-- Stream() of R367. -/
def pairStream (h : HamperCtx) : List PairRec :=
  let d := h.desc
  let rc2 := hRc2 d
  let bin (c : Nat) : List Nat := Map.getD h.bins c []
  h.bins.flatMap fun e => e.2.flatMap fun i =>
    ((List.range 14).zip stencil).flatMap fun o =>
      match neighbour d e.1 o.2 with
      | none => []
      | some b => (bin b).filterMap fun j => if o.1 = 0 ∧ j ≤ i then none else pairRec d rc2 h.pos i j

/-- The bytes of a record (Table 20.4). -/
def PairRec.bytes (r : PairRec) : List Byte :=
  [r.i, r.j, r.dx, r.dy, r.dz, r.r2].flatMap (natBytes 4) ++ natBytes 8 r.img

/-! ### Batches (R368) -/

/-- The NLPAIR at the head of a context executes: its stream is fixed, and batches 0 and 1 are released. -/
def HamperCtx.openStream (h : HamperCtx) (buf size : Nat × Nat) (tl : Tl) (num : Word) (pc : BitVec 56) (time : LTime) :
    HamperCtx :=
  let x : PairStream :=
    { buf := buf, size := size, recs := if h.binsOk && !h.overflow && !h.badpos then pairStream h else [], next := 0,
      released := 2, finished := false, nobin := !h.binsOk, closed := [], tl := tl, num := num, pc := pc }
  { h with ops := h.ops.drop 1, stream := some x, time := tmax h.time time }

/-- Records of one batch. -/
def batchSize : Nat := 256

/-- Write records one after another, each of its two granules full once it has bound (R111, R115, R368). -/
def State.writeRecords (s : State) (crew : Nat) : (off : Nat) → List PairRec → LTime → LTime × State
  | _, [], t => (t, s)
  | off, r :: rs, t =>
    let (t, s) := s.storeRange {} (.spad crew off) 128 r.bytes (s.crewOwner crew) t
    State.writeRecords ((s.fillGranule crew (off / 16) t).fillGranule crew (off / 16 + 1) t) crew (off + 32) rs t

/-- Write the next batch of a stream once its buffer has been released, and close it (R368); a fault holds the stream. A record
written over a watched span of the scratchpad sets STALE (R366). -/
def State.writeBatch (s : State) (site : Nat) (n : Fin 8) (h : HamperCtx) (crew : Nat) (x : PairStream) : State :=
  if x.finished ∨ x.released ≤ x.next then s
  else
    let odd := x.next % 2 = 1
    let off := if odd then x.buf.2 else x.buf.1
    let size := if odd then x.size.2 else x.size.1
    let recs := x.recs.take batchSize
    match s.spadPoison crew off (32 * recs.length) with
    | some va => s.modHamper site n fun _ => { h with held := some (codePoison, va), told := false }
    | none =>
      let s := (granulesIn off size).foldl (init := s) fun s g => s.clearGranule crew g h.time
      let (t, s) := s.writeRecords crew off recs h.time
      let done := decide (recs.length < batchSize)
      let b : Batch :=
        { k := x.next, count := recs.length, time := t, done := done, overflow := h.overflow, nobin := x.nobin }
      let x := { x with recs := x.recs.drop batchSize, next := x.next + 1, finished := done, closed := x.closed ++ [b] }
      let s := s.modHamper site n fun y => { h with stream := some x, time := t, stale := h.stale || y.stale }
      (if done then s.opEnded crew x.tl x.num 0 t else s).wakeBatch crew

/-- HAMPER_BATCH_WRITE (R368): an NLPAIR executes, or the next released batch of its stream is written. -/
def execHamperBatchWrite (site ctx : Nat) (s : State) : Out :=
  .next <|
    match s.hamperAt site ctx with
    | some (n, h, k, _) =>
      match h.stream, h.ops with
      | some x, _ => s.writeBatch site n h k x
      | none, .pair buf size tl num pc time :: _ =>
        let h := h.openStream buf size tl num pc time
        match h.stream with
        | some x => s.writeBatch site n h k x
        | none => s
      | _, _ => s
    | none => s

/-- The word of Table 20.5. -/
def Batch.word (b : Batch) (stale : Bool) : Word :=
  BitVec.ofNat 64 (b.count + 2 ^ 9 * (b.k % 2) + 2 ^ 16 * b2n b.done + 2 ^ 17 * b2n b.overflow + 2 ^ 18 * b2n stale +
    2 ^ 19 * b2n b.nobin + 2 ^ 32 * (b.k % 2 ^ 32))

/-- NLNEXT (R369). A line that waits keeps in `finish` the answer it receives if its stream is closed (R371). -/
def execNlnext (p : Pred) (d : Reg) (s : State) : Out :=
  issue p 8 { dst := [d], drains := true } (fun i s =>
    match i.hamper s with
    | none => .user codeIllop
    | some _ =>
      i.afterDrain s fun s =>
        match i.hamper s with
        | none => .user codeIllop
        | some (n, h) =>
          if !h.opened then i.put s d nlNoBins
          else if h.lastDone then i.put s d (BitVec.ofNat 64 (h.lastWord / 512 * 512))
          else
            match h.stream.bind fun x => (x.closed.find? fun b => b.k == h.nextBatch).map fun b => (x, b) with
            | none => .wait 10 n.val .nothing fun s =>
                let (slot, s) := i.reserve s d
                s.modThread i.k fun t => { t with finish := some { dest := some (d, nlNoBins), len := 8, slot := slot } }
            | some (x, b) =>
              let w := b.word h.stale
              let s := s.modThread i.k fun t => t.acquire b.time
              let x := { x with released := max x.released (b.k + 2), closed := x.closed.erase b }
              let s := s.modHamper (i.c.tile / 24) n fun h =>
                { h with stream := if b.done then none else some x, state := if b.done then .ended else h.state,
                         lastWord := w.toNat, lastDone := b.done, nextBatch := b.k + 1 }
              i.put s d w) s

end Sys2Proof.Machine
end

