-- ==== Sys2Proof/Machine/Engines.lean ====
section
/-! DEFINITION. Operations held at a fault: the engine fault record (R342, Table 18.1) and CPST (R343, R355): major opcode
0xB4. -/

namespace Sys2Proof.Machine

/-! ### The record -/

/-- OPID of an operation (Table 18.1). -/
def opidOf (crew : Nat) (t : Tl) (num : Word) : Nat := crew + 2 ^ 20 * t.val + 2 ^ 22 * (num.toNat % 2 ^ 42)

/-- Send the record of Table 18.1 to a crew's mender. -/
def State.engineRecord (s : State) (crew engine code : Nat) (tl : Tl) (num : Word) (pc : BitVec 56) (addr segoff : Nat)
    (time : LTime) : State :=
  let gtid := (s.crew? crew).elim 0 (·.task.gtid.toNat)
  s.ringSend (s.mender crew)
    [code + 2 ^ 10, gtid, crew + 2 ^ 20 * engine, pc.toNat, pc.toNat, addr, segoff % 2 ^ 64, opidOf crew tl num] time

/-- The segment of a carrier operation whose record is still to be sent. -/
def CopyOp.untold (op : CopyOp) : Option HeldSeg :=
  (op.blocked.filter fun h => !h.told).orElse fun _ => op.held.find? fun h => !h.told

/-- The record of a segment has been sent. -/
def CopyOp.tell (op : CopyOp) (h : HeldSeg) : CopyOp :=
  if op.blocked = some h then { op with blocked := some { h with told := true } }
  else { op with held := op.held.map fun x => if x = h then { h with told := true } else x }

/-- A carrier operation tells its mender of a held segment. -/
def State.copyFault (s : State) (tile n : Nat) : State :=
  match Map.get? (s.tile tile).copies n with
  | none => s
  | some op =>
    match op.untold with
    | none => s
    | some h =>
      (s.engineRecord op.crew 0 h.code op.tl op.num op.pc h.addr h.off op.time).modTile tile fun x =>
        { x with copies := Map.put x.copies n (op.tell h) }

/-- The operation at the head of a queue tells its mender; its SEGOFF is a free value, since the spec gives the segments of
these engines no place in their operation. -/
def State.headFault (s : State) (engine : Nat) (q : List EngineOp) (put : List EngineOp → State → State) : State :=
  match q with
  | op :: ops =>
    match op.held, op.told with
    | some (code, addr), false =>
      let (w, s) := s.freeWord
      put ({ op with told := true } :: ops)
        (s.engineRecord op.crew engine code op.tl op.num op.pc addr w.toNat op.time)
    | _, _ => s
  | [] => s

/-- The operation a hamper context holds at a fault: timeline, number, PC, and its place in the positions for an NLBIN. -/
def HamperCtx.heldOp (h : HamperCtx) : Option (Tl × Word × BitVec 56 × Option Nat) :=
  match h.stream, h.ops with
  | some x, _ => some (x.tl, x.num, x.pc, none)
  | none, .bin va _ tl num pc _ :: _ => some (tl, num, pc, some va)
  | none, .pair _ _ tl num pc _ :: _ => some (tl, num, pc, none)
  | none, [] => none

/-- A hamper context tells its mender. -/
def State.hamperFault (s : State) (site n : Nat) : State :=
  if hn : n < 8 then
    let f : Fin 8 := ⟨n, hn⟩
    let h := (s.site site).hamper[f]
    match h.held, h.told, h.crew, h.heldOp with
    | some (code, addr), false, some crew, some (tl, num, pc, base) =>
      let (w, s) := match base with
        | some va => (BitVec.ofNat 64 (addr - va), s)
        | none => s.freeWord
      (s.engineRecord crew 3 code tl num pc addr w.toNat h.time).modHamper site f fun h => { h with told := true }
    | _, _, _, _ => s
  else s

/-- ENGINE_FAULT (R342) at a tile: `op` is 4 × n + engine, n being the carrier's operation or the hamper's context. -/
def execEngineFault (tile op : Nat) (s : State) : Out :=
  .next <|
    match op % 4 with
    | 0 => s.copyFault tile (op / 4)
    | 1 => s.headFault 1 (s.tile tile).convQ fun q s => s.modTile tile fun x => { x with convQ := q }
    | 2 => s.headFault 2 (s.tile tile).mangleQ fun q s => s.modTile tile fun x => { x with mangleQ := q }
    | _ => s.hamperFault (tile / 24) (op / 4)

/-! ### Finding a held operation -/

/-- A carrier operation is held: some segment that has failed has not been resumed. No CPST acts on a refused one (R348). -/
def CopyOp.isHeld (op : CopyOp) : Bool := op.failed.isNone && (op.blocked.isSome || op.held.any fun h => !h.again)

/-- A held operation. -/
inductive HeldOp where
  | copy (tile n : Nat) (op : CopyOp)
  | conv (tile : Nat) (op : EngineOp)
  | mangle (tile : Nat) (op : EngineOp)
  | hamper (site : Nat) (n : Fin 8)

/-- The held operation of an engine's queue that matches. -/
def heldHead (q : List EngineOp) (p : Nat → Tl → Word → Bool) : Option EngineOp :=
  q.head?.filter fun o => o.held.isSome && p o.crew o.tl o.num

/-- The held operation that `p` names by crew, timeline and number. -/
def State.findHeld (s : State) (p : Nat → Tl → Word → Bool) : Option HeldOp :=
  (s.tiles.findSome? fun (e : Nat × Tile) =>
    ((e.2.copies.find? fun x => x.2.isHeld && p x.2.crew x.2.tl x.2.num).map fun x => HeldOp.copy e.1 x.1 x.2).orElse fun _ =>
      ((heldHead e.2.convQ p).map fun o => HeldOp.conv e.1 o).orElse fun _ =>
        (heldHead e.2.mangleQ p).map fun o => HeldOp.mangle e.1 o).orElse fun _ =>
  s.sites.findSome? fun (e : Nat × Site) =>
    (List.finRange 8).findSome? fun n =>
      let h := e.2.hamper[n]
      match h.held, h.crew, h.heldOp with
      | some _, some crew, some (tl, num, _) => if p crew tl num then some (HeldOp.hamper e.1 n) else none
      | _, _, _ => none

/-! ### CPST.Q -/

/-- CPST.Q (R355). -/
def execCpstQ (p : Pred) (d : Reg) (t : Tl) (b : Reg) (s : State) : Out :=
  issue p 8 { src := [b], dst := [d] } (fun i s =>
    let x := i.timeline s t
    let n := i.reg b
    let v : Word :=
      if n = 0 ∨ x.issued.toNat < n.toNat then 3
      else if n.toNat ≤ x.done.toNat ∨ x.finished.any (fun e => e.1 == n) then 0
      else if (s.findHeld fun crew tl num => crew == i.crew && tl == t && num == n).isSome then 2
      else 1
    i.put s d v) s

/-! ### CPST.RES and CPST.END (R343) -/

/-- The held operation an OPID names. -/
def State.heldById (s : State) (opid : Word) : Option HeldOp :=
  s.findHeld fun crew tl num => opidOf crew tl num == opid.toNat

/-- Resume a carrier operation at its first held segment. -/
def CopyOp.resume (op : CopyOp) : CopyOp :=
  let h := op.blocked.toList.filter fun h => decide (h.off < op.cursor)
  { op with blocked := none, held := (holdSegs h op.held).map fun x => { x with again := true, told := true } }

/-- Resume the head of an engine's queue. -/
def resumeHead : List EngineOp → List EngineOp
  | op :: ops => { op with held := none, told := false } :: ops
  | [] => []

/-- Resume a held operation. -/
def State.resumeHeld (s : State) : HeldOp → State
  | .copy tile n op => s.modTile tile fun x => { x with copies := Map.put x.copies n op.resume }
  | .conv tile _ => s.modTile tile fun x => { x with convQ := resumeHead x.convQ }
  | .mangle tile _ => s.modTile tile fun x => { x with mangleQ := resumeHead x.mangleQ }
  | .hamper site n => s.modHamper site n fun h => { h with held := none, told := false }

/-- End the operation a hamper context holds: an NLBIN leaves no bins, a stream writes no further batch. -/
def State.endHamper (s : State) (site : Nat) (n : Fin 8) (code : Nat) : State :=
  let h := (s.site site).hamper[n]
  let crew := h.crew.getD 0
  match h.stream, h.ops with
  | some x, _ =>
    (s.modHamper site n fun h => { h with held := none, told := false, stream := some { x with finished := true, recs := [] } }).opEnded
      crew x.tl x.num code h.time
  | none, .bin _ _ tl num _ _ :: rest =>
    let h := { h with held := none, told := false, ops := rest, bins := [], pos := [], binsOk := false }
    (s.modHamper site n fun _ => { h with state := h.afterBin }).opEnded crew tl num code h.time
  | none, .pair _ _ tl num _ _ :: rest =>
    (s.modHamper site n fun h => { h with held := none, told := false, ops := rest }).opEnded crew tl num code h.time
  | none, [] => s

/-- Retire a held operation with a failure code; nothing more is written. -/
def State.endHeld (s : State) (code : Nat) : HeldOp → State
  | .copy tile n op => s.retireCopy tile n op code
  | .conv tile op =>
    let owed := s.bytesLeft op
    let t := tmax (s.tile tile).convTime op.time
    let s := ((s.modTile tile fun x => { x with convQ := x.convQ.drop 1 }).fillEnded op t).opEnded op.crew op.tl op.num
      (code + 256 * op.flags) t
    (op.asker.elim s fun k => s.answerCsrd k op op.num).late op.crew owed
  | .mangle tile op =>
    let t := tmax (s.tile tile).mangleTime op.time
    (((s.modTile tile fun x => { x with mangleQ := x.mangleQ.drop 1 }).fillDrained op).opEnded op.crew op.tl op.num code t)
  | .hamper site n => s.endHamper site n code

/-- CPST.RES (R343, R355). -/
def execCpstRes (p : Pred) (d a : Reg) (s : State) : Out :=
  issue p 8 { src := [a], dst := [d], priv := true } (fun i s =>
    match s.heldById (i.reg a) with
    | some h => i.put (s.resumeHeld h) d 0
    | none => i.put s d 1) s

/-- A code of Table 8.5, none apart. -/
def listedCode (c : Nat) : Bool := decide (0x01 ≤ c ∧ c ≤ 0x0F ∨ 0x20 ≤ c ∧ c ≤ 0x26 ∨ 0x30 ≤ c ∧ c ≤ 0x32)

/-- CPST.END (R343, R355). -/
def execCpstEnd (p : Pred) (d a b : Reg) (s : State) : Out :=
  issue p 8 { src := [a, b], dst := [d], priv := true } (fun i s =>
    let code := (i.reg b).toNat % 2 ^ 8
    if !listedCode code then .user codeRange 0 (i.reg b).toNat
    else
      match s.heldById (i.reg a) with
      | some h => i.put (s.endHeld code h) d 0
      | none => i.put s d 1) s

end Sys2Proof.Machine
end

