-- ==== Sys2Proof/Machine/Parlour.lean ====
section
/-! DEFINITION. Where lines are: check-in, check-out, replacement, the age swap, PARLIM (R161 to R168, R221, R222). -/

namespace Sys2Proof.Machine

/-! ### Parlour entries -/

/-- The lines that hold an entry of a core's parlour, check-ins that have begun among them. -/
def State.entriesOf (s : State) (core : Nat) : List (Nat × Thread) :=
  s.threads.filter fun e => e.2.entryCore == some core

/-- Ready resident lines of a core, counted as R162 counts them: from the beginning of a check-in. -/
def State.readyEntries (s : State) (core : Nat) : Nat := ((s.entriesOf core).filter fun e => e.2.st == .ready).length

/-- The core is in service: neither it nor its tile is mapped out or has failed (R191, R193). -/
def State.inService (s : State) (core : Nat) : Bool :=
  let c := s.core core
  !(c.mappedOut || c.failed || (s.tile (core / 8)).mappedOut)

/-- A line replacement may choose: resident, not ready, not pinned (R163). -/
def Thread.evictable (t : Thread) : Bool := t.resident.isSome && t.st != .ready && !t.pin

/-- The line with the least `f`. -/
def leastBy (f : Thread → Nat) (ls : List (Nat × Thread)) : Option (Nat × Thread) :=
  ls.foldl (init := none) fun m e =>
    match m with
    | none => some e
    | some x => if f e.2 < f x.2 then some e else some x

/-- The least recently issued waiting line of a core (R163). -/
def State.victim (s : State) (core : Nat) : Option (Nat × Thread) :=
  leastBy (·.issueStamp) ((s.entriesOf core).filter fun e => e.2.evictable)

/-- The core has an entry free within PARLIM (R162, R168). -/
def State.freeEntry (s : State) (core : Nat) : Bool :=
  decide ((s.entriesOf core).length < (s.tile (core / 8)).parlim)

/-- The core can give an entry (R162). -/
def State.canGive (s : State) (core : Nat) : Bool := s.inService core && (s.freeEntry core || (s.victim core).isSome)

/-- The cores of a tile. -/
def coresOf (tile : Nat) : List Nat := (List.range 8).map (8 * tile + ·)

/-- The core with the fewest ready resident lines, the lowest-numbered first. -/
def State.fewestReady (s : State) (cores : List Nat) : Option Nat :=
  cores.foldl (init := none) fun m c =>
    match m with
    | none => some c
    | some x => if s.readyEntries c < s.readyEntries x then some c else some x

/-- Some core of a tile has been mapped out (R162). -/
def State.coresOut (s : State) (tile : Nat) : Bool :=
  (s.tile tile).mappedOut || (coresOf tile).any fun c => (s.core c).mappedOut

/-- The other tiles of the package in the order of R162: those of the tile's die, then of the other dies. -/
def otherTiles (tile : Nat) : List Nat :=
  let die := tile / 24
  let same := (List.range 24).map (24 * die + ·)
  let rest := (List.range (24 * Config.sites)).filter fun t => t / 24 ≠ die
  (same.filter fun t => t ≠ tile) ++ rest

/-- The tiles a line of a crew at `tile` may check in to, in order (R16, R162): another than its crew's only while some core of
that tile is mapped out. -/
def State.tilesFor (s : State) (tile : Nat) : List Nat :=
  if s.coresOut tile then tile :: otherTiles tile else [tile]

/-- The core that gives the line an entry: of the first tile that can, the core with the fewest ready lines (R162). -/
def State.coreFor (s : State) (tiles : List Nat) : Option Nat :=
  tiles.findSome? fun t => s.fewestReady ((coresOf t).filter s.canGive)

/-! ### The inn (R163) -/

/-- The lines in the set of an inn that a line maps to, a line on its way there among them. -/
def State.innSet (s : State) (site k : Nat) : List (Nat × Thread) :=
  s.threads.filter fun e => (e.2.loc == .inn site || e.2.loc == .toInn site) && e.1 % 8192 == k % 8192

/-- Put a line whose entry has been given up into an inn: the set's least recently used waiting line goes to memory, or the
line itself where all are ready (R163). -/
def State.putInn (s : State) (site k : Nat) : State :=
  let set := s.innSet site k
  let place (s : State) (l : Loc) : State := s.modThread k fun t => { t with loc := l }
  if set.length < 12 then place s (.inn site)
  else
    match leastBy (·.issueStamp) (set.filter fun e => e.2.st != .ready && e.2.loc == .inn site) with
    | some v => place (s.modThread v.1 fun t => { t with loc := .memory }) (.inn site)
    | none => place s .memory

/-- Check a resident line out of its core into the inn of the core's die (R157, R163): the model's choice where the line runs
off its crew's die (notes/assumptions/74.md). -/
def State.checkOutInn (s : State) (k core : Nat) : State :=
  (s.modThread k fun t => t.checkOut .memory).putInn (core / 192) k

/-! ### Check-in -/

/-- A line begins its check-in to a core (R162): it holds the entry from now on, and its age is zero. -/
def State.beginCheckIn (s : State) (k core : Nat) : State :=
  s.modThread k fun t => { t with loc := .arriving core (t.loc != .memory), age := 0 }

/-- Begin a check-in to a core that can give an entry, checking out its least recently issued waiting line if none is free. -/
def State.giveEntry (s : State) (k core : Nat) : State :=
  let s := if s.freeEntry core then s
    else match s.victim core with
      | some v => s.checkOutInn v.1 core
      | none => s
  s.beginCheckIn k core

/-- A line is checked out, ready and at rest. -/
def Thread.checkedOutReady (t : Thread) : Bool :=
  t.st == .ready && (match t.loc with
    | .inn _ | .memory => true
    | _ => false)

/-- A checked-out ready line may check in unless its crew is displaced or being displaced (R194, R197). -/
def State.mayCheckIn (s : State) (t : Thread) : Bool :=
  t.checkedOutReady && (s.crew? t.crewn.toNat).elim false fun c => !c.displaced && !c.saving

/-- R164 and R221: which of two ready checked-out lines checks in first. The model's choice: among lines of age 64 or more PRIO
does not count (notes/assumptions/96.md). -/
def checksInBefore (a b : Nat × Thread) : Bool :=
  let key (e : Nat × Thread) : Nat × Nat × Nat × Nat :=
    let old := decide (64 ≤ e.2.age)
    (b2n (!old), if old then 0 else e.2.prio.toNat, 2 ^ 64 - e.2.age, e.1)
  let x := key a
  let y := key b
  decide (x.1 < y.1 ∨ x.1 = y.1 ∧ (x.2.1 < y.2.1 ∨ x.2.1 = y.2.1 ∧
    (x.2.2.1 < y.2.2.1 ∨ x.2.2.1 = y.2.2.1 ∧ x.2.2.2 < y.2.2.2)))

/-- No other ready checked-out line of the tile goes before this one. -/
def State.firstToCheckIn (s : State) (k : Nat) (t : Thread) : Bool :=
  let tile := s.homeOf t
  s.threads.all fun e =>
    !(s.mayCheckIn e.2 && e.1 != k && s.homeOf e.2 == tile && checksInBefore e (k, t))

/-- The core of an age swap (R164): it holds an unpinned ready resident line and has performed none in the last 256 cycles. -/
def State.swapCore (s : State) (tiles : List Nat) : Option Nat :=
  s.fewestReady <| (tiles.flatMap coresOf).filter fun c =>
    s.inService c && (s.residents c).any (fun e => e.2.st == .ready && !e.2.pin) &&
      (s.core c).swapAt.elim true fun n => decide (n + 256 ≤ s.clock)

/-- The age swap of R164: the core's unpinned ready line that was checked in earliest gives its entry to the aged line. -/
def State.ageSwap (s : State) (k : Nat) (tiles : List Nat) : State :=
  match s.swapCore tiles with
  | none => s
  | some c =>
    match leastBy (·.entryStamp) ((s.residents c).filter fun e => e.2.st == .ready && !e.2.pin) with
    | none => s
    | some v =>
      let s := (s.checkOutInn v.1 c).modCore c fun x => { x with swapAt := some s.clock }
      s.beginCheckIn k c

/-- What a ready checked-out line does at the end of the first cycle in which it can (R162, R164, R222): it begins its check-in,
performs an age swap, or moves from memory toward the inn of its crew's die; none where it can do nothing. -/
def State.checkIn? (s : State) (k : Nat) : Option State :=
  match s.thread? k with
  | none => none
  | some t =>
    if !s.mayCheckIn t then none
    else
      let tile := s.homeOf t
      let tiles := s.tilesFor tile
      match s.coreFor tiles with
      | some c => if s.firstToCheckIn k t then some (s.giveEntry k c) else none
      | none =>
        if 64 ≤ t.age ∧ s.firstToCheckIn k t ∧ (s.swapCore tiles).isSome then some (s.ageSwap k tiles)
        else if t.loc = .memory ∧ (s.innSet (tile / 24) k).length < 12 then
          some (s.setThread k { t with loc := .toInn (tile / 24) })
        else none

/-- The check-ins of a cycle, one after another, at most one for each line (R222). -/
def State.checkIns : Nat → State → State
  | 0, s => s
  | fuel + 1, s =>
    match s.threads.findSome? fun e => s.checkIn? e.1 with
    | some s => State.checkIns fuel s
    | none => s

/-- A check-in that has begun completes (R162, R167): the line enters its core's rotation, and waits with kind 8 if its
lane grant must be given back first. -/
def State.checkInDone (s : State) (k : Nat) : State :=
  match s.thread? k with
  | none => s
  | some t =>
    match t.loc with
    | .arriving c _ =>
      let (st, s) := s.stamp
      let t := { t with loc := .parlour c, entryStamp := st, eligible := s.clock }
      let t := if t.lgrant = 0 ∨ t.st ≠ .ready then t
        else { t.toWait 8 t.lgrant.toNat .nothing with restoring := true }
      s.setThread k t
    | _ => s

/-- Create a line of a crew in the place R221 gives it: an entry of its tile's cores while one is free, else the inn. -/
def State.createLine (s : State) (tile k : Nat) (t : Thread) : State :=
  match s.fewestReady ((coresOf tile).filter fun c => s.inService c && s.freeEntry c) with
  | some c =>
    let (st, s) := s.stamp
    s.setThread k { t with loc := .parlour c, entryStamp := st, eligible := s.clock }
  | none => (s.setThread k { t with loc := .memory }).putInn (tile / 24) k

/-! ### PARLIM (R168) -/

/-- Pins a core may hold (R179). -/
def pinAllowance (limit : Nat) : Nat := min 8 (limit - 1)

/-- Drop the pins beyond a core's allowance, highest thread index first. -/
def State.dropPins (s : State) (core limit : Nat) : State :=
  let pins := (s.entriesOf core).filter fun e => e.2.pin
  let order := pins.mergeSort fun a b => decide (b.2.tidx.toNat < a.2.tidx.toNat ∨
    (b.2.tidx = a.2.tidx ∧ b.1 ≤ a.1))
  (order.take (pins.length - pinAllowance limit)).foldl (init := s) fun s e =>
    s.modThread e.1 fun t => { t with pin := false }

/-- Check out lines beyond the limit: waiting lines first, then ready ones, the earliest checked in first, keeping pinned
lines. -/
def State.trimCore (s : State) (core limit : Nat) : State :=
  let s := s.dropPins core limit
  let ls := (s.residents core).filter fun e => !e.2.pin
  let byEntry (l : List (Nat × Thread)) := l.mergeSort fun a b => decide (a.2.entryStamp ≤ b.2.entryStamp)
  let order := byEntry (ls.filter fun e => e.2.st != .ready) ++ byEntry (ls.filter fun e => e.2.st == .ready)
  (order.take ((s.entriesOf core).length - limit)).foldl (init := s) fun s e => s.checkOutInn e.1 core

/-- A write of PARLIM (Table 7.8, R168). -/
def State.setParlim (s : State) (tile : Nat) (v : Word) : State :=
  let n := v.toNat % 64
  let limit := if n = 0 ∨ 32 < n then 32 else n
  (coresOf tile).foldl (init := s.modTile tile fun t => { t with parlim := limit }) fun s c => s.trimCore c limit

/-! ### The events -/

/-- LINE_CHECK_IN_DONE (R162). -/
def execLineCheckInDone (thread : Nat) (s : State) : Out := .next (s.checkInDone thread)

/-- INN_MOVE_DONE (R162). -/
def execInnMoveDone (thread : Nat) (s : State) : Out :=
  .next <| s.modThread thread fun t =>
    match t.loc with
    | .toInn site => { t with loc := .inn site }
    | _ => t

/-- AGE_TICK (R164): 256 cycles spent ready while checked out advance the age; an aged line may swap at the end of a cycle. -/
def execAgeTick (thread : Nat) (s : State) : Out :=
  .next <|
    match s.thread? thread with
    | some t =>
      let out : Bool := match t.loc with
        | .inn _ | .toInn _ | .memory => true
        | _ => false
      if t.st = .ready ∧ out then s.setThread thread { t with age := t.age + 1 } else s
    | none => s

/-- PARLIM_WRITE (R168, R179). -/
def execParlimWrite (tile : Nat) (v : Word) (s : State) : Out := .next (s.setParlim tile v)

end Sys2Proof.Machine
end

