-- ==== Sys2Proof/Machine/Threads.lean ====
section
/-! DEFINITION. Threads and contexts (R170 to R180): major opcodes 0x50 to 0x57, and the events of YIELD and of termination. -/

namespace Sys2Proof.Machine

/-! ### Starting and ending threads -/

/-- The lowest index below the crew size whose line has exited (R171). -/
def Issue.exitedSlot (i : Issue) (s : State) : Option Nat :=
  (List.range i.c.decl.threads).find? fun n => (s.thread? (threadKey i.crew n)).elim true fun t => t.st == .exited

/-- The line SPAWN starts: reset values, and what R171 gives. -/
def spawned (t : Thread) (slot : Nat) (entry arg : Word) : Thread :=
  { (Thread.reset.setReg 1 arg) with
    pc := entry.setWidth 56, pts := t.pts, acq := t.pts, privl := t.privl, prio := t.prio, crewn := t.crewn,
    owner := t.owner, gtid := t.gtid, tidx := BitVec.ofNat 8 slot }

/-- SPAWN (R171): a release and a draining event. What a terminated thread of the slot has still under way goes on. -/
def execSpawn (p : Pred) (d a b : Reg) (s : State) : Out :=
  issue p 8 { src := [a, b], dst := [d], drains := true } (fun i s =>
    if (i.reg a).toNat % 4 ≠ 0 then .user codeAlign 0 (vaOf (i.reg a))
    else
      i.afterDrain s fun s =>
        match i.exitedSlot s with
        | none => i.put s d (BitVec.allOnes 64)
        | some n =>
          let t := (s.thread? i.k).getD i.t
          let k := threadKey i.crew n
          let old := (s.thread? k).getD Thread.reset
          let new := { spawned t n (i.reg a) (i.reg b) with unbound := old.unbound, landing := old.landing }
          let s := (s.setThread k new).putInn (i.c.tile / 24) k
          i.put s d (BitVec.ofNat 64 n)) s

/-- A line exits: its lanes go back to the pool, its pin and bindings go, its inbox and token are discarded, and its parlour
entry is freed (R155, R172). Its pts counts toward its instance's end time (R381). -/
def State.exitLine (s : State) (k : Nat) : State :=
  let s := match s.thread? k with
    | some t => s.modCrew (crewOf k) fun c => { c with et := tmax c.et t.pts }
    | none => s
  (s.discardInbox k).modThread k fun t =>
    { t.clearWait with st := .exited, lgrant := 0, popv := false, pushv := false, pin := false, loc := .memory,
                       restoring := false, trapq := none, finish := none, fetchStall := none }

/-- EXIT (R172). -/
def execExit (p : Pred) (s : State) : Out :=
  issue p 8 { drains := true } (fun i s =>
    i.afterDrain s fun s =>
      match i.t.pend with
      | some r => .waits 1 r.reg.val
      | none => .gone (s.exitLine i.k)) s

/-- What a thread that ends has taken of its crew's queues for instructions that will not complete is given back: the slots they
reserved, and the hold on entries they popped (R226, R228); the number of a CSRD that was held retires. -/
def State.abandon (s : State) (k : Nat) (t : Thread) : State :=
  let crew := t.crewn.toNat
  let ops := s.tiles.flatMap fun (e : Nat × Tile) => e.2.momentQ.filter fun m => m.thread == k
  let s := ((t.finish.bind (·.popped)) :: ops.map (·.popped)).foldl (init := s) fun s x => s.keepPopped crew x
  let slots := (ops.filterMap (·.push)) ++ (t.finish.bind (·.slot)).toList ++
    (t.unbound.filter (·.remote)).filterMap (·.slot)
  let held := s.tiles.flatMap fun (e : Nat × Tile) => e.2.convQ.filter fun o => o.asker == some k && o.num != 0
  let s := held.foldl (init := s) fun s o => s.opEnded o.crew o.tl o.num codePoison o.time
  let s := { s with tiles := s.tiles.map fun (e : Nat × Tile) =>
    (e.1, { e.2 with momentQ := e.2.momentQ.filter fun m => m.thread ≠ k, convQ := e.2.convQ.filter fun o => o.asker ≠ some k }) }
  slots.foldl (init := s) fun s x => s.dropSlot crew x.1 x.2

/-- System software ends a thread (R159): its stores, atomics and LDQ elements under way still bind, what would only have landed
in its registers is dropped, and the crew's end is reported as a termination (R394). -/
def State.terminate (s : State) (k : Nat) : State :=
  match s.thread? k with
  | none => s
  | some t =>
    if t.st = .exited then s
    else
      let keeps (a : Access) : Bool := !a.remote && match a.kind with
        | .ldq _ _ _ => true
        | kind => kind.stores
      let s := (s.abandon k t).modThread k fun t =>
        { t with unbound := t.unbound.filter keeps, pend := none, longop := none, deferred := [] }
      ((s.modCrew (crewOf k) fun c => { c with terminated := true }).exitLine k).markDraining k

/-- THREAD_TERMINATION (R159): a thread ends, or with `whole` every thread of its crew. -/
def execThreadTermination (thread : Nat) (whole : Bool) (s : State) : Out :=
  .next <|
    if whole then (s.linesOf (crewOf thread)).foldl (init := s) fun s e => s.terminate e.1
    else s.terminate thread

/-! ### Yielding, waiting, parking -/

/-- YIELD (R173): it retires, and the line then waits with kind 15. -/
def execYield (p : Pred) (s : State) : Out :=
  issue p 8 {} (fun i s =>
    .gone <| (s.retireAt i.k 8).modThread i.k fun t =>
      if t.st = .ready then { t.toWait 15 0 .nothing with yieldAt := s.clock } else t) s

/-- YIELD_TIMEOUT (R173): the line is ready again once its core has no other ready resident line, or 256 cycles after. -/
def execYieldTimeout (thread : Nat) (s : State) : Out :=
  .next <|
    match s.thread? thread with
    | some t =>
      if t.st = .waiting ∧ t.wkind = 15 then
        let due := match t.resident with
          | some c => s.readyCount c == 0 || decide (t.yieldAt + 256 ≤ s.clock)
          | none => true
        if due then s.setThread thread t.wake else s
      else s
    | none => s

/-- WAIT (R174): no register pending, every earlier access bound, every entry drained; an acquire. -/
def execWait (p : Pred) (s : State) : Out :=
  issue p 8 { drains := true } (fun i s =>
    match i.t.pend with
    | some r => .wait 1 r.reg.val .nothing fun s => s.markDraining i.k
    | none => i.afterDrain s fun s => .retire (s.modThread i.k fun t => t.acquire t.pts)) s

/-- PARK (R175): a wake token is taken at once; otherwise the line is parked after the instruction. The model's choice: with
STEP set it retires and is debug-stopped instead of parked (R409; notes/assumptions/73.md). -/
def execPark (p : Pred) (s : State) : Out :=
  issue p 8 {} (fun i s =>
    if i.t.token then .retire (s.modThread i.k fun t => { t.acquire t.wt with token := false })
    else if i.t.stepb then .retire s
    else .gone (s.modThread i.k fun t => { (t.fallThrough 8).clearWait with st := .parked })) s

/-- A parked line is woken (R175): it takes the time of the token. -/
def State.wakeParked (s : State) (k : Nat) (time : LTime) : State :=
  s.modThread k fun t =>
    let w := tmax t.wt time
    { (t.acquire w) with st := .ready, wt := w, token := false }

/-- WAKE and WAKE.T (R175): a release and a draining event. The token of a displaced crew's thread stands in its save area too
(R198). -/
def execWake (p : Pred) (f : Option Reg) (a : Reg) (s : State) : Out :=
  issue p 8 { src := [a], drains := true } (fun i s =>
    i.afterDrain s fun s =>
      match i.resolveDest s (i.reg a) with
      | none => .user codeRemref 0 (i.reg a).toNat
      | some (k, t) =>
        let pts := (s.thread? i.k).elim i.t.pts (·.pts)
        let parked := t.st == .parked
        let s := if parked then s.wakeParked k pts
          else s.modThread k fun t => { t with token := true, wt := tmax t.wt pts }
        let s := s.late (crewOf k) 0
        match f with
        | some f => i.putFlag s f parked
        | none => .retire s) s

/-! ### Identity and the mailbox -/

/-- The value SELF writes (R176). -/
def Issue.selfVal (i : Issue) : SelfVal → Word
  | .idx => i.t.tidx.setWidth 64
  | .crew => i.t.crewn.setWidth 64
  | .task => i.t.gtid
  | .size => BitVec.ofNat 64 i.c.decl.threads
  | .inst => BitVec.ofNat 64 i.c.inst

/-- SELF (R176). -/
def execSelf (p : Pred) (v : SelfVal) (d : Reg) (s : State) : Out :=
  issue p 8 { dst := [d] } (fun i s => i.put s d (i.selfVal v)) s

/-- MBXR (R177). -/
def execMbxr (p : Pred) (d : Reg) (b : Src) (s : State) : Out :=
  issue p 8 { src := srcRegs b, dst := [d] } (fun i s =>
    let n := (i.src b).toNat
    if 31 < n then .user codeRange 0 n else i.put s d (i.c.mailbox.getD n 0)) s

/-! ### Pinning and voluntary check-out -/

/-- EVICT (R178). -/
def execEvict (p : Pred) (s : State) : Out :=
  issue p 8 {} (fun i s =>
    let s := s.retireAt i.k 8
    .gone (match i.t.entryCore with
      | some c => s.checkOutInn i.k c
      | none => s)) s

/-- EVICT.MEM (R178). -/
def execEvictMem (p : Pred) (s : State) : Out :=
  issue p 8 {} (fun i s => .gone ((s.retireAt i.k 8).modThread i.k fun t => t.checkOut .memory)) s

/-- PIN (R179): refused when the core already holds Min(8, LIMIT − 1) pinned lines. -/
def execPin (p : Pred) (d : Reg) (s : State) : Out :=
  issue p 8 {} (fun i s =>
    if i.t.pin then i.putFlag s d true
    else
      match i.t.entryCore with
      | none => i.putFlag s d false
      | some c =>
        let pins := ((s.entriesOf c).filter fun e => e.2.pin).length
        if pins < pinAllowance (s.tile (c / 8)).parlim then
          i.putFlag (s.modThread i.k fun t => { t with pin := true }) d true
        else i.putFlag s d false) s

/-- PIN.U (R179). -/
def execPinU (p : Pred) (s : State) : Out :=
  issue p 8 {} (fun i s => .retire (s.modThread i.k fun t => { t with pin := false })) s

/-! ### Other lines -/

/-- CTXRD (R180): the word as it stands between two retirements, through the pending register. -/
def execCtxrd (p : Pred) (d a : Reg) (w : Fin 16) (s : State) : Out :=
  issue p 8 { src := [a], dst := [d], pend := true, priv := true } (fun i s =>
    match i.targetOf s (i.reg a) with
    | none => .user codeRemref 0 (i.reg a).toNat
    | some (_, t) => i.putLong s d (t.word w)) s

/-- States in which CTXWR writes a line (R180). -/
def LState.stopped : LState → Bool
  | .parked | .faulted | .trapped | .debugStopped => true
  | _ => false

/-- CTXWR (R180). -/
def execCtxwr (p : Pred) (a c : Reg) (w : Fin 16) (s : State) : Out :=
  issue p 8 { src := [a, c], priv := true } (fun i s =>
    match i.targetOf s (i.reg a) with
    | some (k, t) =>
      if t.st.stopped then .retire (s.setThread k (t.merge w (i.reg c))) else .user codeRemref 0 (i.reg a).toNat
    | none => .user codeRemref 0 (i.reg a).toNat) s

end Sys2Proof.Machine
end

