-- ==== Sys2Proof/Machine/System.lean ====
section
/-! DEFINITION. Traps, system registers, page-table publication, mender requests and core control (R182 to R203): major opcodes
0xD0 to 0xD5, 0xDD and 0xDE, and the events of faults and repair. -/

namespace Sys2Proof.Machine

/-! ### TRAP and TRET -/

/-- TRAP (R188). -/
def execTrap (p : Pred) (n : BitVec 16) (s : State) : Out := issue p 8 {} (fun _ _ => .user codeTrap n.toNat) s

/-- TRET (R187). -/
def execTret (p : Pred) (s : State) : Out :=
  issue p 8 { src := [1, 2], dst := [1, 2], seq := true } (fun i s => i.trapReturn s) s

/-- TRAP_ENTRY (R185): the trap of a line is taken once nothing is pending, every earlier access has bound, and no entry of
the line holds its record's block. -/
def execTrapEntry (thread : Nat) (s : State) : Out :=
  .next <|
    match s.thread? thread with
    | some t =>
      match t.trapq, t.pend with
      | some ti, none =>
        let displaced := (s.crew? t.crewn.toNat).elim false (·.displaced)
        if t.st = .waiting && t.unbound.isEmpty && !s.recordHeld thread t && !displaced then s.enterTrap thread ti else s
      | _, _ => s
    | none => s

/-! ### System registers (R183, R184) -/

/-- Selectors only a privileged thread reads, and only a privileged thread writes (Table 8.2). -/
def sysReadPriv (sel : Nat) : Bool := sel == 0x0B0 || sel == 0x0B1
def sysWritePriv (sel : Nat) : Bool := sel == 0x070 || sel == 0x080

/-- NCAPn (Table 9.2). -/
def State.ncap (s : State) (n : Nat) : Nat :=
  let out := (s.mem.out.filter fun w => w / 64 == n).length
  (if n ≤ 3 then 0x3000000000 else 0xF000000000) - out * 2 ^ 32 + out * 2 ^ 40

/-- WSREF (Table 5.2): the nanoseconds within the part of the slot that is current are a free value. -/
def State.wsref (s : State) : Nat × State :=
  let n := Config.slotNs s.draws
  (s.mem.wsBank + 2 ^ 4 * b2n s.mem.wsActive + 2 ^ 16 * (if s.mem.wsActive then n % 400 else 400 + n % 1200),
   { s with draws := s.draws + 1 })

/-- The value SYSR reads; none for a selector that Table 8.2 does not assign. -/
def State.sysRead (s : State) (crew : Nat) (c : Crew) (sel : Nat) : Option (Nat × State) :=
  match sel with
  | 0x001 => some (crew, s)
  | 0x002 => some (c.task.gtid.toNat, s)
  | 0x010 => some (c.tvec.toNat, s)
  | 0x011 => some (c.tarea.toNat, s)
  | 0x020 => some (c.mctl.toNat, s)
  | 0x021 => some (c.mstat.toNat, s)
  | 0x030 => some (c.cvctl.toNat, s)
  | 0x031 => some (c.cvstat.toNat, s)
  | 0x040 => some (c.acfgWord.toNat, s)
  | 0x050 => some (c.win[0].toNat, s)
  | 0x051 => some (c.win[1].toNat, s)
  | 0x052 => some (c.win[2].toNat, s)
  | 0x053 => some (c.win[3].toNat, s)
  | 0x060 => some (c.mgspill.toNat, s)
  | 0x070 => some ((s.tile c.tile).lvint, s)
  | 0x080 => some ((s.tile c.tile).parlim, s)
  | 0x090 => some s.wsref
  | 0x0A0 => some (s.ncap 0, s)
  | 0x0A1 => some (s.ncap 1, s)
  | 0x0A2 => some (s.ncap 2, s)
  | 0x0A3 => some (s.ncap 3, s)
  | 0x0A4 => some (s.ncap 4, s)
  | 0x0A5 => some (s.ncap 5, s)
  | 0x0B0 => some (field c.task.xlroot 19 33 * 2 ^ 19, s)
  | 0x0B1 => some (field (c.saveBase crew) 21 35 * 2 ^ 21, s)
  | _ => none

/-- SYSR (R184). -/
def execSysr (p : Pred) (d : Reg) (sel : BitVec 12) (s : State) : Out :=
  issue p 8 { dst := [d], priv := sysReadPriv sel.toNat } (fun i s =>
    match s.sysRead i.crew i.c sel.toNat with
    | some (v, s) => i.put s d (BitVec.ofNat 64 v)
    | none => .user codeIllop) s

/-- A write of LVINT (Table 21.9). -/
def lvintWrite (v : Word) : Nat := min (max (v.toNat % 2 ^ 21) 1024) 1048576

/-- What SYSW writes into a crew register; none for a selector that is no writable crew register (Tables 8.3, 13.6, 13.7, 16.1,
16.2, 17.2, 17.6, 18.2). -/
def Crew.sysWrite (c : Crew) (sel : Nat) (v : Word) : Option Crew :=
  let n := v.toNat
  match sel with
  | 0x010 => some { c with tvec := BitVec.ofNat 64 (field n 2 54 * 4) }
  | 0x011 => some { c with tarea := BitVec.ofNat 64 (field n 6 50 * 64) }
  | 0x020 => some { c with mctl := BitVec.ofNat 64 (n % 8) }
  | 0x021 => some { c with mstat := c.mstat &&& ~~~(v &&& 7) }
  | 0x030 => some { c with cvctl := BitVec.ofNat 64 (n % 4) }
  | 0x031 => some (c.clearCvstat v)
  | 0x040 => some { c with acfg := BitVec.ofNat 64 (n % 2 ^ 12) }
  | 0x050 => some { c with win := c.win.set 0 (winWrite v) }
  | 0x051 => some { c with win := c.win.set 1 (winWrite v) }
  | 0x052 => some { c with win := c.win.set 2 (winWrite v) }
  | 0x053 => some { c with win := c.win.set 3 (winWrite v) }
  | 0x060 => some { c with mgspill := mgspillWrite v }
  | _ => none

/-- SYSW (R184): a tile register is that of the tile holding the issuing crew; a crew register's new value is seen from the next
cycle on. -/
def execSysw (p : Pred) (sel : BitVec 12) (a : Reg) (s : State) : Out :=
  issue p 8 { src := [a], priv := sysWritePriv sel.toNat } (fun i s =>
    let v := i.reg a
    if sel = 0x070 then .retire (s.modTile i.c.tile fun t => { t with lvint := lvintWrite v })
    else if sel = 0x080 then .retire (s.setParlim i.c.tile v)
    else
      match (((s.crew? i.crew).getD i.c).keep s.clock).sysWrite sel.toNat v with
      | some c => .retire (s.setCrew i.crew c)
      | none => .user codeIllop) s

/-! ### Publication (R202, R203) -/

/-- The table entries that the accesses under way were translated with: those issued and not bound, piece by piece, and
write-combining entries. -/
def State.pathsUnderWay (s : State) : List (List Nat) :=
  s.threads.flatMap (fun (e : Nat × Thread) => e.2.unbound.flatMap fun a => a.parts.map (·.path)) ++
    s.cores.flatMap fun (e : Nat × Core) => e.2.wc.map (·.path)

/-- The target of a shootdown as a line waiting for it keeps it: an entry's address, or every entry. -/
def shootAll : Word := 1#64 <<< 63

/-- Every access translated with the entry has bound or been refused (R203). -/
def State.shotDown (s : State) (target : Word) : Bool :=
  !s.pathsUnderWay.any fun path => !path.isEmpty && (target == shootAll || path.contains target.toNat)

/-- Attested ranges with a page whose leaf is the entry at an address are freed: what an XLPUB that changes the leaf does
(R218). -/
def State.freeAttested (s : State) (entry : Nat) : State :=
  let covers (x : Attested) : Bool :=
    (List.range (x.len / 65536 + 2)).any fun n =>
      let va := x.va / 65536 * 65536 + 65536 * n
      decide (va < x.va + x.len) && match walk s.entryAt va 4 0 x.root [] with
        | some (_, _, path) => path.head? == some entry
        | none => false
  { s with tier := { s.tier with attested := s.tier.attested.filter fun e => !covers e.2 } }

/-- The widest page that can lie at a frame. -/
def pageReach (pa : Nat) : Nat := if pa % 2 ^ 30 = 0 then 2 ^ 30 else if pa % 2 ^ 21 = 0 then 2 ^ 21 else 2 ^ 16

/-- Permanent copies of the page at a frame are discarded, and no access under way can make another (R114). The widest page is
taken, since a line that is no longer permanent only renews its lease. -/
def State.endPermanent (s : State) (pa : Nat) : State :=
  let n := pageReach pa
  let drop (p : Part) : Part := match p.target with
    | .phys x => if pa ≤ x ∧ x < pa + n then { p with attr := { p.attr with perm := false } } else p
    | _ => p
  let s := s.dropPermanent pa n
  { s with threads := s.threads.map fun (e : Nat × Thread) =>
      (e.1, { e.2 with unbound := e.2.unbound.map fun a => { a with parts := a.parts.map drop } }) }

/-- A leaf that grants W. -/
def pteWrites (e : Nat) : Bool := pteValid e && !ptePointer e && pteW e

/-- The darners write a new entry at an address, into every replica and the master copy (R202). Where the leaf comes to grant
W, the permanent copies of its page, at the new frame and at that of the old leaf, are discarded first, with the cached
translations that used the entry (R114). An entry is 8 bytes of its line; a darner writes them under owner 0 at logical time
`t`. -/
def State.publish (s : State) (v : Via) (at_ : Nat) (new : Nat) (t : LTime) : LTime × State :=
  let old := s.entryAt at_
  let s :=
    if pteWrites new && !pteWrites old then
      let s := (s.endPermanent (pteFrame new)).dropTlb fun e => e.path.contains at_
      if pteValid old && !ptePointer old then s.endPermanent (pteFrame old) else s
    else s
  let r := s.storeAt v (.phys at_) 8 new (fullMask 8) 0 t
  (r.1, { r.2 with mem := { r.2.mem with replica := Map.put r.2.mem.replica at_ (BitVec.ofNat 64 new) } })

/-- Discard every cached translation that used an entry. -/
def State.shootDown (s : State) (at_ : Nat) : State := s.dropTlb fun e => e.path.contains at_

/-- A line waits for the completion of its shootdown, and then takes its destination. -/
def Issue.awaitShootdown (i : Issue) (s : State) (dest : Option (Reg × Word)) (target : Word) : Effect :=
  let (slot, s) := dest.elim (none, s) fun d => i.reserve s d.1
  .hold <| s.modThread i.k fun t =>
    { t.toWait 0 0 .shootdown with finish := some { dest := dest, len := 8, slot := slot }, target := target }

/-- The body of XLPUB: what its address meets is found at the home once the thread has drained (R123, R202). -/
def Issue.xlpub (i : Issue) (d a b : Reg) (shoot : Bool) (s : State) : Effect :=
  let at_ := (i.reg a).toNat
  let new := (i.reg b).toNat
  if at_ % 8 ≠ 0 then .trap { code := codeAlign, addr := at_, size := 3, store := true, data := new }
  else
    i.afterDrain s fun s =>
      let f := s.homeFault (.phys at_) 0
      if f ≠ 0 then .stop { code := f, deferred := true, addr := at_, size := 3, store := true, data := new }
      else if s.homeBusy (.phys at_) then .wait 0 0 .frozenLine fun s => s.snoop [at_ / 128]
      else
        let old := leNat (s.ownedBytes 0 at_ 8)
        let s := if s.entryAt at_ = new then s else s.freeAttested at_
        let (t, s) := s.publish ((s.agent i.t).via .device 3) at_ new ((s.thread? i.k).elim i.t.pts (·.pts))
        let s := s.modThread i.k fun x => x.raise t
        if shoot then i.awaitShootdown (s.shootDown at_) (some (d, BitVec.ofNat 64 old)) (i.reg a)
        else i.put s d (BitVec.ofNat 64 old)

/-- XLPUB (R202). -/
def execXlpub (p : Pred) (d a b : Reg) (s : State) : Out :=
  issue p 8 { src := [a, b], dst := [d], drains := true, priv := true } (fun i s => i.xlpub d a b true s) s
/-- XLPUB.NS (R202). -/
def execXlpubNs (p : Pred) (d a b : Reg) (s : State) : Out :=
  issue p 8 { src := [a, b], dst := [d], drains := true, priv := true } (fun i s => i.xlpub d a b false s) s

/-- XLINV.ALL (R203). -/
def execXlinvAll (p : Pred) (s : State) : Out :=
  issue p 8 { priv := true } (fun i s => i.awaitShootdown (s.dropTlb fun _ => true) none shootAll) s

/-- XLINV.OWN (R203). Every cached translation goes, those of the owner's leaves and of the pointers on the way to them among
them: a translation that has been discarded is only walked again. -/
def execXlinvOwn (p : Pred) (a : Reg) (s : State) : Out :=
  issue p 8 { src := [a], priv := true } (fun i s =>
    if 2 ^ 16 ≤ (i.reg a).toNat then .user codeRange 0 (i.reg a).toNat
    else i.awaitShootdown (s.dropTlb fun _ => true) none shootAll) s

/-- SHOOTDOWN_COMPLETE (R203). -/
def execShootdownComplete (thread : Nat) (s : State) : Out :=
  .next <|
    match s.thread? thread with
    | some t => if t.st = .waiting ∧ t.await = .shootdown ∧ s.shotDown t.target then s.complete thread else s
    | none => s

/-! ### SVCSEND (R192) -/

/-- SVCSEND (R192). -/
def execSvcsend (p : Pred) (d a b : Reg) (s : State) : Out :=
  issue p 8 { src := [a, b], drains := true } (fun i s =>
    i.afterDrain s fun s =>
      let m := s.mender i.crew
      let r := s.ring m
      if s.ringBusy m then .wait 0 0 .frozenLine fun s => s.snoop [r.next / 128]
      else if r.room && r.waiting.isEmpty then
        let t := (s.thread? i.k).getD i.t
        let ws := t.faultRecord { code := 0, addr := (i.reg a).toNat, data := (i.reg b).toNat }
        i.putFlag (s.ringPlace m ws t.pts) d true
      else i.putFlag s d false) s

/-- Records that wait at the mending net enter the ring while there is room and the line of their place is not held (R189,
R212). -/
def State.fillRing (m : Nat) : Nat → State → State
  | 0, s => s
  | fuel + 1, s =>
    let r := s.ring m
    match r.waiting with
    | w :: ws => if r.room && s.ringBusy m then s.snoop [r.next / 128]
      else if r.room then
        State.fillRing m fuel ((s.modRing m fun r => { r with waiting := ws }).ringPlace m (w.map BitVec.toNat) r.time)
      else s
    | [] => s

/-- The sender crew number of a mender's message (R192). -/
def menderCrew : Nat := 0xFFFFE

/-- A mender's program has given answers: they are free (R192; notes/assumptions/78.md). -/
def State.drawAnswers (s : State) (m : Nat) : State :=
  { s.modRing m fun r => { r with answers := r.answers ++ Config.menderAnswers s.draws } with draws := s.draws + 1 }

/-- A mender's answers enter their inboxes as ordinary messages, oldest first, at the mender's own logical time; one whose inbox
is full waits, and one to a thread that has gone is lost (R152, R192; notes/assumptions/78.md). -/
def State.sendAnswers (s : State) (m : Nat) : State :=
  (s.ring m).answers.foldl (init := s.modRing m fun r => { r with answers := [] }) fun s a =>
    match s.thread? a.1 with
    | none => s
    | some t =>
      if t.st = .exited then s
      else if s.inboxFull a.1 t then s.modRing m fun r => { r with answers := r.answers ++ [a] }
      else
        let (w, s) := s.freeWord
        s.deliver a.1 { payload := a.2, crew := menderCrew, tidx := w.toNat % 256, time := (s.ring m).time, launch := none }

/-- A mender's answer waits for an inbox that has room now. -/
def State.answerReady (s : State) (m : Nat) : Bool :=
  (s.ring m).answers.any fun a => (s.thread? a.1).elim true fun t => t.st == .exited || !s.inboxFull a.1 t

/-- FAULT_RING_POINTER_WRITE (R189, R192): a mender's program has run on. It moves its HEAD over records it has taken, may set
its ring's base, and sends answers. -/
def execFaultRingPointerWrite (mender head : Nat) (base : Option Nat) (s : State) : Out :=
  .next <|
    let r := s.ring mender
    let s :=
      if r.head ≤ head ∧ head ≤ r.tail then
        State.fillRing mender (r.waiting.length + 1) (s.modRing mender fun r => { r with head := head, base := base.getD r.base })
      else s
    (s.drawAnswers mender).sendAnswers mender

/-! ### CORECTL (R193) -/

/-- The core a target word names (R193): 8 × tile + core. -/
def coreTarget (v : Nat) : Option Nat :=
  let tile := field v 3 5
  if 2 ^ 11 ≤ v ∨ 24 ≤ tile then none else some (8 * (24 * (v % 8) + tile) + field v 8 3)

/-- A core gives up its lines: they are checked out to memory, and what its buffer holds starts to drain (R118, R193). -/
def State.emptyCore (s : State) (core : Nat) : State :=
  let s := (s.entriesOf core).foldl (init := s) fun s e => s.modThread e.1 fun t => t.checkOut .memory
  s.modCore core fun c => { c with wc := c.wc.map fun w => { w with draining := true } }

/-- A core is mapped out: the cycles it has taken are counted, and it takes no part in the one under way (R193, R407). -/
def State.mapCoreOut (s : State) (core : Nat) : State :=
  (s.catchUp core).modCore core fun x => { x with mappedOut := true, sel := none, late := none }

/-- CORECTL.OUT. -/
def execCorectlOut (p : Pred) (d a : Reg) (s : State) : Out :=
  issue p 8 { src := [a], dst := [d], priv := true } (fun i s =>
    match coreTarget (i.reg a).toNat with
    | none => i.put s d 2
    | some c =>
      if (s.core c).mappedOut then i.put s d 1
      else i.put ((s.mapCoreOut c).emptyCore c) d 0) s

/-- A core that is mapped in again at package cycle `now`: its counters start there at zero (R407), and it has issued nothing
since (R415). -/
def Core.mapIn (c : Core) (now : Nat) : Core :=
  { c with mappedOut := false, failed := false, lastKey := none, lastPc := 0, cyc := 0, iss := 0, vac := 0, lmem := 0,
           lmsg := 0, lvac := 0, hist := [], now := now }

/-- CORECTL.IN: the self-test's outcome is a free value. A tile with a core in service is no longer mapped out as a whole
(DEDUCED, notes/assumptions/54.md). -/
def execCorectlIn (p : Pred) (d a : Reg) (s : State) : Out :=
  issue p 8 { src := [a], dst := [d], priv := true } (fun i s =>
    match coreTarget (i.reg a).toNat with
    | none => i.put s d 2
    | some c =>
      if !(s.core c).mappedOut then i.put s d 1
      else
        let ok := Config.selfTest c s.draws
        let s := { s with draws := s.draws + 1 }
        if ok then i.put ((s.modCore c (·.mapIn s.clock)).modTile (c / 8) fun x => { x with mappedOut := false }) d 0
        else i.put s d 3) s

/-- Crews at a tile that are not displaced. -/
def State.crewsAt (s : State) (tile : Nat) : List Nat :=
  (s.crews.filter fun e => e.2.tile == tile && !e.2.displaced).map (·.1)

/-- What a CORECTL that waits for displacements names: a crew, or a whole tile. -/
def saveCrew (crew : Nat) : Word := BitVec.ofNat 64 crew
def saveTile (tile : Nat) : Word := BitVec.ofNat 64 (2 ^ 32 + tile)

/-- A tile is mapped out: each of its cores is, and gives up the lines it holds. -/
def State.mapTileOut (s : State) (tile : Nat) : State :=
  (coresOf tile).foldl (init := s.modTile tile fun x => { x with mappedOut := true }) fun s c =>
    (s.mapCoreOut c).emptyCore c

/-- The lines waiting for displacements at a tile that have now ended go on (R193). -/
def State.saved (s : State) (crew tile : Nat) : State :=
  let named (w : Word) : List Nat :=
    (s.threads.filter fun e => e.2.st == .waiting && e.2.await == .save && e.2.target == w).map (·.1)
  let s := (named (saveCrew crew)).foldl (init := s) fun s k => s.complete k
  if (named (saveTile tile)).isEmpty ∨ !(s.crewsAt tile).isEmpty then s
  else (named (saveTile tile)).foldl (init := s.mapTileOut tile) fun s k => s.complete k

/-- A moment instruction that has been withdrawn, or a TLD: its line gives back what it took, and issues it again (R228, R307,
R322). -/
def State.withdrawLine (s : State) (k : Nat) : State :=
  match s.thread? k with
  | none => s
  | some t =>
    let left := t.unbound.filter fun a => a.kind != .row false
    (s.setThread k { t.clearWait with st := .ready, unbound := left, finish := none }).returnSlots t.crewn.toNat
      (t.finish.bind (·.slot)) (t.finish.bind (·.popped))

/-- A TLD of the line is under way: its tile is not written yet (R322). -/
def Thread.loadingTile (t : Thread) : Bool :=
  t.st == .waiting && t.await == .rows && ((t.unbound.any fun a => a.kind == .row false) || t.finish.any (·.tile.isSome))

/-- A displacement gives up what the crew's threads have issued without effect: moment instructions whose step has not begun
(R307), TLDs (R322), and row pointers read for a CSRD that has no number yet (R259). Their lines issue again after the restore. -/
def State.withdraw (s : State) (crew : Nat) (c : Crew) : State :=
  let t := s.tile c.tile
  let mine (m : MomentOp) : Bool := crewOf m.thread == crew && !m.begun
  let asked (o : EngineOp) : Bool := o.crew == crew && o.asker.isSome && o.num == 0
  let s := s.modTile c.tile fun t =>
    { t with momentQ := t.momentQ.filter fun m => !mine m, convQ := t.convQ.filter fun o => !asked o }
  let s := (t.momentQ.filter mine).foldl (init := s) fun s m =>
    (s.momentBack m).modThread m.thread fun t => { t.clearWait with st := .ready }
  let ks := ((s.linesOf crew).filter fun e => e.2.loadingTile).map (·.1) ++ (t.convQ.filter asked).filterMap (·.asker)
  ks.foldl (init := s) State.withdrawLine

/-- A displacement of a crew whose save area can be reached begins: its threads issue nothing more, and what they have issued
without effect is withdrawn (R194 step 1, R307). -/
def State.beginSave (s : State) (crew : Nat) : State :=
  match s.crew? crew with
  | some c =>
    if c.displaced || c.saving || !s.saveReach crew c then s else (s.setCrew crew { c with saving := true }).withdraw crew c
  | none => s

/-- Displacements of these crews begin: their threads issue nothing more (R194). The line waits until the save areas it named
are complete (R193). -/
def Issue.awaitSave (i : Issue) (s : State) (d : Reg) (target : Word) (crews : List Nat) : Effect :=
  let s := s.modThread i.k fun t => { t with target := target }
  match i.finishLater s d 0 .save with
  | .hold s => .hold (crews.foldl (init := s) fun s c => s.beginSave c)
  | e => e

/-- CORECTL.TOUT: the tile's crews are displaced first. -/
def execCorectlTout (p : Pred) (d a : Reg) (s : State) : Out :=
  issue p 8 { src := [a], dst := [d], priv := true } (fun i s =>
    match coreTarget (i.reg a).toNat with
    | none => i.put s d 2
    | some c =>
      let tile := c / 8
      if (s.tile tile).mappedOut then i.put s d 1
      else if (s.crewsAt tile).isEmpty then i.put (s.mapTileOut tile) d 0
      else i.awaitSave s d (saveTile tile) (s.crewsAt tile)) s

/-- CORECTL.DISP. The model's choice: the whole of gA is the crew number, so a bit above 19 names no crew
(notes/assumptions/94.md). -/
def execCorectlDisp (p : Pred) (d a : Reg) (s : State) : Out :=
  issue p 8 { src := [a], dst := [d], priv := true } (fun i s =>
    let n := (i.reg a).toNat
    match s.crew? n with
    | none => i.put s d 2
    | some c => if c.displaced then i.put s d 1 else i.awaitSave s d (saveCrew n) [n]) s

/-- CORECTL.STAT. -/
def execCorectlStat (p : Pred) (d a : Reg) (s : State) : Out :=
  issue p 8 { src := [a], dst := [d], priv := true } (fun i s =>
    match coreTarget (i.reg a).toNat with
    | none => i.put s d 2
    | some c =>
      let x := s.core c
      let t := s.tile (c / 8)
      i.put s d (BitVec.ofNat 64 (b2n (x.mappedOut || t.mappedOut) + 2 * b2n (x.failed || t.failed) + 4 * b2n t.halfRate))) s

/-! ### Faults that no instruction raises (R189, R191) -/

/-- SYSTEM_FAULT (R189): a line stops with a system fault of its own. -/
def execSystemFault (thread code addr : Nat) (s : State) : Out :=
  .next <|
    match s.thread? thread with
    | some t =>
      if (t.st = .ready ∨ t.st = .waiting) ∧ 0x20 ≤ code ∧ code ≤ 0x26 then s.sysFault thread { code := code, addr := addr }
      else s
    | none => s

/-- A record of no thread (Table 8.6). -/
def repairRecord (code gtid addr : Nat) : List Nat := [code, gtid, 0, 0, 0, addr, 0, 0]

/-- Cores of the package; numbers from here on name the matrix arrays of its tiles. -/
def coreCount : Nat := 8 * 24 * Config.sites

/-- Bits 10:0 of ADDR for COREFAIL (Table 8.6). -/
def coreAddr (tile core : Nat) : Nat := tile / 24 + 2 ^ 3 * (tile % 24) + 2 ^ 8 * core

/-- The crews with operations in the queue of a tile's array. -/
def Tile.arrayCrews (t : Tile) : List Nat := (t.arrayQ.map (·.crew)).dedup

/-- COREFAIL (R191): a core, or the matrix array of a tile, fails and stops entirely. The operations in the queue of a failed
array are reported crew by crew, each record naming the crew's task (R316; notes/assumptions/79.md). -/
def execCorefail (core : Nat) (s : State) : Out :=
  .next <|
    if core < coreCount then
      if (s.core core).failed then s
      else (s.modCore core fun c => { c with failed := true }).ringSend (menderOf (core / 8))
        (repairRecord 0x30 0 (coreAddr (core / 8) (core % 8))) 0
    else
      let tile := core - coreCount
      if 24 * Config.sites ≤ tile || (s.tile tile).failed then s
      else
        let gtids := 0 :: (s.tile tile).arrayCrews.map fun c => (s.crew? c).elim 0 fun x => x.task.gtid.toNat
        gtids.foldl (init := s.modTile tile fun t => { t with failed := true }) fun s g =>
          s.ringSend (menderOf tile) (repairRecord 0x30 g (coreAddr tile 0)) 0

/-- LINKFAIL (R191, R213): the mender that is told is a free value. Links 0 to 35 are the ports of the fabric and those from 36 on
the links between dies (notes/assumptions/83.md). -/
def execLinkfail (link : Nat) (s : State) : Out :=
  .next <|
    if s.mem.lostLinks.contains link then s
    else
      let s := { s with mem := { s.mem with lostLinks := s.mem.lostLinks ++ [link] } }
      s.ringSend (Config.linkMender link % 32) (repairRecord 0x31 0 link) 0

/-- WATCH (R191): a crew with threads not exited that has retired nothing for 2^32 cycles is reported once. -/
def execWatch (crew : Nat) (s : State) : Out :=
  .next <|
    match s.crew? crew with
    | some c =>
      if c.watchArmed && (s.linesOf crew).any fun e => e.2.st != .exited then
        (s.setCrew crew { c with watchArmed := false }).ringSend (s.mender crew)
          (repairRecord 0x32 c.task.gtid.toNat crew) 0
      else s
    | none => s

end Sys2Proof.Machine
end

