-- ==== Sys2Proof/Machine/Launch.lean ====
section
/-! DEFINITION. Launches, the pool and the desks, JOIN, DONE, PRIO, work lists and the coach (R375 to R401, R419): major opcodes
0xC0 to 0xC7 and the events of chapter 21. -/

namespace Sys2Proof.Machine

/-! ### The record and its tables (R375) -/

/-- The 64-bit words of a list of bytes. -/
def wordsOf (bs : List Byte) : List Nat := (List.range (bs.length / 8)).map fun n => leNat (slice bs (8 * n) 8)

/-- Bits 55:0 of a virtual address in a record (R26). -/
def vaBits (w : Nat) : Nat := w % 2 ^ 56

/-- Number of nodes and of edges of a record. -/
def recNodes (w : List Nat) : Nat := field (w.getD 2 0) 0 13
def recEdges (w : List Nat) : Nat := field (w.getD 2 0) 16 16
/-- DEPTHLIM: 0 means 24. -/
def recLimit (w : List Nat) : Nat := let d := field (w.getD 0 0) 14 5; if d = 0 then 24 else d

/-- The record itself obeys Table 21.1; fields 0x20 to 0x40 count for a host launch only (notes/assumptions/40.md). -/
def recordSound (w : List Nat) (host : Bool) : Bool :=
  let x (n : Nat) : Nat := w.getD n 0
  field (x 0) 0 8 == 1 && x 0 / 2 ^ 19 == 0 && decide (recLimit w ≤ 24) && vaBits (x 1) % 64 == 0 &&
    decide (1 ≤ recNodes w ∧ recNodes w ≤ 4096) && field (x 2) 13 3 == 0 && x 2 / 2 ^ 32 == 0 && vaBits (x 3) % 8 == 0 &&
    (!host || (vaBits (x 4) % 2 ^ 35 == 0 && x 7 / 2 ^ 16 == 0 && x 8 / 2 ^ 52 == 0 && x 8 % 2 ^ 19 == 0)) &&
    (w.drop 10).all (· == 0) && (!bitAt (x 0) 12 || recEdges w == 0)

/-- The task of a record. -/
def recordTask (w : List Nat) : Task :=
  { gtid := BitVec.ofNat 64 (w.getD 6 0), owner := w.getD 7 0 % 2 ^ 16, ctxArea := vaBits (w.getD 4 0),
    saveArea := vaBits (w.getD 5 0), xlroot := w.getD 8 0 % 2 ^ 52 }

/-- A node descriptor, if it obeys Table 21.2. -/
def nodeOf (prio : Nat) (d : List Nat) : Option Node :=
  let x (n : Nat) : Nat := d.getD n 0
  let decl : Decl :=
    { threads := field (x 1) 24 9, scratch := field (x 2) 0 21, tiles := field (x 2) 21 4, acc := field (x 2) 25 4,
      moments := field (x 2) 29 5, lanes := field (x 2) 34 9, queues := field (x 2) 43 4, hamper := bitAt (x 2) 47,
      house := field (x 2) 48 3, meters := BitVec.ofNat 64 (x 5) }
  let inst := field (x 1) 0 24
  if vaBits (x 0) % 4 = 0 ∧ 1 ≤ inst ∧ 1 ≤ decl.threads ∧ decl.threads ≤ 256 ∧ x 1 / 2 ^ 33 = 0 ∧ decl.scratch ≤ 2 ^ 20 ∧
      decl.scratch % 512 = 0 ∧ decl.tiles ≤ 8 ∧ decl.acc ≤ 8 ∧ decl.moments ≤ 16 ∧ decl.lanes ≤ 256 ∧ decl.lanes % 8 = 0 ∧
      decl.queues ≤ 8 ∧ decl.house ≤ 6 ∧ x 2 / 2 ^ 51 = 0 ∧ x 6 = 0 ∧ x 7 = 0 ∧ decl.threads * inst ≤ 2 ^ 24 then
    some { entry := vaBits (x 0), inst := inst, decl := decl, mbox := vaBits (x 3), handles := vaBits (x 4), prio := prio,
           insts := [] }
  else none

/-- An edge word (Table 21.3). -/
def edgeOf (e : Nat) : Option Edge :=
  if e / 2 ^ 25 = 0 then some { src := field e 0 12, dst := field e 12 12, one := bitAt e 24 } else none

/-- All of a list, or none. -/
def allSome {α β : Type} (f : α → Option β) : List α → Option (List β)
  | [] => some []
  | x :: xs => match f x, allSome f xs with
    | some y, some ys => some (y :: ys)
    | _, _ => none

/-- No cycle is left once nodes without a predecessor among those left have been taken away, `fuel` times. -/
def acyclic (es : List Edge) : Nat → List Nat → Bool
  | 0, ns => ns.isEmpty
  | fuel + 1, ns =>
    let rest := ns.filter fun n => es.any fun e => e.dst == n && ns.contains e.src
    ns.isEmpty || (rest.length != ns.length && acyclic es fuel rest)

/-- The edges obey the conditions of R375. -/
def edgesSound (ns : List Node) (es : List Edge) : Bool :=
  es.all (fun e => decide (e.src < ns.length ∧ e.dst < ns.length) &&
    (!e.one || (ns[e.src]?.map (·.inst)) == (ns[e.dst]?.map (·.inst)))) &&
  decide ((es.map fun e => (e.src, e.dst)).Nodup) && acyclic es ns.length (List.range ns.length)

/-- The graph of a record whose tables have been read. -/
def graphOf (prio : Nat) (nodes edges : List Byte) : Option (List Node × List Edge) :=
  let ws := wordsOf nodes
  match allSome (fun n => nodeOf prio ((ws.drop (8 * n)).take 8)) (List.range (ws.length / 8)),
      allSome edgeOf (wordsOf edges) with
  | some ns, some es => if edgesSound ns es then some (ns, es) else none
  | _, _ => none

/-! ### Places (R385) -/

/-- What the tiles hold, and the free hamper contexts of each die. -/
abbrev Room := Map (List Decl) × Map Nat

/-- Room of an empty device, and of the device as it stands. -/
def emptyRoom : Room := ([], (List.range Config.sites).map fun n => (n, 8))
def State.room (s : State) : Room :=
  ((s.crews.filter fun e => !e.2.displaced).foldl (init := ([] : Map (List Decl))) fun m e =>
      Map.modify m e.2.tile [] (e.2.decl :: ·),
   (List.range Config.sites).map fun n => (n, ((s.site n).hamper.toList.filter fun h => h.crew.isNone).length))

/-- A tile that holds `ds` has what `d` declares left. -/
def fits (ds : List Decl) (d : Decl) : Bool :=
  let all := d :: ds
  let sum (f : Decl → Nat) : Nat := (all.map f).sum
  decide (sum (·.scratch) ≤ 2 ^ 20 ∧ sum (·.tiles) ≤ 8 ∧ sum (·.acc) ≤ 8 ∧ sum (·.moments) ≤ 16 ∧ sum (·.queues) ≤ 8 ∧
    sum (·.lanes) ≤ 256 ∧ all.length ≤ 16)

/-- The tile offers the declaration a place (R385). -/
def State.offers (s : State) (r : Room) (d : Decl) (tile : Nat) : Bool :=
  !(s.tile tile).mappedOut && fits (Map.getD r.1 tile []) d && (!d.hamper || decide (0 < Map.getD r.2 (tile / 24) 0))

/-- Take a place. -/
def Room.take (r : Room) (d : Decl) (tile : Nat) : Room :=
  (Map.modify r.1 tile [] (d :: ·), if d.hamper then Map.modify r.2 (tile / 24) 0 (· - 1) else r.2)

/-- The tiles of a die, and all tiles. -/
def dieTiles (site : Nat) : List Nat := (List.range 24).map (24 * site + ·)
def allTiles : List Nat := List.range (24 * Config.sites)

/-- Tiles that hold every instance of a graph together, if there are any: of all arrangements, the first in order
(R376, R386; notes/assumptions/41.md). -/
def State.pack (s : State) : Room → List Decl → Option (List Nat)
  | _, [] => some []
  | r, d :: ds =>
    allTiles.findSome? fun t => if s.offers r d t then (s.pack (r.take d t) ds).map (t :: ·) else none

/-- The declarations of all instances; none where they exceed the crews the package holds. -/
def instDecls (ns : List Node) : Option (List Decl) :=
  if (ns.map (·.inst)).sum ≤ 16 * 24 * Config.sites then some (ns.flatMap fun n => List.replicate n.inst n.decl) else none

/-- No place even on an empty device (Table 21.4). -/
def State.noFit (s : State) (ns : List Node) (cores : Bool) : Bool :=
  !(ns.all fun n => allTiles.any (s.offers emptyRoom n.decl)) ||
    (cores && ((instDecls ns).bind (s.pack emptyRoom)).isNone)

/-! ### Acceptance (R376, R388, R389) -/

/-- An entry point lies in an attested range of the task (R219). -/
def State.attestedEntry (s : State) (gtid : Word) (entry : Nat) : Bool :=
  s.tier.attested.any fun e => e.2.gtid == gtid && decide (e.2.va ≤ entry ∧ entry + 4 ≤ e.2.va + e.2.len)

/-- RefusalCheck of R394: the reason of Table 21.4, or 0. -/
def State.refusal (s : State) (w : List Nat) (graph : Option (List Node × List Edge)) (gtid : Word) (full mayPriv : Bool)
    (depth limit : Nat) : Nat :=
  if full then 1
  else if recLimit w ≤ 24 ∧ limit < depth then 2
  else
    match graph with
    | none => 3
    | some (ns, _) =>
      if s.noFit ns (bitAt (w.getD 0 0) 12) then 4
      else if ns.any fun n => n.decl.meters != 0 && !s.attestedEntry gtid n.entry then 5
      else if bitAt (w.getD 0 0) 13 && !mayPriv then 6
      else 0

/-- An event of a launch (Table 24.2). -/
def Launch.event (l : Launch) (sub : Nat) (t : LTime) : TraceEv :=
  { kind := 7, sub := sub, code := 0, crew := l.crew, tidx := 0, lt := t, gtid := l.task.gtid,
    payload := BitVec.ofNat 64 l.recordVa }

/-- Accept a launch: it takes the next place in the order of acceptance. -/
def State.accept (s : State) (l : Launch) : Nat × State :=
  let n := s.work.nextLaunch
  (n, ({ s with work := { s.work with launches := Map.put s.work.launches n l, nextLaunch := n + 1 } }).offer (l.event 0 l.lt))

/-- A launch as it is accepted. -/
def newLaunch (w : List Nat) (task : Task) (prio : Nat) (lt : LTime) (ns : List Node) (es : List Edge) : Launch :=
  { record := .phys 0, recordVa := 0, task := task, prio := prio, cores := bitAt (w.getD 0 0) 12, reserved := false,
    priv := bitAt (w.getD 0 0) 13, depth := 0, limit := recLimit w, lt := lt, nodes := ns, edges := es, parent := none,
    entry := none, crew := 0, sent := 0, recvd := 0, et := 0, terminated := false, quiet := none, ended := false }

/-- Refusals of LAUNCH. -/
def refused (reason : Nat) : Word := BitVec.ofNat 64 (2 ^ 63 + reason)

/-- The lowest free pending-launch entry (R388). -/
def State.freePend (s : State) : Option Nat :=
  (List.range Config.pendingEntries).find? fun n => (Map.get? s.work.pend n).isNone

/-- LAUNCH once its record and tables have been read: refuse it, or accept it; the line waits until gD is written (R394). -/
def Issue.launchRead (i : Issue) (s : State) (d : Reg) (va : Nat) (w : List Nat) (graph : Option (List Node × List Edge)) :
    Effect :=
  let t := (s.thread? i.k).getD i.t
  let parent := Map.get? s.work.launches i.c.launch
  let depth := 1 + parent.elim 0 (·.depth)
  let limit := min (parent.elim 24 (·.limit)) (recLimit w)
  let r := s.refusal w graph i.c.task.gtid s.freePend.isNone t.privl depth limit
  match s.freePend, graph with
  | some e, some (ns, es) =>
    if r ≠ 0 then i.finishLater s d (refused r) .reply
    else
      let own := field (w.getD 0 0) 8 4
      let prio := if t.privl then own else max own i.c.prio
      let l := newLaunch w i.c.task prio t.pts (ns.map fun n => { n with prio := prio }) es
      let s := s.countSent i.c.launch
      let (n, s) := s.accept { l with recordVa := va, depth := depth, limit := limit, parent := some i.c.launch,
                                      entry := some e, crew := i.crew }
      let p : PendEntry :=
        { launch := n, crew := i.crew, ended := false, et := 0, result := 0, joined := false, crewGone := false }
      i.finishLater { s with work := { s.work with pend := Map.put s.work.pend e p } } d (BitVec.ofNat 64 e) .reply
  | _, _ => i.finishLater s d (refused r) .reply

/-- LAUNCH (R394): the record, the node table and the edge table are sequential loads of the thread, all made before the record is
judged. -/
def execLaunch (p : Pred) (d a : Reg) (s : State) : Out :=
  issue p 8 { src := [a], dst := [d], drains := true } (fun i s =>
    let va := vaOf (i.reg a)
    if va % 256 ≠ 0 then .trap { code := codeAlign, addr := va, size := 7 }
    else
      i.afterDrain s fun s =>
        match s.readNow i.k va 256 128 with
        | (.error b, _) => .ofBlock b { size := 7 }
        | (.ok bs, s) =>
          let w := wordsOf bs
          match s.readNow i.k (vaBits (w.getD 1 0)) (64 * recNodes w) 128 with
          | (.error b, _) => .ofBlock b { size := 7 }
          | (.ok ns, s) =>
            match s.readNow i.k (vaBits (w.getD 3 0)) (8 * recEdges w) 128 with
            | (.error b, _) => .ofBlock b { size := 7 }
            | (.ok es, s) => i.launchRead s d va w (if recordSound w false then graphOf 0 ns es else none)) s

/-! ### JOIN, DONE and PRIO -/

/-- The pending entry a value names, held for a launch of the issuing crew (R395). -/
def Issue.pendOf (i : Issue) (s : State) (v : Word) : Option (Nat × PendEntry) :=
  if Config.pendingEntries ≤ v.toNat then none
  else ((Map.get? s.work.pend v.toNat).filter fun p => p.crew == i.crew && !p.joined && !p.crewGone).map fun p => (v.toNat, p)

/-- Free a pending entry, and the launch it held if that has ended. -/
def State.freeEntryOf (s : State) (e : Nat) (p : PendEntry) : State :=
  let gone := (Map.get? s.work.launches p.launch).elim false (·.ended)
  { s with work := { s.work with pend := Map.del s.work.pend e,
                                 launches := if gone then Map.del s.work.launches p.launch else s.work.launches } }

/-- Join of R395. -/
def Issue.join (i : Issue) (s : State) (d a : Reg) (test : Bool) : Effect :=
  match i.pendOf s (i.reg a) with
  | none => .user codeRange 0 (i.reg a).toNat
  | some (e, p) =>
    if !p.ended then (if test then i.put s d (BitVec.ofNat 64 (2 ^ 63)) else .waits 9 e)
    else i.put ((s.modThread i.k fun t => t.acquire p.et).freeEntryOf e p) d p.result

/-- JOIN (R395). -/
def execJoin (p : Pred) (d a : Reg) (s : State) : Out :=
  issue p 8 { src := [a], dst := [d] } (fun i s => i.join s d a false) s
/-- JOIN.T (R395). -/
def execJoinT (p : Pred) (d a : Reg) (s : State) : Out :=
  issue p 8 { src := [a], dst := [d] } (fun i s => i.join s d a true) s

/-- DONE (R396). -/
def execDone (p : Pred) (s : State) : Out :=
  issue p 8 { drains := true } (fun i s =>
    i.afterDrain s fun s =>
      match i.t.pend with
      | some r => .waits 1 r.reg.val
      | none =>
        let s := ((s.linesOf i.crew).filter fun e => e.1 != i.k).foldl (init := s) fun s e => s.terminate e.1
        .gone ((s.modCrew i.crew fun c => { c with terminated := true }).exitLine i.k)) s

/-- Set the priority of a launch's nodes (R397). -/
def Issue.setPrio (i : Issue) (s : State) (d : Reg) (launch : Nat) (v : Nat) : Effect :=
  if 15 < v then .user codeRange 0 v
  else
    let v := if i.t.privl then v else max v i.c.prio
    let old := (Map.get? s.work.launches launch).elim 0 (·.prio)
    i.put (s.modLaunch launch fun l => { l with prio := v, nodes := l.nodes.map fun n => { n with prio := v } }) d
      (BitVec.ofNat 64 old)

/-- PRIO (R397). -/
def execPrio (p : Pred) (d a : Reg) (b : Src) (s : State) : Out :=
  issue p 8 { src := a :: srcRegs b, dst := [d] } (fun i s =>
    match i.pendOf s (i.reg a) with
    | none => .user codeRange 0 (i.reg a).toNat
    | some (_, e) => i.setPrio s d e.launch (i.src b).toNat) s

/-- PRIO.SELF (R397). -/
def execPrioSelf (p : Pred) (d : Reg) (b : Src) (s : State) : Out :=
  issue p 8 { src := srcRegs b, dst := [d] } (fun i s => i.setPrio s d i.c.launch (i.src b).toNat) s

/-! ### Work lists (R398 to R400) -/

/-- Entries of a work list. -/
def workListSize : Nat := 1024

/-- The issuing crew's node holds its tile's list. -/
def Issue.holdsList (i : Issue) (s : State) : Bool := (s.tile i.c.tile).wlHolder == some (i.c.launch, i.c.node)

/-- A list that no node holds (notes/assumptions/42.md). -/
def Tile.wlFree (t : Tile) : Tile := { t with wlHolder := none, wl := [], wlEn := false, wlThresh := 0, wlMaxmv := 0 }

/-- WLADD (R399). -/
def execWladd (p : Pred) (d a : Reg) (s : State) : Out :=
  issue p 8 { src := [a], dst := [d], drains := true } (fun i s =>
    if !i.holdsList s then .user codeIllop
    else
      i.afterDrain s fun s =>
        let pts := (s.thread? i.k).elim i.t.pts (·.pts)
        if workListSize ≤ (s.tile i.c.tile).wl.length then i.put s d 1
        else i.put (s.modTile i.c.tile fun t => { t with wl := t.wl ++ [(i.reg a, pts)] }) d 0) s

/-- WLTAKE (R399). -/
def execWltake (p : Pred) (d c : Reg) (s : State) : Out :=
  issue p 8 { dst := [d] } (fun i s =>
    if !i.holdsList s then .user codeIllop
    else
      match (s.tile i.c.tile).wl.getLast? with
      | none => i.putFlag s c false
      | some e =>
        let s := s.modTile i.c.tile fun t => { t with wl := t.wl.dropLast }
        let s := s.modThread i.k fun t => (t.acquire e.2).setFlag c true
        i.put s d e.1) s

/-- WLCFG (R398). -/
def execWlcfg (p : Pred) (d : Reg) (s : State) : Out :=
  issue p 8 { dst := [d] } (fun i s =>
    match (s.tile i.c.tile).wlHolder with
    | none => i.put (s.modTile i.c.tile fun t => { t.wlFree with wlHolder := some (i.c.launch, i.c.node) }) d 0
    | some h => i.put s d (if h = (i.c.launch, i.c.node) then 0 else 1)) s

/-- WLCFG.REL (R398). -/
def execWlcfgRel (p : Pred) (d : Reg) (s : State) : Out :=
  issue p 8 { dst := [d] } (fun i s =>
    if !i.holdsList s then i.put s d 1
    else if (s.tile i.c.tile).wl.isEmpty then i.put (s.modTile i.c.tile Tile.wlFree) d 0
    else i.put s d 2) s

/-- The word of Table 21.8. -/
def Tile.wlWord (t : Tile) (own : Nat × Nat) : Nat :=
  t.wl.length + 2 ^ 11 * b2n (t.wlHolder == some own) + 2 ^ 12 * b2n (t.wlHolder.isSome && t.wlHolder != some own) +
    2 ^ 13 * b2n t.wlEn + 2 ^ 14 * t.wlThresh + 2 ^ 24 * t.wlMaxmv

/-- WLCFG.ST (R398). -/
def execWlcfgSt (p : Pred) (d : Reg) (s : State) : Out :=
  issue p 8 { dst := [d] } (fun i s => i.put s d (BitVec.ofNat 64 ((s.tile i.c.tile).wlWord (i.c.launch, i.c.node)))) s

/-- LVCFG (R400). -/
def execLvcfg (p : Pred) (b : Src) (s : State) : Out :=
  issue p 8 { src := srcRegs b } (fun i s =>
    let v := (i.src b).toNat
    if !i.holdsList s then .user codeIllop
    else if v / 2 ^ 21 ≠ 0 then .user codeRange 0 v
    else .retire (s.modTile i.c.tile fun t =>
      { t with wlEn := bitAt v 0, wlThresh := field v 1 10, wlMaxmv := field v 11 10 })) s

/-! ### The coach (R401) -/

/-- The tiles next to a tile in its die's grid of six columns, by rising number. -/
def adjacentTiles (tile : Nat) : List Nat :=
  let t := tile % 24
  let near (n : Nat) : Bool :=
    (n % 6 == t % 6 && (n / 6 == t / 6 + 1 || n / 6 + 1 == t / 6)) ||
      (n / 6 == t / 6 && (n % 6 == t % 6 + 1 || n % 6 + 1 == t % 6))
  ((List.range 24).filter near).map (tile / 24 * 24 + ·)

/-- The adjacent tile of the same holder with the fewest entries, the lowest-numbered of equals. -/
def State.coachTarget (s : State) (tile : Nat) (h : Nat × Nat) : Option Nat :=
  ((adjacentTiles tile).filter fun n => (s.tile n).wlHolder == some h).foldl (init := none) fun m n =>
    match m with
    | none => some n
    | some x => if (s.tile n).wl.length < (s.tile x).wl.length then some n else some x

/-- Move the `n` oldest entries of one list to another as its newest. -/
def State.coachMove (s : State) (src dst n : Nat) : State :=
  let es := (s.tile src).wl.take n
  (s.modTile src fun t => { t with wl := t.wl.drop n }).modTile dst fun t => { t with wl := t.wl ++ es }

/-- COACH_INTERVAL (R401): a list whose node has no crew left on its tile gives all it can. -/
def execCoachInterval (tile : Nat) (s : State) : Out :=
  .next <|
    let t := s.tile tile
    match t.wlHolder with
    | none => s
    | some h =>
      match s.coachTarget tile h with
      | none => s
      | some n =>
        let a := t.wl.length
        let b := (s.tile n).wl.length
        let room := workListSize - b
        let left := s.crews.any fun e => e.2.tile == tile && e.2.launch == h.1 && e.2.node == h.2 && !e.2.displaced
        if !left then s.coachMove tile n (min a room)
        else if t.wlEn ∧ b + t.wlThresh + 1 < a then s.coachMove tile n (min ((a - b) / 2) (min (t.wlMaxmv + 1) room))
        else s

/-! ### Reads of the pool and the desks -/

/-- An agent of a task at a tile that is no crew's. -/
def Task.agent (k : Task) (tile : Nat) (privl : Bool) (meters : Word) : Agent :=
  { tile := tile, crew := 0xFFFFF, home := tile, owner := k.owner, root := k.xlroot, privl := privl, meters := meters }

/-- Read through a task's tables at a logical time: the bytes, or a fault's code, or none while the home is busy. Only global
addresses and the weight store are reached so. -/
def State.readAs (s : State) (ag : Agent) (va n : Nat) (t : LTime) : Except (Option Nat) (List Byte) × State :=
  match s.resolveAll ag va .read (pieces 128 va (n / 128 + 2) n) with
  | (.error (.sys c), s) => (.error (some c), s)
  | (.error (.user c), s) => (.error (some c), s)
  | (.ok ps, s) =>
    let f := s.partsFault ps
    let reach := ps.all fun p => match p.target with
      | .phys _ => true
      | .ws _ => true
      | _ => false
    if !reach then (.error (some codeProt), s)
    else if f ≠ 0 then (.error (some f), s)
    else if ps.any fun p => s.homeBusy p.target then (.error none, s.snoop (linesOfParts ps))
    else if (s.wsWait ps).isSome then (.error none, s)
    else
      let (bs, _, s) := s.loadParts ag.tile 3 t ps
      (.ok bs, s)

/-- Read physical memory as it stands, under the owner that its span has, at a logical time (R378). -/
def State.readRaw (s : State) (pa n : Nat) (t : LTime) : Except (Option Nat) (List Byte × LTime) × State :=
  let owner := Map.getD s.mem.tags (pa / 512) 0
  let at_ := (pieces 128 pa (n / 128 + 2) n).map fun p => pa + p.1
  match at_.find? fun x => s.homeFault (.phys x) owner ≠ 0 with
  | some x => (.error (some (s.homeFault (.phys x) owner)), s)
  | none =>
  if at_.any fun x => s.homeBusy (.phys x) then (.error none, s.snoop (at_.map (· / 128)))
  else
    let (bs, t, s) := s.loadRange 0 (.phys pa) n 128 (bareAttr owner) 3 t
    (.ok (bs, t), s)

/-! ### Host launch queues (R377 to R379) -/

def State.hq (s : State) (q : Nat) : HostQueue := Map.getD s.work.hqs q HostQueue.reset
def State.modHq (s : State) (q : Nat) (f : HostQueue → HostQueue) : State :=
  { s with work := { s.work with hqs := Map.modify s.work.hqs q HostQueue.reset f } }

/-- HQTAIL_DOORBELL (R378): the write binds as a host store. -/
def execHqtailDoorbell (q : Fin 64) (v : BitVec 32) (s : State) : Out :=
  .next (s.modHq q.val fun h => { h with tail := v, time := s.mem.hostTime })

/-- A write of a queue's control word (Table 21.5, R379): LOG2N is taken while EN = 0, and EN := 1 clears ERR. -/
def HostQueue.control (h : HostQueue) (v : Word) : HostQueue :=
  let n := v.toNat
  let en := bitAt n 9
  { h with prio := n % 16, log2n := if h.en then h.log2n else min (field n 4 5) 16, en := en,
           err := if en then 0 else h.err }

/-- HQ_ENABLE_WRITE (R379). -/
def execHqEnableWrite (q : Fin 64) (v : Word) (s : State) : Out := .next (s.modHq q.val (·.control v))

/-- A write of HQBASE: ignored while EN = 1 (R379). -/
def HostQueue.setBase (h : HostQueue) (v : Word) : HostQueue :=
  if h.en then h else { h with base := field v.toNat 3 49 * 8 }

/-- A queue stops with an error. -/
def HostQueue.stop (h : HostQueue) (err : Nat) : HostQueue := { h with err := err, en := false }

/-- The entry names a place where a record can lie whole (R379). -/
def State.entrySound (s : State) (e : Nat) : Bool :=
  e % 256 == 0 && decide (e / 2 ^ 48 ≤ 5) && physPopulated e && physPopulated (e + 255) && !s.windowOut e

/-- Where a RESULT word goes, and the owner it is stored under: through the task's tables, or, for a host's record, where it lies;
nowhere if it may not be stored there (R392). -/
def State.resultPlace (s : State) (r : ResultWord) : Option (Target × Nat) × State :=
  if r.host then
    (if (Map.get? s.mem.tags ((r.at_ + 0x48) / 512)).elim true fun o => o == r.task.owner then
        some (.phys (r.at_ + 0x48), r.task.owner)
      else none, s)
  else
    match s.resolve (r.task.agent 0 r.priv (BitVec.allOnes 64)) (r.at_ + 0x48) 8 .write with
    | (.ok p, s) => (match p.target with
        | .phys pa => some (.phys pa, p.attr.owner)
        | _ => none, s)
    | (.error _, s) => (none, s)

/-- A RESULT word is stored: at once, or once its home answers, when it is translated again (R212, R392). Where it may not be
stored, or its home faults, nothing is written. -/
def State.sendResult (s : State) (r : ResultWord) : State :=
  match s.resultPlace r with
  | (none, s) => s
  | (some (tgt, owner), s) =>
    if s.homeBusy tgt then
      { s.snoop (linesOfParts [{ target := tgt, attr := bareAttr owner, bytes := 8 }]) with
        work := { s.work with results := s.work.results ++ [r] } }
    else if s.homeFault tgt owner ≠ 0 then s
    else (s.storeAt {} tgt 8 r.value (fullMask 8) owner r.time).2

/-- The RESULT words that wait are sent again. -/
def State.sendResults (s : State) : State :=
  s.work.results.foldl (init := { s with work := { s.work with results := [] } }) State.sendResult

/-- A host launch whose record has been read: its graph, or none where a table cannot be read (R379); the outer none while a
home is busy. -/
def State.hostGraph (s : State) (w : List Nat) (task : Task) (prio : Nat) (lt : LTime) :
    Option (Option (List Node × List Edge)) × State :=
  if !recordSound w true then (some none, s)
  else
    let ag := task.agent 0 (bitAt (w.getD 0 0) 13) 0
    match s.readAs ag (vaBits (w.getD 1 0)) (64 * recNodes w) lt with
    | (.error none, s) => (none, s)
    | (.error (some _), s) => (some none, s)
    | (.ok ns, s) =>
      match s.readAs ag (vaBits (w.getD 3 0)) (8 * recEdges w) lt with
      | (.error none, s) => (none, s)
      | (.error (some _), s) => (some none, s)
      | (.ok es, s) => (some (graphOf prio ns es), s)

/-- A host launch is accepted, or refused with its RESULT written (R378, R394). -/
def State.hostLaunch (s : State) (w : List Nat) (pa prio : Nat) (lt : LTime) (graph : Option (List Node × List Edge)) : State :=
  let task := recordTask w
  let r := s.refusal w graph task.gtid false true 0 (recLimit w)
  let no (s : State) : State :=
    s.sendResult { task := task, priv := false, host := true, at_ := pa, value := 1 + 2 ^ 8 * r, time := lt }
  match graph with
  | some (ns, es) =>
    if r = 0 then (s.accept { newLaunch w task prio lt ns es with record := .phys pa, recordVa := pa }).2 else no s
  | none => no s

/-- A queue that has an entry to accept. -/
def HostQueue.waits (h : HostQueue) : Bool := h.en && h.head != h.tail

/-- It is the turn of queue `q`: no other that has an entry comes between the one served last and it (R378). -/
def State.hqTurn (s : State) (q : Nat) : Bool :=
  s.work.hqs.all fun e => e.1 == q || !e.2.waits ||
    decide ((q + 63 - s.work.hqLast % 64) % 64 < (e.1 + 63 - s.work.hqLast % 64) % 64)

/-- HOST_LAUNCH_ACCEPT (R378, R379): the queues are served in turn, one acceptance each. A read whose home is busy leaves the queue as it is. -/
def execHostLaunchAccept (q : Fin 64) (s : State) : Out :=
  .next <|
    let h := s.hq q.val
    if !h.waits || !s.hqTurn q.val then s
    else if 2 ^ h.log2n < (h.tail - h.head).toNat then s.modHq q.val (·.stop 1)
    else
      let used (s : State) (f : HostQueue → HostQueue) : State :=
        let s := s.modHq q.val fun h => f { h with head := h.head + 1 }
        { s with work := { s.work with hqLast := q.val } }
      let busy (x : State) : State := { s with mem := { s.mem with snooped := x.mem.snooped } }
      match s.readRaw (h.base + 8 * (h.head.toNat % 2 ^ h.log2n)) 8 h.time with
      | (.error none, x) => busy x
      | (.error (some _), s) => used s (·.stop 3)
      | (.ok (bs, t), s) =>
        let pa := leNat bs
        if !s.entrySound pa then used s (·.stop 2)
        else
          match s.readRaw pa 256 t with
          | (.error none, x) => busy x
          | (.error (some _), s) => used s (·.stop 3)
          | (.ok (bs, lt), s) =>
            let w := wordsOf bs
            match s.hostGraph w (recordTask w) h.prio lt with
            | (none, x) => busy x
            | (some g, s) => used (s.hostLaunch w pa h.prio lt g) id

/-! ### The pool and the desks (R380 to R384) -/

/-- An instance of a node as it stands. -/
def Inst.pending : Inst := { state := .pending, site := 0, tile := 0, prio := 0, et := 0, crew := none }
def Node.instAt (n : Node) (i : Nat) : Inst := Map.getD n.insts i Inst.pending
def Node.endedCount (n : Node) : Nat := (n.insts.filter fun e => e.2.state == .ended).length
def Node.ended (n : Node) : Bool := n.endedCount == n.inst

/-- The edges into a node are satisfied for an instance (R381). -/
def Launch.satisfied (l : Launch) (n i : Nat) : Bool :=
  l.edges.all fun e => e.dst != n || (l.nodes[e.src]?).elim false fun f =>
    if e.one then (f.instAt i).state == .ended else f.ended

/-- BT of an instance (R381). -/
def Launch.bindTime (l : Launch) (n i : Nat) : LTime :=
  (l.edges.filter fun e => e.dst == n).foldl (init := l.lt) fun t e =>
    match l.nodes[e.src]? with
    | none => t
    | some f => if e.one then tmax t (f.instAt i).et else f.insts.foldl (init := t) fun t x => tmax t x.2.et

/-- The lowest-numbered ready instance of a node (R382). -/
def Launch.readyInst (l : Launch) (n : Nat) (nd : Node) : Option Nat :=
  (List.range nd.inst).find? fun i => (nd.instAt i).state == .pending && l.satisfied n i

/-- The crew's place is reserved for a co-resident launch, and the desks have still to set it up (R384, R386). -/
def State.settingUp (s : State) (crew : Nat) : Bool := s.work.launches.any fun e => e.2.toSetUp.any fun j => j.2.2.2 == crew

/-- Threads of a task that live (R385), those of crews still to be set up among them. -/
def State.liveThreads (s : State) (gtid : Word) : Nat :=
  (s.crews.map fun e =>
    if e.2.task.gtid ≠ gtid then 0
    else if s.settingUp e.1 then e.2.decl.threads
    else ((s.linesOf e.1).filter fun x => x.2.st != .exited).length).sum

/-- A co-resident launch accepted earlier, not yet bound, holds back launches of its priority number or above (R386). -/
def State.heldBack (s : State) (l prio : Nat) : Bool :=
  s.work.launches.any fun e => e.2.cores && !e.2.reserved && !e.2.ended && decide (e.1 < l ∧ e.2.prio ≤ prio)

/-- What a desk may select: priority, launch, node and instance (R382, R385). -/
def State.deskChoices (s : State) (site : Nat) : List (Nat × Nat × Nat × Nat) :=
  let r := s.room
  s.work.launches.flatMap fun (e : Nat × Launch) =>
    if e.2.cores || e.2.ended then []
    else
      ((List.range e.2.nodes.length).zip e.2.nodes).filterMap fun (x : Nat × Node) =>
        if s.heldBack e.1 x.2.prio || !(dieTiles site).any (s.offers r x.2.decl) ||
            decide (2 ^ 24 < s.liveThreads e.2.task.gtid + x.2.decl.threads) then none
        else (e.2.readyInst x.1 x.2).map fun i => (x.2.prio, e.1, x.1, i)

/-- The first in the order of R382: the launches and nodes are listed in order, so the least priority number decides. -/
def firstChoice (cs : List (Nat × Nat × Nat × Nat)) : Option (Nat × Nat × Nat × Nat) :=
  cs.foldl (init := none) fun m c =>
    match m with
    | none => some c
    | some x => if c.1 < x.1 then some c else some x

/-- Change an instance of a launch. -/
def State.modInst (s : State) (l n i : Nat) (f : Inst → Inst) : State :=
  s.modLaunch l fun x => { x with nodes := x.nodes.modify n fun nd => { nd with insts := Map.modify nd.insts i Inst.pending f } }

/-- The instance a desk has selected and not yet bound: launch, node and instance (notes/assumptions/43.md). -/
def State.selectedAt (s : State) (site : Nat) : Option (Nat × Nat × Nat) :=
  (s.work.launches.flatMap fun (e : Nat × Launch) =>
    ((List.range e.2.nodes.length).zip e.2.nodes).flatMap fun (x : Nat × Node) =>
      (x.2.insts.filter fun y => y.2.state == .selected && y.2.site == site).map fun y => (e.1, x.1, y.1)).head?

/-- DESK_SELECT (R382, R383). -/
def execDeskSelect (site : Nat) (s : State) : Out :=
  .next <|
    if Config.sites ≤ site ∨ (s.selectedAt site).isSome then s
    else
      match firstChoice (s.deskChoices site) with
      | none => s
      | some (prio, l, n, i) => s.modInst l n i fun x => { x with state := .selected, site := site, prio := prio }

/-- The lowest block of `n` consecutive crew numbers that no crew holds and no block of `taken` (R384). -/
def State.freeNumbers (s : State) (n : Nat) (taken : List (Nat × Nat) := []) : Option Nat :=
  let free (b : Nat) : Bool :=
    decide (b + n ≤ 0xFFFFE) && ((List.range n).all fun j => (s.crew? (b + j)).isNone) &&
      taken.all fun x => decide (b + n ≤ x.1 ∨ x.1 + x.2 ≤ b)
  ((0 :: (s.crews.map fun (e : Nat × Crew) => e.1 + 1) ++ taken.map fun (x : Nat × Nat) => x.1 + x.2).filter free).foldl (init := none) fun m b =>
    some (m.elim b (min b))

/-- Read `n` bytes in pieces of one line each: a line that cannot be read gives zeros (R419). Answers the bytes and the first
fault; none while a home is busy. -/
def State.bindRead (s : State) (ag : Agent) (va : Nat) (t : LTime) :
    List (Nat × Nat) → Option (List Byte × Option (Nat × Nat)) × State
  | [] => (some ([], none), s)
  | (o, n) :: ps =>
    match s.readAs ag (va + o) n t with
    | (.error none, s) => (none, s)
    | (.error (some c), s) =>
      match s.bindRead ag va t ps with
      | (none, s) => (none, s)
      | (some (bs, _), s) => (some (List.replicate n 0 ++ bs, some (c, va + o)), s)
    | (.ok b, s) =>
      match s.bindRead ag va t ps with
      | (none, s) => (none, s)
      | (some (bs, f), s) => (some (b ++ bs, f), s)

/-- 256 bytes at an address of a descriptor, zeros for address 0. -/
def State.bindTable (s : State) (ag : Agent) (va : Nat) (present : Bool) (t : LTime) :
    Option (List Byte × Option (Nat × Nat)) × State :=
  if present then s.bindRead ag (va % 2 ^ 56) t (pieces 128 (va % 2 ^ 56) 4 256)
  else (some (List.replicate 256 0, none), s)

/-- The record of R419. -/
def bindRecord (code gtid ident entry addr : Nat) : List Nat := [code, gtid, ident, entry, entry, addr, 0, 0]

/-- The lowest free hamper context of a die goes to a crew (R359). -/
def State.giveHamper (s : State) (site crew : Nat) : State :=
  match (List.finRange 8).find? fun n => ((s.site site).hamper[n]).crew.isNone with
  | some n => s.modHamper site n fun _ => { HamperCtx.reset with crew := some crew }
  | none => s

/-- The places of an instance are taken at a tile, under a crew number (R384): its crew, every register at its reset value, its
scratchpad and its hamper context. -/
def State.takePlace (s : State) (l : Nat) (x : Launch) (n : Nat) (nd : Node) (i tile num prio : Nat) : State :=
  let c : Crew :=
    { Crew.reset tile x.task nd.decl with launch := l, node := n, inst := i, priv := x.priv, prio := prio, bt := x.bindTime n i }
  let s := { s.setCrew num c with mem := { s.mem with mem := clearRange s.mem.mem (spadPa num 0) (2 ^ 20) } }
  let s := if nd.decl.hamper then s.giveHamper (tile / 24) num else s
  s.modInst l n i fun y => { y with state := .bound, site := tile / 24, tile := tile, prio := prio, crew := some num }

/-- A crew whose place is taken is set up: its mailbox and handles are read and its lines created (R384, R419); none while a home
is busy, or the crew has been displaced. -/
def State.setUp (s : State) (x : Launch) (nd : Node) (i num : Nat) : Option State × State :=
  match s.crew? num with
  | none => (none, s)
  | some c =>
    if c.displaced || c.saving then (none, s)
    else
      let ag := x.task.agent c.tile x.priv nd.decl.meters
      match s.bindTable ag (nd.mbox + 256 * i) (nd.mbox != 0) c.bt with
      | (none, s) => (none, s)
      | (some (mb, f0), s) =>
        match s.bindTable ag nd.handles (nd.handles != 0) c.bt with
        | (none, s) => (none, s)
        | (some (hs, f1), s) =>
          let fault := f0 <|> f1
          let hw := wordsOf hs
          let s := s.modCrew num fun c =>
            { c with
              mailbox := (wordsOf mb).map (BitVec.ofNat 64),
              handles := Vector.ofFn fun j : Fin 16 => handleBits (hw.getD (2 * j.val) 0 + 2 ^ 64 * hw.getD (2 * j.val + 1) 0) }
          let line (j : Nat) : Thread :=
            { Thread.reset with
              pc := BitVec.ofNat 56 nd.entry, st := if fault.isSome then .faulted else .ready, privl := x.priv,
              gtid := x.task.gtid, pts := c.bt, acq := c.bt, crewn := BitVec.ofNat 20 num, tidx := BitVec.ofNat 8 j,
              owner := BitVec.ofNat 16 x.task.owner, prio := BitVec.ofNat 4 c.prio }
          let s := (List.range nd.decl.threads).foldl (init := s) fun s j => s.createLine c.tile (threadKey num j) (line j)
          match fault with
          | none => (some s, s)
          | some (code, va) =>
            let ident := (s.thread? (threadKey num 0)).elim 0 (·.ident)
            let s := s.ringSend (s.mender num) (bindRecord code x.task.gtid.toNat ident nd.entry va) c.bt
            (some s, s)

/-- Bind an instance to a tile under a crew number (R384, R419); none while a home is busy. -/
def State.bindInst (s : State) (l : Nat) (x : Launch) (n : Nat) (nd : Node) (i tile num prio : Nat) : Option State × State :=
  (s.takePlace l x n nd i tile num prio).setUp x nd i num

/-- Only the snoops of an attempt that did not go through. -/
def State.onlySnoops (s x : State) : State := { s with mem := { s.mem with snooped := x.mem.snooped } }

/-- INSTANCE_BIND (R384): the instances of a node are bound in increasing number (R382). -/
def execInstanceBind (site : Nat) (s : State) : Out :=
  .next <|
    match s.selectedAt site with
    | none => s
    | some (l, n, i) =>
      match Map.get? s.work.launches l with
      | none => s
      | some x =>
        match x.nodes[n]? with
        | none => s
        | some nd =>
          match (dieTiles site).find? (s.offers s.room nd.decl), s.freeNumbers 1 with
          | some tile, some num =>
            if 2 ^ 24 < s.liveThreads x.task.gtid + nd.decl.threads ∨
                (nd.insts.any fun y => decide (y.1 < i) && y.2.state == .selected) then s
            else
              match s.bindInst l x n nd i tile num (nd.instAt i).prio with
              | (some s, _) => s
              | (none, y) => s.onlySnoops y
          | _, _ => s

/-- The blocks of crew numbers of a co-resident launch's nodes, in order (R384). -/
def State.numberBlocks (s : State) : List Node → List (Nat × Nat) → Option (List (Nat × Nat))
  | [], taken => some taken
  | nd :: rest, taken =>
    match s.freeNumbers nd.inst taken with
    | none => none
    | some first => s.numberBlocks rest (taken ++ [(first, nd.inst)])

/-- What a co-resident launch binds, by rising instance number (R384, R403): node, instance, tile and crew number; `tiles` holds
the tiles of the instances, node by node. -/
def Launch.jobs (x : Launch) (blocks : List (Nat × Nat)) (tiles : List Nat) : List (Nat × Nat × Nat × Nat) :=
  let names := ((List.range x.nodes.length).zip x.nodes).flatMap fun (e : Nat × Node) => (List.range e.2.inst).map fun i => (e.1, i)
  let all := (names.zip tiles).map fun j => (j.1.1, j.1.2, j.2, (blocks.getD j.1.1 (0, 0)).1 + j.1.2)
  (List.range ((x.nodes.map (·.inst)).foldl max 0)).flatMap fun i => all.filter fun j => j.2.1 == i

/-- The places of the instances of a co-resident launch are taken, all in one step (R384, R386). -/
def State.takeAll (s : State) (l : Nat) (x : Launch) (jobs : List (Nat × Nat × Nat × Nat)) : State :=
  jobs.foldl (init := s) fun s j => (x.nodes[j.1]?).elim s fun nd => s.takePlace l x j.1 nd j.2.1 j.2.2.1 j.2.2.2 nd.prio

/-- Set up the crews of a co-resident launch, one after another; none while a home is busy. No thread of the launch issues before
the last crew has been set up, so the model sets them up together. -/
def State.setUpAll (x : Launch) : List (Nat × Nat × Nat × Nat) → State → Option State × State
  | [], s => (some s, s)
  | (n, i, _, num) :: rest, s =>
    match x.nodes[n]? with
    | none => (none, s)
    | some nd =>
      match s.setUp x nd i num with
      | (some s, _) => State.setUpAll x rest s
      | (none, y) => (none, y)

/-- The tiles and crew numbers of a co-resident launch that the free resources of the device can hold (R384 to R386). -/
def State.coResident (s : State) (launch : Nat) (x : Launch) : Option (List (Nat × Nat × Nat × Nat)) :=
  let threads := (x.nodes.map fun n => n.inst * n.decl.threads).sum
  if !x.cores || x.reserved || x.ended || s.heldBack launch x.prio ||
      decide (2 ^ 24 < s.liveThreads x.task.gtid + threads) then none
  else
    match (instDecls x.nodes).bind (s.pack s.room), s.numberBlocks x.nodes [] with
    | some tiles, some blocks => some (x.jobs blocks tiles)
    | _, _ => none

/-- The crews of a co-resident launch whose places are taken are set up, once every home answers (R384, R419). -/
def State.setUpLaunch (s : State) (launch : Nat) : State :=
  match Map.get? s.work.launches launch with
  | none => s
  | some x =>
    if x.toSetUp.isEmpty then s
    else
      match State.setUpAll x x.toSetUp s with
      | (some s, _) => s.modLaunch launch fun x => { x with toSetUp := [] }
      | (none, y) => s.onlySnoops y

/-- CO_RESIDENT_BIND (R384, R386): the places of all instances are taken at the first moment when the device can hold them; the
desks then set up the crews. -/
def execCoResidentBind (launch : Nat) (s : State) : Out :=
  .next <|
    match Map.get? s.work.launches launch with
    | none => s
    | some x =>
      (match s.coResident launch x with
        | some jobs => (s.takeAll launch x jobs).modLaunch launch fun x => { x with reserved := true, toSetUp := jobs }
        | none => s).setUpLaunch launch

/-! ### Ends (R380, R381, R390 to R392) -/

/-- Everything a crew's instance still has to do is done (Table 21.6). -/
def State.closed (s : State) (crew : Nat) (c : Crew) : Bool :=
  let ls := s.linesOf crew
  !s.settingUp crew && ls.all (fun e => e.2.st == .exited && e.2.unbound.isEmpty && (s.wcOf e.1).isEmpty) &&
    c.timelines.toList.all (fun t => t.issued == t.done) && c.owed == 0 &&
    s.tiles.all fun e => !e.2.arrayQ.any (fun o => o.crew == crew) && !e.2.mangleQ.any (fun o => o.crew == crew) &&
      !e.2.momentQ.any fun m => crewOf m.thread == crew

/-- The end time of an instance (R381). -/
def State.endTime (s : State) (crew : Nat) (c : Crew) : LTime :=
  c.timelines.toList.foldl (init := (s.linesOf crew).foldl (init := c.et) fun t e => tmax t e.2.pts) fun t x => tmax t x.dt

/-- What a tile keeps for a crew goes with it. -/
def Tile.forget (t : Tile) (crew : Nat) : Tile :=
  let t := if t.mgHolder = some crew then { t.mgClear with mgHolder := none } else t
  { t with tables := t.tables.filter fun x => x.1 != crew, remaps := t.remaps.filter fun r => r.crew != crew }

/-- The crew lets go of the entries it holds: those of launches that have ended are free (R388). -/
def State.letGo (s : State) (crew : Nat) : State :=
  let own := s.work.pend.filter fun e => e.2.crew == crew && !e.2.crewGone
  own.foldl (init := s) fun s e =>
    if e.2.ended then s.freeEntryOf e.1 e.2
    else { s with work := { s.work with pend := Map.put s.work.pend e.1 { e.2 with crewGone := true } } }

/-- INSTANCE_END (R380, R381). -/
def execInstanceEnd (crew : Nat) (s : State) : Out :=
  .next <|
    match s.crew? crew with
    | none => s
    | some c =>
      if !s.closed crew c then s
      else
        let et := s.endTime crew c
        let s := s.modInst c.launch c.node c.inst fun x => { x with state := .ended, et := et }
        let s := s.modLaunch c.launch fun l => { l with et := tmax l.et et, terminated := l.terminated || c.terminated }
        let s := s.letGo crew
        let s := { s with
          crews := Map.del s.crews crew, threads := s.threads.filter fun e => crewOf e.1 != crew,
          tiles := s.tiles.map fun (e : Nat × Tile) => (e.1, e.2.forget crew),
          sites := s.sites.map fun (e : Nat × Site) =>
            (e.1, { e.2 with hamper := e.2.hamper.map fun (h : HamperCtx) => if h.crew = some crew then HamperCtx.reset else h }) }
        (s.wakeAwait (.granule crew)).saved crew c.tile

/-- A launch is active (R390). -/
def Launch.active (l : Launch) : Bool := l.nodes.any fun n => !n.ended

/-- The RESULT word of a launch that ends (R392, R394). -/
def Launch.resultWord (l : Launch) (v : Nat) : ResultWord :=
  { task := l.task, priv := l.priv, host := l.entry.isNone, at_ := l.recordVa, value := v, time := l.et }

/-- A launch ends (R391, R392): RESULT, its parent's count, its pending entry, the work lists of its nodes. -/
def State.endLaunch (s : State) (n : Nat) (l : Launch) : State :=
  let v := if l.terminated then 2 else 0
  let s := s.sendResult (l.resultWord v)
  let s := match l.parent with
    | some p => s.modLaunch p fun x => { x with recvd := x.recvd + 1, et := tmax x.et l.et }
    | none => s
  let s := { s with tiles := s.tiles.map fun (e : Nat × Tile) =>
    (e.1, if e.2.wlHolder.elim false (fun h => h.1 == n) then e.2.wlFree else e.2) }
  let s := s.offer (l.event 1 l.et)
  match l.entry.bind fun e => (Map.get? s.work.pend e).map fun p => (e, p) with
  | none => { s with work := { s.work with launches := Map.del s.work.launches n } }
  | some (e, p) =>
    let s := s.modLaunch n fun x => { x with ended := true }
    if p.crewGone then s.freeEntryOf e p
    else
      let p := { p with ended := true, et := l.et, result := BitVec.ofNat 64 v }
      ({ s with work := { s.work with pend := Map.put s.work.pend e p } }).wakeKind p.crew 9 fun o => o == e

/-- One launch in a sweep whose sums have been gathered (R391). -/
def State.sweepOne (s : State) (n : Nat) (l : Launch) : State :=
  let sums := (l.sent, l.recvd)
  if l.ended then s
  else if l.active then s.modLaunch n fun x => { x with quiet := none }
  else if l.sent = l.recvd ∧ l.quiet = some sums then s.endLaunch n l
  else s.modLaunch n fun x => { x with quiet := some sums }

/-- REDUCTION_SWEEP (R391); RESULT words that wait for their homes are sent again. -/
def execReductionSweep (s : State) : Out :=
  .next (s.work.launches.foldl (init := s.sendResults) fun s e => s.sweepOne e.1 e.2)

end Sys2Proof.Machine
end

