-- ==== Sys2Proof/Machine/Displace.lean ====
section
/-! DEFINITION. Displacing a crew and restoring it (R194 to R198, R316, R332, R372). -/

namespace Sys2Proof.Machine

/-! ### The save (R194) -/

/-- Accesses of a line that the save waits for: its own that do not go to a queue or to another crew's tile. -/
def Access.saveWaits (a : Access) : Bool :=
  !a.remote && match a.kind with
    | .ldq _ _ _ => false
    | _ => true

/-- What a displacement waits for has happened: array operations that run or have been dispatched, mangle operations, moment
instructions that have begun, and the lines' own accesses (notes/assumptions/44.md). -/
def State.saveReady (s : State) (crew : Nat) (c : Crew) : Bool :=
  let t := s.tile c.tile
  !c.displaced && !t.arrayQ.any (fun o => o.crew == crew && o.dispatched) && !t.mangleQ.any (fun o => o.crew == crew) &&
    !t.momentQ.any (fun m => crewOf m.thread == crew && m.begun) && decide (t.remaps.length < 8) && s.saveReach crew c &&
    (s.linesOf crew).all fun e => !e.2.unbound.any Access.saveWaits

/-- ST: the largest logical time of a crew's threads and engines (R197). -/
def State.saveClock (s : State) (crew : Nat) (c : Crew) : LTime :=
  let t := (s.linesOf crew).foldl (init := (0 : LTime)) fun t e => tmax t e.2.pts
  let t := c.timelines.toList.foldl (init := t) fun t x => tmax t x.dt
  let t := ((s.hamperOf (c.tile / 24) crew).elim t fun h => tmax t h.2.time)
  s.tiles.foldl (init := t) fun t e =>
    let t := (e.2.copies.filter fun x => x.2.crew == crew).foldl (init := t) fun t x => tmax t x.2.time
    (e.2.convQ.filter fun x => x.crew == crew).foldl (init := t) fun t x => tmax t x.time

/-- Bytes still to be written for a crew: of copies, of conversions, of LDQ elements. -/
def State.owedBytes (s : State) (crew : Nat) : Nat :=
  (s.tiles.map fun e =>
    ((e.2.copies.filter fun x => x.2.crew == crew).map fun x => x.2.total - x.2.bound).sum +
      ((e.2.convQ.filter fun x => x.crew == crew).map s.bytesLeft).sum).sum +
  ((s.linesOf crew).map fun e => (e.2.unbound.map fun a => match a.kind with
    | .ldq _ _ _ => ceilDiv a.width 8
    | _ => 0).sum + (e.2.landing.map fun x => x.2.2.2.size).sum).sum

/-- A line leaves its core, or its inn, for its memory slot (R161, R194). -/
def Thread.toMemory (t : Thread) : Thread :=
  match t.loc with
  | .memory => t
  | .parlour _ | .arriving _ _ => t.checkOut .memory
  | .inn _ | .toInn _ => { t with loc := .memory, pin := false }

/-- A crew's tile lets go of what the crew holds there: follow-ons that have not been dispatched, the mangle. Answers the
follow-ons. -/
def State.leaveTile (s : State) (crew : Nat) (c : Crew) : List ArrayOp × State :=
  let t := s.tile c.tile
  let own := t.mgHolder == some crew
  let kept := if own then some (t.mgBanks, t.mgSpilln, t.mgSpfull) else none
  let s := s.modTile c.tile fun t =>
    let t := { t with arrayQ := t.arrayQ.filter fun o => o.crew != crew,
                      tables := t.tables.filter fun x => x.1 != crew }
    if own then { t.mgClear with mgHolder := none } else t
  (t.arrayQ.filter fun o => o.crew == crew, s.modCrew crew fun c => { c with mgKept := kept })

/-- A hamper context whose streams have been closed, as a save finds it (R372). The model's choice: a stream that was open has
ended, and binning that was cut off leaves the context configured (notes/assumptions/86.md). -/
def HamperCtx.closed (h : HamperCtx) : HamperCtx :=
  { h with state := (match h.state with
             | .streaming => .ended
             | .binning => .configured
             | x => x), binsOk := false, bins := [], pos := [], watches := [],
           ops := [], stream := none, held := none }

/-- Write the save area: the first time every declared unit, later the units whose dirty bits are set, and the header's; the dirty
map names them (R196). -/
def State.writeArea (s : State) (crew : Nat) (c : Crew) : State :=
  let units := if c.lastSaved.isNone then c.saveUnits else (0 :: c.dirty).dedup
  let image := s.saveImage crew c ((units.map fun u => 2 ^ u).sum)
  let s := s.setCrew crew { c with lastSaved := some image, dirty := [] }
  s.writeSave crew c image (units.flatMap fun u => (List.range 32).map (32 * u + ·)) c.saveTime

/-- The save routine, once it need not wait. -/
def State.saveCrewNow (s : State) (crew : Nat) (c : Crew) : State :=
  let pre := s
  let time := s.saveClock crew c
  let ctx := s.hamperOf (c.tile / 24) crew
  let s := match ctx with
    | some (n, h) => (s.closeStreams crew h).modHamper (c.tile / 24) n HamperCtx.closed
    | none => s
  let s := (s.linesOf crew).foldl (init := s) fun s e => s.modThread e.1 Thread.toMemory
  let (follows, s) := s.leaveTile crew c
  let s := pre.noteDirty s
  let owed := s.owedBytes crew
  let s := s.modCrew crew fun c =>
    { c with displaced := true, saving := false, owed := if s.underWay crew then max 1 owed else 0, saves := c.saves + 1,
             saveTime := time }
  let s := match s.crew? crew with
    | some c => s.writeArea crew c
    | none => s
  let s := match ctx with
    | some (n, _) => s.modHamper (c.tile / 24) n fun _ => HamperCtx.reset
    | none => s
  let s := if s.underWay crew || !follows.isEmpty then
      s.modTile c.tile fun t => { t with remaps := t.remaps ++ [{ crew := crew, follows := follows }] }
    else s
  s.saved crew c.tile

/-- CREW_SAVE (R194): the crew's threads stop issuing, its entries drain, and the save waits for what is under way, and for lines
of the save area that the host holds, which it snoops (R212). -/
def execCrewSave (crew : Nat) (s : State) : Out :=
  .next <|
    let s := s.beginSave crew
    match s.crew? crew with
    | none => s
    | some c =>
      if !s.saveReady crew c then s
      else if (s.linesOf crew).any fun e => !(s.wcOf e.1).isEmpty then
        (s.linesOf crew).foldl (init := s) fun s e => s.markDraining e.1
      else
        let held := s.savesHeld crew c 4096 c.saveUnits
        if held.isEmpty then s.saveCrewNow crew c else s.snoop held

/-! ### The restore (R197) -/

/-- The bytes of a save area's units, through the root that wrote them; none where it cannot be read now. -/
def State.readArea (s : State) (crew : Nat) (c : Crew) : List Nat → Map Byte → Option (Map Byte) × State
  | [], m => (some m, s)
  | u :: us, m =>
    match s.resolve (c.saveAgent crew) (c.saveBase crew + 4096 * u) 4096 .read with
    | (.error _, s) => (none, s)
    | (.ok p, s) =>
      if (s.rangeFault p).isSome || (pieces 128 p.target.pos 34 4096).any fun x => s.homeBusy (p.target.plus x.1) then (none, s)
      else
        let (bs, _, s) := s.loadRange c.tile p.target 4096 128 (bareAttr p.attr.owner) 3 c.saveTime
        State.readArea s crew c us (imagePut m (4096 * u) bs)

/-- Word `n` of a part of an image. -/
def imageWord (m : Map Byte) (off n : Nat) : Nat := leNat (imageBytes m (off + 8 * n) 8)

/-- A barrier, a timeline and a queue as a save area holds them. -/
def barrierOf (m : Map Byte) (n : Nat) : Barrier :=
  let w (j : Nat) : Nat := imageWord m (0x400 + 64 * n) j
  { expected := field (w 0) 0 9, arrived := field (w 0) 9 9, phase := BitVec.ofNat 16 (field (w 0) 32 16),
    pending := BitVec.ofNat 48 (w 1), nt := BitVec.ofNat 56 (w 2), ct := BitVec.ofNat 56 (w 3) }

def timelineOf (m : Map Byte) (n : Nat) (t : Timeline) : Timeline :=
  let w (j : Nat) : Nat := imageWord m (0x600 + 64 * n) j
  { t with issued := BitVec.ofNat 64 (w 0), done := BitVec.ofNat 64 (w 1), dt := BitVec.ofNat 56 (w 2),
           failn := BitVec.ofNat 64 (w 3), failc := BitVec.ofNat 8 (w 4), more := BitVec.ofNat 8 (w 5) }

def queueOf (m : Map Byte) (n : Nat) (q : Queue) : Queue :=
  let w := imageWord m (0x780 + 16 * n) 0
  let bits := imageWord m (0x780 + 16 * n) 1
  { q with
    count := min (field w 0 5) 16, head := field w 10 4, limit := field w 14 5,
    slots := Vector.ofFn fun j : Fin 16 =>
      { val := BitVec.ofNat 64 (imageWord m (0x800 + 128 * n) j.val), filled := bitAt bits j.val, fault := bitAt bits (16 + j.val),
        ldq := false, fmt := (Map.getD m (0xC40 + 16 * n + j.val) 0).toNat } }

/-- The bytes a handle covers, when it carries the D flag: first and past the last (R197). -/
def discardOf (v : BitVec 128) : Option (Nat × Nat) :=
  let h := Handle.ofBits v
  if bitAt v.toNat 69 && h.len != 0 then
    let a := h.bytesOf 0
    let b := h.bytesOf (h.len - 1)
    some (min a.1 b.1, max a.2 b.2)
  else none

/-- Every byte of a span lies within the extent of a handle with the D flag. -/
def discardable (hs : List (Nat × Nat)) (span : Nat) : Bool :=
  (List.range 512).all fun b => hs.any fun h => decide (h.1 ≤ 512 * span + b ∧ 512 * span + b < h.2)

/-- Words of a part of an image whose key lies in a range, by key; zero words are not listed. -/
def imageMap (m : Map Byte) (off bytes : Nat) : Map Word :=
  (((m.filter fun e => decide (off ≤ e.1) && decide (e.1 < off + bytes)).map fun e => (e.1 - off) / 8).dedup).foldl
    (init := []) fun x k => Map.set x k 0 (BitVec.ofNat 64 (imageWord m off k))

/-- The banks of the mangle as a save area holds them, in the order of insertion (R332); what stands behind a bank's last entry at
coordinate 0 and value +0 is empty (notes/assumptions/76.md). -/
def mangleOf (m : Map Byte) : Vector (List (BitVec 32 × Word)) 8 :=
  Vector.ofFn fun b =>
    let entry (n : Nat) : BitVec 32 × Word :=
      let w (j : Nat) : Nat := imageWord m (0x80000 + 16 * (4096 * b.val + n)) j
      (BitVec.ofNat 32 (w 0), BitVec.ofNat 64 (w 1))
    let es := ((List.range bankSize).map entry).filter fun e => bankOf e.1 == b
    (es.reverse.dropWhile fun e => e.1 == 0 && e.2 == 0).reverse

/-- The registers of a crew as its save area holds them (R197); reserved fields read zero (R6). -/
def Crew.restored (c : Crew) (m : Map Byte) (gone : List Nat) : Crew :=
  let d := c.decl
  let reg (n : Nat) : Word := BitVec.ofNat 64 (imageWord m 0x100 n)
  let hs := Vector.ofFn fun j : Fin 16 => handleBits (leNat (imageBytes m (0x200 + 16 * j.val) 16))
  let st := c.saveTime
  let full (g : Nat) : Bool := !gone.contains (g / 32) && bitAt (Map.getD m (0x2000 + g / 8) 0).toNat (g % 8)
  { c with
    early := none,
    tvec := BitVec.ofNat 64 (field (reg 0).toNat 2 54 * 4), tarea := BitVec.ofNat 64 (field (reg 1).toNat 6 50 * 64),
    mctl := reg 2 &&& 7, mstat := reg 3 &&& 7, cvctl := reg 4 &&& 3, cvstat := reg 5 &&& 0xFFFFFFFF003F,
    acfg := BitVec.ofNat 64 (imageWord m 0x100 6 % 2 ^ 12),
    win := Vector.ofFn fun j : Fin 4 => winWrite (reg (7 + j.val)), mgspill := mgspillWrite (reg 11), handles := hs,
    mailbox := (List.range 32).map fun n => BitVec.ofNat 64 (imageWord m 0x300 n),
    barriers := Vector.ofFn fun j : Fin 8 => barrierOf m j.val,
    timelines := Vector.ofFn fun j : Fin 4 => timelineOf m j.val c.timelines[j],
    queues := Vector.ofFn fun j : Fin 8 => if j.val < d.queues then queueOf m j.val c.queues[j] else c.queues[j],
    kpred := BitVec.ofNat 8 (((List.range 8).map fun k => 2 ^ k * (imageWord m 0x700 k % 2)).sum),
    shapes := Vector.ofFn fun j : Fin 8 => BitVec.ofNat 64 (TileShape.ofBits (BitVec.ofNat 64 (imageWord m 0x740 j.val))).word,
    spadTag := [], tileTag := Vector.replicate 8 c.task.owner, accTag := Vector.replicate 8 c.task.owner,
    momTag := Vector.replicate 16 c.task.owner,
    momE := imageMap m 0x10000 (2048 * d.moments), accE := imageMap m 0x40000 (32768 * d.acc),
    tileB := (m.filter fun e => decide (0x20000 ≤ e.1) && decide (e.1 < 0x20000 + 16384 * d.tiles)).map
      fun e => (e.1 - 0x20000, e.2),
    gran := ((List.range (d.scratch / 16)).map fun g => (g, ({ full := full g, ft := st, et := st } : Granule))).filter
      fun e => e.2 != Granule.reset,
    span := if st = 0 then [] else (List.range (d.scratch / 512)).map fun n => (n, { wts := st, rts := st }) }

/-- The scratchpad of a crew as its save area holds it, its discardable spans zero. -/
def State.restoreSpad (s : State) (crew : Nat) (c : Crew) (m : Map Byte) (gone : List Nat) : State :=
  let base := spadPa crew 0
  let bytes := m.filter fun e =>
    decide (0x100000 ≤ e.1) && decide (e.1 < 0x100000 + c.decl.scratch) && !gone.contains ((e.1 - 0x100000) / 512)
  let mem := bytes.foldl (init := clearRange s.mem.mem base (2 ^ 20)) fun x e => Memory.write x (base + (e.1 - 0x100000)) e.2
  { s with mem := { s.mem with mem := mem } }

/-- The hamper's configuration comes back, its bins stale (R197, R372). -/
def State.restoreHamper (s : State) (site crew : Nat) (m : Map Byte) : State :=
  let stat := imageWord m 0x18020 0
  if !bitAt stat 7 then s
  else
    match (List.finRange 8).find? fun n => ((s.site site).hamper[n]).crew.isNone with
    | some n => s.modHamper site n fun _ =>
        { HamperCtx.reset with
          crew := some crew, desc := (List.range 8).map fun j => leNat (imageBytes m (0x18000 + 4 * j) 4),
          state := .configured, stale := true, nextBatch := imageWord m 0x18028 0 }
    | none => s

/-- Wake tokens and their times. -/
def Thread.restoreToken (t : Thread) (m : Map Byte) : Thread :=
  let at_ := 0x1000 + 16 * t.tidx.toNat
  { t with token := bitAt (imageWord m at_ 0) 0, wt := BitVec.ofNat 56 (imageWord m at_ 1) }

/-- A wait that the old tile would have ended: the line looks again at the new one. -/
def Await.ofTile : Await → Bool
  | .copySlot | .arraySlot | .hold _ | .mangle | .wcSlot _ | .bankWrite => true
  | _ => false

/-- Everything that waits on a displaced crew looks again. -/
def State.wakeRestored (s : State) (crew : Nat) : State :=
  let s := (s.linesOf crew).foldl (init := s) fun s e =>
    (if e.2.await.ofTile then s.modThread e.1 Thread.wake else s).wakeSenders e.1
  (s.wakeAwait .remote).wakeAwait (.granule crew)

/-- The follow-ons a remap entry keeps for a crew, those of a copy that has written its tile dispatched (R316). -/
def State.keptFollows (s : State) (crew : Nat) : List ArrayOp :=
  let stepped (id : Nat) : Bool := s.tiles.any fun e => e.2.copies.any fun x => x.2.stepped && x.2.follow == some id
  (s.tiles.flatMap fun e => (e.2.remaps.filter fun r => r.crew == crew).flatMap fun r => r.follows).map fun o =>
    { o with dispatched := o.dispatched || stepped o.id }

/-- A tile can take a displaced crew back (R197, R332, R385). -/
def State.mayRestore (s : State) (crew : Nat) (c : Crew) (tile : Nat) : Bool :=
  c.displaced && c.owed == 0 && !s.underWay crew && decide (tile < 24 * Config.sites) && s.offers s.room c.decl tile &&
    (c.mgKept.isNone || (s.tile tile).mgHolder.isNone) &&
    decide ((s.tile tile).arrayQ.length + (s.keptFollows crew).length ≤ Config.arraySlots)

/-- What a restore has made of a save area that held `m` (masked fields, spans that were discarded) counts as changed since the
save (R196). -/
def State.noteRestored (s : State) (crew : Nat) (m : Map Byte) : State :=
  s.modCrew crew fun c =>
    { c with lastSaved := some m,
             dirty := imageDiff 4096 m (s.saveImage crew (s.withMangle crew c) (leNat (imageBytes m 0xC00 64))) }

/-- CREW_RESTORE (R197). -/
def execCrewRestore (crew tile : Nat) (s : State) : Out :=
  .next <|
    match s.crew? crew with
    | none => s
    | some c =>
      if !s.mayRestore crew c tile then s
      else
        match s.readArea crew c c.saveUnits [] with
        | (none, _) => s.snoop (s.savesHeld crew c 4096 c.saveUnits)
        | (some m, s) =>
          let ext := ((List.range 16).map fun j => handleBits (leNat (imageBytes m (0x200 + 16 * j) 16))).filterMap discardOf
          let gone := if ext.isEmpty then [] else (List.range (c.decl.scratch / 512)).filter (discardable ext)
          let follows := s.keptFollows crew
          let s := s.setCrew crew { c.restored m gone with tile := tile, displaced := false, saving := false, mgKept := none }
          let s := s.restoreSpad crew c m gone
          let s := if c.decl.hamper then s.restoreHamper (tile / 24) crew m else s
          let s := { s with tiles := s.tiles.map fun (e : Nat × Tile) =>
            (e.1, { e.2 with remaps := e.2.remaps.filter fun r => r.crew != crew }) }
          let s := s.modTile tile fun t =>
            let t := { t with arrayQ := t.arrayQ ++ follows }
            match c.mgKept with
            | some k => { t with mgHolder := some crew, mgTag := Vector.replicate 8 c.task.owner, mgBanks := mangleOf m,
                                 mgSpilln := k.2.1, mgSpfull := k.2.2 }
            | none => t
          let s := (s.linesOf crew).foldl (init := s) fun s e => s.modThread e.1 fun t => t.restoreToken m
          (s.noteRestored crew m).wakeRestored crew

/-! ### Late writes (R198) -/

/-- Where the next segment of a copy would land in its own crew's scratchpad: offset and length. -/
def State.lateSegment (s : State) (op : CopyOp) (c : Crew) : Option (Nat × Nat) :=
  match op.kind, op.nextSegment with
  | .linear, some (off, len, _) =>
    let (_, dst, n, _) := s.segmentAt (c.agent op.crew) op off
    if dst / 2 ^ 52 = 9 ∧ spadCrew op.crew dst = op.crew then some (dst % 2 ^ 20, min n len) else none
  | _, _ => none

/-- REMAP_LATE_WRITE (R198): late bytes of a copy reach a displaced crew's save area through the remap table. -/
def execRemapLateWrite (crew off : Nat) (bytes : List Byte) (s : State) : Out :=
  .next <|
    match s.crew? crew with
    | none => s
    | some c =>
      let ops := s.tiles.flatMap fun (e : Nat × Tile) =>
        (e.2.copies.filter fun x => x.2.crew == crew).map fun (x : Nat × CopyOp) => (e.1, x.1, x.2)
      match (if c.displaced then ops else []).find? fun (x : Nat × Nat × CopyOp) =>
          s.lateSegment x.2.2 c == some (off, bytes.length) with
      | none => s
      | some (tile, n, op) =>
        let t := s.copyStep tile n op c
        if Memory.readBytes t.mem.mem (spadPa crew off) bytes.length = bytes then t else s

end Sys2Proof.Machine
end

