-- ==== Sys2Proof/Machine/Tier.lean ====
section
/-! DEFINITION. The tiers, keys, meters and attestation (R204 to R220): major opcodes 0xD6 to 0xDC, the porter's steps and the
commissioning of a replacement device. -/

namespace Sys2Proof.Machine

/-! ### MAPOUT (R209) -/

/-- The capacity of a house after its windows have been mapped out (Table 9.2). -/
def State.houseCap (s : State) (h : Nat) : Nat := field (s.ncap h) 0 40

/-- L2 holds a line of the layer window of an address. -/
def State.windowCached (s : State) (pa : Nat) : Bool := s.mem.l2.any fun e => layerWindow (e.1 * 128) == layerWindow pa

/-- MAPOUT (R209): whether a dirty line was lost is open where L2 holds lines of the window (notes/assumptions/24.md); none is
where it holds none of them. -/
def execMapout (p : Pred) (d a : Reg) (s : State) : Out :=
  issue p 8 { src := [a], dst := [d], drains := true, priv := true } (fun i s =>
    let pa := (i.reg a).toNat
    if 3 < pa / 2 ^ 48 ∨ !physPopulated pa then i.put s d 2
    else if s.windowOut pa then i.put s d 1
    else
      i.afterDrain s fun s =>
        let (lost, s) := s.choose
        let lost := lost && s.windowCached pa
        let h := houseOf pa
        let s := { s with mem := { s.mem with out := s.mem.out ++ [layerWindow pa] } }
        let ev := h + 2 ^ 4 * field pa 36 2 + 2 ^ 6 * field pa 32 4 + 2 ^ 10 * b2n lost
        let entry : Nat × Word × Word := (h, BitVec.ofNat 64 ev, BitVec.ofNat 64 (s.houseCap h))
        i.put { s with tier := { s.tier with events := s.tier.events ++ [entry] } } d 0) s

/-! ### MIGR and the porter (R210) -/

/-- A page-sized frame lies whole in a populated part of houses 0x0 to 0x5. -/
def State.frameOk (s : State) (pa size : Nat) : Bool :=
  pa % size == 0 && physPopulated pa && physPopulated (pa + size - 1) && !s.windowOut pa

/-- MIGR (R210). -/
def execMigr (p : Pred) (d a b : Reg) (t : Tl) (s : State) : Out :=
  issue p 8 { src := [a, b], dst := [d], priv := true } (fun i s =>
    let va := vaOf (i.reg a)
    let dst := (i.reg b).toNat
    let ag := s.agent i.t
    match (if va / 2 ^ 52 ≤ 7 then s.translate ag.tile ag.root va else (none, s)) with
    | (none, _) => .sys codeXlate va
    | (some e, s) =>
      let leaf := e.leaf.toNat
      if !pteG leaf && pteOwner leaf != ag.owner then .sys codeOwner va
      else if !s.frameOk dst e.size then .user codeRange 0 dst
      else
        let (num, s) := s.takeNumber i.crew t
        let m : Migration :=
          { crew := i.crew, tl := t, num := num, time := i.t.pts, va := e.va, leafAt := e.path.head?.getD 0, leaf := e.leaf,
            size := e.size, src := pteFrame leaf, dst := dst, moved := 0, failed := none }
        i.put { s with tier := { s.tier with migrations := s.tier.migrations ++ [m] } } d num) s

/-- Replace the migration that the porter works on. -/
def State.setMigration (s : State) (m : Migration) : State :=
  { s with tier := { s.tier with migrations := m :: s.tier.migrations.drop 1 } }

/-- Release the lines a migration has frozen; what waited on them looks again. -/
def State.unfreeze (s : State) (m : Migration) : State :=
  { s with mem := { s.mem with frozen := s.mem.frozen.filter fun l =>
      !(decide (m.src / 128 ≤ l) && decide (l < (m.src + m.size) / 128)) } }.wakeAwait .frozenLine

/-- The leaf a migration is to replace, as its entry stands: none where the entry is no leaf of its page size any more. -/
def State.leafNow (s : State) (m : Migration) : Option Nat :=
  let e := s.entryAt m.leafAt
  if pteValid e && !ptePointer e && pteFrame e % m.size == 0 then some e else none

/-- The porter moves the next line of its page: frozen at the source, decrypted and encrypted under the page's owner, written
at the destination at a time no read of the source lies above (R113). A line that cannot be read ends the migration. -/
def State.moveNext (s : State) (m : Migration) : State :=
  let src := m.src + 128 * m.moved
  let dst := m.dst + 128 * m.moved
  let owner := pteOwner m.leaf.toNat
  let f := s.homeFault (.phys src) owner
  let f := if f = 0 then s.homeFault (.phys dst) owner else f
  if f ≠ 0 then (s.setMigration { m with failed := some f }).unfreeze m
  else if s.homeBusy (.phys src) || s.homeBusy (.phys dst) then s.snoop [src / 128, dst / 128]
  else
    let (bs, t, s) := s.loadAt 0 (.phys src) 128 (bareAttr owner) 3 m.time
    let (t, s) := s.storeAt {} (.phys dst) 128 (leNat bs) (fullMask 128) owner (tmax t (s.lineLease (src / 128)).rts)
    let s := { s with mem := { s.mem with frozen := src / 128 :: s.mem.frozen } }
    s.setMigration { m with moved := m.moved + 1, time := t }

/-- The porter begins a migration when it comes to it: the page is the one the leaf then maps (notes/assumptions/89.md). -/
def State.moveLine (s : State) (m : Migration) : State :=
  if m.moved = 0 then
    match s.leafNow m with
    | some e => s.moveNext { m with leaf := BitVec.ofNat 64 e, src := pteFrame e }
    | none => s.setMigration { m with failed := some codeXlate }
  else s.moveNext m

/-- PORTER_LINE_MOVE (R210). -/
def execPorterLineMove (s : State) : Out :=
  .next <|
    match s.tier.migrations with
    | m :: _ => if m.failed.isNone ∧ 128 * m.moved < m.size then s.moveLine m else s
    | [] => s

/-- The leaf with another frame: everything else is kept. -/
def leafAtFrame (leaf frame : Nat) : Nat :=
  putField (putField leaf 42 4 (frame / 2 ^ 48)) 16 26 (frame / 2 ^ 16)

/-- A target that moves with its page. -/
def Target.moved (src dst size : Nat) : Target → Target
  | .phys pa => if src ≤ pa ∧ pa < src + size then .phys (dst + (pa - src)) else .phys pa
  | x => x

/-- Accesses that wait on frozen lines go to the new home: those issued and not bound, and write-combining entries. -/
def State.retarget (s : State) (m : Migration) : State :=
  let f := Target.moved m.src m.dst m.size
  let part (p : Part) : Part := { p with target := f p.target }
  { s with
    threads := s.threads.map fun (e : Nat × Thread) =>
      (e.1, { e.2 with unbound := e.2.unbound.map fun a => { a with parts := a.parts.map part } }),
    cores := s.cores.map fun (e : Nat × Core) =>
      (e.1, { e.2 with wc := e.2.wc.map fun w => { w with target := f w.target } }) }

/-- MIGRATION_COMPLETE (R210): the darner publishes the new leaf with a shootdown, or the page stays and the operation fails. -/
def execMigrationComplete (s : State) : Out :=
  .next <|
    match s.tier.migrations with
    | [] => s
    | m :: ms =>
      let gone (s : State) : State := { s with tier := { s.tier with migrations := ms } }
      match m.failed with
      | some c => (gone (s.unfreeze m)).opEnded m.crew m.tl m.num c m.time
      | none =>
        if 128 * m.moved < m.size then s
        else
          match s.leafNow m with
          | none => (gone (s.unfreeze m)).opEnded m.crew m.tl m.num codeXlate m.time
          | some e =>
            let (t, s) := s.publish {} m.leafAt (leafAtFrame e m.dst) m.time
            let s := (s.shootDown m.leafAt).retarget m
            (gone (s.unfreeze m)).opEnded m.crew m.tl m.num 0 t

/-! ### WSLD (R211) -/

/-- Write one source line into the weight store; a line that cannot be read writes zeros. Answers its fault code. -/
def State.wsLine (s : State) (p : Part) (off : Nat) (t : LTime) (tile : Nat) : Nat × LTime × State :=
  let f := s.homeFault p.target p.attr.owner
  let (bs, t, s) := if f ≠ 0 then (List.replicate 128 (0 : Byte), t, s) else s.loadAt tile p.target 128 p.attr 3 t
  let span := (wsBase + off) / 512
  let m := s.mem.retag p.attr.owner span
  let attr := 64 * b2n p.attr.metered + p.attr.mreg
  (f, t, { s with mem := { m with mem := Memory.writeBytes m.mem (wsBase + off) bs,
                                  wsMeter := Map.put m.wsMeter (off / 512) attr } })

/-- Write source lines one after another: the first fault's code, and the time after the reads. -/
def State.wsLines (tile : Nat) : List Part → (off : Nat) → LTime → State → Nat × LTime × State
  | [], _, t, s => (0, t, s)
  | p :: ps, off, t, s =>
    let (f, t, s) := s.wsLine p off t tile
    let (g, t, s) := State.wsLines tile ps (off + 128) t s
    (if f ≠ 0 then f else g, t, s)

/-- The first of WSLD's operands that breaks its limits. -/
def wsldRange (a b c : Nat) : Option Nat :=
  if a % 128 ≠ 0 then some a else if b % 128 ≠ 0 then some b else if c % 128 ≠ 0 then some c
  else if 2 ^ 28 < b + c then some (b + c) else none

/-- WSLD (R211): the line waits until all eight copies are written; reads of the banks wait meanwhile. The model's choice: a
metered destination span that the thread may not access raises PROT at the offset gB, after the source's checks (R217, R219;
notes/assumptions/90.md). -/
def execWsld (p : Pred) (d a b c : Reg) (s : State) : Out :=
  issue p 8 { src := [a, b, c], dst := [d], drains := true, priv := true } (fun i s =>
    let va := vaOf (i.reg a)
    let off := (i.reg b).toNat
    let n := (i.reg c).toNat
    match wsldRange va off n with
    | some v => .user codeRange 0 v
    | none =>
      let cut := pieces 128 va (n / 128 + 2) n
      match s.resolveAll (s.agent i.t) va .read cut with
      | (.error e, s) => .ofStop e (s.stopAt (s.agent i.t) va .read cut) { size := 7 }
      | (.ok ps, s) =>
        if ps.any fun x => match x.target with
            | .phys _ => false
            | _ => true then .stop { code := codeXlate, addr := va, size := 7 }
        else if s.wsBarred (s.agent i.t) off n then .stop { code := codeProt, addr := 8 * 2 ^ 52 + off, size := 7, store := true }
        else
          i.afterDrain s fun s =>
            if ps.any fun x => s.homeBusy x.target then .wait 0 0 .frozenLine fun s => s.snoop (linesOfParts ps)
            else if s.mem.wsWrite.isSome then .waits 0 0 .bankWrite
            else
              let pts := (s.thread? i.k).elim i.t.pts (·.pts)
              let (f, t, s) := State.wsLines (s.tileOfLine i.t) ps off pts s
              let s := { s with mem := { s.mem with wsWrite := some (off, n) } }
              i.finishLater (s.modThread i.k fun x => x.raise t) d (BitVec.ofNat 64 f) .wsld) s

/-- WSLD_COMPLETE (R211). -/
def execWsldComplete (thread : Nat) (s : State) : Out :=
  .next <|
    match s.thread? thread with
    | some t =>
      if t.st = .waiting ∧ t.await = .wsld then
        ({ s with mem := { s.mem with wsWrite := none } }.complete thread).wakeAwait .bankWrite
      else s
    | none => s

/-! ### Keys (R204, R207) -/

/-- Some access in flight, a write-combining entry among them, is made under an owner's key. -/
def State.keyInUse (s : State) (owner : Nat) : Bool :=
  s.threads.any (fun e => e.2.unbound.any fun a => a.parts.any fun p => p.attr.owner == owner) ||
    s.cores.any fun e => e.2.wc.any fun w => w.attr.owner == owner

/-- Lines of an owner that stand in memory under a key pair the owner no longer has: their bytes are free values. -/
def State.garble (s : State) (owner : Nat) : State :=
  let spans := (s.mem.tags.filter fun e => e.2 == owner && decide (e.1 * 512 < wsBase)).map (·.1)
  let lines := (spans.flatMap fun n => (List.range 4).map (4 * n + ·)).filter fun l => (Map.get? s.mem.leases l).isNone
  let mark := owner + 2 ^ 16 * (s.draws + 1)
  let mem := lines.foldl (init := s.mem.mem) fun m l =>
    (List.range 128).foldl (init := m) fun m j =>
      Memory.write m (128 * l + j) (Config.garbled owner mark (128 * l + j) (Memory.read m (128 * l + j)))
  { s with mem := { s.mem with mem := mem }, draws := s.draws + 1 }

/-- KEYSET (R207). -/
def execKeyset (p : Pred) (d a b : Reg) (s : State) : Out :=
  issue p 8 { src := [a, b], dst := [d], seq := true, priv := true } (fun i s =>
    let o := (i.reg a).toNat
    if 2 ^ 16 ≤ o then .user codeRange 0 o
    else if o = 0 then i.put s d 2
    else if (i.reg b).toNat % 64 ≠ 0 then .user codeAlign 0 (vaOf (i.reg b))
    else if s.keyPresent o then i.put s d 3
    else if Config.keyOwners ≤ s.mem.keys.length + 1 then i.put s d 1
    else
      match s.readNow i.k (vaOf (i.reg b)) 64 128 with
      | (.error e, _) => .ofBlock e { size := 6 }
      | (.ok bs, s) =>
        let k := leNat bs
        let s := if (Map.get? s.mem.lastKeys o).elim false (· != k) then s.garble o else s
        i.put { s with mem := { s.mem with keys := Map.put s.mem.keys o k, lastKeys := Map.put s.mem.lastKeys o k } } d 0) s

/-- KEYSET.DEL (R207). -/
def execKeysetDel (p : Pred) (d a : Reg) (s : State) : Out :=
  issue p 8 { src := [a], dst := [d], priv := true } (fun i s =>
    let o := (i.reg a).toNat
    if 2 ^ 16 ≤ o then .user codeRange 0 o
    else if o = 0 then i.put s d 2
    else if s.keyInUse o then .waits 0 0 .key
    else i.put { s with mem := { s.mem with keys := Map.del s.mem.keys o } } d 0) s

/-! ### SHA-256 (FIPS 180-4), for R216 and R218 -/

/-- The 64 round constants. -/
def shaK : List Nat :=
  [0x428a2f98, 0x71374491, 0xb5c0fbcf, 0xe9b5dba5, 0x3956c25b, 0x59f111f1, 0x923f82a4, 0xab1c5ed5] ++
  [0xd807aa98, 0x12835b01, 0x243185be, 0x550c7dc3, 0x72be5d74, 0x80deb1fe, 0x9bdc06a7, 0xc19bf174] ++
  [0xe49b69c1, 0xefbe4786, 0x0fc19dc6, 0x240ca1cc, 0x2de92c6f, 0x4a7484aa, 0x5cb0a9dc, 0x76f988da] ++
  [0x983e5152, 0xa831c66d, 0xb00327c8, 0xbf597fc7, 0xc6e00bf3, 0xd5a79147, 0x06ca6351, 0x14292967] ++
  [0x27b70a85, 0x2e1b2138, 0x4d2c6dfc, 0x53380d13, 0x650a7354, 0x766a0abb, 0x81c2c92e, 0x92722c85] ++
  [0xa2bfe8a1, 0xa81a664b, 0xc24b8b70, 0xc76c51a3, 0xd192e819, 0xd6990624, 0xf40e3585, 0x106aa070] ++
  [0x19a4c116, 0x1e376c08, 0x2748774c, 0x34b0bcb5, 0x391c0cb3, 0x4ed8aa4a, 0x5b9cca4f, 0x682e6ff3] ++
  [0x748f82ee, 0x78a5636f, 0x84c87814, 0x8cc70208, 0x90befffa, 0xa4506ceb, 0xbef9a3f7, 0xc67178f2]

/-- The initial hash value. -/
def shaInit : List (BitVec 32) :=
  [0x6a09e667#32, 0xbb67ae85#32, 0x3c6ef372#32, 0xa54ff53a#32, 0x510e527f#32, 0x9b05688c#32, 0x1f83d9ab#32, 0x5be0cd19#32]

/-- The big-endian 32-bit words of a list of bytes. -/
def shaWords : List Byte → List (BitVec 32)
  | a :: b :: c :: d :: r => (a ++ b ++ c ++ d) :: shaWords r
  | _ => []

/-- Extend the message schedule, newest word first, by `n` words. -/
def shaSchedule : Nat → List (BitVec 32) → List (BitVec 32)
  | 0, w => w
  | n + 1, w =>
    let x (k : Nat) : BitVec 32 := w.getD (k - 1) 0
    let s0 := (x 15).rotateRight 7 ^^^ (x 15).rotateRight 18 ^^^ (x 15) >>> 3
    let s1 := (x 2).rotateRight 17 ^^^ (x 2).rotateRight 19 ^^^ (x 2) >>> 10
    shaSchedule n ((x 16 + s0 + x 7 + s1) :: w)

/-- One round on the eight working variables. -/
def shaRound (h : List (BitVec 32)) (k w : BitVec 32) : List (BitVec 32) :=
  match h with
  | [a, b, c, d, e, f, g, x] =>
    let s1 := e.rotateRight 6 ^^^ e.rotateRight 11 ^^^ e.rotateRight 25
    let ch := (e &&& f) ^^^ (~~~e &&& g)
    let t1 := x + s1 + ch + k + w
    let s0 := a.rotateRight 2 ^^^ a.rotateRight 13 ^^^ a.rotateRight 22
    let maj := (a &&& b) ^^^ (a &&& c) ^^^ (b &&& c)
    [t1 + (s0 + maj), a, b, c, d + t1, e, f, g]
  | h => h

/-- One block of 64 bytes. -/
def shaBlock (h : List (BitVec 32)) (block : List Byte) : List (BitVec 32) :=
  let w := (shaSchedule 48 (shaWords block).reverse).reverse
  let r := ((shaK.map (BitVec.ofNat 32)).zip w).foldl (init := h) fun h x => shaRound h x.1 x.2
  (h.zip r).map fun x => x.1 + x.2

/-- All blocks in turn. -/
def shaBlocks : Nat → List (BitVec 32) → List Byte → List (BitVec 32)
  | 0, h, _ => h
  | n + 1, h, bs => shaBlocks n (shaBlock h (bs.take 64)) (bs.drop 64)

/-- The SHA-256 of a message, 32 bytes. -/
def sha256 (m : List Byte) : List Byte :=
  let pad := (119 - m.length % 64) % 64
  let bits := (natBytes 8 (8 * m.length)).reverse
  let bs := m ++ [0x80#8] ++ List.replicate pad 0 ++ bits
  (shaBlocks (bs.length / 64) shaInit bs).flatMap fun w => (natBytes 4 w.toNat).reverse

/-! ### Meters (R214 to R217) -/

/-- The body of METRD. -/
def Issue.meterRead (i : Issue) (s : State) (d : Reg) (b : Src) (f : Tier → Map Nat) : Effect :=
  let n := (i.src b).toNat
  if 63 < n then .user codeRange 0 n else i.put s d (BitVec.ofNat 64 (Map.getD (f s.tier) n 0))

/-- METRD (R215). -/
def execMetrd (p : Pred) (d : Reg) (b : Src) (s : State) : Out :=
  issue p 8 { src := srcRegs b, dst := [d] } (fun i s => i.meterRead s d b (·.bytes)) s
/-- METRD.N (R215). -/
def execMetrdN (p : Pred) (d : Reg) (b : Src) (s : State) : Out :=
  issue p 8 { src := srcRegs b, dst := [d] } (fun i s => i.meterRead s d b (·.reads)) s

/-- The attestation table as numbers. -/
def Tier.attWords (t : Tier) : List (List Nat) :=
  t.attested.map fun e => [e.1, e.2.hash, e.2.va, e.2.len, e.2.gtid.toNat, e.2.root]

/-- Bytes 0x000 to 0x4FF of a report (Table 9.4). -/
def Tier.report (t : Tier) (nonce : Word) (final : Bool) : List Byte :=
  let w (n : Nat) : List Byte := natBytes 8 n
  w 1 ++ w Config.serial.toNat ++ w (t.seq + 1) ++ w nonce.toNat ++ w (b2n final + 2 * b2n (final || t.locked)) ++
    w (t.predSer.elim 0 BitVec.toNat) ++ natBytes 32 t.predHash ++ natBytes 32 (Config.attHash t.attWords) ++
    List.replicate 144 0 ++
    (List.range 64).flatMap fun n => w (Map.getD t.bytes n 0) ++ w (Map.getD t.reads n 0)

/-- A big-endian 32-bit word, as RFC 8554 writes its numbers. -/
def beWord (n : Nat) : List Byte := (natBytes 4 n).reverse

/-- Type codes of RFC 8554: LMOTS_SHA256_N32_W8 and LMS_SHA256_M32_H20 (R216). -/
def lmotsType : Nat := 4
def lmsType : Nat := 8

/-- One LMS signature of RFC 8554: leaf number, one-time signature, type and path. The bytes that keys decide are free values:
`f` gives them by their place. -/
def lmsSignature (q : Nat) (f : Nat → Byte) : List Byte :=
  beWord q ++ beWord lmotsType ++ (List.range 1120).map f ++ beWord lmsType ++ (List.range 640).map fun n => f (1120 + n)

/-- An LMS public key: types, identifier and root. -/
def lmsPublicKey (f : Nat → Byte) : List Byte := beWord lmsType ++ beWord lmotsType ++ (List.range 48).map f

/-- The HSS public key of the device: L = 2 and the key of the top level. The spec places it in system space unit 0xA and gives
no offset there (R216). -/
def hssPublicKey : List Byte := beWord 2 ++ lmsPublicKey Config.hssPub

/-- The 3,604-byte HSS signature of report `n`, counted from 0, whose bytes hash to `hash` (R216): the top level signs a key for
2^20 reports (RFC 8554; notes/assumptions/80.md). -/
def hssSignature (n hash : Nat) : List Byte :=
  let top := n / 2 ^ 20
  beWord 1 ++ lmsSignature top (Config.hssTop top) ++ lmsPublicKey (fun i => Config.hssTop top (1760 + i)) ++
    lmsSignature (n % 2 ^ 20) (Config.hssByte n hash)

/-- The whole 8 KiB buffer: report, signature, zeros. -/
def Tier.reportBuffer (t : Tier) (nonce : Word) (final : Bool) : List Byte :=
  let r := t.report nonce final
  let sig := hssSignature t.seq (leNat (sha256 r))
  r ++ sig ++ List.replicate (8192 - 1280 - 3604) 0

/-- What a fault on the report's way to memory says of its 128-byte store. -/
def reportShape (buf : List Byte) (off : Nat) : AccShape :=
  { size := 7, store := true, data := leNat (slice buf (off / 128 * 128) 8) }

/-- The body of METSIGN: the report is written, and the line waits for the signature (R216). An entry of the thread that holds a
block of the buffer drains first (R117). -/
def Issue.metsign (i : Issue) (s : State) (d a b : Reg) (final : Bool) : Effect :=
  let va := vaOf (i.reg a)
  let buf := s.tier.reportBuffer (i.reg b) final
  if va % 8192 ≠ 0 then .trap { code := codeAlign, addr := va, size := 7, store := true, data := (reportShape buf 0).data }
  else
    match s.resolve (s.agent i.t) va 8192 .write with
    | (.error e, _) => .ofStop e va (reportShape buf 0)
    | (.ok p, s) =>
      let blocks := (List.range 128).map fun n => { p with target := p.target.plus (64 * n), bytes := 64 }
      if 2 ^ 40 ≤ s.tier.seq then i.put s d 1
      else if s.wcHolds i.k blocks then .wait 0 0 .accesses fun s => s.drainBlocks i.k blocks
      else
        match s.writeNow i.k va 128 buf with
        | (.error (.home c x), _) => .ofBlock (.home c x) (reportShape buf (x - va))
        | (.error e, _) => .ofBlock e (reportShape buf 0)
        | (.ok _, s) =>
          i.finishLater { s with tier := { s.tier with seq := s.tier.seq + 1, locked := s.tier.locked || final } } d 0 .reply

/-- METSIGN (R216). -/
def execMetsign (p : Pred) (d a b : Reg) (s : State) : Out :=
  issue p 8 { src := [a, b], dst := [d], seq := true, priv := true } (fun i s => i.metsign s d a b false) s
/-- METSIGN.FINAL (R217). -/
def execMetsignFinal (p : Pred) (d a b : Reg) (s : State) : Out :=
  issue p 8 { src := [a, b], dst := [d], seq := true, priv := true } (fun i s => i.metsign s d a b true) s

/-- PREDECESSOR_COMMISSION (R217): the field is written once. -/
def execPredecessorCommission (serial : Word) (hash : Nat) (s : State) : Out :=
  .next <|
    if s.tier.predSer.isSome then s
    else { s with tier := { s.tier with predSer := some serial, predHash := hash % 2 ^ 256 } }

/-! ### Attestation (R218) -/

/-- The text of a range, piece by piece: every page must translate with X = 1 (R218), and a metered one be open to the thread
(R217, R219). -/
def State.attestParts (s : State) (ag : Agent) (va : Nat) : List (Nat × Nat) → Except (Option Stop) (List Part) × State
  | [] => (.ok [], s)
  | (o, n) :: ps =>
    match s.translate ag.tile ag.root (va + o) with
    | (none, s) => (.error none, s)
    | (some e, s) =>
      let leaf := e.leaf.toNat
      if !pteG leaf && pteOwner leaf != ag.owner then (.error (some (.sys codeOwner)), s)
      else if !pteX leaf then (.error none, s)
      else if pteM leaf && s.meterBarred ag (pteMreg leaf) then (.error (some (.sys codeProt)), s)
      else
        match s.attestParts ag va ps with
        | (.error x, s) => (.error x, s)
        | (.ok rest, s) =>
          (.ok ({ target := .phys (pteFrame leaf + (va + o - e.va)), attr := leafAttr leaf, bytes := n } :: rest), s)

/-- The free entry of the attestation table that ATTEST takes: the lowest, by the model's choice (R218;
notes/assumptions/95.md). -/
def State.freeAttest (s : State) : Option Nat :=
  (List.range Config.attestEntries).find? fun n => (Map.get? s.tier.attested n).isNone

/-- A piece cut where two 64-byte blocks meet. -/
def halves (p : Part) : List Part :=
  let n := 64 - p.target.pos % 64
  if p.bytes ≤ n then [p] else [{ p with bytes := n }, { p with target := p.target.plus n, bytes := p.bytes - n }]

/-- ATTEST (R218). -/
def execAttest (p : Pred) (d a b : Reg) (s : State) : Out :=
  issue p 8 { src := [a, b], dst := [d], seq := true, priv := true } (fun i s =>
    let va := vaOf (i.reg a)
    let n := (i.reg b).toNat
    let no (s : State) : Effect := i.put s d (BitVec.allOnes 64)
    match s.freeAttest with
    | none => no s
    | some e =>
      if va % 4 ≠ 0 ∨ n % 4 ≠ 0 ∨ n < 4 ∨ 2 ^ 24 < n ∨ 8 * 2 ^ 52 < va + n then no s
      else
        let ag := s.agent i.t
        match s.attestParts ag va (pieces 128 va (n / 128 + 2) n) with
        | (.error none, s) => no s
        | (.error (some x), _) => .ofStop x va { size := 7 }
        | (.ok ps, s) =>
          let f := s.partsFault ps
          if f ≠ 0 then .stop { code := f, deferred := true, addr := s.homeFaultAt va ps, size := 7 }
          else if ps.any fun x => s.homeBusy x.target then .wait 0 0 .frozenLine fun s => s.snoop (linesOfParts ps)
          else
            let (bs, t, s) := s.loadParts ag.tile 3 i.t.pts ps
            let bs := s.overlayAll i.k (ps.flatMap halves) (bs)
            let x : Attested := { hash := leNat (sha256 bs), va := va, len := n, gtid := i.c.task.gtid, root := i.c.task.xlroot }
            let s := { s with tier := { s.tier with attested := Map.put s.tier.attested e x } }
            i.put (s.modThread i.k fun y => y.acquire t) d (BitVec.ofNat 64 e)) s

/-- ATTEST.REV (R218). -/
def execAttestRev (p : Pred) (d a : Reg) (s : State) : Out :=
  issue p 8 { src := [a], dst := [d], priv := true } (fun i s =>
    let n := (i.reg a).toNat % 256
    i.put { s with tier := { s.tier with attested := Map.del s.tier.attested n } } d 0) s

end Sys2Proof.Machine
end

