-- ==== Sys2Proof/Machine/Trace.lean ====
section
/-! DEFINITION. Tracing, breakpoints, slot counters and the test access port (R404 to R417): major opcodes 0xE0 to 0xE5 and the
events of the trace unit and the port. -/

namespace Sys2Proof.Machine

/-! ### TRACE, LCLK, BKPT -/

/-- TRACE (R412). -/
def execTrace (p : Pred) (code : BitVec 16) (a : Reg) (s : State) : Out :=
  issue p 8 { src := [a] } (fun i s => .retire (s.offerOf i.k 0 0 code.toNat (i.reg a))) s

/-- LCLK (R413). -/
def execLclk (p : Pred) (d : Reg) (s : State) : Out :=
  issue p 8 { dst := [d] } (fun i s => i.put s d (i.t.pts.setWidth 64)) s
/-- LCLK.ACQ (R413). -/
def execLclkAcq (p : Pred) (d : Reg) (s : State) : Out :=
  issue p 8 { dst := [d] } (fun i s => i.put s d (i.t.acq.setWidth 64)) s

/-- BKPT (R414). -/
def execBkpt (p : Pred) (n : BitVec 16) (s : State) : Out := issue p 8 {} (fun _ _ => .user codeBkpt n.toNat) s

/-! ### SAMPLE and SLOTRD (R415, R417) -/

/-- The core that a target word names: RANGE where a bit of 63:11 is set. -/
def targetCore (v : Word) (body : Option Nat → Effect) : Effect :=
  if 2 ^ 11 ≤ v.toNat then .user codeRange 0 v.toNat else body (coreTarget v.toNat)

def SlotClass.code : SlotClass → Nat
  | .issued => 0 | .memory => 1 | .message => 2 | .vacant => 3

/-- The class a line of another core has in the sample cycle: whether a ready line issues in that cycle is left open. -/
def State.sampleClass (s : State) (t : Thread) (core : Nat) : Nat × State :=
  if t.loc = .parlour core ∧ t.st = .ready ∧ t.fetchStall.isNone then
    let (c, s) := s.choose
    (if c then 0 else 3, s)
  else (t.slotClass.code, s)

/-- The word SAMPLE writes: the issuing line itself is the last that its own core has issued. -/
def Issue.sampleWord (i : Issue) (s : State) (core : Nat) : Nat × State :=
  if i.t.entryCore = some core then (i.t.pc.toNat + 2 ^ 59, s)
  else
    let c := s.core core
    match c.lastKey with
    | none => (0, s)
    | some k =>
      let (n, s) := match s.thread? k with
        | some t => s.sampleClass t core
        | none => (3, s)
      (c.lastPc.toNat + 2 ^ 56 * n + 2 ^ 59, s)

/-- SAMPLE (R415): the snapshot is taken in the cycle of issue, and the line waits for it. -/
def execSample (p : Pred) (d a : Reg) (s : State) : Out :=
  issue p 8 { src := [a], dst := [d], priv := true } (fun i s =>
    targetCore (i.reg a) fun c =>
      match c with
      | none => i.finishLater s d 0 .reply
      | some c =>
        if (s.core c).mappedOut || (s.tile (c / 8)).mappedOut then i.finishLater s d 0 .reply
        else
          let (v, s) := i.sampleWord s c
          i.finishLater s d (BitVec.ofNat 64 v) .reply) s

/-- A counter of Table 24.4; none for a selector not in it. -/
def Core.counter (c : Core) (n : Nat) : Option Word :=
  match n with
  | 0 => some c.cyc
  | 1 => some c.iss
  | 2 => some c.vac
  | 3 => some c.lmem
  | 4 => some c.lmsg
  | 5 => some c.lvac
  | _ => if 8 ≤ n ∧ n ≤ 40 then some (Map.getD c.hist (n - 8) 0) else none

/-- Clear a counter. -/
def Core.clearCounter (c : Core) (n : Nat) : Core :=
  match n with
  | 0 => { c with cyc := 0 }
  | 1 => { c with iss := 0 }
  | 2 => { c with vac := 0 }
  | 3 => { c with lmem := 0 }
  | 4 => { c with lmsg := 0 }
  | 5 => { c with lvac := 0 }
  | _ => { c with hist := Map.del c.hist (n - 8) }

/-- The body of SLOTRD: read, and cleared, in one step; the line waits for the answer. -/
def Issue.slotRead (i : Issue) (s : State) (d a : Reg) (n : Nat) (clear : Bool) : Effect :=
  targetCore (i.reg a) fun c =>
    match (Core.reset.counter n).isSome, c with
    | false, _ => .user codeIllop
    | true, none => i.finishLater s d 0 .reply
    | true, some c =>
      let s := s.catchUp c
      let v := ((s.core c).counter n).getD 0
      i.finishLater (if clear then s.modCore c fun x => x.clearCounter n else s) d v .reply

/-- SLOTRD (R417). -/
def execSlotrd (p : Pred) (d a : Reg) (n : BitVec 6) (s : State) : Out :=
  issue p 8 { src := [a], dst := [d], priv := true } (fun i s => i.slotRead s d a n.toNat false) s
/-- SLOTRD.CLR (R417). -/
def execSlotrdClr (p : Pred) (d a : Reg) (n : BitVec 6) (s : State) : Out :=
  issue p 8 { src := [a], dst := [d], priv := true } (fun i s => i.slotRead s d a n.toNat true) s

/-! ### TRIGSET (R416) -/

/-- Change the debug state. -/
def State.modDbg (s : State) (f : Debug → Debug) : State := { s with dbg := f s.dbg }

/-- A TRIGSET: a value out of order raises RANGE; else the change is in force from the following cycle (R416). -/
def Issue.trig (i : Issue) (s : State) (d : Reg) (bad : Option Word) (x : TrigChange) : Effect :=
  match bad with
  | some v => .user codeRange 0 v.toNat
  | none => i.put (s.modDbg fun b => { b with later := b.later ++ [x] }) d 0

/-- The ring of TRIGSET.BUF lies in populated memory of houses 0x0 to 0x5, whole. -/
def State.ringOk (s : State) (base size : Nat) : Bool :=
  base % 4096 == 0 && [base, base + 32 * size - 1].all fun pa => physPopulated pa && !s.windowOut pa

/-- A ring size of TRIGSET.BUF: a power of two in 128 to 2^20. -/
def ringSizeOk (n : Nat) : Bool := (List.range 14).any fun j => n == 2 ^ (j + 7)

/-- Install a ring, or take it away (notes/assumptions/20.md: records that await writing go with the old one). -/
def Debug.setRing (x : Debug) (base size : Nat) : Debug :=
  if base = 0 then { x with bufv := false, on := false, awaiting := [] }
  else { x with base := base, size := size, bufv := true, next := 0, drop := 0, on := false, awaiting := [] }

/-- Carry out a change. -/
def Debug.change (x : Debug) : TrigChange → Debug
  | .buf base size => x.setRing base size
  | .start v => { x with start := v }
  | .stop v => { x with stop := v }
  | .bp slot b => { x with bps := x.bps.set slot b }
  | .mask v => { x with mask := v }

/-- The state of the following cycle: every change has been made. -/
def Debug.settled (x : Debug) : Debug := { x.later.foldl (init := x) Debug.change with later := [] }

/-- TRIGSET.BUF. -/
def execTrigsetBuf (p : Pred) (d a b : Reg) (s : State) : Out :=
  issue p 8 { src := [a, b], dst := [d], priv := true } (fun i s =>
    let base := (i.reg a).toNat
    let size := (i.reg b).toNat
    let bad := if base = 0 then none
      else if !ringSizeOk size then some (i.reg b)
      else if !s.ringOk base size then some (i.reg a) else none
    i.trig s d bad (.buf base size)) s

/-- A condition word that breaks Table 24.3. -/
def badCondition (v : Word) : Option Word :=
  let n := v.toNat
  if 4 ≤ n % 16 ∨ field n 7 9 ≠ 0 ∨ n / 2 ^ 32 ≠ 0 then some v else none

/-- TRIGSET.START. -/
def execTrigsetStart (p : Pred) (d a : Reg) (s : State) : Out :=
  issue p 8 { src := [a], dst := [d], priv := true } (fun i s =>
    i.trig s d (badCondition (i.reg a)) (.start (i.reg a))) s
/-- TRIGSET.STOP. -/
def execTrigsetStop (p : Pred) (d a : Reg) (s : State) : Out :=
  issue p 8 { src := [a], dst := [d], priv := true } (fun i s =>
    i.trig s d (badCondition (i.reg a)) (.stop (i.reg a))) s

/-- TRIGSET.BP. -/
def execTrigsetBp (p : Pred) (d a b : Reg) (slot : Fin 8) (s : State) : Out :=
  issue p 8 { src := [a, b], dst := [d], priv := true } (fun i s =>
    let v := (i.reg b).toNat
    let bp : Bp := { gtid := i.reg a, pc := BitVec.ofNat 56 v, en := bitAt v 63, stop := bitAt v 62 }
    i.trig s d (if v % 4 ≠ 0 ∨ field v 56 6 ≠ 0 then some (i.reg b) else none) (.bp slot bp)) s

/-- TRIGSET.MASK: bits 1 and 2 are ignored. -/
def execTrigsetMask (p : Pred) (d a : Reg) (s : State) : Out :=
  issue p 8 { src := [a], dst := [d], priv := true } (fun i s =>
    let v := i.reg a
    i.trig s d (if 2 ^ 8 ≤ v.toNat then some v else none) (.mask (v.setWidth 8 &&& 0xF9#8))) s

/-- The word of Table 24.8. -/
def Debug.statWord (x : Debug) : Nat := b2n x.on + 2 * b2n x.bufv + 2 ^ 8 * x.drop + 2 ^ 32 * x.next.toNat

/-- TRIGSET.ST: the word with every earlier change in force. -/
def execTrigsetSt (p : Pred) (d : Reg) (s : State) : Out :=
  issue p 8 { dst := [d], priv := true } (fun i s => i.put s d (BitVec.ofNat 64 s.dbg.settled.statWord)) s

/-! ### The trace unit (R404 to R406) -/

/-- A condition holds in the cycle that ends (Table 24.3). -/
def Debug.holdsNow (x : Debug) (cond : Word) : Bool :=
  let n := cond.toNat
  match n % 16 with
  | 1 => true
  | 2 => x.hits.contains (field n 4 3)
  | 3 => x.offered.any fun e => e.kind == 0 && e.code == field n 16 16
  | _ => false

/-- An event of the cycle is recorded (R406). -/
def Debug.records (x : Debug) (capture : Bool) (e : TraceEv) : Bool :=
  x.bufv && (e.kind == 1 || e.kind == 2 || (capture && x.mask.getLsbD e.kind))

/-- Put a record among those that await writing, or drop it where more than 4,096 await (R404). -/
def Debug.keep (x : Debug) (e : TraceEv) : Debug :=
  if x.awaiting.length ≤ Config.traceBacklog then { x with awaiting := x.awaiting ++ [e] }
  else { x with drop := min (x.drop + 1) (2 ^ 24 - 1) }

/-- The events of a cycle in the order in which their records are kept: those of engines and of lines without a core first, then
core by core, each in its own order (R404). -/
def inCoreOrder (es : List TraceEv) : List TraceEv :=
  es.mergeSort fun a b => decide (a.core.elim 0 (· + 1) ≤ b.core.elim 0 (· + 1))

/-- TriggerCycle of R406, on the events of the cycle that ends; what TRIGSETs have changed applies from here on (R416). -/
def Debug.cycle (x : Debug) : Debug :=
  let st := x.holdsNow x.start
  let sp := x.holdsNow x.stop
  let capture := x.on || (st && !sp)
  let y := ((inCoreOrder x.offered).filter (x.records capture)).foldl (init := x) Debug.keep
  { y with on := capture && !sp, offered := [], hits := [] }.settled

/-! ### The end of a cycle -/

/-- A cycle of the package ends: the lines that can check in begin to (R222), what it reserved in queues may be popped from now on
(R225), and the trigger judges its events (R406). -/
def State.endOfCycle (s : State) : State :=
  let s := (s.checkIns s.threads.length).modDbg Debug.cycle
  { s.settleQueues (s.clock + 1) with clock := s.clock + 1 }

/-- The end of the cycle has something to do though no core takes part in it. -/
def State.cycleNeeded (s : State) : Bool :=
  !s.dbg.offered.isEmpty || !s.dbg.hits.isEmpty || !s.dbg.later.isEmpty || s.crews.any (fun e => e.2.queues.any (·.fresh.isSome)) ||
    s.threads.any fun e => (s.checkIn? e.1).isSome

/-- LINE_CHECK_IN_START (R162 to R164, R222): once every core has taken its part of the cycle, the cycle ends with the check-ins
that can begin, this line's among them. -/
def execLineCheckInStart (thread : Nat) (s : State) : Out :=
  .next (if s.dueCores.isEmpty && (s.checkIn? thread).isSome then s.endOfCycle else s)

/-- TRIGGER_CYCLE (R406): once every core has taken its part of the cycle, the cycle ends. -/
def execTriggerCycle (s : State) : Out := .next (if s.dueCores.isEmpty then s.endOfCycle else s)

/-- The words of a record (Table 24.1). -/
def TraceEv.words (e : TraceEv) : List Nat :=
  [e.kind % 2 ^ 8 + 2 ^ 8 * (e.sub % 2 ^ 8) + 2 ^ 16 * (e.code % 2 ^ 16) + 2 ^ 32 * (e.crew % 2 ^ 20) + 2 ^ 52 * (e.tidx % 2 ^ 8),
   e.lt.toNat, e.gtid.toNat, e.payload.toNat]

/-- TRACE_RECORD_WRITE (R404): the oldest record is written under owner 0; one whose place cannot be written is lost. -/
def execTraceRecordWrite (s : State) : Out :=
  .next <|
    match s.dbg.awaiting with
    | [] => s
    | e :: es =>
      let pa := s.dbg.base + 32 * (s.dbg.next.toNat % max s.dbg.size 1)
      if s.homeBusy (.phys pa) then s.snoop [pa / 128]
      else
        let s := s.modDbg fun x => { x with awaiting := es, next := x.next + 1 }
        if s.homeFault (.phys pa) 0 ≠ 0 then s
        else
          let (t, s) := s.storeAt {} (.phys pa) 32 (leNat (e.words.flatMap (natBytes 8))) (fullMask 32) 0 s.dbg.time
          s.modDbg fun x => { x with time := t }

/-! ### The test access port (R410, Table 24.5) -/

/-- The port's instruction register takes an instruction, and its data register a value. -/
def State.tap (s : State) (ir : BitVec 8) (dr : BitVec 128) : State := s.modDbg fun x => { x with tapIr := ir, tapDr := dr }

/-- FREEZE. -/
def execFreeze (s : State) : Out := .next ((s.tap 0x40 s.dbg.tapDr).modDbg fun x => { x with frozen := true })
/-- THAW: the accesses that waited at the links come first (R410). -/
def execThaw (s : State) : Out :=
  let s := { s with agenda := s.dbg.link ++ s.agenda }
  .next ((s.tap 0x41 s.dbg.tapDr).modDbg fun x => { x with frozen := false, link := [] })
/-- The owner tag of a span of on-die storage (R205): 0 where it holds nothing. -/
def State.tagOf (s : State) : Config.OnDie → Nat
  | .memory n => Map.getD s.mem.tags n 0
  | .scratchpad c n => (s.crew? c).elim 0 fun x => x.spadOwner (512 * n)
  | .tileReg c n => (s.crew? c).elim 0 fun x => x.tileTag[n]
  | .acc c n => (s.crew? c).elim 0 fun x => x.accTag[n]
  | .moment c n => (s.crew? c).elim 0 fun x => x.momTag[n]
  | .bank t n => (s.tile t).mgTag[n]
  | .l1 t l => ((s.tile t).l1find l).elim 0 (·.owner)
  | .inn k => (s.thread? k).elim 0 fun t => t.owner.toNat

/-- ARRAYRD: the selector stands in the data register's low half and the data in its high half. A span of another owner than 0
reads as zero unless the fuse DBGOPEN is set. The spec gives selectors no layout, so which span one names and the data are free
values (notes/assumptions/81.md). -/
def execArrayrd (sel : Word) (s : State) : Out :=
  let hidden := s.tagOf (Config.arraySpan sel.toNat) ≠ 0 ∧ !s.dbg.dbgOpen
  let v : Word := if hidden then 0 else Config.rawArray sel.toNat s.draws
  .next { s.tap 0x42 (v ++ sel) with draws := s.draws + 1 }
/-- EXTEST: it acts on the pins alone. -/
def execExtest (s : State) : Out := .next (s.tap 0x00 s.dbg.tapDr)
/-- SAMPLE/PRELOAD: the pins are a free value. -/
def execSamplePreload (s : State) : Out :=
  let (w, s) := s.freeWord
  .next (s.tap 0x01 (w.setWidth 128))
/-- IDCODE. -/
def execIdcode (s : State) : Out := .next (s.tap 0x02 (Config.idcode.setWidth 128))
/-- BYPASS, and every code that Table 24.5 does not name: a data register of one bit, zero at capture. -/
def execBypass (code : BitVec 8) (s : State) : Out := .next (s.tap code 0)

end Sys2Proof.Machine
end

