-- ==== Sys2Proof/Machine/Events.lean ====
section
/-! DEFINITION. Device reset, the clocks, instruction fills, weight-store refresh, the host link, other packages, speculative
fetches, and writes of system space (R6, R25, R93, R105, R107, R121, R212, R213, R220). -/

namespace Sys2Proof.Machine

/-! ### Reset and clocks -/

/-- DEVICE_RESET (R6): every register field takes its reset value. What is no register stays: the contents of memory, the replicas
of the page tables among them, with the keys they stand under, the meters, their lock and report number, the predecessor, the
fuse. The model's choice where the spec is silent: links that failed stay failed, and cores and tiles that failed, were mapped
out or ran at half rate are as at power-on (notes/assumptions/46.md). -/
def State.deviceReset (s : State) : State :=
  { State.reset with
    agenda := s.agenda, draws := s.draws, tick := s.tick,
    mem := { MemSys.reset with mem := s.mem.mem, replica := s.mem.replica, poison := s.mem.poison, tags := s.mem.tags, wsMeter := s.mem.wsMeter,
                               lastKeys := s.mem.lastKeys, lostLinks := s.mem.lostLinks },
    tier := { Tier.reset with bytes := s.tier.bytes, reads := s.tier.reads, locked := s.tier.locked, seq := s.tier.seq,
                              predSer := s.tier.predSer, predHash := s.tier.predHash },
    dbg := { Debug.reset with dbgOpen := s.dbg.dbgOpen } }

def execDeviceReset (s : State) : Out := .next s.deviceReset

/-- CLOCK_STEP_SELECT (R220): no value and no count kept in cycles changes. -/
def execClockStepSelect (c : ClockStep) (s : State) : Out := .next { s with tier := { s.tier with clock := c } }

/-- CORE_CYCLE (R14). -/
def execCoreCycle (core : Nat) (s : State) : Out := .next (s.cycle core)

/-! ### Instruction fills (R93) -/

/-- A block arrives at a core: the lines that wait for it may be selected. -/
def State.fillBlock (s : State) (core block : Nat) (bytes : List Byte) : State :=
  let (st, s) := s.stamp
  let s := s.modCore core fun c => c.fillBlock { block := block, bytes := bytes, stamp := st }
  { s with threads := s.threads.map fun (e : Nat × Thread) =>
      (e.1, if e.2.entryCore = some core ∧ e.2.fetchStall = some block then { e.2 with fetchStall := none } else e.2) }

/-- ICACHE_FILL (R93): the block is read through the tile L1, under the lease R36 and R114 give, and pts is unchanged. A block
whose home reports a fault is a system fault of the line (R123). -/
def execIcacheFill (thread : Nat) (s : State) : Out :=
  .next <|
    match s.thread? thread with
    | none => s
    | some t =>
      match t.fetchStall, t.entryCore with
      | some _, some core =>
        match s.fetchAddr t with
        | (.error _, s) => s.modThread thread fun t => { t with fetchStall := none }
        | (.ok p, s) =>
          let f := s.homeFault p.target p.attr.owner
          let b := p.target.pos / 32
          if f ≠ 0 then s.sysFault thread { code := f, addr := t.pc.toNat }
          else if s.homeBusy p.target then s.snoop (linesOfParts [p])
          else
            let s := s.modThread thread fun t => { t with fetchStall := some b }
            let (bs, _, s) := s.lineLoad (core / 8) (b / 4) (b % 4 * 32) 32 p.attr 3 t.pts
            s.fillBlock core b bs
      | _, _ => s

/-! ### Weight-store refresh (R107) -/

/-- WS_REFRESH_START: the banks follow one another. -/
def execWsRefreshStart (bank : Fin 16) (s : State) : Out :=
  .next <|
    if s.mem.wsActive || bank.val != (s.mem.wsBank + 1) % 16 then s
    else { s with mem := { s.mem with wsBank := bank.val, wsActive := true } }

/-- WS_REFRESH_END: what waits for the bank may go on. -/
def execWsRefreshEnd (s : State) : Out :=
  .next ({ s with mem := { s.mem with wsActive := false } }.wakeAwait .bankWrite)

/-! ### The host link (R212) -/

/-- A store of bytes as they stand, under the owners their spans have, by an agent at logical time `t`. -/
def State.storeRaw (s : State) (who : Writer) (pa : Nat) (bs : List Byte) (t : LTime) : LTime × State :=
  (pieces 128 pa (bs.length / 128 + 2) bs.length).foldl (init := (t, s)) fun acc p =>
    let s := acc.2
    let at_ := pa + p.1
    let h := (s.lineLease (at_ / 128)).store acc.1
    let m := { s.mem with mem := Memory.writeBytes s.mem.mem at_ (slice bs p.1 p.2) }
    let s := { s with mem := m.noteWriter (at_ / 128) who h.wts }
    (h.wts, (s.keepLine (at_ / 128) 3 h).staleSet (.phys (at_ / 128)) h.wts)

/-- The host, and an agent of another package, as makers of accesses (Table 1.4). -/
def Writer.host : Writer := { thread := none, crew := none, place := .host, scope := .system }
def Writer.convoy : Writer := { thread := none, crew := none, place := .convoy, scope := .convoy }

/-- The lines a range reaches. -/
def linesIn (pa n : Nat) : List Nat := (List.range (n / 128 + 2)).map (pa / 128 + ·) |>.filter fun l => decide (l * 128 < pa + n)

/-- A range the host can write now: the far tier alone is exported (R10), and every line answers. -/
def State.hostMay (s : State) (pa n : Nat) : Bool :=
  (linesIn pa n).all fun l =>
    (houseOf (l * 128) == 4 || houseOf (l * 128) == 5) && !s.mem.frozen.contains l &&
      s.homeFault (.phys (l * 128)) (Map.getD s.mem.tags (l / 4) 0) == 0

/-- A host write binds at its home. -/
def State.hostStore (s : State) (pa : Nat) (bs : List Byte) : State :=
  let (t, s) := s.storeRaw .host pa bs 0
  { s with mem := { s.mem with hostTime := tmax s.mem.hostTime t } }

/-- HOST_WRITE (R212); with `keep` the host then holds the lines modified or exclusive. -/
def execHostWrite (pa : Nat) (bytes : List Byte) (keep : Bool) (s : State) : Out :=
  .next <|
    if bytes.isEmpty || !s.hostMay pa bytes.length then s
    else
      let s := s.hostStore pa bytes
      if keep then { s with mem := { s.mem with hostHeld := (s.mem.hostHeld ++ linesIn pa bytes.length).dedup } } else s

/-- The host gives up a line: its snoop is answered, and what waited on it looks again. -/
def State.hostRelease (s : State) (line : Nat) : State :=
  { s with mem := { s.mem with hostHeld := s.mem.hostHeld.filter (· != line), snooped := s.mem.snooped.filter (· != line) }
    }.wakeAwait .frozenLine

/-- HOST_WRITE_BACK (R212): it wins over a snoop that crosses it, which is answered from the merged line. -/
def execHostWriteBack (line : Nat) (bytes : List Byte) (s : State) : Out :=
  .next <|
    if s.mem.hostHeld.contains line ∧ bytes.length = 128 ∧ s.hostMay (128 * line) 128 then
      (s.hostStore (128 * line) bytes).hostRelease line
    else s

/-- BACK_INVALIDATE_ANSWER (R212). -/
def execBackInvalidateAnswer (line : Nat) (s : State) : Out :=
  .next (if s.mem.snooped.contains line then s.hostRelease line else s)

/-! ### Other packages (R105, R132, R213) -/

/-- What an atomic from another package writes, given the old value; none where nothing is written (R133, R136). -/
def fabricResult (op : FabricOp) (old : Nat) : Option Nat :=
  match op with
  | .load | .store _ => none
  | .amo op f v => some (amoNew op f old v)
  | .cas expect new => if old = expect then some new else none

/-- Some port of the fabric still works (R213). -/
def State.fabricUp (s : State) : Bool := (List.range Config.fabricPorts).any fun n => !s.mem.lostLinks.contains n

/-- An atomic from another package runs at its home in one step, with the times of AtomicBind (R132, R133). -/
def State.fabricAtomic (s : State) (pa size : Nat) (op : FabricOp) (time : LTime) : State :=
  let owner := Map.getD s.mem.tags (pa / 512) 0
  match fabricResult op (leNat (s.ownedBytes owner pa size)) with
  | some v => (s.storeRaw .convoy pa (natBytes size v) time).2
  | none => (s.touchHome { target := .phys pa, attr := bareAttr owner, bytes := size } 3 time).2

/-- FABRIC_ACCESS_ARRIVAL: an access from another package runs at its home here, within one line (R105, R213). -/
def execFabricAccessArrival (pa size : Nat) (op : FabricOp) (time : LTime) (s : State) : Out :=
  .next <|
    if size = 0 ∨ pa / 128 ≠ (pa + size - 1) / 128 ∨ !s.fabricUp then s
    else
      match s.readRaw pa size time with
      | (.error _, s) => s
      | (.ok _, s') =>
        match op with
        | .load => s'
        | .store bytes => if bytes.length = size then (s.storeRaw .convoy pa bytes time).2 else s
        | _ => s.fabricAtomic pa size op time

/-! ### Speculative fetches and evictions (R105, R120, R121) -/

/-- A line that a speculative fetch may bring: it is there, not poisoned, not held, and its owner's key is present. -/
def State.maySpeculate (s : State) (line : Nat) : Bool :=
  s.homeFault (.phys (line * 128)) (Map.getD s.mem.tags (line / 4) 0) == 0 && !s.homeBusy (.phys (line * 128))

/-- A line comes into L2 with the times of R105; one that is there keeps its own. -/
def State.specL2 (s : State) (line : Nat) : State :=
  let h := s.lineLease line
  (s.touchL2 line 3).setLease line h

/-- SPECULATIVE_FETCH (R121): no lease moves forward, and no value changes. A line comes into a tile's L1 for a thread there,
under the owner and the rights of the thread. -/
def State.speculate (s : State) : SpecFetch → State
  | .tileLine thread va =>
    match s.thread? thread with
    | none => s
    | some t =>
      let ag := s.agent t
      let try_ (r : Right) : Option Part := match (s.resolve ag va 1 r).1 with
        | .ok p => some p
        | .error _ => none
      match try_ .read <|> try_ .fetch with
      | some { target := .phys pa, attr := a, .. } => s.prefetchLine ag.tile (.phys (pa / 128 * 128)) a 3
      | _ => s
  | .l2Line addr => if s.maySpeculate (addr / 128) then s.specL2 (addr / 128) else s
  | .l2Evict addr => if physPopulated (addr / 128 * 128) then s.evictL2 (addr / 128) else s
  | .l1Evict tile addr => s.modTile tile fun t => { t with l1 := t.l1.filter fun l => l.line != addr / 128 }
  | .innLine thread =>
    match s.thread? thread with
    | some t =>
      let displaced := (s.crew? t.crewn.toNat).elim true fun c => c.displaced
      if t.loc = .memory ∧ t.st ≠ .exited ∧ !displaced then s.putInn (s.homeOf t / 24) thread else s
    | none => s

def execSpeculativeFetch (f : SpecFetch) (s : State) : Out := .next (s.speculate f)

/-! ### System space (R25, R377) -/

/-- A write of a host launch queue's registers (Table 21.5). -/
def State.writeQueueReg (s : State) (off : Nat) (v : Word) : State :=
  let q := off / 0x20
  match off % 0x20 with
  | 0x00 => s.modHq q fun h => h.setBase v
  | 0x08 => s.modHq q fun h => h.control v
  | 0x10 => s.modHq q fun h => { h with tail := v.setWidth 32, time := s.mem.hostTime }
  | _ => s

/-- Units of Table 1.6. -/
def unitListed (unit : Nat) : Bool := [0x0, 0x1, 0x2, 0x3, 0x4, 0x5, 0x8, 0x9, 0xA, 0xE].contains unit

/-- SYSTEM_SPACE_WRITE (R25): the host or a mender writes a register of system space. No region of Table 1.7 leads a thread's
access there. A unit that is not listed has no home (MEMGONE), and nothing is written. -/
def execSystemSpaceWrite (unit off : Nat) (v : Word) (s : State) : Out :=
  .next <|
    if !unitListed unit then s
    else if unit = 0x8 then (if off < 0x800 then s.writeQueueReg off v else s)
    else { s with tier := { s.tier with regs := Map.put s.tier.regs (unit * 2 ^ 44 + off % 2 ^ 44) v } }

end Sys2Proof.Machine
end

