-- ==== Sys2Proof/Machine/Memory.lean ====
section
/-! DEFINITION. Loads, stores, queue loads, prefetch and fence (major opcodes 0x30 to 0x38, R125 to R131), the atomics
(R132 to R136), and the granule instructions (R148 to R150). -/

namespace Sys2Proof.Machine

/-- An access that has issued and not yet bound joins the thread's own, oldest first (R112). -/
def State.pushAccess (s : State) (k : Nat) (a : Access) : State :=
  s.modThread k fun t => { t with unbound := t.unbound ++ [a] }

/-- An access to another crew's scratchpad: the thread waits with kind 0 until that crew's tile has answered (R346). -/
def Issue.remoteHold (i : Issue) (s : State) (a : Access) : Effect :=
  .hold <| (i.holdPop s).modThread i.k fun t =>
    { t.toWait 0 0 .remote with
      unbound := t.unbound ++ [a], finish := some { dest := none, len := 8, popped := i.popped } }

/-- The bytes touched lie in one 16-byte granule of a scratchpad: `none`, or the trap of R128. -/
def feCheck (a : Access) : Option TrapInfo :=
  let inSpad := a.parts.all fun p => match p.target with
    | .spad _ _ => true
    | _ => false
  if !inSpad then some (accTrap codeIllop 0 a.kind a.width a.data)
  else if a.va % 16 + (a.width + 7) / 8 > 16 then some (accTrap codeAlign a.va a.kind a.width a.data)
  else none

/-- Start a load that has passed translation and rights (R125 to R128). One with .FE or .FEC takes its step at once; a fault
its home reports is owed to the thread, and the granule stays as it is (R123). -/
def Issue.startLoad (i : Issue) (s : State) (a : Access) : Effect :=
  let q := a.kind.feQual
  match if q = .plain then none else feCheck a with
  | some t => .trap t
  | none =>
    if a.remote then i.remoteHold s a
    else
      match s.wsWait a.parts with
      | some b => .waits 11 b .bankWrite
      | none =>
        if q = .plain then .retire ((s.pushAccess i.k a).modThread i.k fun t => { t with pend := a.kind.dest })
        else
          match s.granuleHolds a with
          | some _ => let (c, g) := a.granuleOf; granuleWait i.crew c g false
          | none =>
            let f := s.nextFault a
            .retire (if f ≠ 0 then s.deferFault i.k a f else s.bindQualified i.k a)

/-- A load of `width` bits at byte `va`, bit `bit`. -/
def Issue.load (i : Issue) (s : State) (k : AccKind) (va bit width unit : Nat) (m : MemArg) : Effect :=
  match i.access s k .read va bit width unit 0 m.scope m.evp with
  | (.error e, _) => e
  | (.ok a, s) => i.startLoad s a

/-- ALIGN at an access (R125). -/
def misaligned (k : AccKind) (va width data : Nat) : Effect := .trap (accTrap codeAlign va k width data)

/-- The uses of a load. -/
def loadUses (m : MemArg) (nb : Bool) (q : FeQual) : Uses := { src := memRegs m, pend := true, seq := !nb || q != .plain }

/-- LD (R125). -/
def execLd (p : Pred) (f : Fmt) (q : FeQual) (nb : Bool) (d : Reg) (m : MemArg) (s : State) : Out :=
  issue p 8 { loadUses m nb q with dst := [d] } (fun i s =>
    let k := AccKind.load d f nb q
    let va := i.effAddr m f.size
    if va % f.size ≠ 0 then misaligned k va f.width 0 else i.load s k va 0 f.width f.size m) s

/-- LDP (R126). -/
def execLdp (p : Pred) (_f : Fmt) (q : FeQual) (nb : Bool) (d : Reg) (m : MemArg) (s : State) : Out :=
  issue p 8 { loadUses m nb q with dstPair := [d] } (fun i s =>
    let k := AccKind.loadPair d nb q
    let va := i.effAddr m 16
    if va % 8 ≠ 0 then misaligned k va 128 0
    else i.load s k va 0 128 (if va % 16 = 0 then 16 else 8) m) s

/-- LDB (R127). -/
def execLdb (p : Pred) (f : Fmt) (nb : Bool) (d : Reg) (m : MemArg) (s : State) : Out :=
  issue p 8 { loadUses m nb .plain with dst := [d] } (fun i s =>
    let a := i.bitAddr m f.width
    i.load s (.loadBits d f nb) (a / 8) (a % 8) f.width 8 m) s

/-! ### Stores -/

/-- WcBuffer of R117 for the issuing thread. -/
def Issue.wcStore (i : Issue) (s : State) (a : Access) : Effect :=
  let n := i.t.entryCore.getD 0
  if s.wcBlocked n i.k a then .wait 0 0 .accesses fun s => s.drainBlocks i.k a.parts
  else
    match s.wcBuffer n i.k a i.t.pts with
    | some s => .retire s
    | none => .wait 0 0 (.wcSlot n) fun s => s.modCore n Core.drainOldest

/-- A store of `width` bits: sequential, write-combining, or to another crew's scratchpad (R111, R117, R346). -/
def Issue.store (i : Issue) (s : State) (k : AccKind) (wc : Bool) (va bit width unit data : Nat) (m : MemArg) : Effect :=
  match i.access s k .write va bit width unit data m.scope m.evp with
  | (.error e, _) => e
  | (.ok a, s) =>
    if !wc && s.wcHolds i.k a.parts then .wait 0 0 .accesses fun s => s.drainBlocks i.k a.parts
    else if a.remote then i.remoteHold s { a with wc := wc }
    else if wc then i.wcStore s a
    else .retire (s.pushAccess i.k a)

/-- The uses of a store. -/
def storeUses (m : MemArg) (wc : Bool) : Uses := { src := memRegs m, seq := !wc }

/-- ST (R125). -/
def execSt (p : Pred) (f : Fmt) (wc : Bool) (b : Reg) (m : MemArg) (s : State) : Out :=
  issue p 8 { storeUses m wc with src := b :: memRegs m } (fun i s =>
    let va := i.effAddr m f.size
    let data := (i.reg b).toNat % 2 ^ f.width
    if va % f.size ≠ 0 then misaligned .store va f.width data
    else i.store s .store wc va 0 f.width f.size data m) s

/-- STP (R126). -/
def execStp (p : Pred) (_f : Fmt) (wc : Bool) (b : Reg) (m : MemArg) (s : State) : Out :=
  issue p 8 { storeUses m wc with srcPair := [b] } (fun i s =>
    let va := i.effAddr m 16
    let data := i.pairNat b
    if va % 8 ≠ 0 then misaligned .storePair va 128 data
    else i.store s .storePair wc va 0 128 (if va % 16 = 0 then 16 else 8) data m) s

/-- STB (R127). -/
def execStb (p : Pred) (f : Fmt) (wc : Bool) (b : Reg) (m : MemArg) (s : State) : Out :=
  issue p 8 { storeUses m wc with src := b :: memRegs m } (fun i s =>
    let a := i.bitAddr m f.width
    i.store s .storeBits wc (a / 8) (a % 8) f.width 8 ((i.reg b).toNat % 2 ^ f.width) m) s

/-! ### Queue loads, prefetch, fence -/

/-- LDQ (R129): its slot is reserved at issue. -/
def execLdq (p : Pred) (f : Fmt) (q : Reg) (m : MemArg) (s : State) : Out :=
  issue p 8 { src := memRegs m, ldq := true } (fun i s =>
    if !i.c.hasQueue q then .user codeQmisuse q
    else
      let x := (s.crew? i.crew).elim Queue.reset (·.queue q)
      let slot := (x.head + x.count) % 16
      let k := AccKind.ldq q slot f
      let va := i.effAddr m f.size
      if va % f.size ≠ 0 then misaligned k va f.width 0
      else
        match i.access s k .read va 0 f.width f.size 0 m.scope m.evp with
        | (.error e, _) => e
        | (.ok a, s) =>
          if i.yields s q (decide (16 ≤ x.used)) then .later q
          else if !x.roomForLdq then .waits 2 (q + 8) .queueLdq
          else if a.remote then i.remoteHold (s.modQueue i.crew q (·.reserve s.clock (ldqSlot f))) a
          else
            match s.wsWait a.parts with
            | some b => .waits 11 b .bankWrite
            | none => .retire ((s.modQueue i.crew q (·.reserve s.clock (ldqSlot f))).pushAccess i.k a)) s

/-- PF (R130): a speculative fetch of a line of global memory or of context space; nothing where the address does not translate
or names another space. -/
def execPf (p : Pred) (evp : Fin 8) (a : Reg) (off : BitVec 17) (s : State) : Out :=
  issue p 8 { src := [a] } (fun i s =>
    match s.resolve (s.agent i.t) (i.baseOff a off) 1 .read with
    | (.ok p, s') => .retire (s'.prefetchLine (s.tileOfLine i.t) p.target p.attr evp)
    | _ => .retire s) s

/-- The stores that a thread's write-combining entries have made are visible in the domain of a scope too (R119, R131). -/
def State.widen (s : State) (k : Nat) (sc : Scope) : State :=
  let w := s.scopeNow (crewOf k) sc
  { s with mem := { s.mem with
    writers := s.mem.writers.map fun (e : Nat × List (Writer × LTime)) =>
      (e.1, (e.2 ++ (e.2.filter fun (x : Writer × LTime) => x.1.wc && x.1.thread == some k).map fun (x : Writer × LTime) =>
        ({ x.1 with scope := w }, x.2)).dedup) } }

/-- FENCE (R131). -/
def execFence (p : Pred) (sc : Scope) (s : State) : Out :=
  issue p 8 { drains := true } (fun i s =>
    i.afterDrain s fun s => .retire ((s.widen i.k sc).modThread i.k fun t => t.acquire t.pts)) s

/-! ### Atomics (R132 to R136) -/

/-- An atomic whose operands are read: rights and alignment at issue, then the drain, then its access is on its way home. -/
def Issue.atomic (i : Issue) (s : State) (k : AccKind) (va width data : Nat) (m : MemArg) : Effect :=
  if va % (width / 8) ≠ 0 then misaligned k va width data
  else
    match i.access s k .write va 0 width (width / 8) data m.scope m.evp with
    | (.error e, _) => e
    | (.ok a, s) =>
      i.afterDrain s fun s =>
        if a.remote then i.remoteHold s a
        else .retire ((s.pushAccess i.k a).modThread i.k fun t => { t with pend := k.dest })

/-- AMO with one of its operations (R136). -/
def amo (op : AmoOp) (p : Pred) (f : Fmt) (d b : Reg) (m : MemArg) (s : State) : Out :=
  issue p 8 { src := b :: memRegs m, dst := [d], pend := true, seq := true, drains := true } (fun i s =>
    i.atomic s (.amo op d f) (i.effAddr m f.size) f.width ((i.reg b).toNat % 2 ^ f.width) m) s

/-- AMO.SWAP. -/
def execAmoSwap (p : Pred) (f : Fmt) (d b : Reg) (m : MemArg) : State → Out := amo .swap p f d b m
/-- AMO.ADD. -/
def execAmoAdd (p : Pred) (f : Fmt) (d b : Reg) (m : MemArg) : State → Out := amo .add p f d b m
/-- AMO.AND. -/
def execAmoAnd (p : Pred) (f : Fmt) (d b : Reg) (m : MemArg) : State → Out := amo .and p f d b m
/-- AMO.OR. -/
def execAmoOr (p : Pred) (f : Fmt) (d b : Reg) (m : MemArg) : State → Out := amo .or p f d b m
/-- AMO.XOR. -/
def execAmoXor (p : Pred) (f : Fmt) (d b : Reg) (m : MemArg) : State → Out := amo .xor p f d b m
/-- AMO.MIN. -/
def execAmoMin (p : Pred) (f : Fmt) (d b : Reg) (m : MemArg) : State → Out := amo .min p f d b m
/-- AMO.MAX. -/
def execAmoMax (p : Pred) (f : Fmt) (d b : Reg) (m : MemArg) : State → Out := amo .max p f d b m
/-- AMO.FADD. -/
def execAmoFadd (p : Pred) (f : Fmt) (d b : Reg) (m : MemArg) : State → Out := amo .fadd p f d b m

/-- CAS (R136): gD is the expected value and takes the old one. -/
def execCas (p : Pred) (f : Fmt) (d b : Reg) (m : MemArg) (s : State) : Out :=
  issue p 8 { src := d :: b :: memRegs m, dst := [d], pend := true, seq := true, drains := true } (fun i s =>
    i.atomic s (.cas d f ((i.reg d).toNat % 2 ^ f.width)) (i.effAddr m f.size) f.width ((i.reg b).toNat % 2 ^ f.width) m) s

/-- CASP (R136). -/
def execCasp (p : Pred) (d b : Reg) (m : MemArg) (s : State) : Out :=
  issue p 8 { src := memRegs m, srcPair := [d, b], dstPair := [d], pend := true, seq := true, drains := true } (fun i s =>
    i.atomic s (.casp d (i.pairNat d)) (i.effAddr m 16) 128 (i.pairNat b) m) s

/-! ### Granule instructions (R148 to R150) -/

/-- An unbound access of the thread touches a piece of scratchpad. -/
def Thread.touchesPart (t : Thread) (p : Part) : Bool :=
  t.unbound.any fun a => a.parts.any fun q => match p.target, q.target with
    | .spad c o, .spad x off => x == c && decide (off < o + p.bytes ∧ o < off + q.bytes)
    | _, _ => false

/-- What an instruction that is ordered after the thread's earlier accesses to these pieces waits for: accesses that have not
bound, and the thread's own stores that stand in write-combining entries (R117, R150). -/
def Issue.afterOwn (i : Issue) (s : State) (ps : List Part) (e : Effect) : Effect :=
  if ps.any i.t.touchesPart then .waits 0 0 .accesses
  else if s.wcHolds i.k ps then .wait 0 0 .accesses fun s => s.drainBlocks i.k ps
  else e

/-- A granule instruction at gA + SExt(OFF17), whose bits 3:0 are ignored: ILLOP outside scratchpad space, then the rights,
then `body` on the crew and granule. With `after` it comes after the thread's earlier accesses to the granule. -/
def Issue.granuleAt (i : Issue) (s : State) (k : AccKind) (a : Reg) (off : BitVec 17) (after : Bool)
    (body : State → (crew g : Nat) → Effect) : Effect :=
  let va := i.baseOff a off / 16 * 16
  if va / 2 ^ 52 ≠ 9 then .user codeIllop
  else
    match i.access s k .read va 0 128 16 0 .device 3 with
    | (.error e, _) => e
    | (.ok acc, s) =>
      let go : Effect :=
        if acc.remote then i.remoteHold s acc
        else let (c, g) := acc.granuleOf; body s c g
      if after then i.afterOwn s acc.parts go else go

/-- FEW and FEW.E. -/
def granuleWaitFor (full : Bool) (p : Pred) (a : Reg) (off : BitVec 17) (s : State) : Out :=
  issue p 8 { src := [a] } (fun i s =>
    i.granuleAt s (.granule full none) a off false fun s c g =>
      if (s.crew? c).elim false (fun x => x.granuleFull i.t.owner.toNat g == full) then .retire (s.bindGranule i.k c g full none)
      else granuleWait i.crew c g (!full)) s
/-- FEW (R149). -/
def execFew (p : Pred) (a : Reg) (off : BitVec 17) : State → Out := granuleWaitFor true p a off
/-- FEW.E (R149). -/
def execFewE (p : Pred) (a : Reg) (off : BitVec 17) : State → Out := granuleWaitFor false p a off

/-- FESET (R150): a release and a draining event. -/
def execFeset (p : Pred) (_sc : Scope) (a : Reg) (off : BitVec 17) (s : State) : Out :=
  issue p 8 { src := [a], drains := true } (fun i s =>
    i.afterDrain s fun s =>
      i.granuleAt s (.granule true (some true)) a off false fun s c g => .retire (s.bindGranule i.k c g true (some true))) s

/-- FECLR (R150): ordered after the thread's earlier accesses to the granule, those in its write-combining entries among them. It
is no draining event: nothing else of the thread drains for it. -/
def execFeclr (p : Pred) (_sc : Scope) (a : Reg) (off : BitVec 17) (s : State) : Out :=
  issue p 8 { src := [a] } (fun i s =>
    i.granuleAt s (.granule true (some false)) a off true fun s c g => .retire (s.bindGranule i.k c g true (some false))) s

/-! ### The events of accesses -/

/-- LOAD_FILL (R110, R166): the oldest access of a thread, a load or an atomic, binds and its value lands; with its last row a
TLD, and with its elements an AWR, writes what it has loaded (R322, R330). -/
def execLoadFill (thread : Nat) (s : State) : Out :=
  .next ((s.bindHead thread fun
    | .load _ _ _ _ | .loadPair _ _ _ | .loadBits _ _ _ | .amo _ _ _ | .cas _ _ _ | .casp _ _ | .row false => true
    | _ => false).finishRows thread)

/-- STORE_BIND (R111): the oldest access of a thread, a store, binds; with its last row a TST retires (R322). -/
def execStoreBind (thread : Nat) (s : State) : Out :=
  .next ((s.bindHead thread fun
    | .store | .storePair | .storeBits | .row true => true
    | _ => false).finishRows thread)

/-- An LDQ element of a thread that has bound lands, and which of several is a free choice (R225): with one left and none still
to bind, that one; otherwise perhaps none yet. -/
def State.landSome (s : State) (k : Nat) : State :=
  match s.thread? k with
  | none => s
  | some t =>
    let n := t.landing.length
    let more := t.unbound.any fun a => match a.kind with
      | .ldq _ _ _ => true
      | _ => false
    if n = 0 then s
    else if n = 1 ∧ !more then s.landQueue k 0
    else
      let (w, s) := s.freeWord
      let j := w.toNat % (if more then n + 1 else n)
      if j < n then s.landQueue k j else s

/-- QUEUE_FILL (R225, R230): the next access of a thread, an LDQ element, binds in its order, and an element that has bound fills
its slot; one whose home faults fills it with a fault mark. -/
def execQueueFill (thread : Nat) (s : State) : Out :=
  let isLdq : AccKind → Bool := fun
    | .ldq _ _ _ => true
    | _ => false
  match s.headAccess thread isLdq with
  | some a => .next (if s.nextFault a = 0 ∨ s.nextBusy a then (s.bindHead thread isLdq).landSome thread else s.faultHead thread)
  | none => .next (s.landSome thread)

/-- DEFERRED_FAULT (R123, R190): the oldest access of a thread faults at its home: it is owed to the thread, which stops at
its next dependent issue. -/
def execDeferredFault (thread : Nat) (s : State) : Out := .next (s.faultHead thread)

/-- LONG_OP_RESULT (R71): the result lands in the line wherever it is. The answer of another unit that the line waits for
comes the same way (R216, R415, R417). -/
def execLongOpResult (thread : Nat) (s : State) : Out :=
  .next <|
    if (s.thread? thread).elim false fun t => t.st == .waiting && t.await == .reply then s.complete thread
    else
      s.modThread thread fun t =>
        match t.longop, t.pend with
        | some v, some p => { t with longop := none }.land p.reg v
        | _, _ => t

/-- Lines of a thread's own, and those waiting for an entry of this core's buffer, look again after a drain (R117). -/
def State.wakeDrained (s : State) (core k : Nat) : State := (s.wakeAwait (.wcSlot core)).wakeOwn k

/-- WC_ENTRY_DRAIN (R117, R118): an entry leaves its buffer and binds at its home with the pts it was opened at; the oldest
entry of the block goes first. A home fault is owed to the thread until its next draining event (R123). -/
def execWcEntryDrain (core block thread : Nat) (s : State) : Out :=
  .next <|
    match (s.core core).wc.find? fun w => w.thread == thread && w.target.block == block with
    | none => s
    | some w =>
      if s.homeBusy w.target ∨ s.spadAway w.target then s.snoop (linesOfParts [{ target := w.target, attr := w.attr, bytes := 64 }])
      else
        let s := s.modCore core fun c => { c with wc := c.wc.erase w }
        let f := s.homeFault w.target w.attr.owner
        if f ≠ 0 then
          (s.modThread thread fun t =>
            { t with deferred := t.deferred ++
                [{ code := f, apc := w.pc, addr := w.va, reg := 0, regv := false, size := w.size, store := true,
                   data := w.data, pair := false, wc := true }] }).wakeDrained core thread
        else
          let crew := crewOf thread
          let via : Via :=
            { tiles := [core / 8, (s.crew? crew).elim (core / 8) (·.tile)].dedup, evp := w.evp,
              who := { thread := some thread, crew := some crew, place := .package, scope := s.scopeNow crew w.scope, wc := true } }
          let (tm, s) := s.storeAt via w.target 64 w.bits w.mask w.attr.owner w.pts
          (s.modThread thread fun t => { t with wcTime := tmax t.wcTime tm }).wakeDrained core thread

/-- REMOTE_ACCESS_ARRIVAL (R345, R346). -/
def execRemoteAccessArrival (thread : Nat) (s : State) : Out := .next (s.remoteArrive thread)

end Sys2Proof.Machine
end

