-- ==== Sys2Proof/Machine/Packed.lean ====
section
/-! DEFINITION. Packed short vectors (R283 to R288): major opcodes 0xC8 to 0xCF. -/

namespace Sys2Proof.Machine

/-- The formats EFMT accepts (R283). -/
def packable : Fmt → Bool
  | .s8 | .z8 | .s6 | .z6 | .s4 | .z4 | .e4m3 | .e5m2 | .f6 => true
  | _ => false

/-- Elements of a register (Table 14.8). -/
def packCount (f : Fmt) : Nat := if f.width = 8 then 8 else if f.width = 6 then 10 else 16

/-- Element j of a register. -/
def packElem (f : Fmt) (w : Word) (j : Nat) : Nat := field w.toNat (f.width * j) f.width

/-- A register from its elements. -/
def packWord (f : Fmt) (g : Nat → Nat) : Word :=
  BitVec.ofNat 64 ((List.range (packCount f)).foldl (fun v j => v + g j % 2 ^ f.width * 2 ^ (f.width * j)) 0)

/-- A packed instruction: HANDLE unless EFMT is accepted. -/
def packed (p : Pred) (u : Uses) (body : Fmt → Issue → State → Effect) (s : State) : Out :=
  issue p 8 u (fun i s =>
    match Fmt.ofCode i.t.efmt.toNat with
    | some f => if packable f then body f i s else .user codeHandle 0 0 i.t.efmt.toNat
    | none => .user codeHandle 0 0 i.t.efmt.toNat) s

/-- The exact integer of an element. -/
def packInt (f : Fmt) (v : Nat) : Int := if f.isSigned then signed v f.width else v % 2 ^ f.width

/-- An integer result: it wraps, or clamps to the range of Table 13.1. -/
def packResult (f : Fmt) (sat : Bool) (x : Int) : Nat :=
  let hi : Int := if f.isSigned then 2 ^ (f.width - 1) - 1 else 2 ^ f.width - 1
  let lo : Int := if f.isSigned then -(2 ^ (f.width - 1)) else 0
  lowBits (if sat then max lo (min hi x) else x) f.width

/-- An element operation of R286 on two sources. -/
def packOp (sat : Bool) (int : Int → Int → Int) (fl : Num → Num → Num) (f : Fmt) (x y : Nat) : Nat :=
  if f.isInt then packResult f sat (int (packInt f x) (packInt f y))
  else (fl (floatNum f x) (floatNum f y)).encode f

/-- A packed instruction on two sources. -/
def packed2 (f2 : Fmt → Nat → Nat → Nat) (p : Pred) (d a b : Reg) (s : State) : Out :=
  packed p { src := [a, b], dst := [d] } (fun f i s =>
    i.put s d (packWord f fun j => f2 f (packElem f (i.reg a) j) (packElem f (i.reg b) j))) s

/-- EFSET (R285): the code from a register or an immediate. -/
def execEfset (p : Pred) (b : Src) (s : State) : Out :=
  issue p 8 { src := srcRegs b } (fun i s =>
    let v := i.src b
    let n := v.toNat
    let immediate := match b with
      | .imm _ => true
      | .reg _ => false
    if 255 < n then (if immediate then .user codeIllop else .user codeRange 0 n)
    else
      let set (s : State) : Effect := .retire (s.modThread i.k fun t => { t with efmt := BitVec.ofNat 8 n })
      if n = 0 then set s
      else
        match Fmt.ofCode n with
        | none => .user codeHandle 0 0 n
        | some f => if packable f then set s else if immediate then .user codeIllop else .user codeHandle 0 0 n) s

/-- PADD (R286). -/
def execPadd (p : Pred) (sat : Bool) (d a b : Reg) : State → Out := packed2 (packOp sat (· + ·) Num.add) p d a b
/-- PSUB (R286). -/
def execPsub (p : Pred) (sat : Bool) (d a b : Reg) : State → Out := packed2 (packOp sat (· - ·) Num.sub) p d a b
/-- PMUL (R286). -/
def execPmul (p : Pred) (sat : Bool) (d a b : Reg) : State → Out := packed2 (packOp sat (· * ·) Num.mul) p d a b

/-- PMIN and PMAX on floats (R88): the bits of the chosen source, or the canonical NaN. -/
def packPick (isMin : Bool) (f : Fmt) (x y : Nat) : Nat :=
  if f.isInt then packResult f false (if isMin then min (packInt f x) (packInt f y) else max (packInt f x) (packInt f y))
  else
    match minMaxFirst isMin (floatNum f x) (floatNum f y) with
    | some true => x
    | some false => y
    | none => f.canonNaN
/-- PMIN (R286). -/
def execPmin (p : Pred) (d a b : Reg) : State → Out := packed2 (packPick true) p d a b
/-- PMAX (R286). -/
def execPmax (p : Pred) (d a b : Reg) : State → Out := packed2 (packPick false) p d a b

/-- PABS (R286). -/
def execPabs (p : Pred) (sat : Bool) (d a : Reg) (s : State) : Out :=
  packed p { src := [a], dst := [d] } (fun f i s =>
    i.put s d (packWord f fun j =>
      let x := packElem f (i.reg a) j
      if f.isInt then packResult f sat ((packInt f x).natAbs : Int) else ((floatNum f x).setSign false).encode f)) s

/-- PDOT (R287): gD accumulates. -/
def execPdot (p : Pred) (d a b : Reg) (s : State) : Out :=
  packed p { src := [d, a, b], dst := [d] } (fun f i s =>
    let js := List.range (packCount f)
    let x (j : Nat) : Nat := packElem f (i.reg a) j
    let y (j : Nat) : Nat := packElem f (i.reg b) j
    if f.isInt then
      i.put s d (i.reg d + toWord (js.map fun j => packInt f (x j) * packInt f (y j)).sum)
    else
      let c := floatNum .f32 ((i.reg d).toNat % 2 ^ 32)
      let srcs := c :: js.flatMap fun j => [floatNum f (x j), floatNum f (y j)]
      let r := match srcs.find? Num.isNaN with
        | some n => n
        | none => Num.sum (c :: js.map fun j => (floatNum f (x j)).mul (floatNum f (y j)))
      i.put s d (BitVec.ofNat 64 (r.encode .f32))) s

/-- PSHF (R288). -/
def execPshf (p : Pred) (d a b : Reg) (s : State) : Out :=
  packed p { src := [a, b], dst := [d] } (fun f i s =>
    i.put s d (packWord f fun j =>
      let n := field (i.reg b).toNat (4 * j) 4
      if n < packCount f then packElem f (i.reg a) n else 0)) s

/-- PCMP (R288): all ones or all zeros. -/
def execPcmp (p : Pred) (c : FCond) (d a b : Reg) : State → Out :=
  packed2 (fun f x y =>
    let o := if f.isInt then some (compare (packInt f x) (packInt f y)) else (floatNum f x).cmp (floatNum f y)
    if fcondHolds c o then 2 ^ f.width - 1 else 0) p d a b

end Sys2Proof.Machine
end

