-- ==== Sys2Proof/Machine/Queues.lean ====
section
/-! DEFINITION. Queue instructions (R232 to R237): major opcodes 0x58 to 0x5C. -/

namespace Sys2Proof.Machine

/-- The queue of the issuing crew. -/
def Issue.queue (i : Issue) (s : State) (q : Reg) : Queue := (s.crew? i.crew).elim Queue.reset (·.queue q)

/-- QCFG (R233): LIMIT := S, and the queue is emptied once no LDQ element of it is in flight. -/
def execQcfg (p : Pred) (q : Reg) (b : Src) (s : State) : Out :=
  issue p 8 { src := srcRegs b } (fun i s =>
    let v := (i.src b).toNat
    if !i.c.hasQueue q then .user codeQmisuse q
    else if v = 0 ∨ 16 < v then .user codeRange 0 v
    else
      let x := i.queue s q
      if x.inFlight ≠ 0 then .waits 2 (q + 8) .queueIdle
      else
        .retire ((s.forgetQueue i.crew q).modQueue i.crew q fun x =>
          { Queue.reset with limit := v, reserved := x.reserved, removed := x.removed + x.count })) s

/-- Change the issuing line's bindings. -/
def Issue.bind (i : Issue) (s : State) (f : Thread → Thread) : Effect := .retire (s.modThread i.k f)

/-- QBIND.POP (R234). -/
def execQbindPop (p : Pred) (q : Reg) (s : State) : Out :=
  issue p 8 {} (fun i s =>
    if !i.c.hasQueue q then .user codeQmisuse q else i.bind s fun t => { t with popq := q, popv := true }) s

/-- QBIND.PUSH (R234). -/
def execQbindPush (p : Pred) (q : Reg) (s : State) : Out :=
  issue p 8 {} (fun i s =>
    if !i.c.hasQueue q then .user codeQmisuse q else i.bind s fun t => { t with pushq := q, pushv := true }) s

/-- QBIND.UPOP (R234). -/
def execQbindUpop (p : Pred) (s : State) : Out := issue p 8 {} (fun i s => i.bind s fun t => { t with popv := false }) s

/-- QBIND.UPUSH (R234). -/
def execQbindUpush (p : Pred) (s : State) : Out := issue p 8 {} (fun i s => i.bind s fun t => { t with pushv := false }) s

/-- QSTAT (R235). -/
def execQstat (p : Pred) (d q : Reg) (s : State) : Out :=
  issue p 8 { dst := [d] } (fun i s =>
    i.put s d (if i.c.hasQueue q then BitVec.ofNat 64 (i.queue s q).word else 0)) s

/-- QDRAIN (R236): waits until every entry reserved before it issued has been removed. -/
def execQdrain (p : Pred) (q : Reg) (s : State) : Out :=
  issue p 8 {} (fun i s =>
    if !i.c.hasQueue q then .user codeQmisuse q
    else
      let x := i.queue s q
      let mark := (i.t.drain.filter (·.1 == q)).elim x.reserved (·.2)
      if x.removed < mark then .wait 2 (q + 16) .nothing fun s => s.modThread i.k fun t => { t with drain := some (q, mark) }
      else .retire (s.modThread i.k fun t => { t with drain := none })) s

/-- QPEEK (R237): a register index above 15 raises RANGE; the slot is read and left. -/
def execQpeek (p : Pred) (d q : Reg) (b : Src) (s : State) : Out :=
  issue p 8 { src := srcRegs b, dst := [d] } (fun i s =>
    let n := (i.src b).toNat
    if !i.c.hasQueue q then .user codeQmisuse q
    else if 15 < n then .user codeRange 0 n
    else
      let x := i.queue s q
      let y := x.slot (x.head + n)
      if !x.filledAt n then .waits 2 q (.queuePeek n)
      else if y.fault then .marked (slotFault y)
      else i.put s d y.val) s

end Sys2Proof.Machine
end

