-- ==== Sys2Proof/Machine/Dispatch.lean ====
section
/-! DEFINITION. One arm per constructor of Instr: its meaning. -/

namespace Sys2Proof.Machine

/-- What an instruction or an event of the part does. -/
def exec (i : Instr) (s : State) : Host.Outcome State Fault Refusal :=
  match i with
  | .pad => Sys2Proof.Machine.execPad s
  | .illegal => Sys2Proof.Machine.execIllegal s
  | .nop p => Sys2Proof.Machine.execNop p s
  | .clz p d a => Sys2Proof.Machine.execClz p d a s
  | .ctz p d a => Sys2Proof.Machine.execCtz p d a s
  | .popc p d a => Sys2Proof.Machine.execPopc p d a s
  | .brev p d a => Sys2Proof.Machine.execBrev p d a s
  | .add p d a b => Sys2Proof.Machine.execAdd p d a b s
  | .sub p d a b => Sys2Proof.Machine.execSub p d a b s
  | .mul p d a b => Sys2Proof.Machine.execMul p d a b s
  | .mulh p u d a b => Sys2Proof.Machine.execMulh p u d a b s
  | .div p u d a b => Sys2Proof.Machine.execDiv p u d a b s
  | .rem p u d a b => Sys2Proof.Machine.execRem p u d a b s
  | .and p d a b => Sys2Proof.Machine.execAnd p d a b s
  | .or p d a b => Sys2Proof.Machine.execOr p d a b s
  | .xor p d a b => Sys2Proof.Machine.execXor p d a b s
  | .andn p d a b => Sys2Proof.Machine.execAndn p d a b s
  | .shl p d a b => Sys2Proof.Machine.execShl p d a b s
  | .shr p d a b => Sys2Proof.Machine.execShr p d a b s
  | .sar p d a b => Sys2Proof.Machine.execSar p d a b s
  | .rot p d a b => Sys2Proof.Machine.execRot p d a b s
  | .min p u d a b => Sys2Proof.Machine.execMin p u d a b s
  | .max p u d a b => Sys2Proof.Machine.execMax p u d a b s
  | .abs p d a => Sys2Proof.Machine.execAbs p d a s
  | .bfx p s' d a b => Sys2Proof.Machine.execBfx p s' d a b s
  | .bfi p d a b => Sys2Proof.Machine.execBfi p d a b s
  | .lea p sh d a b => Sys2Proof.Machine.execLea p sh d a b s
  | .leaPc p d imm => Sys2Proof.Machine.execLeaPc p d imm s
  | .movi p d imm => Sys2Proof.Machine.execMovi p d imm s
  | .movi128 p d lo hi => Sys2Proof.Machine.execMovi128 p d lo hi s
  | .movhi p d imm => Sys2Proof.Machine.execMovhi p d imm s
  | .mov p d a => Sys2Proof.Machine.execMov p d a s
  | .sel p d c a b => Sys2Proof.Machine.execSel p d c a b s
  | .cmp p c d a b => Sys2Proof.Machine.execCmp p c d a b s
  | .fadd p s' d a b => Sys2Proof.Machine.execFadd p s' d a b s
  | .fsub p s' d a b => Sys2Proof.Machine.execFsub p s' d a b s
  | .fmul p s' d a b => Sys2Proof.Machine.execFmul p s' d a b s
  | .ffma p s' d a b c => Sys2Proof.Machine.execFfma p s' d a b c s
  | .fdiv p s' d a b => Sys2Proof.Machine.execFdiv p s' d a b s
  | .fsqrt p s' d a => Sys2Proof.Machine.execFsqrt p s' d a s
  | .fmin p s' d a b => Sys2Proof.Machine.execFmin p s' d a b s
  | .fmax p s' d a b => Sys2Proof.Machine.execFmax p s' d a b s
  | .fcmp p c s' d a b => Sys2Proof.Machine.execFcmp p c s' d a b s
  | .bra p imm => Sys2Proof.Machine.execBra p imm s
  | .brx p a => Sys2Proof.Machine.execBrx p a s
  | .call p sv imm => Sys2Proof.Machine.execCall p sv imm s
  | .callx p sv a => Sys2Proof.Machine.execCallx p sv a s
  | .ret p r => Sys2Proof.Machine.execRet p r s
  | .loop p len count => Sys2Proof.Machine.execLoop p len count s
  | .loopg p a len => Sys2Proof.Machine.execLoopg p a len s
  | .lbrk p => Sys2Proof.Machine.execLbrk p s
  | .lbrkAll p => Sys2Proof.Machine.execLbrkAll p s
  | .fop p op d a b => Sys2Proof.Machine.execFop p op d a b s
  | .fset p d v => Sys2Proof.Machine.execFset p d v s
  | .fsetM p a mask => Sys2Proof.Machine.execFsetM p a mask s
  | .fget p all d => Sys2Proof.Machine.execFget p all d s
  | .ld p f q nb d m => Sys2Proof.Machine.execLd p f q nb d m s
  | .st p f wc b m => Sys2Proof.Machine.execSt p f wc b m s
  | .ldp p f q nb d m => Sys2Proof.Machine.execLdp p f q nb d m s
  | .stp p f wc b m => Sys2Proof.Machine.execStp p f wc b m s
  | .ldb p f nb d m => Sys2Proof.Machine.execLdb p f nb d m s
  | .stb p f wc b m => Sys2Proof.Machine.execStb p f wc b m s
  | .ldq p f q m => Sys2Proof.Machine.execLdq p f q m s
  | .pf p evp a off => Sys2Proof.Machine.execPf p evp a off s
  | .fence p sc => Sys2Proof.Machine.execFence p sc s
  | .amoSwap p f d b m => Sys2Proof.Machine.execAmoSwap p f d b m s
  | .amoAdd p f d b m => Sys2Proof.Machine.execAmoAdd p f d b m s
  | .amoAnd p f d b m => Sys2Proof.Machine.execAmoAnd p f d b m s
  | .amoOr p f d b m => Sys2Proof.Machine.execAmoOr p f d b m s
  | .amoXor p f d b m => Sys2Proof.Machine.execAmoXor p f d b m s
  | .amoMin p f d b m => Sys2Proof.Machine.execAmoMin p f d b m s
  | .amoMax p f d b m => Sys2Proof.Machine.execAmoMax p f d b m s
  | .amoFadd p f d b m => Sys2Proof.Machine.execAmoFadd p f d b m s
  | .cas p f d b m => Sys2Proof.Machine.execCas p f d b m s
  | .casp p d b m => Sys2Proof.Machine.execCasp p d b m s
  | .bara p d a => Sys2Proof.Machine.execBara p d a s
  | .barw p a b => Sys2Proof.Machine.execBarw p a b s
  | .barx p a b => Sys2Proof.Machine.execBarx p a b s
  | .barcfg p a b => Sys2Proof.Machine.execBarcfg p a b s
  | .barcfgRd p d a => Sys2Proof.Machine.execBarcfgRd p d a s
  | .barcfgPb p d a => Sys2Proof.Machine.execBarcfgPb p d a s
  | .tlwait p d t b => Sys2Proof.Machine.execTlwait p d t b s
  | .tlget p d t => Sys2Proof.Machine.execTlget p d t s
  | .tlgetI p d t => Sys2Proof.Machine.execTlgetI p d t s
  | .few p a off => Sys2Proof.Machine.execFew p a off s
  | .fewE p a off => Sys2Proof.Machine.execFewE p a off s
  | .feset p sc a off => Sys2Proof.Machine.execFeset p sc a off s
  | .feclr p sc a off => Sys2Proof.Machine.execFeclr p sc a off s
  | .send p a b => Sys2Proof.Machine.execSend p a b s
  | .sendT p d a b => Sys2Proof.Machine.execSendT p d a b s
  | .recv p t id d => Sys2Proof.Machine.execRecv p t id d s
  | .chstat p d => Sys2Proof.Machine.execChstat p d s
  | .chstatD p d a => Sys2Proof.Machine.execChstatD p d a s
  | .spawn p d a b => Sys2Proof.Machine.execSpawn p d a b s
  | .exit p => Sys2Proof.Machine.execExit p s
  | .yield p => Sys2Proof.Machine.execYield p s
  | .wait p => Sys2Proof.Machine.execWait p s
  | .park p => Sys2Proof.Machine.execPark p s
  | .wake p t a => Sys2Proof.Machine.execWake p t a s
  | .self p v d => Sys2Proof.Machine.execSelf p v d s
  | .mbxr p d b => Sys2Proof.Machine.execMbxr p d b s
  | .evict p => Sys2Proof.Machine.execEvict p s
  | .evictMem p => Sys2Proof.Machine.execEvictMem p s
  | .pin p d => Sys2Proof.Machine.execPin p d s
  | .pinU p => Sys2Proof.Machine.execPinU p s
  | .ctxrd p d a w => Sys2Proof.Machine.execCtxrd p d a w s
  | .ctxwr p a c w => Sys2Proof.Machine.execCtxwr p a c w s
  | .qcfg p q b => Sys2Proof.Machine.execQcfg p q b s
  | .qbindPop p q => Sys2Proof.Machine.execQbindPop p q s
  | .qbindPush p q => Sys2Proof.Machine.execQbindPush p q s
  | .qbindUpop p => Sys2Proof.Machine.execQbindUpop p s
  | .qbindUpush p => Sys2Proof.Machine.execQbindUpush p s
  | .qstat p d q => Sys2Proof.Machine.execQstat p d q s
  | .qdrain p q => Sys2Proof.Machine.execQdrain p q s
  | .qpeek p d q b => Sys2Proof.Machine.execQpeek p d q b s
  | .cvt p rm ov dst src d a => Sys2Proof.Machine.execCvt p rm ov dst src d a s
  | .vcvt p rm ov d a x0 x1 => Sys2Proof.Machine.execVcvt p rm ov d a x0 x1 s
  | .qntk p ov d a b t x0 x1 x2 x3 => Sys2Proof.Machine.execQntk p ov d a b t x0 x1 x2 x3 s
  | .dqnk p rm ov d a b t x0 x1 x2 x3 => Sys2Proof.Machine.execDqnk p rm ov d a b t x0 x1 x2 x3 s
  | .qscl p ov d a b t x1 x2 x3 => Sys2Proof.Machine.execQscl p ov d a b t x1 x2 x3 s
  | .csrx p d a b t x0 x1 x2 x3 => Sys2Proof.Machine.execCsrx p d a b t x0 x1 x2 x3 s
  | .csrd p d a b t x0 x1 x2 x3 => Sys2Proof.Machine.execCsrd p d a b t x0 x1 x2 x3 s
  | .cvstat p d => Sys2Proof.Machine.execCvstat p d s
  | .cvstatClr p d => Sys2Proof.Machine.execCvstatClr p d s
  | .vclaim p d b => Sys2Proof.Machine.execVclaim p d b s
  | .vclaimW p d b => Sys2Proof.Machine.execVclaimW p d b s
  | .vrel p => Sys2Proof.Machine.execVrel p s
  | .hset p a x0 => Sys2Proof.Machine.execHset p a x0 s
  | .hget p d x0 => Sys2Proof.Machine.execHget p d x0 s
  | .vadd p d a x0 x1 x2 => Sys2Proof.Machine.execVadd p d a x0 x1 x2 s
  | .vsub p d a x0 x1 x2 => Sys2Proof.Machine.execVsub p d a x0 x1 x2 s
  | .vmul p d a x0 x1 x2 => Sys2Proof.Machine.execVmul p d a x0 x1 x2 s
  | .vfma p d a x0 x1 x2 x3 => Sys2Proof.Machine.execVfma p d a x0 x1 x2 x3 s
  | .vdiv p d a x0 x1 x2 => Sys2Proof.Machine.execVdiv p d a x0 x1 x2 s
  | .vmin p d a x0 x1 x2 => Sys2Proof.Machine.execVmin p d a x0 x1 x2 s
  | .vmax p d a x0 x1 x2 => Sys2Proof.Machine.execVmax p d a x0 x1 x2 s
  | .vabs p d a x0 x1 => Sys2Proof.Machine.execVabs p d a x0 x1 s
  | .vneg p d a x0 x1 => Sys2Proof.Machine.execVneg p d a x0 x1 s
  | .vcmp p c d a x0 x1 x2 => Sys2Proof.Machine.execVcmp p c d a x0 x1 x2 s
  | .vsel p d a x0 x1 x2 x3 => Sys2Proof.Machine.execVsel p d a x0 x1 x2 x3 s
  | .vred p op acc d a x1 => Sys2Proof.Machine.execVred p op acc d a x1 s
  | .vscan p op d a b x0 x1 => Sys2Proof.Machine.execVscan p op d a b x0 x1 s
  | .vperm p d a x0 x1 x2 => Sys2Proof.Machine.execVperm p d a x0 x1 x2 s
  | .vbcast p d a b x0 => Sys2Proof.Machine.execVbcast p d a b x0 s
  | .vextr p d b x1 => Sys2Proof.Machine.execVextr p d b x1 s
  | .vrcp p d a x0 x1 => Sys2Proof.Machine.execVrcp p d a x0 x1 s
  | .vrsq p d a x0 x1 => Sys2Proof.Machine.execVrsq p d a x0 x1 s
  | .vexp2 p d a x0 x1 => Sys2Proof.Machine.execVexp2 p d a x0 x1 s
  | .vlog2 p d a x0 x1 => Sys2Proof.Machine.execVlog2 p d a x0 x1 s
  | .vsin p d a x0 x1 => Sys2Proof.Machine.execVsin p d a x0 x1 s
  | .vcos p d a x0 x1 => Sys2Proof.Machine.execVcos p d a x0 x1 s
  | .vtbl p d a x0 x1 x2 => Sys2Proof.Machine.execVtbl p d a x0 x1 x2 s
  | .vtblcfg p d x0 => Sys2Proof.Machine.execVtblcfg p d x0 s
  | .efset p b => Sys2Proof.Machine.execEfset p b s
  | .padd p sat d a b => Sys2Proof.Machine.execPadd p sat d a b s
  | .psub p sat d a b => Sys2Proof.Machine.execPsub p sat d a b s
  | .pmul p sat d a b => Sys2Proof.Machine.execPmul p sat d a b s
  | .pdot p d a b => Sys2Proof.Machine.execPdot p d a b s
  | .pmin p d a b => Sys2Proof.Machine.execPmin p d a b s
  | .pmax p d a b => Sys2Proof.Machine.execPmax p d a b s
  | .pabs p sat d a => Sys2Proof.Machine.execPabs p sat d a s
  | .pshf p d a b => Sys2Proof.Machine.execPshf p d a b s
  | .pcmp p c d a b => Sys2Proof.Machine.execPcmp p c d a b s
  | .mld p d a x0 x1 => Sys2Proof.Machine.execMld p d a x0 x1 s
  | .mst p d a x0 x1 => Sys2Proof.Machine.execMst p d a x0 x1 s
  | .mset p d a b x0 => Sys2Proof.Machine.execMset p d a b x0 s
  | .madd p d a b x0 x1 x2 => Sys2Proof.Machine.execMadd p d a b x0 x1 x2 s
  | .msub p d a b x0 x1 x2 => Sys2Proof.Machine.execMsub p d a b x0 x1 x2 s
  | .mmul p d a b x0 x1 x2 => Sys2Proof.Machine.execMmul p d a b x0 x1 x2 s
  | .mfma p d a b x0 x1 x2 x3 => Sys2Proof.Machine.execMfma p d a b x0 x1 x2 x3 s
  | .mscl p d a b x0 x1 => Sys2Proof.Machine.execMscl p d a b x0 x1 s
  | .msqr p d a x0 x1 => Sys2Proof.Machine.execMsqr p d a x0 x1 s
  | .mnl p fn d a x0 x1 => Sys2Proof.Machine.execMnl p fn d a x0 x1 s
  | .mcol p op d a b x1 => Sys2Proof.Machine.execMcol p op d a b x1 s
  | .mcolH p op d a b x0 x1 => Sys2Proof.Machine.execMcolH p op d a b x0 x1 s
  | .mchk p d a x1 => Sys2Proof.Machine.execMchk p d a x1 s
  | .tset p d b => Sys2Proof.Machine.execTset p d b s
  | .tget p d a => Sys2Proof.Machine.execTget p d a s
  | .tld p sc evp d a c => Sys2Proof.Machine.execTld p sc evp d a c s
  | .tst p sc evp b a c => Sys2Proof.Machine.execTst p sc evp b a c s
  | .tzero p d => Sys2Proof.Machine.execTzero p d s
  | .ttrn p d a => Sys2Proof.Machine.execTtrn p d a s
  | .tpred p z d a => Sys2Proof.Machine.execTpred p z d a s
  | .kop p op d a b => Sys2Proof.Machine.execKop p op d a b s
  | .tmma p z d a b c => Sys2Proof.Machine.execTmma p z d a b c s
  | .tmms p z one tp tr d a b c => Sys2Proof.Machine.execTmms p z one tp tr d a b c s
  | .tmmm p z d a b => Sys2Proof.Machine.execTmmm p z d a b s
  | .aclr p d => Sys2Proof.Machine.execAclr p d s
  | .ard p rm ov m d a b x0 => Sys2Proof.Machine.execArd p rm ov m d a b x0 s
  | .awr p m d a b x1 => Sys2Proof.Machine.execAwr p m d a b x1 s
  | .mgcfg p d => Sys2Proof.Machine.execMgcfg p d s
  | .mgcfgRel p d => Sys2Proof.Machine.execMgcfgRel p d s
  | .mgstat p d => Sys2Proof.Machine.execMgstat p d s
  | .mgadd p d a b t x1 x2 => Sys2Proof.Machine.execMgadd p d a b t x1 x2 s
  | .mgdrain p d a t x0 x1 => Sys2Proof.Machine.execMgdrain p d a t x0 x1 s
  | .cpy p d a b t len bar => Sys2Proof.Machine.execCpy p d a b t len bar s
  | .cpy2d p d a b t row shape bar => Sys2Proof.Machine.execCpy2d p d a b t row shape bar s
  | .cpyT p d b t pitch tile bar => Sys2Proof.Machine.execCpyT p d b t pitch tile bar s
  | .cpym p d b t pitch tile bar fc follow => Sys2Proof.Machine.execCpym p d b t pitch tile bar fc follow s
  | .gath p z d a b t count bar => Sys2Proof.Machine.execGath p z d a b t count bar s
  | .scat p z d a b t count bar => Sys2Proof.Machine.execScat p z d a b t count bar s
  | .cpstQ p d t b => Sys2Proof.Machine.execCpstQ p d t b s
  | .cpstRes p d a => Sys2Proof.Machine.execCpstRes p d a s
  | .cpstEnd p d a b => Sys2Proof.Machine.execCpstEnd p d a b s
  | .winset p rt n b x0 => Sys2Proof.Machine.execWinset p rt n b x0 s
  | .winsetCl p n => Sys2Proof.Machine.execWinsetCl p n s
  | .nlcfg p d a => Sys2Proof.Machine.execNlcfg p d a s
  | .nlbin p d a b t => Sys2Proof.Machine.execNlbin p d a b t s
  | .nlpair p d t x0 x1 => Sys2Proof.Machine.execNlpair p d t x0 x1 s
  | .nlnext p d => Sys2Proof.Machine.execNlnext p d s
  | .nlstat p d => Sys2Proof.Machine.execNlstat p d s
  | .nlrel p => Sys2Proof.Machine.execNlrel p s
  | .launch p d a => Sys2Proof.Machine.execLaunch p d a s
  | .join p d a => Sys2Proof.Machine.execJoin p d a s
  | .joinT p d a => Sys2Proof.Machine.execJoinT p d a s
  | .done p => Sys2Proof.Machine.execDone p s
  | .prio p d a b => Sys2Proof.Machine.execPrio p d a b s
  | .prioSelf p d b => Sys2Proof.Machine.execPrioSelf p d b s
  | .wladd p d a => Sys2Proof.Machine.execWladd p d a s
  | .wltake p d c => Sys2Proof.Machine.execWltake p d c s
  | .wlcfg p d => Sys2Proof.Machine.execWlcfg p d s
  | .wlcfgRel p d => Sys2Proof.Machine.execWlcfgRel p d s
  | .wlcfgSt p d => Sys2Proof.Machine.execWlcfgSt p d s
  | .lvcfg p b => Sys2Proof.Machine.execLvcfg p b s
  | .trap p n => Sys2Proof.Machine.execTrap p n s
  | .tret p => Sys2Proof.Machine.execTret p s
  | .sysr p d sel => Sys2Proof.Machine.execSysr p d sel s
  | .sysw p sel a => Sys2Proof.Machine.execSysw p sel a s
  | .xlpub p d a b => Sys2Proof.Machine.execXlpub p d a b s
  | .xlpubNs p d a b => Sys2Proof.Machine.execXlpubNs p d a b s
  | .xlinvAll p => Sys2Proof.Machine.execXlinvAll p s
  | .xlinvOwn p a => Sys2Proof.Machine.execXlinvOwn p a s
  | .svcsend p d a b => Sys2Proof.Machine.execSvcsend p d a b s
  | .corectlOut p d a => Sys2Proof.Machine.execCorectlOut p d a s
  | .corectlIn p d a => Sys2Proof.Machine.execCorectlIn p d a s
  | .corectlTout p d a => Sys2Proof.Machine.execCorectlTout p d a s
  | .corectlDisp p d a => Sys2Proof.Machine.execCorectlDisp p d a s
  | .corectlStat p d a => Sys2Proof.Machine.execCorectlStat p d a s
  | .mapout p d a => Sys2Proof.Machine.execMapout p d a s
  | .migr p d a b t => Sys2Proof.Machine.execMigr p d a b t s
  | .wsld p d a b c => Sys2Proof.Machine.execWsld p d a b c s
  | .keyset p d a b => Sys2Proof.Machine.execKeyset p d a b s
  | .keysetDel p d a => Sys2Proof.Machine.execKeysetDel p d a s
  | .metrd p d b => Sys2Proof.Machine.execMetrd p d b s
  | .metrdN p d b => Sys2Proof.Machine.execMetrdN p d b s
  | .metsign p d a b => Sys2Proof.Machine.execMetsign p d a b s
  | .metsignFinal p d a b => Sys2Proof.Machine.execMetsignFinal p d a b s
  | .attest p d a b => Sys2Proof.Machine.execAttest p d a b s
  | .attestRev p d a => Sys2Proof.Machine.execAttestRev p d a s
  | .trace p code a => Sys2Proof.Machine.execTrace p code a s
  | .lclk p d => Sys2Proof.Machine.execLclk p d s
  | .lclkAcq p d => Sys2Proof.Machine.execLclkAcq p d s
  | .bkpt p n => Sys2Proof.Machine.execBkpt p n s
  | .sample p d a => Sys2Proof.Machine.execSample p d a s
  | .trigsetBuf p d a b => Sys2Proof.Machine.execTrigsetBuf p d a b s
  | .trigsetStart p d a => Sys2Proof.Machine.execTrigsetStart p d a s
  | .trigsetStop p d a => Sys2Proof.Machine.execTrigsetStop p d a s
  | .trigsetBp p d a b slot => Sys2Proof.Machine.execTrigsetBp p d a b slot s
  | .trigsetMask p d a => Sys2Proof.Machine.execTrigsetMask p d a s
  | .trigsetSt p d => Sys2Proof.Machine.execTrigsetSt p d s
  | .slotrd p d a n => Sys2Proof.Machine.execSlotrd p d a n s
  | .slotrdClr p d a n => Sys2Proof.Machine.execSlotrdClr p d a n s
  | .deviceReset => Sys2Proof.Machine.execDeviceReset s
  | .clockStepSelect c => Sys2Proof.Machine.execClockStepSelect c s
  | .systemSpaceWrite unit off v => Sys2Proof.Machine.execSystemSpaceWrite unit off v s
  | .coreCycle core => Sys2Proof.Machine.execCoreCycle core s
  | .icacheFill thread => Sys2Proof.Machine.execIcacheFill thread s
  | .longOpResult thread => Sys2Proof.Machine.execLongOpResult thread s
  | .loadFill thread => Sys2Proof.Machine.execLoadFill thread s
  | .storeBind thread => Sys2Proof.Machine.execStoreBind thread s
  | .wcEntryDrain core block thread => Sys2Proof.Machine.execWcEntryDrain core block thread s
  | .deferredFault thread => Sys2Proof.Machine.execDeferredFault thread s
  | .wsRefreshStart bank => Sys2Proof.Machine.execWsRefreshStart bank s
  | .wsRefreshEnd => Sys2Proof.Machine.execWsRefreshEnd s
  | .timelineRetire crew t => Sys2Proof.Machine.execTimelineRetire crew t s
  | .yieldTimeout thread => Sys2Proof.Machine.execYieldTimeout thread s
  | .lineCheckInStart thread => Sys2Proof.Machine.execLineCheckInStart thread s
  | .lineCheckInDone thread => Sys2Proof.Machine.execLineCheckInDone thread s
  | .innMoveDone thread => Sys2Proof.Machine.execInnMoveDone thread s
  | .ageTick thread => Sys2Proof.Machine.execAgeTick thread s
  | .parlimWrite tile v => Sys2Proof.Machine.execParlimWrite tile v s
  | .trapEntry thread => Sys2Proof.Machine.execTrapEntry thread s
  | .shootdownComplete thread => Sys2Proof.Machine.execShootdownComplete thread s
  | .systemFault thread code addr => Sys2Proof.Machine.execSystemFault thread code addr s
  | .corefail core => Sys2Proof.Machine.execCorefail core s
  | .linkfail link => Sys2Proof.Machine.execLinkfail link s
  | .watch crew => Sys2Proof.Machine.execWatch crew s
  | .crewSave crew => Sys2Proof.Machine.execCrewSave crew s
  | .crewRestore crew tile => Sys2Proof.Machine.execCrewRestore crew tile s
  | .remapLateWrite crew off bytes => Sys2Proof.Machine.execRemapLateWrite crew off bytes s
  | .porterLineMove => Sys2Proof.Machine.execPorterLineMove s
  | .migrationComplete => Sys2Proof.Machine.execMigrationComplete s
  | .predecessorCommission serial hash => Sys2Proof.Machine.execPredecessorCommission serial hash s
  | .hostWrite pa bytes keep => Sys2Proof.Machine.execHostWrite pa bytes keep s
  | .hostWriteBack line bytes => Sys2Proof.Machine.execHostWriteBack line bytes s
  | .backInvalidateAnswer line => Sys2Proof.Machine.execBackInvalidateAnswer line s
  | .queueFill thread => Sys2Proof.Machine.execQueueFill thread s
  | .convEngineRun tile => Sys2Proof.Machine.execConvEngineRun tile s
  | .cvstatW1cWrite crew v => Sys2Proof.Machine.execCvstatW1cWrite crew v s
  | .mstatW1cWrite crew v => Sys2Proof.Machine.execMstatW1cWrite crew v s
  | .laneGrantServe tile => Sys2Proof.Machine.execLaneGrantServe tile s
  | .momentStep tile => Sys2Proof.Machine.execMomentStep tile s
  | .arrayOpStart tile => Sys2Proof.Machine.execArrayOpStart tile s
  | .arrayOpComplete tile => Sys2Proof.Machine.execArrayOpComplete tile s
  | .followOnDispatch tile op => Sys2Proof.Machine.execFollowOnDispatch tile op s
  | .mangleOpRun tile => Sys2Proof.Machine.execMangleOpRun tile s
  | .copySegmentBind tile op => Sys2Proof.Machine.execCopySegmentBind tile op s
  | .tileStep tile op => Sys2Proof.Machine.execTileStep tile op s
  | .gatherReply tile op elem => Sys2Proof.Machine.execGatherReply tile op elem s
  | .engineFault tile op => Sys2Proof.Machine.execEngineFault tile op s
  | .copyRetire tile op => Sys2Proof.Machine.execCopyRetire tile op s
  | .remoteAccessArrival thread => Sys2Proof.Machine.execRemoteAccessArrival thread s
  | .hamperBinRun site ctx => Sys2Proof.Machine.execHamperBinRun site ctx s
  | .hamperBatchWrite site ctx => Sys2Proof.Machine.execHamperBatchWrite site ctx s
  | .coachInterval tile => Sys2Proof.Machine.execCoachInterval tile s
  | .hqtailDoorbell q v => Sys2Proof.Machine.execHqtailDoorbell q v s
  | .hqEnableWrite q v => Sys2Proof.Machine.execHqEnableWrite q v s
  | .hostLaunchAccept q => Sys2Proof.Machine.execHostLaunchAccept q s
  | .deskSelect site => Sys2Proof.Machine.execDeskSelect site s
  | .instanceBind site => Sys2Proof.Machine.execInstanceBind site s
  | .coResidentBind launch => Sys2Proof.Machine.execCoResidentBind launch s
  | .instanceEnd crew => Sys2Proof.Machine.execInstanceEnd crew s
  | .reductionSweep => Sys2Proof.Machine.execReductionSweep s
  | .triggerCycle => Sys2Proof.Machine.execTriggerCycle s
  | .traceRecordWrite => Sys2Proof.Machine.execTraceRecordWrite s
  | .freeze => Sys2Proof.Machine.execFreeze s
  | .thaw => Sys2Proof.Machine.execThaw s
  | .arrayrd sel => Sys2Proof.Machine.execArrayrd sel s
  | .extest => Sys2Proof.Machine.execExtest s
  | .samplePreload => Sys2Proof.Machine.execSamplePreload s
  | .idcode => Sys2Proof.Machine.execIdcode s
  | .bypass code => Sys2Proof.Machine.execBypass code s
  | .threadTermination thread whole => Sys2Proof.Machine.execThreadTermination thread whole s
  | .faultRingPointerWrite mender head base => Sys2Proof.Machine.execFaultRingPointerWrite mender head base s
  | .fabricAccessArrival pa size op time => Sys2Proof.Machine.execFabricAccessArrival pa size op time s
  | .speculativeFetch f => Sys2Proof.Machine.execSpeculativeFetch f s
  | .wsldComplete thread => Sys2Proof.Machine.execWsldComplete thread s

end Sys2Proof.Machine
end

