-- ==== Sys2Proof/Machine/Front.lean ====
section
/-! DEFINITION. IssueOne of R51 up to the decode (fetch, pad words, FETCHX, decode, R101, R219), and placing an instruction
where the next step fetches. -/

namespace Sys2Proof.Machine

/-- The `n` bytes at a line's PC lie in an attested range of its task (R218, R219). -/
def State.attestedAt (s : State) (t : Thread) (n : Nat) : Bool :=
  s.tier.attested.any fun e =>
    e.2.gtid == t.gtid && decide (e.2.va ≤ t.pc.toNat ∧ t.pc.toNat + n ≤ e.2.va + e.2.len)

/-- A line of a node with metered regions fetches `n` bytes outside every attested range of its task (R219). -/
def State.unattested (s : State) (t : Thread) (c : Crew) (n : Nat) : Bool := c.decl.meters != 0 && !s.attestedAt t n

/-- The instruction at a line's PC, in the bytes of its fetch block, leaves every attested range of its task (R219). -/
def State.wordUnattested (s : State) (t : Thread) (c : Crew) (block : List Byte) : Bool :=
  let off := t.pc.toNat % 32
  let n := lengthOf (leNat ((block.drop off).take 4))
  decide (off + n ≤ 32) && s.unattested t c n

/-- The 32 bytes of the fetch block at a physical address: from the core's instruction cache, which then counts the block
as used, or, for a line of no core, from memory; none where the block is missing (R93). The model's choice: a block is known by
its physical address and kept until another takes its place (notes/assumptions/82.md). -/
def State.blockBytes (s : State) (core : Option Nat) (p : Part) : Option (List Byte) × State :=
  let b := p.target.pos / 32
  match core with
  | none => (some (s.ownedBytes p.attr.owner (b * 32) 32), s)
  | some n =>
    match (s.core n).hasBlock b with
    | none => (none, s)
    | some x =>
      let (st, s) := s.stamp
      (some x.bytes, s.modCore n fun c => c.touchBlock b st)

/-- Carry out an effect of the fetch or decode on the selected line. -/
def State.frontEffect (s : State) (k : Nat) (t : Thread) (c : Crew) (e : Effect) : Out :=
  let i : Issue := { k := k, t := t, c := c.seen s.clock, crew := t.crewn.toNat }
  .next (e.apply i 4 { s with issuer := none })

/-- What the bytes of a fetch block, from an offset on, are: an instruction and its length, or the trap of R31, R34, R51. -/
noncomputable def readInstr (pc off : Nat) (block : List Byte) : Except TrapInfo (Instr × Nat) :=
  let bs := block.drop off
  let w0 := leNat (bs.take 4)
  if w0 % 4 = 3 then
    if w0 = 0xFFFFFFFF then .ok (.pad, 4) else .error { code := codeIllop }
  else
    let len := if w0 % 4 = 0 then 8 else if w0 % 4 = 1 then 12 else 16
    if 32 < off + len then .error { code := codeFetchx, addr := pc }
    else
      match decode (bs.take len) with
      | .ok (i, _) => .ok (i, len)
      | .error (.handle code) => .error { code := codeHandle, detail := code }
      | .error _ => .error { code := codeIllop }

/-- IssueOne of R51 for the selected line. -/
noncomputable def State.issueOne (s : State) (k : Nat) : Out :=
  match s.thread? k with
  | none => .fault (.noLine k)
  | some t =>
    match s.crew? t.crewn.toNat with
    | none => .fault (.noLine k)
    | some c =>
      match s.fetchAddr t with
      | (.error (.sys code), s) => s.frontEffect k t c (.sys code t.pc.toNat)
      | (.error (.user code), s) => s.frontEffect k t c (.user code)
      | (.ok p, s) =>
        if s.unattested t c 4 then s.frontEffect k t c (.sys codeProt t.pc.toNat)
        else
          match s.blockBytes t.entryCore p with
          | (none, s) =>
            let s := { s with issuer := none }
            .next ((s.modThread k fun t => { t with fetchStall := some (p.target.pos / 32) }).notIssued t.entryCore)
          | (some bs, s) =>
            if s.wordUnattested t c bs then s.frontEffect k t c (.sys codeProt t.pc.toNat)
            else
            match readInstr t.pc.toNat (t.pc.toNat % 32) bs with
            | .error ti => s.frontEffect k t c (.trap ti)
            | .ok (i, len) =>
              if t.pastBody len then s.frontEffect k t c (.user codeIllop) else exec i s

/-! ### Placing an instruction -/

/-- The leaf of the page `withFetchWord` maps: valid, readable, executable, global, cacheable, house 0, frame 0. -/
def fetchLeaf : BitVec 64 := 0x3B#64

/-- Bytes of an instruction numbered as the opcode table numbers them, up to the longest instruction. -/
def fetchBytes (nbits w : Nat) : List Byte := natBytes 16 (w % 2 ^ nbits)

/-- The state with an instruction where the next step fetches it: line 0 of crew 0, made if the state has none, is resident
in core 0 and selected; its page is mapped to physical address 0, where the instruction and the core's instruction cache
hold it (notes/assumptions/9.md says how a program comes to run from reset). -/
def State.place (s : State) (bs : List Byte) : State :=
  let t := (s.thread? 0).getD Thread.reset
  let n := t.crewn.toNat
  let c := (s.crew? n).getD (Crew.reset 0 Task.zero Decl.none)
  let pc := t.pc.toNat / 32 * 32 % 2 ^ 55
  let t := { t.clearWait with pc := BitVec.ofNat 56 pc, st := .ready, loc := .parlour 0, fetchStall := none, trapq := none }
  let s := (s.setCrew n c).setThread 0 t
  let e : TlbEntry := { root := c.task.xlroot, va := pc / 65536 * 65536, size := 65536, leaf := fetchLeaf, path := [] }
  let pa := pc % 65536
  let s := s.modTile 0 fun x => { x with tlb := e :: x.tlb }
  let s := { s with mem := { s.mem with mem := Memory.writeBytes s.mem.mem pa (bs ++ List.replicate (32 - bs.length) 0) } }
  let s := s.modCore 0 fun x =>
    x.fillBlock { block := pa / 32, bytes := Memory.readBytes s.mem.mem pa 32, stamp := 0 }
  { s with issuer := some 0 }

end Sys2Proof.Machine
end

