-- ==== Sys2Proof/Machine/Sched.lean ====
section
/-! DEFINITION. What the part does next when no line has been selected and nothing is on the agenda: the first event that
changes anything, in a fixed order, and otherwise a cycle of a core (notes/assumptions/2.md). Events that only the outside
world or the passing of wall-clock time brings stand on the agenda alone. -/

namespace Sys2Proof.Machine

/-- The state after the first of a list of events that changes the state. -/
def State.firstChange (s : State) : List (State → Out) → Option State
  | [] => none
  | f :: fs =>
    match f s with
    | .next t => if t = s then s.firstChange fs else some t
    | _ => s.firstChange fs

/-- Events of one line. -/
def lineEvents (k : Nat) (t : Thread) : List (State → Out) :=
  (if t.longop.isSome then [execLongOpResult k] else []) ++
  (if t.unbound.isEmpty then [] else [execLoadFill k, execStoreBind k, execQueueFill k, execRemoteAccessArrival k, execDeferredFault k]) ++
  (if t.landing.isEmpty then [] else [execQueueFill k]) ++
  (if t.trapq.isSome then [execTrapEntry k] else []) ++
  (if t.fetchStall.isSome then [execIcacheFill k] else []) ++
  (match t.await with
    | .shootdown => [execShootdownComplete k]
    | .wsld => [execWsldComplete k]
    | .reply => [execLongOpResult k]
    | .rows => [execLoadFill k]
    | .scan => [fun s => .next (s.scanned k)]
    | .bankWrite => [execWsRefreshEnd]
    | _ => []) ++
  (if t.st = .waiting ∧ t.wkind = 15 then [execYieldTimeout k] else []) ++
  (match t.loc with
    | .arriving _ _ => [execLineCheckInDone k]
    | .toInn _ => [execInnMoveDone k]
    | _ => [])

/-- Events of one tile. -/
def tileEvents (n : Nat) (t : Tile) : List (State → Out) :=
  (if t.convQ.isEmpty then [] else [execConvEngineRun n, execEngineFault n 1]) ++
  (if t.mangleQ.isEmpty then [] else [execMangleOpRun n, execEngineFault n 2]) ++
  (if t.momentQ.isEmpty then [] else [execMomentStep n]) ++
  (if t.arrayQ.isEmpty then [] else [execArrayOpComplete n, execArrayOpStart n]) ++
  t.copies.flatMap fun (x : Nat × CopyOp) =>
    [execCopySegmentBind n x.1] ++ (List.range x.2.count).map (fun j => execGatherReply n x.1 j) ++
      [execTileStep n x.1, execFollowOnDispatch n x.1, execCopyRetire n x.1,
       execEngineFault n (4 * x.1)]

/-- Events of launches. -/
def workEvents (s : State) : List (State → Out) :=
  (s.work.hqs.map fun (e : Nat × HostQueue) => fun s => execHostLaunchAccept ⟨e.1 % 64, Nat.mod_lt _ (by decide)⟩ s) ++
  (if s.work.launches.isEmpty then []
   else
    (s.work.launches.filter fun e => e.2.cores && (!e.2.reserved || !e.2.toSetUp.isEmpty)).map (fun (e : Nat × Launch) => execCoResidentBind e.1) ++
    (List.range Config.sites).flatMap (fun n => [execInstanceBind n, execDeskSelect n])) ++
  s.crews.map (fun (e : Nat × Crew) => execInstanceEnd e.1) ++
  (if s.work.launches.isEmpty && s.work.results.isEmpty then [] else [execReductionSweep])

/-- The crews a waiting CORECTL has named for displacement (R193). -/
def State.namedToSave (s : State) : List Nat :=
  (s.threads.filter fun e => e.2.st == .waiting && e.2.await == .save).flatMap fun (e : Nat × Thread) =>
    (s.crews.filter fun c => !c.2.displaced &&
      (e.2.target == saveCrew c.1 || e.2.target == saveTile c.2.tile)).map (·.1)

/-- Events of displaced crews, and of those whose displacement has begun or that a waiting CORECTL has named: each save, and each
restore to the first tile that can take the crew (R197). -/
def displaceEvents (s : State) : List (State → Out) :=
  (s.namedToSave ++ (s.crews.filter fun e => e.2.saving).map (·.1)).map (fun (c : Nat) => execCrewSave c) ++
  (s.crews.filter fun e => e.2.displaced).flatMap fun (e : Nat × Crew) =>
    match (List.range (24 * Config.sites)).find? fun t => s.mayRestore e.1 e.2 t with
    | some t => [execCrewRestore e.1 t]
    | none => []

/-- The events the part brings about by itself, in the order in which they are tried. -/
def State.ownEvents (s : State) : List (State → Out) :=
  [execTraceRecordWrite] ++
  s.threads.flatMap (fun (e : Nat × Thread) => lineEvents e.1 e.2) ++
  s.cores.flatMap (fun (e : Nat × Core) => (e.2.wc.filter fun w => w.draining).map fun w => execWcEntryDrain e.1 w.target.block w.thread) ++
  s.tiles.flatMap (fun (e : Nat × Tile) => tileEvents e.1 e.2) ++
  s.sites.flatMap (fun (e : Nat × Site) => ((List.finRange 8).filter fun n => (e.2.hamper[n]).crew.isSome).flatMap fun n =>
    [execHamperBinRun e.1 n.val, execHamperBatchWrite e.1 n.val, execEngineFault (24 * e.1) (4 * n.val + 3)]) ++
  s.crews.flatMap (fun (e : Nat × Crew) => (List.finRange 4).map fun t => execTimelineRetire e.1 t) ++
  s.tiles.map (fun (e : Nat × Tile) => execLaneGrantServe e.1) ++
  (if s.tier.migrations.isEmpty then [] else [execPorterLineMove, execMigrationComplete]) ++
  workEvents s ++ displaceEvents s ++
  ((s.rings.filter fun (e : Nat × Ring) => s.answerReady e.1).map fun (e : Nat × Ring) =>
    fun s => .next (s.sendAnswers e.1)) ++
  ((s.rings.filter fun (e : Nat × Ring) => !e.2.waiting.isEmpty && e.2.room).map fun (e : Nat × Ring) =>
    fun s => .next (State.fillRing e.1 (e.2.waiting.length + 1) s))

/-- What takes place while every clock stands (R410): the test access port, device reset, and refresh, which runs in
wall-clock time. -/
def whileFrozen : Instr → Bool
  | .thaw | .freeze | .arrayrd _ | .extest | .samplePreload | .idcode | .bypass _ => true
  | .deviceReset | .wsRefreshStart _ | .wsRefreshEnd => true
  | _ => false

/-- Accesses that come over a link: while the clocks stand they wait there (R410). -/
def atLink : Instr → Bool
  | .hostWrite _ _ _ | .hostWriteBack _ _ | .backInvalidateAnswer _ | .systemSpaceWrite _ _ _ | .hqtailDoorbell _ _
  | .hqEnableWrite _ _ | .fabricAccessArrival _ _ _ _ => true
  | _ => false

/-- What the agenda names while the clocks stand waits at its link, or does not take place. -/
def State.whileStanding (s : State) (e : Instr) : State :=
  if atLink e then { s with dbg := { s.dbg with link := s.dbg.link ++ [e] } } else s

/-- A cycle of the package goes on: the next core takes its part, and when all have, the cycle ends. -/
def State.goOn (s : State) : State :=
  match s.nextSlot with
  | some n => s.slot n
  | none => s.endOfCycle

/-- The part goes on by itself: an event that changes something, and else a cycle. While its clocks stand it does nothing
(R410). -/
def State.proceed (s : State) : Out :=
  if s.dbg.frozen then .next s
  else
    match s.firstChange s.ownEvents with
    | some t => .next t
    | none => .next (if s.dueCores.isEmpty && !s.cycleNeeded then s else s.goOn)

end Sys2Proof.Machine
end

