-- ==== Sys2Proof/Machine/Step.lean ====
section
/-! DEFINITION. One step of the part. -/

namespace Sys2Proof.Machine

/-- A selected line issues its instruction; otherwise a cycle that is under way goes on; otherwise the first event of the agenda
takes place, if the clocks run or it needs none (R410); otherwise the part goes on by itself (notes/assumptions/2.md). -/
noncomputable def advance (s : State) : Host.Outcome State Fault Refusal :=
  match s.issuer with
  | some k => s.issueOne k
  | none =>
    if s.cycleOpen && !s.dbg.frozen then .next s.goOn
    else
      match s.agenda with
      | e :: es =>
        if s.dbg.frozen ∧ !whileFrozen e then .next ({ s with agenda := es }.whileStanding e)
        else exec e { s with agenda := es }
      | [] => s.proceed

/-- One step, with what it means for the crews that have been saved (R196, R198). -/
noncomputable def step (s : State) : Host.Outcome State Fault Refusal :=
  match advance s with
  | .next t => .next (s.afterStep t)
  | o => o

/-- The state with an instruction of the opcode table where the next step fetches it. -/
def State.withFetchWord (s : State) (nbits w : Nat) : State := s.place (fetchBytes nbits w)

end Sys2Proof.Machine
end

