-- ==== Sys2Proof/Safety/Begin.lean ====
section
/-! DEFINITION. The terms in which claims speak of one instruction: the line that begins it, and how it ends. -/

namespace Sys2Proof.Machine.Claim


/-- The line whose instruction issues next, with its crew as this cycle sees it (R184). -/
def issuing (s : State) : Option Issue :=
  match s.issuer with
  | none => none
  | some k =>
    match s.thread? k with
    | none => none
    | some t =>
      match s.crew? t.crewn.toNat with
      | none => none
      | some c =>
        some { k := k, t := t, c := c.seen s.clock, crew := t.crewn.toNat }

/-- Nothing of R72, R112 or R123 keeps the line from this instruction, or stops it. -/
def goesOn (t : Thread) (u : Uses) : Bool :=
  match t.mustWait u with
  | .no => true
  | _ => false

/-- The instruction reads g6 while it is bound to pop, or writes g7 while it is bound to push (R226). -/
def pops (i : Issue) (u : Uses) : Bool := i.t.popv && u.reads.contains 6
def pushes (i : Issue) (u : Uses) : Bool := i.t.pushv && u.writes.contains 7

/-- The queue it pushes has a free entry, its own pop counted (R226). -/
def hasRoom (i : Issue) (u : Uses) : Bool :=
  decide ((i.c.queue i.t.pushq).used - (if pops i u ∧ i.t.popq = i.t.pushq then 1 else 0) < 16)

/-- What an operation starts from when its queue bindings are in order: a bound g6 finds an entry that this cycle may take, and takes
it, and a bound g7 finds room, no pop or reservation of this cycle being due before it (R225 to R227). -/
def takes (i : Issue) (u : Uses) (s : State) : Option (Issue × State) :=
  if (i.misuse u).isSome || (pushes i u && (!hasRoom i u || i.yields s i.t.pushq false)) then none
  else if pops i u then
    let q := i.c.queue i.t.popq
    let x := q.slot q.head
    if !q.poppable s.clock || x.fault then none
    else some ({ i with t := i.t.setReg 6 x.val, popped := some (i.t.popq, x) }, s.modQueue i.crew i.t.popq Queue.pop)
  else some (i, s)

/-- What an instruction begins with when nothing of R51 stands in its way: its predicate is true, nothing waits or is owed,
its privilege suffices, and its queue bindings are in order. The state is the one its operation starts from. -/
def begins (p : Pred) (u : Uses) (s : State) : Option (Issue × State) :=
  match issuing s with
  | none => none
  | some i =>
    if !predTrue p u.tile i.t i.c || !goesOn i.t u || (u.priv && !i.t.privl) then none
    else takes i u { s with issuer := none }

/-- The outcome of an instruction of `len` bytes that ends with this effect. -/
def ends (s : State) (i : Issue) (len : Nat) (e : Effect) : Out := .next (e.apply i len { s with issuer := none })

/-- The effect ends the instruction: it neither waits nor stops its line. -/
def completes : Effect → Bool
  | .retire _ | .jump _ _ | .trap _ | .hold _ | .gone _ => true
  | .wait _ _ _ _ | .stop _ | .fell _ _ | .marked _ | .later _ | .halt _ => false

/-- How an instruction begins and, where it completes, how it ends: the effect is none on the operands and states where it
waits, traps or stops instead. -/
structure Form where
  pred : Pred
  len  : Nat := 8
  uses : Uses
  eff  : Issue → State → Option Effect

/-- The instruction has this form. -/
def Form.describes (f : Form) (x : Instr) : Prop :=
  ∀ s i s1 e, begins f.pred f.uses s = some (i, s1) → f.eff i s1 = some e → completes e = true →
    exec x s = ends s i f.len e

/-- A form that writes one register. -/
def writes (p : Pred) (u : Uses) (d : Reg) (f : Issue → Word) (len : Nat := 8) : Form :=
  { pred := p, len := len, uses := { u with dst := [d] }, eff := fun i s => some (.retire (s.wr i.k d (f i))) }

/-- A form that writes one flag. -/
def setsFlag (p : Pred) (u : Uses) (d : Reg) (f : Issue → Bool) : Form :=
  { pred := p, uses := u, eff := fun i s => some (.retire (s.modThread i.k fun t => t.setFlag d (f i))) }

end Sys2Proof.Machine.Claim
end

