-- ==== Sys2Proof/Safety/Memory.lean ====
section
/-! DEFINITION. How the memory, atomic and granule instructions end (R112, R117, R125 to R136, R148 to R150): an access that
passes its checks is on its way, in program order. -/

namespace Sys2Proof.Machine.Claim

/-- An access of the issuing line that has passed translation, rights and the windows. -/
def reaches (i : Issue) (s : State) (k : AccKind) (r : Right) (va bit width unit data : Nat) (sc : Scope) (evp : Nat) :
    Option (Access × State) :=
  match i.access s k r va bit width unit data sc evp with
  | (.ok a, s) => some (a, s)
  | (.error _, _) => none

/-- A load that goes on: plain, it joins the unbound accesses and its destination is pending (R72, R112, R125); qualified,
it binds at a full granule (R128); to another crew's scratchpad, it is sent there (R346). -/
def loads (i : Issue) (s : State) (k : AccKind) (va bit width unit : Nat) (m : MemArg) : Option Effect :=
  match reaches i s k .read va bit width unit 0 m.scope m.evp with
  | none => none
  | some (a, s) =>
    if k.feQual ≠ .plain ∧ (feCheck a).isSome then none
    else if a.remote then some (i.remoteHold s a)
    else if (s.wsWait a.parts).isSome then none
    else if k.feQual = .plain then
      some (.retire ((s.pushAccess i.k a).modThread i.k fun t => { t with pend := k.dest }))
    else if (s.granuleHolds a).isSome then none
    else some (.retire (if s.nextFault a = 0 then s.bindQualified i.k a else s.deferFault i.k a (s.nextFault a)))

/-- A store that goes on: sequential, it joins the unbound accesses (R112); write-combining, it is in the buffer (R117). -/
def stores (i : Issue) (s : State) (k : AccKind) (wc : Bool) (va bit width unit data : Nat) (m : MemArg) : Option Effect :=
  match reaches i s k .write va bit width unit data m.scope m.evp with
  | none => none
  | some (a, s) =>
    if !wc && s.wcHolds i.k a.parts then none
    else if a.remote then some (i.remoteHold s { a with wc := wc })
    else if wc then
      let n := i.t.entryCore.getD 0
      if s.wcBlocked n i.k a then none else (s.wcBuffer n i.k a i.t.pts).map .retire
    else some (.retire (s.pushAccess i.k a))

/-- Everything of the line has bound and drained; pts has taken the drained entries' times (R117, R133). -/
def afterDraining (i : Issue) (s : State) (f : State → Option Effect) : Option Effect :=
  if s.drained i.k i.t then f (s.modThread i.k fun t => t.raise t.wcTime) else none

/-- What was asked of another unit is on its way: the line waits with kind 0, and its destination, or the slot its bound g7
reserves now, takes the value when the answer comes (R226). -/
def answersLater (i : Issue) (s : State) (d : Reg) (v : Word) (a : Await) : Effect :=
  let (slot, s) := i.reserve s d
  .hold (s.modThread i.k fun t => { t.toWait 0 0 a with finish := some { dest := some (d, v), len := 8, slot := slot } })

/-- An atomic that goes on (R133). -/
def atomics (i : Issue) (s : State) (k : AccKind) (va width data : Nat) (m : MemArg) : Option Effect :=
  if va % (width / 8) ≠ 0 then none
  else
    match reaches i s k .write va 0 width (width / 8) data m.scope m.evp with
    | none => none
    | some (a, s) => afterDraining i s fun s =>
        some (if a.remote then i.remoteHold s a
              else .retire ((s.pushAccess i.k a).modThread i.k fun t => { t with pend := k.dest }))

/-- The form of an AMO (R136). -/
def amoForm (op : AmoOp) (p : Pred) (f : Fmt) (d b : Reg) (m : MemArg) : Form :=
  { pred := p, uses := { src := b :: memRegs m, dst := [d], pend := true, seq := true, drains := true },
    eff := fun i s => atomics i s (.amo op d f) (i.effAddr m f.size) f.width ((i.reg b).toNat % 2 ^ f.width) m }

/-- Loads, stores and atomics (R125 to R136). -/
def memoryForm : Instr → Option Form
  | .ld p f q nb d m => some
      { pred := p, uses := { src := memRegs m, dst := [d], pend := true, seq := !nb || q != .plain },
        eff := fun i s => let va := i.effAddr m f.size
          if va % f.size ≠ 0 then none else loads i s (.load d f nb q) va 0 f.width f.size m }
  | .ldp p _ q nb d m => some
      { pred := p, uses := { src := memRegs m, dstPair := [d], pend := true, seq := !nb || q != .plain },
        eff := fun i s => let va := i.effAddr m 16
          if va % 8 ≠ 0 then none else loads i s (.loadPair d nb q) va 0 128 (if va % 16 = 0 then 16 else 8) m }
  | .ldb p f nb d m => some
      { pred := p, uses := { src := memRegs m, dst := [d], pend := true, seq := !nb || FeQual.plain != .plain },
        eff := fun i s => loads i s (.loadBits d f nb) (i.bitAddr m f.width / 8) (i.bitAddr m f.width % 8) f.width 8 m }
  | .st p f wc b m => some
      { pred := p, uses := { src := b :: memRegs m, seq := !wc },
        eff := fun i s => let va := i.effAddr m f.size
          if va % f.size ≠ 0 then none
          else stores i s .store wc va 0 f.width f.size ((i.reg b).toNat % 2 ^ f.width) m }
  | .stp p _ wc b m => some
      { pred := p, uses := { src := memRegs m, srcPair := [b], seq := !wc },
        eff := fun i s => let va := i.effAddr m 16
          if va % 8 ≠ 0 then none
          else stores i s .storePair wc va 0 128 (if va % 16 = 0 then 16 else 8) (i.pairNat b) m }
  | .stb p f wc b m => some
      { pred := p, uses := { src := b :: memRegs m, seq := !wc },
        eff := fun i s => stores i s .storeBits wc (i.bitAddr m f.width / 8) (i.bitAddr m f.width % 8) f.width 8
          ((i.reg b).toNat % 2 ^ f.width) m }
  | .ldq p f q m => some
      { pred := p, uses := { src := memRegs m, ldq := true },
        eff := fun i s =>
          let x := (s.crew? i.crew).elim Queue.reset (·.queue q)
          let va := i.effAddr m f.size
          if !i.c.hasQueue q ∨ va % f.size ≠ 0 then none
          else
            match reaches i s (.ldq q ((x.head + x.count) % 16) f) .read va 0 f.width f.size 0 m.scope m.evp with
            | none => none
            | some (a, s) =>
              if !x.roomForLdq ∨ i.yields s q false = true then none
              else if a.remote then some (i.remoteHold (s.modQueue i.crew q (·.reserve s.clock (ldqSlot f))) a)
              else if (s.wsWait a.parts).isSome then none
              else some (.retire ((s.modQueue i.crew q (·.reserve s.clock (ldqSlot f))).pushAccess i.k a)) }
  | .amoSwap p f d b m => some (amoForm .swap p f d b m)
  | .amoAdd p f d b m => some (amoForm .add p f d b m)
  | .amoAnd p f d b m => some (amoForm .and p f d b m)
  | .amoOr p f d b m => some (amoForm .or p f d b m)
  | .amoXor p f d b m => some (amoForm .xor p f d b m)
  | .amoMin p f d b m => some (amoForm .min p f d b m)
  | .amoMax p f d b m => some (amoForm .max p f d b m)
  | .amoFadd p f d b m => some (amoForm .fadd p f d b m)
  | .cas p f d b m => some
      { pred := p, uses := { src := d :: b :: memRegs m, dst := [d], pend := true, seq := true, drains := true },
        eff := fun i s => atomics i s (.cas d f ((i.reg d).toNat % 2 ^ f.width)) (i.effAddr m f.size) f.width
          ((i.reg b).toNat % 2 ^ f.width) m }
  | .casp p d b m => some
      { pred := p, uses := { src := memRegs m, srcPair := [d, b], dstPair := [d], pend := true, seq := true, drains := true },
        eff := fun i s => atomics i s (.casp d (i.pairNat d)) (i.effAddr m 16) 128 (i.pairNat b) m }
  | _ => none

/-- A granule instruction in scratchpad space whose rights suffice, at its granule; to another crew's scratchpad it is sent
there (R148, R346). One that comes `after` the thread's earlier accesses to the granule finds none unbound and none in a
write-combining entry (R150). -/
def atGranule (i : Issue) (s : State) (k : AccKind) (a : Reg) (off : BitVec 17) (after : Bool)
    (f : State → (crew g : Nat) → Option Effect) : Option Effect :=
  let va := i.baseOff a off / 16 * 16
  if va / 2 ^ 52 ≠ 9 then none
  else
    match reaches i s k .read va 0 128 16 0 .device 3 with
    | none => none
    | some (acc, s) =>
      if after = true ∧ (acc.parts.any i.t.touchesPart = true ∨ s.wcHolds i.k acc.parts = true) then none
      else if acc.remote then some (i.remoteHold s acc) else f s acc.granuleOf.1 acc.granuleOf.2

/-- Prefetch, fence and granule instructions (R130, R131, R148 to R150). -/
def orderForm : Instr → Option Form
  | .pf p evp a off => some
      { pred := p, uses := { src := [a] },
        eff := fun i s =>
          match s.resolve (s.agent i.t) (i.baseOff a off) 1 .read with
          | (.ok x, s') => some (.retire (s'.prefetchLine (s.tileOfLine i.t) x.target x.attr evp))
          | _ => some (.retire s) }
  | .fence p sc => some
      { pred := p, uses := { drains := true },
        eff := fun i s => afterDraining i s fun s => some (.retire ((s.widen i.k sc).modThread i.k fun t => t.acquire t.pts)) }
  | .few p a off => some
      { pred := p, uses := { src := [a] },
        eff := fun i s => atGranule i s (.granule true none) a off false fun s c g =>
          if (s.crew? c).elim false (fun x => x.granuleFull i.t.owner.toNat g == true) then
            some (.retire (s.bindGranule i.k c g true none)) else none }
  | .fewE p a off => some
      { pred := p, uses := { src := [a] },
        eff := fun i s => atGranule i s (.granule false none) a off false fun s c g =>
          if (s.crew? c).elim false (fun x => x.granuleFull i.t.owner.toNat g == false) then
            some (.retire (s.bindGranule i.k c g false none)) else none }
  | .feset p _ a off => some
      { pred := p, uses := { src := [a], drains := true },
        eff := fun i s => afterDraining i s fun s =>
          atGranule i s (.granule true (some true)) a off false fun s c g =>
            some (.retire (s.bindGranule i.k c g true (some true))) }
  | .feclr p _ a off => some
      { pred := p, uses := { src := [a] },
        eff := fun i s => atGranule i s (.granule true (some false)) a off true fun s c g =>
          some (.retire (s.bindGranule i.k c g true (some false))) }
  | _ => none

end Sys2Proof.Machine.Claim
end

