-- ==== Sys2Proof/Safety/Carrier.lean ====
section
/-! DEFINITION. How the carrier's, the hamper's and the window instructions end (R335, R343, R350 to R356, R362 to R371). -/

namespace Sys2Proof.Machine.Claim

/-- The four steps of acceptance of R335: a free copy slot, the release, the number, the carrier's time. A follow-on is
accepted with it (R315, R351). -/
def copies (i : Issue) (s : State) (d : Reg) (t : Tl) (follow : Option Instr) (mk : CopyOp → CopyOp) : Option Effect :=
  if 64 ≤ s.slotsUsed i.onCore then none
  else afterDraining i s fun s =>
    let time := tmax (s.tile i.c.tile).copyTime ((s.thread? i.k).elim i.t.pts (·.pts))
    let num := (s.crew? i.crew).elim 0 fun c => (c.timeline t).issued + 1
    let s := s.modCrew i.crew fun c => c.setTimeline t { c.timeline t with issued := num }
    let (id, s) := s.stamp
    let (fid, s) : Option Nat × State := match follow with
      | some x => match MatOp.of x, s.crew? i.crew with
        | some o, some c =>
          let r := s.acceptArray i.crew c o x (some id)
          (some r.1, r.2)
        | _, _ => (none, s)
      | none => (none, s)
    let op : CopyOp :=
      { crew := i.crew, tl := t, num := num, core := i.onCore, time := time, pc := i.t.pc, kind := .linear, dst := 0,
        src := 0, rows := 0, rowBytes := 0, spitch := 0, dpitch := 0, count := 0, bar := none, cursor := 0, blocked := none,
        held := [], failed := none, entries := [], gone := [], filled := 0, refused := [], bound := 0, landed := [],
        stepped := false, follow := fid }
    some (.retire ((s.putCopy i.c.tile id (mk op)).wr i.k d num))

/-- A source and a destination range in regions a carrier may reach (R350). -/
def rangesPass (src : Int) (srcLen : Nat) (dst : Int) (dstLen : Nat) : Bool :=
  (rangeCheck src srcLen false).isNone && (rangeCheck dst dstLen true).isNone

/-- A copy into a tile register whose pitch, register, shape and source extent pass (R350). -/
def tileSource (i : Issue) (b pitch tile : Reg) : Option (Nat × TileShape × Int) :=
  let sp := (i.reg pitch).toInt
  let x := i.c.shape tile
  let src := vaOf (i.reg b)
  let e := rowsExtent src x.rows x.bytes sp
  if 2 ^ 36 ≤ sp.natAbs ∨ !i.c.hasTile tile ∨ x.fmt = 0 ∨ (rangeCheck e.1 e.2 false).isSome then none
  else some (src, x, sp)

/-- The list and the elements of a gather or scatter, in the issuing crew's declared scratchpad and aligned (R352). -/
def indexes (i : Issue) (s : State) (d : Reg) (t : Tl) (z : Nat) (list loc count : Reg) (mk : CopyOp → CopyOp) :
    Option Effect :=
  let n := (i.reg count).toNat
  let lv := vaOf (i.reg list)
  let ev := vaOf (i.reg loc)
  match i.ownRange lv (8 * n), i.ownRange ev (z * n) with
  | some lo, some eo =>
    if n ≤ 1048575 ∧ lo + 8 * n ≤ i.c.decl.scratch ∧ eo + z * n ≤ i.c.decl.scratch ∧ lv % 8 = 0 ∧ ev % 16 = 0 then
      copies i s d t none fun op => { mk op with count := n }
    else none
  | _, _ => none

/-- The form of a carrier instruction. -/
def carried (p : Pred) (len : Nat) (d : Reg) (src : List Reg) (eff : Issue → State → Option Effect) : Form :=
  { pred := p, len := len, uses := { src := src, dst := [d], drains := true }, eff := eff }

/-- The follow-on of a CPYM, once its word is an array operation's that reads the tile register copied, and, where its
predicate is true, its checks pass and the array queue has a place (R315, R351); the inner none is a follow-on whose
predicate is false. -/
def followOf (i : Issue) (s : State) (tile : Reg) (follow : BitVec 32) (fc : Reg) : Option (Option Instr) :=
  match followOn follow fc with
  | none => none
  | some x =>
    match MatOp.of x with
    | none => none
    | some o =>
      if tile ≠ o.a ∧ tile ≠ o.b then none
      else if !predTrue (matPred x) true i.t i.c then some none
      else if (o.check i.c (some tile)).isSome ∨ 16 ≤ (s.tile i.c.tile).arrayQ.length then none
      else some (some x)

/-- Carrier and window instructions (R343, R350 to R356). -/
def carrierForm : Instr → Option Form
  | .cpy p d a b t len bar => some (carried p 12 d [a, b, len] fun i s =>
      let n := (i.reg len).toNat
      let src := vaOf (i.reg b)
      let dst := vaOf (i.reg a)
      if n < 2 ^ 36 ∧ rangesPass src n dst n then
        copies i s d t none fun op =>
          { op with kind := .linear, dst := dst, src := src, rows := 1, rowBytes := n, bar := bar }
      else none)
  | .cpy2d p d a b t row shape bar => some (carried p 12 d [a, b, row, shape] fun i s =>
      let rb := (i.reg row).toNat
      let v := (i.reg shape).toNat
      let rows := field v 0 16
      let sp := signedField v 16 24
      let dp := signedField v 40 24
      let src := vaOf (i.reg b)
      let dst := vaOf (i.reg a)
      let x := rowsExtent src rows rb sp
      let y := rowsExtent dst rows rb dp
      if rb < 2 ^ 24 ∧ rows * rb ≤ 2 ^ 36 ∧ rangesPass x.1 x.2 y.1 y.2 then
        copies i s d t none fun op =>
          { op with kind := .linear, dst := dst, src := src, rows := rows, rowBytes := rb, spitch := sp, dpitch := dp,
                    bar := bar }
      else none)
  | .cpyT p d b t pitch tile bar => some (carried p 12 d [b, pitch] fun i s =>
      (tileSource i b pitch tile).bind fun (src, x, sp) =>
        copies i s d t none fun op =>
          { op with kind := .tile tile, src := src, rows := x.rows, rowBytes := x.bytes, spitch := sp, bar := bar })
  | .cpym p d b t pitch tile bar fc follow => some (carried p 16 d [b, pitch] fun i s =>
      (tileSource i b pitch tile).bind fun (src, x, sp) =>
        (followOf i s tile follow fc).bind fun x' =>
          copies i s d t x' fun op =>
            { op with kind := .tile tile, src := src, rows := x.rows, rowBytes := x.bytes, spitch := sp, bar := bar })
  | .gath p z d a b t count bar => some (carried p 12 d [a, b, count] fun i s =>
      indexes i s d t (16 * 2 ^ z.code) b a count fun op =>
        { op with kind := .gather (16 * 2 ^ z.code), dst := vaOf (i.reg a), src := vaOf (i.reg b), bar := bar })
  | .scat p z d a b t count bar => some (carried p 12 d [a, b, count] fun i s =>
      indexes i s d t (16 * 2 ^ z.code) a b count fun op =>
        { op with kind := .scatter (16 * 2 ^ z.code), dst := vaOf (i.reg a), src := vaOf (i.reg b), bar := bar })
  | .cpstQ p d t b => some
      { pred := p, uses := { src := [b], dst := [d] },
        eff := fun i s =>
          let x := i.timeline s t
          let n := i.reg b
          some (.retire (s.wr i.k d
            (if n = 0 ∨ x.issued.toNat < n.toNat then 3
             else if n.toNat ≤ x.done.toNat ∨ x.finished.any (fun e => e.1 == n) then 0
             else if (s.findHeld fun crew tl num => crew == i.crew && tl == t && num == n).isSome then 2
             else 1))) }
  | .cpstRes p d a => some
      { pred := p, uses := { src := [a], dst := [d], priv := true },
        eff := fun i s => some (.retire (match s.heldById (i.reg a) with
          | some h => (s.resumeHeld h).wr i.k d 0
          | none => s.wr i.k d 1)) }
  | .cpstEnd p d a b => some
      { pred := p, uses := { src := [a, b], dst := [d], priv := true },
        eff := fun i s =>
          let code := (i.reg b).toNat % 256
          if !listedCode code then none
          else some (.retire (match s.heldById (i.reg a) with
            | some h => (s.endHeld code h).wr i.k d 0
            | none => s.wr i.k d 1)) }
  | .winset p rt n b x0 => some
      { pred := p, len := 12, uses := { src := [b] },
        eff := fun i s =>
          let h := i.c.handle x0
          let peer := (i.reg b).toNat
          let stop := if h.len = 0 then 0 else (h.bytesOf (h.len - 1)).2
          if !(h.sound fun _ => true) ∨ 2 ^ 20 < stop ∨ 2 ^ 20 ≤ peer then none
          else
            let len := if h.len = 0 then 0 else (stop - 1) / 16 - h.base / 8 / 16 + 1
            let v := 1 + 2 * rt.code + 2 ^ 4 * (h.base / 8 / 16 % 2 ^ 16) + 2 ^ 20 * len + 2 ^ 40 * peer
            some (.retire (s.writeCrew i.crew fun c =>
              { c with win := c.win.set n (BitVec.ofNat 64 v), handles := c.handles.set x0 (c.handles[x0] ||| (1#128 <<< 70)) })) }
  | .winsetCl p n => some
      { pred := p, len := 12, uses := {},
        eff := fun i s => some (.retire (s.writeCrew i.crew fun c =>
          { c with win := c.win.set n (c.win[n] &&& ~~~1#64) })) }
  | _ => none

/-- An operation of the hamper is accepted (R253, R364). -/
def hamperTakes (i : Issue) (s : State) (d : Reg) (t : Tl) (n : Fin 8) (mk : Word → LTime → HamperCtx → HamperCtx) :
    Option Effect :=
  afterDraining i s fun s =>
    let time := (s.thread? i.k).elim i.t.pts (·.pts)
    let num := (s.crew? i.crew).elim 0 fun c => (c.timeline t).issued + 1
    let s := s.modCrew i.crew fun c => c.setTimeline t { c.timeline t with issued := num }
    some (.retire ((s.modHamper (i.c.tile / 24) n fun h => mk num time { h with time := tmax h.time time }).wr i.k d num))

/-- The hamper (R362 to R371). -/
def hamperForm : Instr → Option Form
  | .nlcfg p d a => some
      { pred := p, uses := { src := [a], dst := [d], seq := true },
        eff := fun i s =>
          let va := vaOf (i.reg a)
          match i.hamper s with
          | none => none
          | some (n, h) =>
            if va % 16 ≠ 0 ∨ va / 2 ^ 52 = 0xA then none
            else
              match s.readNow i.k va 32 16 with
              | (.error _, _) => none
              | (.ok bs, s) =>
                let desc := (List.range 8).map fun j => leNat (slice bs (4 * j) 4)
                let s := if hamperStatus desc ≠ 0 then s
                  else (s.closeStreams i.crew h).modHamper (i.c.tile / 24) n fun h =>
                    { h.cleared with desc := desc, state := .configured }
                some (.retire (s.wr i.k d (natWord (hamperStatus desc)))) }
  | .nlstat p d => some
      { pred := p, uses := { dst := [d] },
        eff := fun i s => some (.retire (s.wr i.k d
          ((i.hamper s).elim 0 fun x => natWord (x.2.statWord x.1.val)))) }
  | .nlrel p => some
      { pred := p, uses := {},
        eff := fun i s => (i.hamper s).map fun x =>
          .retire ((s.closeStreams i.crew x.2).modHamper (i.c.tile / 24) x.1 fun _ => HamperCtx.reset) }
  | .nlbin p d a b t => some
      { pred := p, uses := { src := [a, b], dst := [d], drains := true },
        eff := fun i s =>
          let va := vaOf (i.reg a)
          let cnt := (i.reg b).toNat
          match i.hamper s with
          | none => none
          | some (n, h) =>
            if h.state = .idle ∨ h.streamOpen ∨ hMax h.desc < cnt ∨ va % 16 ≠ 0 ∨ (i.positionCheck va cnt).isSome then none
            else hamperTakes i s d t n fun num time h =>
              { h with state := .binning, ops := h.ops ++ [.bin va cnt t num i.t.pc time] } }
  | .nlpair p d t x0 x1 => some
      { pred := p, len := 12, uses := { dst := [d], drains := true },
        eff := fun i s =>
          match i.hamper s with
          | none => none
          | some (n, h) =>
            let h0 := i.c.handle x0
            let h1 := i.c.handle x1
            let lo (h : Handle) : Nat := h.base / 8
            let hi (h : Handle) : Nat := h.base / 8 + 8 * h.len
            if h.state = .idle ∨ h.streamOpen ∨ !h0.isBuffer ∨ !h1.isBuffer ∨ (lo h0 < hi h1 ∧ lo h1 < hi h0) ∨
                ([h0, h1].find? fun h => decide (i.c.decl.scratch < hi h)).isSome then none
            else hamperTakes i s d t n fun num time h =>
              { h with state := if h.state = .binning then .binning else .streaming,
                       ops := h.ops ++ [.pair (lo h0, lo h1) (8 * h0.len, 8 * h1.len) t num i.t.pc time],
                       opened := true, lastDone := false, nextBatch := 0 } }
  | .nlnext p d => some
      { pred := p, uses := { dst := [d], drains := true },
        eff := fun i s =>
          if (i.hamper s).isNone then none
          else afterDraining i s fun s =>
            match i.hamper s with
            | none => none
            | some (n, h) =>
              if !h.opened then some (.retire (s.wr i.k d (natWord (2 ^ 16 + 2 ^ 19))))
              else if h.lastDone then some (.retire (s.wr i.k d (natWord (h.lastWord / 512 * 512))))
              else
                match h.stream.bind fun x => (x.closed.find? fun b => b.k == h.nextBatch).map fun b => (x, b) with
                | none => none
                | some (x, b) =>
                  let w := b.word h.stale
                  let s := s.modThread i.k fun t => t.acquire b.time
                  let x := { x with released := max x.released (b.k + 2), closed := x.closed.erase b }
                  let s := s.modHamper (i.c.tile / 24) n fun h =>
                    { h with stream := if b.done then none else some x, state := if b.done then .ended else h.state,
                             lastWord := w.toNat, lastDone := b.done, nextBatch := b.k + 1 }
                  some (.retire (s.wr i.k d w)) }
  | _ => none

end Sys2Proof.Machine.Claim
end

