-- ==== Sys2Proof/Safety/Vector.lean ====
section
/-! DEFINITION. How the conversion, lane, handle and vector instructions end (R251, R252, R260 to R282). -/

namespace Sys2Proof.Machine.Claim

/-- What a batch reads: values source by source, and the state after the reads, once no element lies outside the declared
regions, none read is poisoned, no buffered store covers one, and every granule of a W source is full (R268, R270). -/
def batchSources (i : Issue) (s : State) (srcs dsts : List Elems) : Option (List (List Nat) × State) :=
  let ws := ((srcs.filter (·.h.w)).flatMap Elems.granules).dedup
  let c := (s.crew? i.crew).getD i.c
  if ((srcs ++ dsts).findSome? fun e => e.outside i.c.decl.scratch).isSome ∨
      s.wcOver i.k i.crew (srcs ++ dsts) = true ∨ (s.emptyGranule i.c i.crew srcs).isSome ∨
      (srcs.findSome? fun e => s.poisoned i.crew e).isSome then none
  else
    let ft := ws.foldl (init := (0 : LTime)) fun m g => tmax m (c.granule g).ft
    let s := if ws.isEmpty then s else s.modThread i.k fun t => t.acquire ft
    let pts := (s.thread? i.k).elim i.t.pts (·.pts)
    let (vs, tm, s) := s.sourcesLoad i.crew srcs pts
    let s := if srcs.all fun e => e.idx.isEmpty then s else s.modThread i.k fun t => t.acquire tm
    let cs := ((srcs.filter (·.h.c)).flatMap Elems.granules).dedup
    some (vs, cs.foldl (init := s) fun s g => s.clearGranule i.crew g tm)

/-- The first index of a batch and its end: a line with lanes, handles in order (R267, R270). -/
def batchSpan (i : Issue) (a : Reg) (checks : List (Reg16 × (Fmt → Bool))) (lens : List Reg16) : Option (Nat × Nat) :=
  if i.t.lgrant = 0 ∨ (badHandle i.c checks).isSome then none
  else
    let lo := (i.reg a).toNat
    some (lo, lens.foldl (init := lo + 8 * i.t.lgrant.toNat) fun m x => min m (i.c.handle x).len)

/-- A batch: nothing when it is empty, else `f` on its indices. -/
def batchRun (i : Issue) (a : Reg) (checks : List (Reg16 × (Fmt → Bool))) (lens : List Reg16) (empty : Effect)
    (f : List Nat → Option Effect) : Option Effect :=
  match batchSpan i a checks lens with
  | none => none
  | some (lo, hi) => if hi ≤ lo then some empty else f (span lo hi)

/-- The batch's results are written and counted (R270). -/
def batchDone (i : Issue) (s : State) (d : Reg) (x0 : Reg16) (idx rs : List Nat) : Effect :=
  .retire ((i.batchWrite s (i.elems x0 idx) rs).wr i.k d (natWord idx.length))

/-- An element-wise batch: element n of X0 is `f` of the sources' elements n. -/
def mapForm (p : Pred) (d a : Reg) (x0 : Reg16) (srcs : List Reg16) (checks : Issue → List (Reg16 × (Fmt → Bool)))
    (f : Fmt → List (Fmt × Nat) → Nat) : Form :=
  { pred := p, len := 12, uses := { src := [a], dst := [d], seq := true },
    eff := fun i s => batchRun i a (checks i) (x0 :: srcs) (.retire (s.wr i.k d 0)) fun idx =>
      (batchSources i s (srcs.map fun x => i.elems x idx) [i.elems x0 idx]).map fun r =>
        batchDone i r.2 d x0 idx
          ((rowsOf idx.length r.1).map fun row => f (i.fmt x0) ((srcs.map i.fmt).zip row)) }

/-- A special function over a batch (R278). -/
def specialForm (fn : SpecialFn) (p : Pred) (d a : Reg) (x0 x1 : Reg16) : Form :=
  mapForm p d a x0 [x1] (floatChecks [x0, x1]) fun f row =>
    match row with
    | [(g, x)] => specialResult fn f (Num.decode g x)
    | _ => 0

/-- Element-wise vector instructions and special functions (R271 to R274, R278). -/
def elementForm : Instr → Option Form
  | .vadd p d a x0 x1 x2 => some (mapForm p d a x0 [x1, x2] (arithChecks x0 [x1, x2])
      (vecArith (on2 .bad Num.add) (on2 0 (· + ·))))
  | .vsub p d a x0 x1 x2 => some (mapForm p d a x0 [x1, x2] (arithChecks x0 [x1, x2])
      (vecArith (on2 .bad Num.sub) (on2 0 (· - ·))))
  | .vmul p d a x0 x1 x2 => some (mapForm p d a x0 [x1, x2] (arithChecks x0 [x1, x2])
      (vecArith (on2 .bad Num.mul) (on2 0 (· * ·))))
  | .vfma p d a x0 x1 x2 x3 => some (mapForm p d a x0 [x1, x2, x3] (floatChecks [x0, x1, x2, x3]) fun f row =>
      match row with
      | [(f1, x), (f2, y), (f3, z)] =>
        if f.isFloat then (((Num.decode f1 x).fma (Num.decode f2 y) (Num.decode f3 z)).encode f) else 0
      | _ => if f.isFloat then Num.bad.encode f else 0)
  | .vdiv p d a x0 x1 x2 => some (mapForm p d a x0 [x1, x2] (floatChecks [x0, x1, x2])
      (vecArith (on2 .bad Num.div) fun _ => 0))
  | .vmin p d a x0 x1 x2 => some (mapForm p d a x0 [x1, x2] (arithChecks x0 [x1, x2])
      (vecArith (on2 .bad (Num.pick true)) (on2 0 min)))
  | .vmax p d a x0 x1 x2 => some (mapForm p d a x0 [x1, x2] (arithChecks x0 [x1, x2])
      (vecArith (on2 .bad (Num.pick false)) (on2 0 max)))
  | .vabs p d a x0 x1 => some (mapForm p d a x0 [x1] (arithChecks x0 [x1])
      (vecArith (on1 .bad (Num.setSign false)) (on1 0 fun x => (x.natAbs : Int))))
  | .vneg p d a x0 x1 => some (mapForm p d a x0 [x1] (arithChecks x0 [x1])
      (vecArith (on1 .bad fun x => x.setSign (!x.sign)) (on1 0 fun x => -x)))
  | .vcmp p c d a x0 x1 x2 => some (mapForm p d a x0 [x1, x2]
      (fun i => [(x0, Fmt.isVecInt), (x1, arithFmt), (x2, (i.c.handle x1).kindOf)]) fun _ row =>
        match row with
        | [(f, x), (g, y)] => if fcondHolds c (elemCmp f g x y) then 1 else 0
        | _ => 0)
  | .vsel p d a x0 x1 x2 x3 => some (mapForm p d a x0 [x1, x2, x3]
      (fun i => [(x0, anyFmt), (x1, Fmt.isVecInt), (x2, (i.c.handle x0).is), (x3, (i.c.handle x0).is)]) fun _ row =>
        match row with
        | [(_, m), (_, x), (_, y)] => if m ≠ 0 then x else y
        | _ => 0)
  | .vrcp p d a x0 x1 => some (specialForm .rcp p d a x0 x1)
  | .vrsq p d a x0 x1 => some (specialForm .rsq p d a x0 x1)
  | .vexp2 p d a x0 x1 => some (specialForm .exp2 p d a x0 x1)
  | .vlog2 p d a x0 x1 => some (specialForm .log2 p d a x0 x1)
  | .vsin p d a x0 x1 => some (specialForm .sin p d a x0 x1)
  | .vcos p d a x0 x1 => some (specialForm .cos p d a x0 x1)
  | _ => none

/-- A long result: the destination is pending and takes the value when it lands (R71, R72). -/
def landsLater (i : Issue) (s : State) (d : Reg) (v : Word) : Effect :=
  .retire (s.modThread i.k fun t => { t with pend := some { reg := d, pair := false }, longop := some v })

/-- The prefix of a scan that takes in the first n elements, the carry going first (R276). -/
def scanPrefix (op : ScanOp) (f g : Fmt) (carry : Word) (raw : List Nat) (n : Nat) : Num × Int :=
  if f.isFloat then
    (redFloat (scanRed op) (floatNum .f64 carry.toNat :: (raw.take n).map (Num.decode g)), 0)
  else (.bad, redInt (scanRed op) f (wordTerm f carry :: (raw.take n).map (intOf f)))

/-- The index a permutation takes from X1, where it lies in X1. -/
def permIndex (h : Handle) (j : Int) : Bool := decide (0 ≤ j ∧ j < h.len)

/-- Broadcast, permutation, reductions, scans, extraction and tables (R273 to R277, R280 to R282). -/
def vectorForm : Instr → Option Form
  | .vbcast p d a b x0 => some
      { pred := p, len := 12, uses := { src := [a, b], dst := [d], seq := true },
        eff := fun i s => batchRun i a [(x0, anyFmt)] [x0] (.retire (s.wr i.k d 0)) fun idx =>
          (batchSources i s [] [i.elems x0 idx]).map fun r =>
            batchDone i r.2 d x0 idx (idx.map fun _ => (i.reg b).toNat % 2 ^ (i.fmt x0).width) }
  | .vperm p d a x0 x1 x2 => some
      { pred := p, len := 12, uses := { src := [a], dst := [d], seq := true },
        eff := fun i s =>
          batchRun i a [(x0, anyFmt), (x1, (i.c.handle x0).is), (x2, Fmt.isVecInt)] [x0, x2] (.retire (s.wr i.k d 0))
            fun idx =>
              let h1 := i.c.handle x1
              let js := idx.map fun n => intOf (i.fmt x2) (s.peek i.crew (i.c.handle x2) n)
              if ((i.elems x2 idx).outside i.c.decl.scratch).isSome ∨
                  (s.emptyGranule i.c i.crew [i.elems x2 idx]).isSome then none
              else
                (batchSources i s [{ h := h1, idx := (js.filter (permIndex h1)).map Int.toNat }, i.elems x2 idx]
                  [i.elems x0 idx]).map fun r =>
                    batchDone i r.2 d x0 idx (js.map fun j => if permIndex h1 j then s.peek i.crew h1 j.toNat else 0) }
  | .vred p op acc d a x1 => some
      { pred := p, len := 12, uses := { src := if acc then [d, a] else [a], dst := [d], seq := true, pend := true },
        eff := fun i s =>
          batchRun i a [(x1, arithFmt)] [x1]
            (if acc then .retire s else landsLater i s d (redWord op (i.fmt x1) none [])) fun idx =>
              (batchSources i s [i.elems x1 idx] []).map fun r =>
                landsLater i r.2 d (redWord op (i.fmt x1) (if acc then some (i.reg d) else none) (r.1.headD [])) }
  | .vscan p op d a b x0 x1 => some
      { pred := p, len := 12, uses := { src := [a, b], dst := [d], seq := true, pend := true },
        eff := fun i s =>
          batchRun i a (arithChecks x0 [x1] i) [x0, x1] (landsLater i s d (i.reg b)) fun idx =>
            (batchSources i s [i.elems x1 idx] [i.elems x0 idx]).map fun r =>
              let f := i.fmt x0
              let at_ := scanPrefix op f (i.fmt x1) (i.reg b) (r.1.headD [])
              landsLater i
                (i.batchWrite r.2 (i.elems x0 idx) ((List.range idx.length).map fun n =>
                  if f.isFloat then (at_ (n + 1)).1.encode f else lowBits (at_ (n + 1)).2 f.width)) d
                (if f.isFloat then natWord ((at_ idx.length).1.encode .f64) else toWord (at_ idx.length).2) }
  | .vextr p d b x1 => some
      { pred := p, len := 12, uses := { src := [b], dst := [d], seq := true, pend := true },
        eff := fun i s =>
          let n := (i.reg b).toNat
          if (badHandle i.c [(x1, anyFmt)]).isSome ∨ (i.c.handle x1).len ≤ n then none
          else
            (batchSources i s [i.elems x1 [n]] []).map fun r =>
              let v := (r.1.headD []).headD 0
              landsLater i r.2 d
                (if (i.fmt x1).isSigned then sextWord v (i.fmt x1).width else natWord v) }
  | .vtbl p d a x0 x1 x2 => some
      { pred := p, len := 12, uses := { src := [a], dst := [d], seq := true },
        eff := fun i s =>
          batchRun i a [(x0, Fmt.isFloat), (x1, Fmt.isFloat), (x2, fun f => f == .f32)] [x0, x1] (.retire (s.wr i.k d 0))
            fun idx =>
              let h := i.c.handle x2
              let ws := s.tableWords i.crew h
              let ext := tableExtent i.crew h ws.length
              let cached := (s.tile i.c.tile).tables.contains ext
              let head := if cached then [] else [i.elems x2 (List.range (min 4 h.len))]
              if (head.findSome? fun e => e.outside i.c.decl.scratch).isSome ∨
                  (s.emptyGranule i.c i.crew (i.elems x1 idx :: head)).isSome then none
              else
                match tableOf h.len (ws.map (s.peek i.crew h)) with
                | none => none
                | some t =>
                  (batchSources i s (i.elems x1 idx :: if cached then [] else [i.elems x2 ws]) [i.elems x0 idx]).map fun r =>
                    batchDone i (if cached then r.2.modTile i.c.tile (·.useTable ext) else r.2) d x0 idx
                      ((r.1.headD []).map fun raw => (t.eval (i.fmt x1) (Num.decode (i.fmt x1) raw)).encode (i.fmt x0)) }
  | .vtblcfg p d x0 => some
      { pred := p, len := 12, uses := { dst := [d], seq := true, pend := true },
        eff := fun i s =>
          let h := i.c.handle x0
          if !h.sound (fun f => f == .f32) then some (landsLater i s d 0)
          else
            let ws := s.tableWords i.crew h
            let head := i.elems x0 (List.range (min 4 h.len))
            if (head.outside i.c.decl.scratch).isSome ∨ (s.emptyGranule i.c i.crew [head]).isSome then none
            else (batchSources i s [i.elems x0 ws] []).map fun r =>
              match tableOf h.len (r.1.headD []) with
              | some t =>
                landsLater i (r.2.modTile i.c.tile (·.useTable (tableExtent i.crew h ws.length))) d (natWord t.nseg)
              | none => landsLater i r.2 d 0 }
  | _ => none

/-- A claim's size: a multiple of 8 from 8 to 256 (R262). -/
def claimed (i : Issue) (b : Src) : Option Nat :=
  let n := (i.src b).toNat
  if n % 8 = 0 ∧ 8 ≤ n ∧ n ≤ 256 then some n else none

/-- Restores and waiting claims that can be served come before a claim for more lanes than the line holds (R263). -/
def afterOthers (i : Issue) (s : State) (n : Nat) : State := if n ≤ 8 * i.t.lgrant.toNat then s else s.serveLanes i.c.tile

/-- `n` lanes are granted: LGRANT counts them in eights (R262). -/
def granted (i : Issue) (s : State) (d : Reg) (n : Nat) : Effect :=
  .retire ((s.modThread i.k fun t => { t with lgrant := BitVec.ofNat 8 (n / 8), claim := none }).wr i.k d (natWord n))

/-- Lanes and handles (R262, R269). -/
def laneForm : Instr → Option Form
  | .vclaim p d b => some
      { pred := p, uses := { src := srcRegs b, dst := [d] },
        eff := fun i s => (claimed i b).map fun n =>
          let s := afterOthers i s n
          granted i s d (min n ((s.lanesFor i.crew + 8 * i.t.lgrant.toNat - s.lanesOwed i.c.tile).toNat / 8 * 8)) }
  | .vclaimW p d b => some
      { pred := p, uses := { src := srcRegs b, dst := [d] },
        eff := fun i s => (claimed i b).bind fun n =>
          if i.c.decl.lanes + 256 - (((s.crewsOf i.c.tile).filter fun e => e.1 ≠ i.crew).map fun e => e.2.decl.lanes).sum < n
          then none
          else if i.t.claim.isSome ∧ 8 * i.t.lgrant.toNat = n then some (granted i s d n)
          else
            let s := afterOthers i s n
            if n ≤ s.lanesFor i.crew + 8 * i.t.lgrant.toNat ∧
                ((s.claimsLeft i.c.tile).head?.elim true fun e => e.1 == i.k) = true then some (granted i s d n)
            else none }
  | .vrel p => some
      { pred := p, uses := {}, eff := fun i s => some (.retire (s.modThread i.k fun t => { t with lgrant := 0 })) }
  | .hset p a x0 => some
      { pred := p, len := 12, uses := { srcPair := [a] },
        eff := fun i s => some (.retire (s.writeCrew i.crew fun c =>
          { c with handles := c.handles.set x0 (handleBits ((i.reg a).toNat + 2 ^ 64 * (i.reg (nextReg a)).toNat)) })) }
  | .hget p d x0 => some
      { pred := p, len := 12, uses := { dstPair := [d] },
        eff := fun i s =>
          let v := i.c.handles[x0].toNat
          some (.retire ((s.wr i.k d (natWord v)).wr i.k (nextReg d) (natWord (v / 2 ^ 64)))) }
  | _ => none

/-- Conversions of registers and batches, and CVSTAT (R251, R252, R260). -/
def convertForm : Instr → Option Form
  | .cvt p rm ov dst src d a => some
      { pred := p, uses := { src := [a], dst := [d] },
        eff := fun i s =>
          match Fmt.ofCode src.toNat, Fmt.ofCode dst.toNat with
          | some sf, some df =>
            let r := convert df rm (Num.decode sf ((i.reg a).toNat % 2 ^ sf.width))
            if sf.isPair ∨ df.isPair ∨ ((sf = .k16 ∨ df = .k16) ∧ rm ≠ .rne) ∨ (r.ov ∧ ov) then none
            else some (.retire ((s.writeCrew i.crew (·.setSticky r.sticky)).wr i.k d (convWord df r.code)))
          | _, _ => none }
  | .vcvt p rm ov d a x0 x1 => some
      { pred := p, len := 12, uses := { src := [a], dst := [d], seq := true },
        eff := fun i s =>
          match (i.c.handle x0).fmt?, (i.c.handle x1).fmt? with
          | some df, some sf =>
            if sf.isPair ≠ df.isPair ∨ sf = .k16 ∨ df = .k16 then none
            else
              batchRun i a [(x0, fun _ => true), (x1, fun _ => true)] [x1, x0] (.retire (s.wr i.k d 0)) fun idx =>
                (batchSources i s [i.elems x1 idx] [i.elems x0 idx]).bind fun r =>
                  let rs := (r.1.headD []).map (convertElem sf df rm)
                  if ((List.range idx.length).find? fun n => ov && (rs.getD n (0, false, 0)).2.1).isSome then none
                  else some (.retire (((i.batchWrite r.2 (i.elems x0 idx) (rs.map (·.1))).writeCrew i.crew
                    (·.setSticky (rs.foldl (fun m r => m ||| r.2.2) 0))).wr i.k d (natWord idx.length)))
          | _, _ => none }
  | .cvstat p d => some
      { pred := p, uses := { dst := [d] },
        eff := fun i s => some (.retire (s.wr i.k d i.c.cvstat)) }
  | .cvstatClr p d => some
      { pred := p, uses := { dst := [d] },
        eff := fun i s => some (.retire ((s.writeCrew i.crew fun c => { c with cvstat := 0 }).wr i.k d i.c.cvstat)) }
  | _ => none

end Sys2Proof.Machine.Claim
end

