-- ==== Sys2Proof/Safety/Engines.lean ====
section
/-! DEFINITION. How the instructions of the tile's engines, tile registers, accumulators, mangle and moment registers end
(R253 to R260, R290 to R307, R310 to R334). -/

namespace Sys2Proof.Machine.Claim

/-- The number an engine operation takes, and the operation as it is accepted (R145, R253). -/
def convAccepted (i : Issue) (s : State) (d a b : Reg) (t : Tl) (x : Instr) (xs : List Reg16) (ptrs : List Nat)
    (flags : Nat) (time : LTime) : Effect :=
  let n := (s.crew? i.crew).elim 0 fun c => (c.timeline t).issued + 1
  let s := s.modCrew i.crew fun c => c.setTimeline t { c.timeline t with issued := n }
  let op : EngineOp :=
    { crew := i.crew, tl := t, num := n, time := time, pc := i.t.pc, instr := x, handles := xs.map fun x => i.c.handles[x],
      a := i.reg a, b := i.reg b, ctl := i.c.cvctl, next := 0, ptrs := ptrs, flags := flags, held := none, told := false }
  .retire ((s.modTile i.c.tile fun x => { x with convTime := time, convQ := x.convQ ++ [op] }).wr i.k d n)

/-- The larger of the engine's time and the issuer's, which the engine takes (R253). -/
def engineTime (i : Issue) (s : State) (t : LTime) : LTime := tmax t ((s.thread? i.k).elim i.t.pts (·.pts))

/-- A quantisation whose start, count, handles and extents pass R257. -/
def quantised (p : Pred) (d a b : Reg) (t : Tl) (x : Instr) (xs : List Reg16)
    (ops : List (Reg16 × Bool × Nat × (Fmt → Bool))) : Form :=
  { pred := p, len := 12, uses := { src := [a, b], dst := [d], drains := true },
    eff := fun i s =>
      if (i.quantChecks (i.reg a).toNat (i.reg b).toNat ops).isSome then none
      else afterDraining i s fun s =>
        some (convAccepted i s d a b t x xs [] 0 (engineTime i s (s.tile i.c.tile).convTime)) }

/-- CSRD is on its way to the engine, whose turn to read its row pointers its line waits for with kind 0 (R259). -/
def asksPtrs (i : Issue) (s : State) (d a b : Reg) (t : Tl) (x : Instr) (xs : List Reg16) : Effect :=
  let op : EngineOp :=
    { crew := i.crew, tl := t, num := 0, time := engineTime i s (s.tile i.c.tile).convTime, pc := i.t.pc, instr := x,
      handles := xs.map fun x => i.c.handles[x], a := i.reg a, b := i.reg b, ctl := i.c.cvctl, next := 0, ptrs := [],
      flags := 0, held := none, told := false, asker := some i.k }
  let (slot, s) := i.reserve (i.holdPop s) d
  .hold ((s.modTile i.c.tile fun x => { x with convQ := x.convQ ++ [op] }).modThread i.k fun t =>
    { t.toWait 0 0 .rowPtrs with finish := some { dest := none, len := 12, slot := slot, popped := i.popped } })

/-- Operations of the conversion engine (R257 to R259). -/
def engineForm : Instr → Option Form
  | .qntk p ov d a b t x0 x1 x2 x3 => some (quantised p d a b t (.qntk p ov d a b t x0 x1 x2 x3) [x0, x1, x2, x3]
      [(x0, true, 1, (· == .k16)), (x1, false, 1, isSrcFloat), (x2, true, 64, (· == .z8)), (x3, true, 16384, (· == .f32))])
  | .dqnk p rm ov d a b t x0 x1 x2 x3 => some (quantised p d a b t (.dqnk p rm ov d a b t x0 x1 x2 x3) [x0, x1, x2, x3]
      [(x0, true, 1, isSrcFloat), (x1, false, 1, (· == .k16)), (x2, false, 64, (· == .z8)), (x3, false, 16384, (· == .f32))])
  | .qscl p ov d a b t x1 x2 x3 => some (quantised p d a b t (.qscl p ov d a b t x1 x2 x3) [x1, x1, x2, x3]
      [(x1, false, 1, isSrcFloat), (x2, true, 64, (· == .z8)), (x3, true, 16384, (· == .f32))])
  | .csrx p d a b t x0 x1 x2 x3 => some
      { pred := p, len := 12, uses := { src := [a, b], dst := [d], drains := true },
        eff := fun i s =>
          let rows := (i.reg a).toNat
          let cols := (i.reg b).toNat
          let h := i.c.handle
          let src := (h x1).range 0 (rows * cols)
          let e3 := (h x3).range 0 (rows + 1)
          if (csrChecks i rows cols x0 x1 x2 x3 x1).isSome ∨
              (i.csrPlaces [(x0, (h x0).range 0 (h x0).len), (x2, (h x2).range 0 (h x2).len), (x3, e3)] [src]
                [src, e3]).isSome then none
          else afterDraining i s fun s =>
            some (convAccepted i s d a b t (.csrx p d a b t x0 x1 x2 x3) [x0, x1, x2, x3] [] 0
              (engineTime i s (s.tile i.c.tile).convTime)) }
  | .csrd p d a b t x0 x1 x2 x3 => some
      { pred := p, len := 12, uses := { src := [a, b], dst := [d], drains := true },
        eff := fun i s =>
          let rows := (i.reg a).toNat
          let cols := (i.reg b).toNat
          let h := i.c.handle
          let e0 := (h x0).range 0 (h x0).len
          let e3 := (h x3).range 0 (rows + 1)
          if (csrChecks i rows cols x0 x1 x2 x3 x0).isSome ∨
              (i.csrPlaces [(x0, e0)] [(h x1).range 0 (h x1).len, (h x2).range 0 (h x2).len, e3] [e0, e3]).isSome then none
          else afterDraining i s fun s => some (asksPtrs i s d a b t (.csrd p d a b t x0 x1 x2 x3) [x0, x1, x2, x3]) }
  | _ => none

/-- The number a mangle operation takes, and the operation as it is accepted (R334). -/
def mangleAccepted (i : Issue) (s : State) (d a b : Reg) (t : Tl) (x : Instr) (xs : List Reg16) : Option Effect :=
  afterDraining i s fun s =>
    let time := engineTime i s (s.tile i.c.tile).mangleTime
    let n := (s.crew? i.crew).elim 0 fun c => (c.timeline t).issued + 1
    let s := s.modCrew i.crew fun c => c.setTimeline t { c.timeline t with issued := n }
    let op : EngineOp :=
      { crew := i.crew, tl := t, num := n, time := time, pc := i.t.pc, instr := x,
        handles := xs.map fun x => i.c.handles[x], a := i.reg a, b := i.reg b, ctl := i.c.mgspill, next := 0, ptrs := [],
        flags := 0, held := none, told := false }
    some (.retire ((s.modTile i.c.tile fun x => { x with mangleTime := time, mangleQ := x.mangleQ ++ [op] }).wr i.k d n))

/-- MGSTAT's counts start afresh (R333). -/
def counted (c : Crew) : Crew := { c with mgOps := [] }

/-- The mangle (R333, R334). -/
def mangleForm : Instr → Option Form
  | .mgcfg p d => some
      { pred := p, uses := { dst := [d], tile := true },
        eff := fun i s =>
          if s.mangleBusy i.crew i.c.tile then none
          else
            match (s.tile i.c.tile).mgHolder with
            | some n =>
              if n = i.crew then some (.retire (((s.modTile i.c.tile (·.mgClear)).modCrew i.crew counted).wr i.k d 0))
              else some (.retire (s.wr i.k d 1))
            | none => some (.retire (((s.modTile i.c.tile fun x =>
                { x.mgClear with mgHolder := some i.crew, mgTag := Vector.replicate 8 i.c.task.owner }).modCrew i.crew
                  counted).wr i.k d 0)) }
  | .mgcfgRel p d => some
      { pred := p, uses := { dst := [d], tile := true },
        eff := fun i s =>
          if s.mangleBusy i.crew i.c.tile then none
          else if (s.tile i.c.tile).mgHolder = some i.crew then
            some (.retire ((s.modTile i.c.tile fun x => { x.mgClear with mgHolder := none }).wr i.k d 0))
          else some (.retire (s.wr i.k d 1)) }
  | .mgstat p d => some
      { pred := p, uses := { dst := [d], tile := true },
        eff := fun i s => some (.retire (s.wr i.k d (natWord (s.mgWord i.c.tile i.crew)))) }
  | .mgadd p d a b t x1 x2 => some
      { pred := p, len := 12, uses := { src := [a, b], dst := [d], drains := true, tile := true },
        eff := fun i s =>
          let lo := (i.reg a).toNat
          let n := (i.reg b).toNat
          if (s.tile i.c.tile).mgHolder ≠ some i.crew ∨ 1048575 < n ∨ (i.mangleChecks x1 x2 lo n).isSome ∨
              ([x1, x2].findSome? fun x => ((i.c.handle x).range lo (lo + n)).outside i.c.decl.scratch).isSome then none
          else mangleAccepted i s d a b t (.mgadd p d a b t x1 x2) [x1, x2] }
  | .mgdrain p d a t x0 x1 => some
      { pred := p, len := 12, uses := { src := [a], dst := [d], drains := true, tile := true },
        eff := fun i s =>
          if (s.tile i.c.tile).mgHolder ≠ some i.crew ∨ (i.mangleChecks x0 x1 (i.reg a).toNat 0).isSome then none
          else mangleAccepted i s d a a t (.mgdrain p d a t x0 x1) [x0, x1] }
  | _ => none

/-- A change of the crew's tile registers, predicates or accumulators, which the other instructions of its cycle do not see
(R47, R312). -/
def crewWrite (i : Issue) (s : State) (f : Crew → Crew) : Effect := .retire (s.writeCrew i.crew f)

/-- TileMove of R322: the rows' accesses, all of them allowed and none delayed, are on their way, and the line waits for them with
kind 0; `st` says that the tile, read now, is stored. -/
def tileRows (i : Issue) (s : State) (st : Bool) (t a c : Reg) (sc : Scope) (evp : Nat) : Option Effect :=
  let x := i.c.shape t
  if !i.c.hasTile t ∨ x.fmt = 0 ∨ (i.reg a).toNat % 8 ≠ 0 ∨ (i.reg c).toNat % 8 ≠ 0 then none
  else
    let rows := (List.range x.rows).map fun n =>
      (vaOf (i.reg a + i.reg c * BitVec.ofNat 64 n), if st then rowNat (i.c.tileBytes t) n % 2 ^ (8 * x.bytes) else 0)
    match i.rowAccesses st sc evp x.bytes rows s with
    | (.error _, _) => none
    | (.ok as, s) =>
      if (i.rowsBlocked s st as).isSome then none
      else some (.hold ((i.holdPop s).modThread i.k fun y =>
        { y.toWait 0 0 .rows with
          unbound := y.unbound ++ as,
          finish := some { dest := none, len := 8, popped := i.popped, tile := if st then none else some t } }))

/-- Tile registers and predicates (R320 to R324). -/
def tileForm : Instr → Option Form
  | .tset p d b => some
      { pred := p, uses := { src := srcRegs b, tile := true },
        eff := fun i s =>
          let v : Nat := match b with
            | .imm x => x.toNat
            | .reg r => (i.reg r).toNat
          if i.c.hasTile d ∧ v < 2 ^ 19 ∧ (v % 256 = 0 ∨ (Fmt.ofCode (v % 256)).isSome) ∧ i.c.holds[d] = 0 then
            some (crewWrite i s fun c => { c with shapes := c.shapes.set d (BitVec.ofNat 64 v) })
          else none }
  | .tget p d a => some
      { pred := p, uses := { dst := [d], tile := true },
        eff := fun i s => if i.c.hasTile a then some (.retire (s.wr i.k d i.c.shapes[a])) else none }
  | .tld p sc evp d a c => some
      { pred := p, uses := { src := [a, c], tile := true, seq := true },
        eff := fun i s => tileRows i s false d a c sc evp.val }
  | .tst p sc evp b a c => some
      { pred := p, uses := { src := [a, c], tile := true, seq := true },
        eff := fun i s => tileRows i s true b a c sc evp.val }
  | .tzero p d => some
      { pred := p, uses := { tile := true },
        eff := fun i s => if i.c.hasTile d ∧ i.c.holds[d] = 0 then some (crewWrite i s (·.zeroTile d)) else none }
  | .ttrn p d a => some
      { pred := p, uses := { tile := true },
        eff := fun i s =>
          let x := i.c.shape a
          if !i.c.hasTile d ∨ !i.c.hasTile a ∨ x.fmt?.isNone ∨ 64 < x.elems ∨ i.c.holds[d] ≠ 0 then none
          else
            let y := x.turned s
            some (crewWrite i y.2 fun c =>
              let c := { c.zeroTile d with shapes := c.shapes.set d (BitVec.ofNat 64 y.1.word) }
              (List.range x.elems).foldl (init := c) fun c j =>
                c.setTileBytes d (tileRow * j)
                  (packRow x.width ((i.c.tileElems a x).map fun r => r.getD j 0) (min x.turnedBytes tileRow))) }
  | .tpred p z d a => some
      { pred := p, uses := { tile := true },
        eff := fun i s =>
          let x := i.c.shape a
          if !i.c.hasTile a then none
          else x.fmt?.map fun f =>
            crewWrite i s (·.setTilePred d (xor ((i.c.tileElems a x).any fun r => r.any fun v => !elemZero f v) z)) }
  | .kop p op d a b => some
      { pred := p, uses := { tile := true },
        eff := fun i s => some (crewWrite i s (·.setTilePred d (boolOp op (i.c.tilePred a) (i.c.tilePred b)))) }
  | _ => none

/-- A multiply whose shapes, formats and configuration pass its checks, the array having read what they test, is accepted: it joins
the tile's array queue, locks its accumulators and holds the tile registers it reads (R313, R314, R327, R329). -/
def multiplies (p : Pred) (x : Instr) : Form :=
  { pred := p, uses := { tile := true },
    eff := fun i s =>
      match MatOp.of x with
      | none => none
      | some o =>
        if (o.check i.c none false).isSome ∨ o.unread i.t ∨ (o.check i.c none).isSome ∨ (o.kind = .moment ∧ !nvpOf i.c.mctl ∧ (o.negvar i.c).isSome) ∨
            16 ≤ (s.tile i.c.tile).arrayQ.length then none
        else some (.retire ((s.acceptArray i.crew i.c o x none).2.modThread i.k fun t => { t with await := .nothing })) }

/-- What an ARD or AWR moves: its accumulators and the entries, once nothing of it is locked (R330, R331). -/
def accRange (i : Issue) (m : Bool) (a b : Reg) (x : Reg16) : Option (List Reg × Nat) :=
  match i.accsOf m a with
  | none => none
  | some accs =>
    let h := i.c.handle x
    let st := (i.reg b).toNat
    let n := min h.len (4096 - st)
    if !h.sound (accFmt m (acfgKind i.c.acfg a)) ∨ 4095 < st ∨
        (({ h := h, idx := List.range n } : Elems).outside i.c.decl.scratch).isSome ∨
        (accs.find? fun a => i.c.locks[a] ≠ 0).isSome then none
    else some (accs, n)

/-- Multiplies and accumulators (R313 to R331). -/
def arrayForm : Instr → Option Form
  | .tmma p z d a b c => some (multiplies p (.tmma p z d a b c))
  | .tmms p z one tp tr d a b c => some (multiplies p (.tmms p z one tp tr d a b c))
  | .tmmm p z d a b => some (multiplies p (.tmmm p z d a b))
  | .aclr p d => some
      { pred := p, uses := { tile := true },
        eff := fun i s =>
          if i.c.hasAcc d ∧ i.c.locks[d] = 0 then
            some (crewWrite i s (·.zeroAcc d)) else none }
  | .ard p rm ov m d a b x0 => some
      { pred := p, len := 12, uses := { src := [b], dst := [d], tile := true, seq := true },
        eff := fun i s =>
          (accRange i m a b x0).bind fun (accs, n) =>
            let st := (i.reg b).toNat
            let f := (i.c.handle x0).fmt?.getD .f64
            let rs := (List.range n).map fun j =>
              accElem f rm (!m && acfgKind i.c.acfg a) (accs.map fun r => i.c.acc r (st + j))
            if (((List.range n).zip rs).findSome? fun e => if ov then e.2.2.1.map fun v => (e.1, v) else none).isSome then none
            else
              let e : Elems := { h := i.c.handle x0, idx := List.range n }
              (batchSources i s [] [e]).map fun r =>
                let (slot, s) := i.reserve ((i.batchWrite r.2 e (rs.map (·.1))).writeCrew i.crew
                  (·.setSticky (rs.foldl (fun m r => m ||| r.2.2) 0))) d
                .hold (s.modThread i.k fun t =>
                  { t.toWait 0 0 .rows with finish := some { dest := some (d, natWord n), len := 12, slot := slot } }) }
  | .awr p m d a b x1 => some
      { pred := p, len := 12, uses := { src := [b], dst := [d], tile := true, seq := true },
        eff := fun i s =>
          (accRange i m a b x1).bind fun (accs, n) =>
            let f := (i.c.handle x1).fmt?.getD .f64
            (batchSources i s [{ h := i.c.handle x1, idx := List.range n }] []).map fun r =>
              let es := ((List.range n).zip (r.1.headD [])).flatMap fun e =>
                (accs.zip (accWiden f e.2)).map fun x => (accKey x.1 ((i.reg b).toNat + e.1), BitVec.ofNat 64 x.2)
              let (slot, s) := i.reserve r.2 d
              .hold (s.modThread i.k fun t =>
                { t.toWait 0 0 .rows with
                  finish := some { dest := some (d, natWord n), len := 12, slot := slot, accs := accs, entries := es } }) }
  | _ => none

/-! ### Moment instructions (R294) -/

/-- The registers a moment instruction reads, by the correlation mode it issues under (R293). -/
def momentReads (mctl : Word) : Instr → List Reg
  | .mld _ _ a _ _ | .mst _ _ a _ _ | .msqr _ _ a _ _ | .mnl _ _ _ a _ _ | .mchk _ _ a _ => [a]
  | .mset _ _ a b _ | .mscl _ _ a b _ _ => [a, b]
  | .madd _ _ a b _ _ _ | .msub _ _ a b _ _ _ | .mmul _ _ a b _ _ _ | .mfma _ _ a b _ _ _ _ =>
    if mctl.toNat % 4 = 3 then [a, b] else [a]
  | .mcol _ op _ a b _ | .mcolH _ op _ a b _ _ => if op = .upper ∨ op = .lower then [a, b] else [a]
  | _ => []

/-- The predicate, destination and memory order of a moment instruction. -/
def momentParts : Instr → Option (Pred × Reg × Bool)
  | .mld p d _ _ _ | .mst p d _ _ _ | .mcolH p _ d _ _ _ _ => some (p, d, true)
  | .mset p d _ _ _ | .madd p d _ _ _ _ _ | .msub p d _ _ _ _ _ | .mmul p d _ _ _ _ _ | .mfma p d _ _ _ _ _ _
  | .mscl p d _ _ _ _ | .msqr p d _ _ _ | .mnl p _ d _ _ _ | .mcol p _ d _ _ _ | .mchk p d _ _ => some (p, d, false)
  | _ => none

/-- The elements a moment step works on: declared registers, a line with lanes, sound handles (R294). -/
def momentSpan (i : Issue) (a : Reg) (ms : List Reg16) (hs : List (Reg16 × (Fmt → Bool))) : Option (Nat × Nat) :=
  if !i.momentsOk ms ∨ i.t.lgrant = 0 ∨ (badHandle i.c hs).isSome then none
  else
    let lo := (i.reg a).toNat
    some (lo, hs.foldl (init := min (lo + 8 * i.t.lgrant.toNat) 256) fun m x => min m (i.c.handle x.1).len)

/-- Formats MLD reads (R302). -/
def mldFormats (f : Fmt) : Bool := f == .mf32 || f == .mb16 || f == .f32 || f == .f16 || f == .bf16

/-- A moment instruction takes its registers, handles, MCTL and queue entries and its place among the steps of its tile, and
waits with kind 0 for its own (R226, R292, R294); `reads` is what MLD has read. -/
def joined (i : Issue) (s : State) (x : Instr) (reads : Option (List Nat)) : Effect :=
  let (push, s) := i.reserve (i.holdPop s) ((momentParts x).elim 0 (·.2.1))
  let m : MomentOp :=
    { thread := i.k, instr := x, mctl := i.c.mctl, g := i.t.g, popped := i.popped, push := push, handles := i.c.handles,
      reads := reads, writes := none }
  .hold ((s.modTile i.c.tile fun y => { y with momentQ := y.momentQ ++ [m] }).modThread i.k fun t => t.toWait 0 0 .momentStep)

/-- A store of elements waits until no entry of its own thread holds a block of theirs (R117). -/
def storeJoins (i : Issue) (s : State) (a : Reg) (x0 x1 : Reg16) (ok : Fmt → Bool) (x : Instr) : Option Effect :=
  match momentSpan i a [x1] [(x0, ok)] with
  | none => some (joined i s x none)
  | some (lo, hi) =>
    if s.wcOver i.k i.crew [{ h := i.c.handle x0, idx := span lo hi }] then none else some (joined i s x none)

/-- The formats of MCOL.H's destination (R304). -/
def colFormats (f : Fmt) : Bool := f == .f64 || f == .f32 || f == .f16 || f == .bf16

/-- How a moment instruction joins: MLD once its reads have bound, where its checks pass and it touches something; a store of
elements once its blocks are free; the others at once (R294, R302, R307). -/
def joinEffect (i : Issue) (s : State) : Instr → Option Effect
  | .mld p d a x0 x1 =>
    let x : Instr := .mld p d a x0 x1
    (match momentSpan i a [x0] [(x1, mldFormats)] with
     | none => some (joined i s x none)
     | some (lo, hi) =>
       let e : Elems := { h := i.c.handle x1, idx := span lo hi }
       if hi ≤ lo ∨ (e.outside i.c.decl.scratch).isSome then some (joined i s x none)
       else (batchSources i s [e] []).map fun r =>
         let raws := r.1.headD []
         let sound := raws.all fun v =>
           (sourcePair (nvpOf i.c.mctl) (widenPair ((i.c.handle x1).fmt?.getD .mf32) v)).isSome
         joined i (if sound then r.2 else s) x (some raws))
  | .mst p d a x0 x1 => storeJoins i s a x0 x1 Fmt.isPair (.mst p d a x0 x1)
  | .mcolH p op d a b x0 x1 => storeJoins i s a x0 x1 colFormats (.mcolH p op d a b x0 x1)
  | x => some (joined i s x none)

/-- The form a moment instruction issues with under a value of MCTL. -/
def momentForm (mctl : Word) (x : Instr) : Option Form :=
  (momentParts x).map fun (p, d, mem) =>
    { pred := p, len := 12, uses := { src := momentReads mctl x, dst := [d], seq := mem }, eff := fun i s => joinEffect i s x }

/-- What a step leaves: gD's value and sticky bits, with the moment registers written; or elements still to be stored. -/
inductive StepEnd where
  | gives (s : State) (v : Word) (flags : Nat)
  | stores (vs : List Nat) (v : Word) (flags : Nat)

/-- The results of the elements and their sticky bits, where no element raises NEGVAR (R295). -/
def allOf (idx : List Nat) (f : Nat → Option (Nat × Nat)) : Option (List Nat × Nat) :=
  if idx.all fun n => (f n).isSome then
    let rs := idx.filterMap f
    some (rs.map (·.1), rs.foldl (fun m r => m ||| r.2) 0)
  else none

/-- A step over a batch: nothing when it is empty. -/
def stepOn (i : Issue) (s : State) (a : Reg) (ms : List Reg16) (hs : List (Reg16 × (Fmt → Bool)))
    (f : List Nat → Option StepEnd) : Option StepEnd :=
  match momentSpan i a ms hs with
  | none => none
  | some (lo, hi) => if hi ≤ lo then some (.gives s 0 0) else f (span lo hi)

/-- Results go to a moment register, element by element. -/
def stepInto (i : Issue) (s : State) (x0 : Reg16) (idx : List Nat) (f : Nat → Option (Nat × Nat)) : Option StepEnd :=
  (allOf idx f).map fun r => .gives (s.setMoments i.crew x0 (idx.zip r.1)) (natWord idx.length) r.2

/-- A step whose results go to a moment register. -/
def stepMap (i : Issue) (s : State) (a : Reg) (x0 : Reg16) (srcs : List Reg16) (f : Nat → Option (Nat × Nat)) :
    Option StepEnd :=
  stepOn i s a (x0 :: srcs) [] fun idx => stepInto i s x0 idx f

/-- The rounded result of a formula on the source pairs of element n (R295, R296). -/
def momentAt (i : Issue) (srcs : List Reg16) (extra : List Num) (f : List Pair → Num × Num) (n : Nat) : Option (Nat × Nat) :=
  (i.sources srcs n).bind fun (ps, fl) =>
    let r := f ps
    (resultPair (nvpOf i.c.mctl) (ps.map (·.mean) ++ extra) r.1 r.2).map fun x => (x.1, x.2 ||| fl)

/-- A step under a correlation, which is asked for only where the batch touches something (R297). -/
def stepRho (i : Issue) (s : State) (a b : Reg) (x0 : Reg16) (srcs : List Reg16)
    (f : Option Num → List Pair → Num × Num) : Option StepEnd :=
  stepOn i s a (x0 :: srcs) [] fun _ =>
    match rhoOf i.c.mctl (i.reg b) with
    | .error _ => none
    | .ok r => stepMap i s a x0 srcs (momentAt i srcs [] (f r))

/-- Elements of declared regions are to be stored. -/
def stepStores (i : Issue) (x0 : Reg16) (idx vs : List Nat) (flags : Nat) : Option StepEnd :=
  if (({ h := i.c.handle x0, idx := idx } : Elems).outside i.c.decl.scratch).isSome then none
  else some (.stores vs (natWord idx.length) flags)

/-- The factor of MCOL (R304): for .UPPER and .LOWER a finite number. -/
def colFactor (i : Issue) (op : ColOp) (b : Reg) : Option Num :=
  let k := floatNum .f32 ((i.reg b).toNat % 2 ^ 32)
  if op = .upper ∨ op = .lower then (if k.notNum || k.isInf then none else some k) else some (.zero false)

/-- What the step of a moment instruction does, for the line it belongs to and what MLD has read (R298 to R305); none where it
traps. -/
def momentEffect (i : Issue) (s : State) (reads : Option (List Nat)) : Instr → Option StepEnd
  | .mld _ _ a x0 x1 =>
    stepOn i s a [x0] [(x1, mldFormats)] fun idx =>
      match reads with
      | none => none
      | some raws => stepInto i s x0 idx fun n =>
          (sourcePair (nvpOf i.c.mctl)
            (widenPair ((i.c.handle x1).fmt?.getD .mf32) (raws.getD (n - idx.headD 0) 0))).map fun r => (r.2.2, r.2.1)
  | .mst _ _ a x0 x1 =>
    stepOn i s a [x1] [(x0, Fmt.isPair)] fun idx =>
      let rs := idx.map fun n => narrowPair ((i.c.handle x0).fmt?.getD .mf32) (i.c.moment x1 n)
      stepStores i x0 idx (rs.map (·.1)) (rs.foldl (fun m r => m ||| r.2) 0)
  | .mset _ _ a b x0 =>
    stepMap i s a x0 [] fun _ => (sourcePair (nvpOf i.c.mctl) (i.reg b).toNat).map fun r => (r.2.2, r.2.1)
  | .madd _ _ a b x0 x1 x2 => stepRho i s a b x0 [x1, x2] fun r => pairs2 (momAdd false r)
  | .msub _ _ a b x0 x1 x2 => stepRho i s a b x0 [x1, x2] fun r => pairs2 (momAdd true r)
  | .mmul _ _ a b x0 x1 x2 => stepRho i s a b x0 [x1, x2] fun r => pairs2 fun x y => momMul r x y none
  | .mfma _ _ a b x0 x1 x2 x3 => stepRho i s a b x0 [x1, x2, x3] fun r ps =>
      match ps with
      | [x, y, z] => momMul r x y (some z)
      | _ => (.bad, .bad)
  | .mscl _ _ a b x0 x1 =>
    let k := floatNum .f32 ((i.reg b).toNat % 2 ^ 32)
    stepMap i s a x0 [x1] (momentAt i [x1] [k] fun ps =>
      match ps with
      | x :: _ => momScale k x
      | [] => (.bad, .bad))
  | .msqr _ _ a x0 x1 => stepMap i s a x0 [x1] (momentAt i [x1] [] fun ps =>
      match ps with
      | x :: _ => momSquare x
      | [] => (.bad, .bad))
  | .mnl _ fn _ a x0 x1 => stepMap i s a x0 [x1] fun n => (i.pairAt x1 n).map fun r =>
      let x := mnlPair fn r.1 r.2.2
      (x.1, x.2 ||| r.2.1)
  | .mcol _ op _ a b x1 =>
    let n := (i.reg a).toNat
    if !i.momentsOk [x1] ∨ 255 < n then none
    else (colFactor i op b).bind fun k => (i.pairAt x1 n).map fun r =>
      .gives s (natWord ((colValue op k r.1).encode .f64)) r.2.1
  | .mcolH _ op _ a b x0 x1 =>
    stepOn i s a [x1] [(x0, colFormats)] fun idx =>
      (colFactor i op b).bind fun k =>
        (allOf idx fun n => (i.pairAt x1 n).map fun r =>
            ((colValue op k r.1).encode ((i.c.handle x0).fmt?.getD .f64), r.2.1)).bind fun w =>
          stepStores i x0 idx w.1 w.2
  | .mchk _ _ a x1 =>
    if !i.momentsOk [x1] then none
    else
      let idx := span (i.reg a).toNat 256
      let bad (n : Nat) : Bool := badVar (floatNum .f32 (i.c.moment x1 n / 2 ^ 32))
      let nan (n : Nat) : Bool := (floatNum .f32 (i.c.moment x1 n % 2 ^ 32)).isNaN
      let inf (n : Nat) : Bool :=
        (floatNum .f32 (i.c.moment x1 n % 2 ^ 32)).isInf || (floatNum .f32 (i.c.moment x1 n / 2 ^ 32)).isInf
      let low := (idx.find? fun n => bad n || nan n || inf n).getD 256
      some (.gives s (natWord
        (low + 2 ^ 9 * b2n (idx.any bad) + 2 ^ 10 * b2n (idx.any nan) + 2 ^ 11 * b2n (idx.any inf))) 0)
  | _ => none

/-- A moment instruction between its issue and its retirement as its step sees it: registers, handles and MCTL as it took them at
issue, the moment registers as they stand (R292, R294). -/
def stepSees (s : State) (m : MomentOp) : Option Issue :=
  match s.thread? m.thread with
  | none => none
  | some t =>
    match s.crew? t.crewn.toNat with
    | none => none
    | some c =>
      if t.st = .waiting ∧ t.await = .momentStep then
        some { k := m.thread, t := { t with g := m.g }, c := { c with handles := m.handles, mctl := m.mctl },
               crew := t.crewn.toNat, popped := m.popped }
      else none

/-- The instructions of a tile one of which acts next: those that have elements to store, and the oldest whose step has not been
taken (R294; which one is left open, notes/assumptions/31.md). -/
def stepChoices (tile : Nat) (s : State) : List MomentOp :=
  (s.tile tile).momentQ.filter (·.writes.isSome) ++ ((s.tile tile).momentQ.find? (·.writes.isNone)).toList

/-- The instruction of a tile that acts next, where there is no choice: the oldest whose step has not been taken, none having
elements still to store; or one with elements to store, alone. -/
def nextStep (tile : Nat) (s : State) : Option MomentOp :=
  match (s.tile tile).momentQ with
  | [] => none
  | [m] => some m
  | m :: ms => if (m :: ms).any fun y => y.writes.isSome then none else some m

/-- The instruction retires: it leaves the steps of its tile, MSTAT gathers the sticky bits, the entry its bound g6 took is not
given back, and its line completes with gD's value, or the slot its bound g7 reserved (R226, R294). -/
def stepRetires (s : State) (tile : Nat) (m : MomentOp) (v : Word) (flags : Nat) : State :=
  let crew := crewOf m.thread
  let s := s.modTile tile fun x => { x with momentQ := x.momentQ.filter fun y => y.thread != m.thread }
  let s := s.modCrew crew fun c => { c with mstat := c.mstat ||| BitVec.ofNat 64 flags }
  let s := m.popped.elim s fun x => s.modQueue crew x.1 Queue.release
  (s.modThread m.thread fun t =>
    { t with finish := some { dest := some ((momentParts m.instr).elim 0 (·.2.1), v), len := 12, slot := m.push } }).complete
      m.thread

/-- What it leaves that an instruction acts: the elements it stores bind and it retires; or it takes its step, and retires or has
elements to store (R294). -/
def stepOf (tile : Nat) (s : State) (m : MomentOp) : Option State :=
  (stepSees s m).bind fun i =>
    match m.writes with
    | some (vs, v, flags) =>
      (momentStore m.instr).map fun (a, x0) =>
        let lo := (i.reg a).toNat
        let s := s.modTile tile fun x => { x with momentQ := x.momentQ.filter fun y => y.thread != m.thread }
        stepRetires (i.batchWrite s { h := i.c.handle x0, idx := span lo (lo + vs.length) } vs) tile m v flags
    | none =>
      (momentEffect i s m.reads m.instr).map fun
        | .gives s v flags => stepRetires s tile m v flags
        | .stores vs v flags =>
          let noted (y : MomentOp) : MomentOp := if y.thread = m.thread then { y with writes := some (vs, v, flags) } else y
          s.modTile tile fun x => { x with momentQ := x.momentQ.map noted }

end Sys2Proof.Machine.Claim
end

