-- ==== Sys2Proof/Safety/Outside.lean ====
section
/-! DEFINITION. What the events of the outside world, of wall-clock time and of the debug unit leave, in the states in which
each has its effect (R6, R105, R107, R121, R168, R189, R191, R212, R217, R220, R249, R292, R378, R379, R404, R406, R410). -/

namespace Sys2Proof.Machine.Claim

/-- A result that holds under a condition. -/
def under (c : Bool) (s : State) : Option State := if c then some s else none

/-- What DEVICE_RESET leaves beside reset (R6): the agenda and the free values to come are the model's own; memory with its
keys and its replicas, the meters and their report, and links that have failed are no registers (notes/assumptions/46.md). -/
def resetState (s : State) : State :=
  { State.reset with
    agenda := s.agenda, draws := s.draws, tick := s.tick,
    mem := { MemSys.reset with mem := s.mem.mem, replica := s.mem.replica, poison := s.mem.poison, tags := s.mem.tags, wsMeter := s.mem.wsMeter,
                               lastKeys := s.mem.lastKeys, lostLinks := s.mem.lostLinks },
    tier := { Tier.reset with bytes := s.tier.bytes, reads := s.tier.reads, locked := s.tier.locked, seq := s.tier.seq,
                              predSer := s.tier.predSer, predHash := s.tier.predHash },
    dbg := { Debug.reset with dbgOpen := s.dbg.dbgOpen } }

/-- A host launch queue changes. -/
def withHq (s : State) (q : Nat) (f : HostQueue → HostQueue) : State :=
  { s with work := { s.work with hqs := Map.modify s.work.hqs q HostQueue.reset f } }

/-- A control word of a host queue (Table 21.5, R379). -/
def controls (v : Word) (h : HostQueue) : HostQueue :=
  { h with prio := v.toNat % 16, log2n := if h.en then h.log2n else min (field v.toNat 4 5) 16, en := bitAt v.toNat 9,
           err := if bitAt v.toNat 9 then 0 else h.err }

/-- What the trace unit keeps of the cycle that ends (R406). -/
def capturing (x : Debug) : Bool := x.on || (x.holdsNow x.start && !x.holdsNow x.stop)

/-- The host gives up a line: what waits for it looks again. -/
def letGo (s : State) (line : Nat) : State :=
  { s with mem := { s.mem with hostHeld := s.mem.hostHeld.filter (· != line),
                               snooped := s.mem.snooped.filter (· != line) } }.wakeAwait .frozenLine

/-- A mender's answers, oldest first: one to a line that has gone is lost, one to a full inbox stays, and any other is delivered
as a message of crew 0xF_FFFE at the mender's logical time (R152, R192, notes/assumptions/78.md). -/
def answered (m : Nat) (s : State) : State :=
  (s.ring m).answers.foldl (init := s.modRing m fun r => { r with answers := [] }) fun s a =>
    match (s.thread? a.1).filter (fun t => !(t.st == .exited)) with
    | none => s
    | some t =>
      if s.inboxFull a.1 t then s.modRing m fun r => { r with answers := r.answers ++ [a] }
      else
        let x : Msg := { payload := a.2, crew := 0xFFFFE, tidx := (Config.freeWord s.draws).toNat % 256, time := (s.ring m).time,
                         launch := none }
        { s with draws := s.draws + 1 }.deliver a.1 x

/-- The host, other packages, and wall-clock time. -/
def outsideEvent : Instr → State → Option State
  | .deviceReset, s => some (resetState s)
  | .clockStepSelect c, s => some { s with tier := { s.tier with clock := c } }
  | .systemSpaceWrite unit off v, s =>
    if unit ∈ [0x0, 0x1, 0x2, 0x3, 0x4, 0x5, 0x9, 0xA, 0xE] then
      some { s with tier := { s.tier with regs := Map.put s.tier.regs (unit * 2 ^ 44 + off % 2 ^ 44) v } }
    else if unit = 0x8 ∧ off < 0x800 then
      let q := off / 0x20
      if off % 0x20 = 0x00 then some (withHq s q fun h => if h.en then h else { h with base := field v.toNat 3 49 * 8 })
      else if off % 0x20 = 0x08 then some (withHq s q (controls v))
      else if off % 0x20 = 0x10 then some (withHq s q fun h => { h with tail := v.setWidth 32, time := s.mem.hostTime })
      else none
    else none
  | .wsRefreshStart bank, s =>
    under (!s.mem.wsActive && bank.val == (s.mem.wsBank + 1) % 16)
      { s with mem := { s.mem with wsBank := bank.val, wsActive := true } }
  | .wsRefreshEnd, s => some ({ s with mem := { s.mem with wsActive := false } }.wakeAwait .bankWrite)
  | .parlimWrite tile v, s =>
    let n := v.toNat % 64
    let limit := if 1 ≤ n ∧ n ≤ 32 then n else 32
    some ((coresOf tile).foldl (init := s.modTile tile fun t => { t with parlim := limit }) fun s c => s.trimCore c limit)
  | .faultRingPointerWrite m head base, s =>
    let r := s.ring m
    under (decide (r.head ≤ head ∧ head ≤ r.tail)) <|
      let s := State.fillRing m (r.waiting.length + 1) (s.modRing m fun r => { r with head := head, base := base.getD r.base })
      answered m { s.modRing m fun r => { r with answers := r.answers ++ Config.menderAnswers s.draws } with draws := s.draws + 1 }
  | .corefail core, s =>
    if core < coreCount then
      under (!(s.core core).failed) <| (s.modCore core fun c => { c with failed := true }).ringSend (menderOf (core / 8))
        (repairRecord 0x30 0 (coreAddr (core / 8) (core % 8))) 0
    else
      let tile := core - coreCount
      let queued := (s.tile tile).arrayQ.map (·.crew)
      let gtids := 0 :: queued.dedup.map fun c => (s.crew? c).elim 0 fun x => x.task.gtid.toNat
      under (decide (tile < 24 * Config.sites) && !(s.tile tile).failed) <|
        gtids.foldl (init := s.modTile tile fun t => { t with failed := true }) fun s g =>
          s.ringSend (menderOf tile) (repairRecord 0x30 g (coreAddr tile 0)) 0
  | .linkfail link, s =>
    under (!s.mem.lostLinks.contains link) <|
      { s with mem := { s.mem with lostLinks := s.mem.lostLinks ++ [link] } }.ringSend (Config.linkMender link % 32)
        (repairRecord 0x31 0 link) 0
  | .predecessorCommission serial hash, s =>
    under s.tier.predSer.isNone { s with tier := { s.tier with predSer := some serial, predHash := hash % 2 ^ 256 } }
  | .hostWrite pa bytes keep, s =>
    if bytes ≠ [] ∧ s.hostMay pa bytes.length then
      let t := s.hostStore pa bytes
      some (if keep then { t with mem := { t.mem with hostHeld := (t.mem.hostHeld ++ linesIn pa bytes.length).dedup } } else t)
    else none
  | .hostWriteBack line bytes, s =>
    under (s.mem.hostHeld.contains line && bytes.length == 128 && s.hostMay (128 * line) 128)
      (letGo (s.hostStore (128 * line) bytes) line)
  | .backInvalidateAnswer line, s => under (s.mem.snooped.contains line) (letGo s line)
  | .fabricAccessArrival pa size op time, s =>
    if 0 < size ∧ pa / 128 = (pa + size - 1) / 128 ∧ (List.range 36).any fun n => !s.mem.lostLinks.contains n then
      match s.readRaw pa size time with
      | (.error _, _) => none
      | (.ok _, s') =>
        let owner := Map.getD s.mem.tags (pa / 512) 0
        let old := leNat (s.ownedBytes owner pa size)
        let writes (v : Nat) : State := (s.storeRaw .convoy pa (natBytes size v) time).2
        match op with
        | .load => some s'
        | .store bytes => under (bytes.length == size) (s.storeRaw .convoy pa bytes time).2
        | .amo op f v => some (writes (amoNew op f old v))
        | .cas expect new =>
          some (if old = expect then writes new
                else (s.touchHome { target := .phys pa, attr := bareAttr owner, bytes := size } 3 time).2)
    else none
  | .speculativeFetch (.tileLine k va), s =>
    (s.thread? k).bind fun t =>
      let right (r : Right) : Option Part := (s.resolve (s.agent t) va 1 r).1.toOption
      match right .read <|> right .fetch with
      | some p => match p.target with
        | .phys pa => some (s.prefetchLine (s.agent t).tile (.phys (pa / 128 * 128)) p.attr 3)
        | _ => none
      | none => none
  | .speculativeFetch (.l2Line addr), s =>
    let line := addr / 128
    let h := s.lineLease line
    under (s.maySpeculate line) ((s.touchL2 line 3).setLease line h)
  | .speculativeFetch (.l2Evict addr), s =>
    let line := addr / 128
    let house := houseOf (line * 128)
    (Map.get? s.mem.leases line).bind fun l =>
      under (physPopulated (line * 128)) { s with mem := { s.mem with
        leases := Map.del s.mem.leases line, l2 := Map.del s.mem.l2 line,
        mts := Map.put s.mem.mts house (tmax (Map.getD s.mem.mts house 0) l.rts) } }
  | .speculativeFetch (.l1Evict tile addr), s =>
    some (s.modTile tile fun t => { t with l1 := t.l1.filter fun l => l.line != addr / 128 })
  | .speculativeFetch (.innLine k), s =>
    (s.thread? k).bind fun t => (s.crew? t.crewn.toNat).bind fun c =>
      under (t.loc == .memory && t.st != .exited && !c.displaced) (s.putInn (s.homeOf t / 24) k)
  | .cvstatW1cWrite crew v, s =>
    (s.crew? crew).map fun c =>
      let old := c.cvstat.toNat
      let low := old % 64 - (old % 64 &&& v.toNat % 64)
      s.setCrew crew { c with cvstat := natWord (low + if bitAt low 3 then 2 ^ 16 * field old 16 32 else 0) }
  | .mstatW1cWrite crew v, s =>
    (s.crew? crew).map fun c => s.setCrew crew { c with mstat := c.mstat &&& ~~~(v &&& 7) }
  | .hqtailDoorbell q v, s => some (withHq s q.val fun h => { h with tail := v, time := s.mem.hostTime })
  | .hqEnableWrite q v, s => some (withHq s q.val (controls v))
  | _, _ => none

/-- The trace unit at the end of a cycle, before what TRIGSETs have changed: conditions are judged on the events of the cycle,
and those to be kept await writing in core order, or are dropped where more than 4,096 do (R404, R406). -/
def cycleEnds (x : Debug) : Debug :=
  let on := capturing x
  let keeps (e : TraceEv) : Bool := x.bufv && (e.kind == 1 || e.kind == 2 || (on && x.mask.getLsbD e.kind))
  let one (y : Debug) (e : TraceEv) : Debug :=
    if y.awaiting.length ≤ 4096 then { y with awaiting := y.awaiting ++ [e] } else { y with drop := min (y.drop + 1) (2 ^ 24 - 1) }
  let y := ((inCoreOrder x.offered).filter keeps).foldl (init := x) one
  { y with on := on && !x.holdsNow x.stop, offered := [], hits := [] }

/-- What TRIGSETs have changed is in force from the following cycle (R416); a new ring starts empty, with nothing awaiting. -/
def takeEffect (x : Debug) : TrigChange → Debug
  | .buf base size =>
    let x := { x with on := false, awaiting := [] }
    if base = 0 then { x with bufv := false } else { x with base := base, size := size, bufv := true, next := 0, drop := 0 }
  | .start v => { x with start := v }
  | .stop v => { x with stop := v }
  | .bp slot b => { x with bps := x.bps.set slot b }
  | .mask v => { x with mask := v }

/-- What a ready checked-out line does at the end of a cycle, if it can: it takes an entry of a core, or an age swap gives it one,
or it moves from memory toward the inn (R162, R164, R221, R222). -/
def beginsCheckIn (s : State) (k : Nat) : Option State :=
  (s.thread? k).bind fun t =>
    let tile := s.homeOf t
    if !s.mayCheckIn t then none
    else
      let tiles := s.tilesFor tile
      match s.coreFor tiles with
      | some c => under (s.firstToCheckIn k t) (s.giveEntry k c)
      | none =>
        if 64 ≤ t.age ∧ s.firstToCheckIn k t ∧ (s.swapCore tiles).isSome then some (s.ageSwap k tiles)
        else under (t.loc == .memory && decide ((s.innSet (tile / 24) k).length < 12))
          (s.setThread k { t with loc := .toInn (tile / 24) })

/-- Check-ins begin, one after another, while a line can. -/
def allCheckIns : Nat → State → State
  | 0, s => s
  | n + 1, s => ((s.threads.map (·.1)).findSome? (beginsCheckIn s)).elim s (allCheckIns n)

/-- A cycle of the package is over: check-ins begin (R222), the trigger judges its events (R406, R416), its reservations of
queues may be popped from the next cycle on (R225). -/
def cycleOver (s : State) : State :=
  let s := allCheckIns s.threads.length s
  let y := cycleEnds s.dbg
  let s := { s with dbg := { y.later.foldl (init := y) takeEffect with later := [] } }
  { s.settleQueues (s.clock + 1) with clock := s.clock + 1 }

/-- The trace unit and the test access port. -/
def debugEvent : Instr → State → Option State
  | .triggerCycle, s => under s.dueCores.isEmpty (cycleOver s)
  | .traceRecordWrite, s =>
    match s.dbg.awaiting with
    | [] => none
    | e :: es =>
      let pa := s.dbg.base + 32 * (s.dbg.next.toNat % max s.dbg.size 1)
      if s.homeBusy (.phys pa) then none
      else
        let s := { s with dbg := { s.dbg with awaiting := es, next := s.dbg.next + 1 } }
        if s.homeFault (.phys pa) 0 ≠ 0 then some s
        else
          let (t, s) := s.storeAt {} (.phys pa) 32 (leNat (e.words.flatMap (natBytes 8))) (fullMask 32) 0 s.dbg.time
          some { s with dbg := { s.dbg with time := t } }
  | .freeze, s => some { s with dbg := { s.dbg with tapIr := 0x40, frozen := true } }
  | .thaw, s => some { s with agenda := s.dbg.link ++ s.agenda,
                              dbg := { s.dbg with tapIr := 0x41, frozen := false, link := [] } }
  | .arrayrd sel, s =>
    let foreign := decide (s.tagOf (Config.arraySpan sel.toNat) ≠ 0)
    let data : Word := if foreign && !s.dbg.dbgOpen then 0 else Config.rawArray sel.toNat s.draws
    some { s with dbg := { s.dbg with tapIr := 0x42, tapDr := data ++ sel }, draws := s.draws + 1 }
  | .extest, s => some { s with dbg := { s.dbg with tapIr := 0x00 } }
  | .samplePreload, s => some { s with dbg := { s.dbg with tapIr := 0x01, tapDr := (Config.freeWord s.draws).setWidth 128 },
                                       draws := s.draws + 1 }
  | .idcode, s => some { s with dbg := { s.dbg with tapIr := 0x02, tapDr := Config.idcode.setWidth 128 } }
  | .bypass code, s => some { s with dbg := { s.dbg with tapIr := code, tapDr := 0 } }
  | _, _ => none

end Sys2Proof.Machine.Claim
end

