-- ==== Sys2Proof/Safety/Arrivals.lean ====
section
/-! DEFINITION. What the events of lines and of their accesses leave, in the states in which each has its effect (R14, R71,
R93, R110, R111, R117, R123, R128, R145, R159, R162 to R164, R173, R185, R189, R203, R225, R230, R263, R346). -/

namespace Sys2Proof.Machine.Claim

/-- The accesses of a thread that may bind: its oldest sequential one and its oldest non-binding load, which keeps no order with
the others (R112, R116). -/
def foremost (t : Thread) : List Access := t.sequential.take 1 ++ (t.unbound.filter fun a => a.kind.isNb).take 1

/-- The one of a kind, if it is not on its way to another crew's tile. -/
def nextOf (s : State) (k : Nat) (p : AccKind → Bool) : Option Access :=
  (s.thread? k).bind fun t => (foremost t).find? fun a => p a.kind && !a.remote

/-- What the home of an access's next piece answers: nothing yet, or a fault's code, 0 for none (R122, R123). -/
def homeSays (s : State) (a : Access) : Option Nat :=
  if (a.left.take 1).any fun x => s.homeBusy x.target || (a.kind.isRow && s.spadAway x.target) then none
  else some (s.partsFault (a.left.take 1))

/-- The kinds each of the three binding events serves. -/
def fills : AccKind → Bool
  | .load _ _ _ _ | .loadPair _ _ _ | .loadBits _ _ _ | .amo _ _ _ | .cas _ _ _ | .casp _ _ | .row false => true
  | _ => false
def storesOnly : AccKind → Bool
  | .store | .storePair | .storeBits | .row true => true
  | _ => false
def queues : AccKind → Bool
  | .ldq _ _ _ => true
  | _ => false

/-- An access leaves its thread's list and its next piece binds; lines that waited for the thread's own accesses look again. -/
def binds (s : State) (k : Nat) (a : Access) : State :=
  ((s.modThread k fun t => { t with unbound := t.unbound.erase a }).bindAccess k a).wakeOwn k
/-- An access leaves its thread's list and is owed to it. -/
def owes (s : State) (k : Nat) (a : Access) (f : Nat) : State :=
  ((s.modThread k fun t => { t with unbound := t.unbound.erase a }).deferFault k a f).wakeOwn k

/-- What binds a thread's next access of a kind, and then completes a row move whose last row that was (R322, R330). -/
def bindsNext (s : State) (k : Nat) (p : AccKind → Bool) : Option State :=
  match nextOf s k p with
  | some a => if homeSays s a = some 0 then some ((binds s k a).finishRows k) else none
  | none => some (s.finishRows k)

/-- How a drained entry of a write-combining buffer reaches its home: past its core's tile and its crew's (R111, R117, R119). -/
def drainVia (s : State) (core : Nat) (w : WcEntry) : Via :=
  let crew := crewOf w.thread
  { tiles := [core / 8, (s.crew? crew).elim (core / 8) (·.tile)].dedup, evp := w.evp,
    who := { thread := some w.thread, crew := some crew, place := .package, scope := s.scopeNow crew w.scope, wc := true } }

/-- An instruction refused at another crew's tile is taken back: what is left of it, the slot its LDQ reserved and the entry its g6
popped (R228). -/
def takenBack (s : State) (k : Nat) (t : Thread) (a : Access) : State :=
  let left := if a.kind.isRow then t.unbound.filter fun x => !x.kind.isRow else t.unbound.erase a
  let s := s.setThread k { t.clearWait with st := .ready, unbound := left, finish := none }
  let s := a.slot.elim s fun x => s.dropSlot t.crewn.toNat x.1 x.2
  (t.finish.bind (·.popped)).elim s fun x => s.modQueue t.crewn.toNat x.1 fun y => y.unpop x.2

/-- Accesses and fetches. -/
def accessEvent : Instr → State → Option State
  | .coreCycle core, s =>
    if s.due core && (s.core core).sel.isNone then
      let s := s.catchUp core
      some (s.selectLine core ((s.residents core).length + 1))
    else none
  | .icacheFill k, s =>
    (s.thread? k).bind fun t =>
      match t.fetchStall, t.entryCore with
      | some _, some core =>
        match s.fetchAddr t with
        | (.error _, s') => some (s'.modThread k fun t => { t with fetchStall := none })
        | (.ok p, s') =>
          let f := s'.homeFault p.target p.attr.owner
          let b := p.target.pos / 32
          if f ≠ 0 then some (s'.sysFault k { code := f, addr := t.pc.toNat })
          else if s'.homeBusy p.target then none
          else
            let s' := s'.modThread k fun t => { t with fetchStall := some b }
            let (bs, _, s') := s'.lineLoad (core / 8) (b / 4) (b % 4 * 32) 32 p.attr 3 t.pts
            some (s'.fillBlock core b bs)
      | _, _ => none
  | .longOpResult k, s =>
    (s.thread? k).bind fun t =>
      if t.st = .waiting ∧ t.await = .reply then some (s.complete k)
      else match t.longop, t.pend with
        | some v, some p => some (s.setThread k ({ t with longop := none }.land p.reg v))
        | _, _ => none
  | .loadFill k, s => bindsNext s k fills
  | .storeBind k, s => bindsNext s k storesOnly
  | .queueFill k, s =>
    match nextOf s k queues with
    | some a => (homeSays s a).map fun f => if f = 0 then (binds s k a).landSome k else owes s k a f
    | none => some (s.landSome k)
  | .deferredFault k, s =>
    (s.thread? k).bind fun t =>
      ((foremost t).find? fun a => !a.remote && (homeSays s a).any (· != 0)).bind fun a =>
        (homeSays s a).map fun f => owes s k a f
  | .wcEntryDrain core block k, s =>
    ((s.core core).wc.find? fun w => w.thread == k && w.target.block == block).bind fun w =>
      if s.homeBusy w.target || s.spadAway w.target then none
      else
        let s := s.modCore core fun c => { c with wc := c.wc.erase w }
        let f := s.homeFault w.target w.attr.owner
        some <| if f = 0 then
            let (tm, s) := s.storeAt (drainVia s core w) w.target 64 w.bits w.mask w.attr.owner w.pts
            (s.modThread k fun t => { t with wcTime := tmax t.wcTime tm }).wakeDrained core k
          else
            let d : Deferred :=
              { code := f, apc := w.pc, addr := w.va, reg := 0, regv := false, size := w.size, store := true,
                data := w.data, pair := false, wc := true }
            (s.modThread k fun t => { t with deferred := t.deferred ++ [d] }).wakeDrained core k
  | .remoteAccessArrival k, s =>
    (s.thread? k).bind fun t =>
      ((foremost t).find? (·.remote)).bind fun a =>
        if t.trapq.isSome || s.nextBusy a then none
        else
          match s.arrivalTest t a with
          | some (.busy _ _) => none
          | some _ => some ((takenBack s k t a).userTrap k (accTrap codeRemref a.va a.kind a.width a.data))
          | none =>
            match s.granuleHolds a with
            | some e =>
              let g := a.granuleOf
              let mark (x : Access) : Access := if x = a then { a with accepted := true } else x
              some (s.setThread k { t.toWait 3 (granuleObj t.crewn.toNat g.1 g.2 e) (.granule g.1) with
                unbound := t.unbound.map mark })
            | none => (s.remoteBind k t a).map fun s => s.finishRemote k a
  | _, _ => none

/-- Lines: check-ins, ages, waits that end, traps that are taken, timelines, lanes, terminations. -/
def lineEvent : Instr → State → Option State
  | .timelineRetire crew t, s =>
    (s.crew? crew).bind fun c =>
      (c.timeline t).nextEnded.map fun e =>
        let y := (c.timeline t).retireNext
        let s := (s.modTimeline crew t fun _ => y).modCrew crew (·.setSticky (e.2.1 / 256))
        let idle := (s.crew? crew).elim false fun c => !c.mangleOpen
        let s := (s.late crew 0).wakeWhere fun t => idle && t.st == .waiting && t.crewn.toNat == crew && t.await == .mangle
        s.offer (c.event crew 5 t.val 0 y.dt y.done)
  | .yieldTimeout k, s =>
    (s.thread? k).bind fun t =>
      let due := match t.resident with
        | some c => s.readyCount c == 0 || decide (t.yieldAt + 256 ≤ s.clock)
        | none => true
      under (t.st == .waiting && t.wkind == 15 && due) (s.setThread k t.wake)
  | .lineCheckInStart k, s => under (s.dueCores.isEmpty && (beginsCheckIn s k).isSome) (cycleOver s)
  | .lineCheckInDone k, s =>
    (s.thread? k).bind fun t =>
      match t.loc with
      | .arriving c _ =>
        let t' := { t with loc := .parlour c, entryStamp := s.tick, eligible := s.clock }
        let t' := if t.lgrant = 0 ∨ t.st ≠ .ready then t' else { t'.toWait 8 t.lgrant.toNat .nothing with restoring := true }
        some ({ s with tick := s.tick + 1 }.setThread k t')
      | _ => none
  | .innMoveDone k, s =>
    (s.thread? k).bind fun t =>
      match t.loc with
      | .toInn site => some (s.setThread k { t with loc := .inn site })
      | _ => none
  | .ageTick k, s =>
    (s.thread? k).bind fun t =>
      match t.loc with
      | .parlour _ | .arriving _ _ => none
      | _ => under (t.st == .ready) (s.setThread k { t with age := t.age + 1 })
  | .trapEntry k, s =>
    (s.thread? k).bind fun t =>
      match t.trapq, t.pend with
      | some ti, none =>
        let displaced := (s.crew? t.crewn.toNat).elim false (·.displaced)
        under (t.st == .waiting && t.unbound.isEmpty && !s.recordHeld k t && !displaced) (s.enterTrap k ti)
      | _, _ => none
  | .shootdownComplete k, s =>
    (s.thread? k).bind fun t =>
      under (t.st == .waiting && t.await == .shootdown && s.shotDown t.target) (s.complete k)
  | .wsldComplete k, s =>
    (s.thread? k).bind fun t =>
      under (t.st == .waiting && t.await == .wsld)
        (({ s with mem := { s.mem with wsWrite := none } }.complete k).wakeAwait .bankWrite)
  | .systemFault k code addr, s =>
    (s.thread? k).bind fun t =>
      under ((t.st == .ready || t.st == .waiting) && decide (0x20 ≤ code ∧ code ≤ 0x26))
        (s.sysFault k { code := code, addr := addr })
  | .watch crew, s =>
    (s.crew? crew).bind fun c =>
      under (c.watchArmed && (s.linesOf crew).any fun e => e.2.st != .exited)
        ((s.setCrew crew { c with watchArmed := false }).ringSend (s.mender crew)
          (repairRecord 0x32 c.task.gtid.toNat crew) 0)
  | .laneGrantServe tile, s =>
    let t := State.serveOut tile (State.serveRestores tile (s.restores tile).length s)
    some (State.serveClaims tile (t.claimsLeft tile).length t)
  | .threadTermination k whole, s =>
    if whole then some ((s.linesOf (crewOf k)).foldl (init := s) fun s e => s.terminate e.1)
    else
      (s.thread? k).bind fun t =>
        if t.st = .exited then none
        else
          let stays (a : Access) : Bool := !a.remote && (queues a.kind || a.kind.stores)
          let s := (s.abandon k t).modThread k fun t =>
            { t with unbound := t.unbound.filter stays, pend := none, longop := none, deferred := [] }
          some (((s.modCrew (crewOf k) fun c => { c with terminated := true }).exitLine k).markDraining k)
  | _, _ => none

end Sys2Proof.Machine.Claim
end

