-- ==== Sys2Proof/Safety/Progress.lean ====
section
/-! DEFINITION. What the events of engines, of launches and of displaced crews leave, in the states in which each has its
effect (R194 to R198, R210, R253, R313, R334 to R356, R365, R368, R378 to R386, R391, R401). -/

namespace Sys2Proof.Machine.Claim

/-- A carrier operation and its crew. -/
def copyAt (s : State) (tile n : Nat) : Option (CopyOp × Crew) :=
  (Map.get? (s.tile tile).copies n).bind fun x => (s.crew? x.crew).map fun c => (x, c)

/-- An element of a gather or scatter that has not bound, whose entry has been read, and which no fault holds (R341, R353). -/
def elementDue (x : CopyOp) (e : Nat) : Bool :=
  (Map.get? x.gone e).isNone && decide (e < x.entries.length) && !x.unread.contains e &&
    !(x.held.any fun h => h.off == e * (x.total / max x.count 1) && !h.again)

/-- The follow-on a copy carries is dispatched, wherever it stands (R351). -/
def dispatches (s : State) (id : Nat) : State :=
  let go (o : ArrayOp) : ArrayOp := if o.id = id then { o with dispatched := true } else o
  { s with tiles := s.tiles.map fun (e : Nat × Tile) =>
    (e.1, { e.2 with arrayQ := e.2.arrayQ.map go, remaps := e.2.remaps.map fun r => { r with follows := r.follows.map go } }) }

/-- The fault a hamper context holds reaches its crew's mender once (R342). -/
def hamperTells (s : State) (site : Nat) (n : Fin 8) : Option State :=
  let h := (s.site site).hamper[n]
  match h.held, h.crew, h.heldOp with
  | some (code, addr), some crew, some (tl, num, pc, base) =>
    if h.told then none
    else
      let r := match base with
        | some va => (BitVec.ofNat 64 (addr - va), s)
        | none => s.freeWord
      some ((r.2.engineRecord crew 3 code tl num pc addr r.1.toNat h.time).modHamper site n fun h => { h with told := true })
  | _, _, _ => none

/-- The operation at the head of an engine's queue tells its mender once of the fault that holds it (R342). -/
def headTells (s : State) (engine : Nat) (q : List EngineOp) (put : List EngineOp → State → State) : Option State :=
  match q with
  | op :: ops =>
    match op.held with
    | some (code, addr) =>
      if op.told then none
      else
        let r := s.freeWord
        some (put ({ op with told := true } :: ops)
          (r.2.engineRecord op.crew engine code op.tl op.num op.pc addr r.1.toNat op.time))
    | none => none
  | [] => none

/-- The engine reads the row pointers of the CSRD at its head, whose thread waits with kind 0: where its handles and CVCTL are still
those it was checked with, and the pointers pass, the operation takes its number behind those accepted before it, unless a fault
under them has given it one and a place already, and the thread retires with it (R248, R253, R254, R256, R259). -/
def readsPointers (s : State) (tile k : Nat) (op : EngineOp) (ops : List EngineOp) : Option State :=
  let e3 := (Handle.ofBits (op.handles.getD 3 0)).range 0 (op.a.toNat + 1)
  if (s.poisoned op.crew e3).isSome ∨ (op.num = 0 ∧ !s.csrdFresh op) then none
  else
    let (vs, tm, s) := s.elemsLoad op.crew e3 (tmax (s.tile tile).convTime op.time)
    let s := s.modTile tile fun x => { x with convTime := tm }
    match op.judge vs with
    | .error _ => none
    | .ok (ptrs, flags) =>
      let (n, s) := if op.num = 0 then s.takeNumber op.crew op.tl else (op.num, s)
      let op' : EngineOp := { op with num := n, time := tm, ptrs := ptrs, flags := flags, asker := none }
      let s := s.modTile tile fun x => { x with convQ := if op.num = 0 then ops ++ [op'] else op' :: ops }
      some ((s.thread? k).elim s fun t =>
        if t.st = .waiting then
          (s.setThread k { t with finish := t.finish.map fun f => { f with dest := some (csrdDest op.instr, n) } }).complete k
        else s)

/-- The engines of a tile and of a die. -/
def engineEvent : Instr → State → Option State
  | .convEngineRun tile, s =>
    match (s.tile tile).convQ with
    | [] => none
    | op :: ops =>
      if op.held.isSome then none
      else if let some k := op.asker then readsPointers s tile k op ops
      else
        match s.runConv op (tmax (s.tile tile).convTime op.time) with
        | (.held c va, next, fl, t, s') =>
          let op' := { op with next := next, flags := op.flags ||| fl, held := some (c, va), told := false }
          some ((s'.modTile tile fun x => { x with convTime := t, convQ := op' :: ops }).late op.crew
            (s.bytesLeft op - s'.bytesLeft op'))
        | (.done c, _, fl, t, s') =>
          some (((s'.modTile tile fun x => { x with convTime := t, convQ := ops }).opEnded op.crew op.tl op.num
            (c + 256 * (op.flags ||| fl)) t).late op.crew (s.bytesLeft op))
  | .arrayOpStart tile, s =>
    (s.tile tile).arrayReady.bind fun op =>
      match MatOp.of op.instr, s.crew? op.crew with
      | some o, some c =>
        let s := s.holdBy op.crew (o.reads op.shapes) (· - 1)
        some <| if o.kind = .moment ∧ !nvpOf op.mctl ∧ (o.negvar c).isSome then
            ((s.lockBy op.crew o.accs (· - 1)).dropArray tile op.id).followEnded op codeNegvar
          else
            let r := if o.kind = .moment then o.momentEntries c op.shapes else (o.entries c op.shapes, 0)
            s.modTile tile fun x => { x with arrayQ := x.arrayQ.map fun y =>
              if y.id = op.id then { y with result := some (r.1, BitVec.ofNat 64 r.2) } else y }
      | _, _ => none
  | .arrayOpComplete tile, s =>
    if (s.tile tile).failed then none
    else
      match (s.tile tile).arrayQ with
      | [] => none
      | op :: _ =>
        match op.result, MatOp.of op.instr with
        | some (es, flags), some o =>
          let s := s.modCrew op.crew fun c => { c.setAccs o.accs es with mstat := c.mstat ||| flags }
          some (((s.lockBy op.crew o.accs (· - 1)).dropArray tile op.id).followEnded op 0)
        | _, _ => none
  | .momentStep tile, s => (nextStep tile s).bind (stepOf tile s)
  | .mangleOpRun tile, s =>
    match (s.tile tile).mangleQ with
    | [] => none
    | op :: ops =>
      if op.held.isSome then none
      else
        let x := s.tile tile
        let s := s.modCrew op.crew fun c => c.mgBegin op x
        match State.mgPairs tile op (op.mgFuel x) op.next (tmax x.mangleTime op.time) s with
        | (.held c va, n, t, s) =>
          some ((s.mgFill op n t true).modTile tile fun z =>
            { z with mangleTime := t, mangleQ := { op with next := n, held := some (c, va), told := false } :: ops })
        | (.done c, n, t, s) =>
          let s := if (s.tile tile).mgSpfull && c == codeRange && op.adds then s.modCrew op.crew (·.mgFull op) else s
          some (((s.mgFill op n t false).modTile tile fun z =>
            { z with mangleTime := t, mangleQ := ops }).opEnded op.crew op.tl op.num c t)
  | .copySegmentBind tile n, s =>
    (copyAt s tile n).bind fun (x, c) =>
      match x.kind with
      | .gather z => some (s.takeEntry tile n x c x.src z)
      | .scatter z => some (s.takeEntry tile n x c x.dst z)
      | _ => x.nextSegment.map fun _ => s.copyStep tile n x c
  | .gatherReply tile n e, s =>
    (copyAt s tile n).bind fun (x, c) =>
      match x.kind with
      | .gather z => under (elementDue x e) (s.gatherElem tile n x c e z)
      | .scatter z => under (elementDue x e) (s.scatterElem tile n x c e z)
      | _ => none
  | .tileStep tile n, s =>
    (copyAt s tile n).bind fun (x, c) =>
      match x.kind with
      | .tile t =>
        if x.stepped || !x.allLanded || s.tileHeld x c t then none
        else
          let row (r : Nat) : List Byte := (List.range x.rowBytes).map fun b => Map.getD x.landed (tileRow * r + b) 0
          let s := s.modCrew x.crew fun c => c.setTileRows t ((List.range x.rows).map row)
          some (s.putCopy tile n { x with stepped := true, landed := [] })
      | _ => none
  | .followOnDispatch tile n, s =>
    (Map.get? (s.tile tile).copies n).bind fun x => if x.stepped then x.follow.map (dispatches s) else none
  | .copyRetire tile n, s =>
    (Map.get? (s.tile tile).copies n).bind fun x => x.finished.map fun code => s.retireCopy tile n x code
  | .engineFault tile op, s =>
    if op % 4 = 0 then
      (Map.get? (s.tile tile).copies (op / 4)).bind fun x => x.untold.map fun h =>
        (s.engineRecord x.crew 0 h.code x.tl x.num x.pc h.addr h.off x.time).modTile tile fun y =>
          { y with copies := Map.put y.copies (op / 4) (x.tell h) }
    else if op % 4 = 1 then
      headTells s 1 (s.tile tile).convQ fun q s => s.modTile tile fun x => { x with convQ := q }
    else if op % 4 = 2 then
      headTells s 2 (s.tile tile).mangleQ fun q s => s.modTile tile fun x => { x with mangleQ := q }
    else if h : op / 4 < 8 then hamperTells s (tile / 24) ⟨op / 4, h⟩
    else none
  | .hamperBinRun site ctx, s =>
    (s.hamperAt site ctx).bind fun (n, h, k, c) =>
      match h.ops with
      | .bin va cnt tl num _ time :: _ => some (s.runBin site n h k c va cnt tl num time)
      | _ => none
  | .hamperBatchWrite site ctx, s =>
    (s.hamperAt site ctx).bind fun (n, h, k, _) =>
      match h.stream, h.ops with
      | some x, _ => under (!x.finished && decide (x.next < x.released)) (s.writeBatch site n h k x)
      | none, .pair buf size tl num pc time :: _ =>
        let h := h.openStream buf size tl num pc time
        h.stream.map fun x => s.writeBatch site n h k x
      | none, _ => none
  | _, _ => none

/-- A host queue takes its next entry, or stops on it. -/
def takesEntry (s : State) (q : Nat) (f : HostQueue → HostQueue) : State :=
  let s := withHq s q fun h => f { h with head := h.head + 1 }
  { s with work := { s.work with hqLast := q } }

/-- Stop a host queue with an error (R379). -/
def stops (err : Nat) (h : HostQueue) : HostQueue := { h with err := err, en := false }

/-- Launches, their instances, work lists and host queues. -/
def launchEvent : Instr → State → Option State
  | .hostLaunchAccept q, s =>
    let h := s.hq q.val
    if !h.en || h.head == h.tail || !s.hqTurn q.val then none
    else if 2 ^ h.log2n < (h.tail - h.head).toNat then some (withHq s q.val (stops 1))
    else
      match s.readRaw (h.base + 8 * (h.head.toNat % 2 ^ h.log2n)) 8 h.time with
      | (.error none, _) => none
      | (.error (some _), s) => some (takesEntry s q.val (stops 3))
      | (.ok (bs, t), s) =>
        if !s.entrySound (leNat bs) then some (takesEntry s q.val (stops 2))
        else
          match s.readRaw (leNat bs) 256 t with
          | (.error none, _) => none
          | (.error (some _), s) => some (takesEntry s q.val (stops 3))
          | (.ok (rec_, lt), s) =>
            match s.hostGraph (wordsOf rec_) (recordTask (wordsOf rec_)) h.prio lt with
            | (none, _) => none
            | (some g, s) => some (takesEntry (s.hostLaunch (wordsOf rec_) (leNat bs) h.prio lt g) q.val id)
  | .deskSelect site, s =>
    if site < Config.sites ∧ (s.selectedAt site).isNone then
      (firstChoice (s.deskChoices site)).map fun (prio, l, n, i) =>
        s.modInst l n i fun x => { x with state := .selected, site := site, prio := prio }
    else none
  | .instanceBind site, s =>
    (s.selectedAt site).bind fun (l, n, i) => (Map.get? s.work.launches l).bind fun x => (x.nodes[n]?).bind fun nd =>
      let lower := nd.insts.any fun y => decide (y.1 < i) && y.2.state == .selected
      match (dieTiles site).find? (s.offers s.room nd.decl), s.freeNumbers 1 with
      | some tile, some num =>
        if s.liveThreads x.task.gtid + nd.decl.threads ≤ 2 ^ 24 ∧ !lower then
          (s.bindInst l x n nd i tile num (nd.instAt i).prio).1
        else none
      | _, _ => none
  | .coResidentBind l, s =>
    (Map.get? s.work.launches l).bind fun x =>
      let threads := (x.nodes.map fun n => n.inst * n.decl.threads).sum
      if x.cores ∧ !x.reserved ∧ !x.ended ∧ !s.heldBack l x.prio ∧ s.liveThreads x.task.gtid + threads ≤ 2 ^ 24 then
        ((instDecls x.nodes).bind (s.pack s.room)).bind fun tiles => (s.numberBlocks x.nodes []).map fun blocks =>
          let jobs := x.jobs blocks tiles
          ((s.takeAll l x jobs).modLaunch l fun x => { x with reserved := true, toSetUp := jobs }).setUpLaunch l
      else under (!x.toSetUp.isEmpty) (s.setUpLaunch l)
  | .instanceEnd crew, s =>
    (s.crew? crew).bind fun c =>
      if !s.closed crew c then none
      else
        let et := s.endTime crew c
        let s := s.modInst c.launch c.node c.inst fun x => { x with state := .ended, et := et }
        let s := s.modLaunch c.launch fun l => { l with et := tmax l.et et, terminated := l.terminated || c.terminated }
        let s := s.letGo crew
        let frees (h : HamperCtx) : HamperCtx := if h.crew = some crew then HamperCtx.reset else h
        let s := { s with
          crews := Map.del s.crews crew, threads := s.threads.filter fun e => crewOf e.1 != crew,
          tiles := s.tiles.map fun (e : Nat × Tile) => (e.1, e.2.forget crew),
          sites := s.sites.map fun (e : Nat × Site) => (e.1, { e.2 with hamper := e.2.hamper.map frees }) }
        some ((s.wakeAwait (.granule crew)).saved crew c.tile)
  | .reductionSweep, s =>
    let again := s.work.results.foldl (init := { s with work := { s.work with results := [] } }) State.sendResult
    some (s.work.launches.foldl (init := again) fun s e => s.sweepOne e.1 e.2)
  | .coachInterval tile, s =>
    let x := s.tile tile
    x.wlHolder.bind fun h => (s.coachTarget tile h).bind fun n =>
      let a := x.wl.length
      let b := (s.tile n).wl.length
      let move (m : Nat) : State :=
        (s.modTile tile fun t => { t with wl := t.wl.drop m }).modTile n fun t => { t with wl := t.wl ++ x.wl.take m }
      let here := s.crews.any fun e => e.2.tile == tile && e.2.launch == h.1 && e.2.node == h.2 && !e.2.displaced
      if !here then some (move (min a (1024 - b)))
      else if x.wlEn ∧ b + x.wlThresh + 1 < a then some (move (min ((a - b) / 2) (min (x.wlMaxmv + 1) (1024 - b))))
      else none
  | _, _ => none

/-- A crew's registers, scratchpad, hamper context, mangle and follow-ons come back at a tile, from what its save area
holds (R197). -/
def comesBack (s : State) (crew tile : Nat) (c : Crew) (m : Map Byte) : State :=
  let ext := ((List.range 16).map fun j => handleBits (leNat (imageBytes m (0x200 + 16 * j) 16))).filterMap discardOf
  let gone := if ext.isEmpty then [] else (List.range (c.decl.scratch / 512)).filter (discardable ext)
  let follows := s.keptFollows crew
  let s := s.setCrew crew { c.restored m gone with tile := tile, displaced := false, saving := false, mgKept := none }
  let s := s.restoreSpad crew c m gone
  let s := if c.decl.hamper then s.restoreHamper (tile / 24) crew m else s
  let s := { s with tiles := s.tiles.map fun (e : Nat × Tile) =>
    (e.1, { e.2 with remaps := e.2.remaps.filter fun r => r.crew != crew }) }
  let s := s.modTile tile fun t =>
    let t := { t with arrayQ := t.arrayQ ++ follows }
    match c.mgKept with
    | some k => { t with mgHolder := some crew, mgTag := Vector.replicate 8 c.task.owner, mgBanks := mangleOf m,
                         mgSpilln := k.2.1, mgSpfull := k.2.2 }
    | none => t
  let s := (s.linesOf crew).foldl (init := s) fun s e => s.modThread e.1 fun t => t.restoreToken m
  (s.noteRestored crew m).wakeRestored crew

/-- Displacement, and migrations of pages. -/
def moveEvent : Instr → State → Option State
  | .crewSave crew, s =>
    let s := s.beginSave crew
    (s.crew? crew).bind fun c =>
      if !s.saveReady crew c then none
      else if (s.linesOf crew).any fun e => !(s.wcOf e.1).isEmpty then
        some ((s.linesOf crew).foldl (init := s) fun s e => s.markDraining e.1)
      else
        let held := s.savesHeld crew c 4096 c.saveUnits
        some (if held.isEmpty then s.saveCrewNow crew c else s.snoop held)
  | .crewRestore crew tile, s =>
    (s.crew? crew).bind fun c =>
      if !s.mayRestore crew c tile then none
      else
        match s.readArea crew c c.saveUnits [] with
        | (none, _) => none
        | (some m, s) => some (comesBack s crew tile c m)
  | .remapLateWrite crew off bytes, s =>
    (s.crew? crew).bind fun c =>
      if !c.displaced then none
      else
        let ops := s.tiles.flatMap fun (e : Nat × Tile) =>
          (e.2.copies.filter fun x => x.2.crew == crew).map fun (x : Nat × CopyOp) => (e.1, x.1, x.2)
        (ops.find? fun (x : Nat × Nat × CopyOp) => s.lateSegment x.2.2 c == some (off, bytes.length)).bind fun x =>
          let t := s.copyStep x.1 x.2.1 x.2.2 c
          if Memory.readBytes t.mem.mem (spadPa crew off) bytes.length = bytes then some t else none
  | .porterLineMove, s =>
    match s.tier.migrations with
    | m :: _ => under (m.failed.isNone && decide (128 * m.moved < m.size)) (s.moveLine m)
    | [] => none
  | .migrationComplete, s =>
    match s.tier.migrations with
    | [] => none
    | m :: ms =>
      let gone (s : State) : State := { s with tier := { s.tier with migrations := ms } }
      match m.failed with
      | some code => some ((gone (s.unfreeze m)).opEnded m.crew m.tl m.num code m.time)
      | none =>
        if 128 * m.moved < m.size then none
        else
          match s.leafNow m with
          | none => some ((gone (s.unfreeze m)).opEnded m.crew m.tl m.num codeXlate m.time)
          | some e =>
            let (t, s) := s.publish {} m.leafAt (leafAtFrame e m.dst) m.time
            let s := (s.shootDown m.leafAt).retarget m
            some ((gone (s.unfreeze m)).opEnded m.crew m.tl m.num 0 t)
  | _, _ => none

end Sys2Proof.Machine.Claim
end

