-- ==== Sys2Proof/Safety/Scalar.lean ====
section
/-! DEFINITION. How the scalar, packed, branch, flag and loop instructions end, each from its entry in the spec. -/

namespace Sys2Proof.Machine.Claim


/-- Integer results (Tables 3.4 and 3.5, R76 to R85): the destination takes this value. -/
def integerForm : Instr → Option Form
  | .clz p d a => some (writes p { src := [a] } d fun i =>
      if i.reg a = 0 then 64 else natWord (63 - Nat.log2 (i.reg a).toNat))
  | .ctz p d a => some (writes p { src := [a] } d fun i => natWord (trailZeros 64 (i.reg a).toNat))
  | .popc p d a => some (writes p { src := [a] } d fun i =>
      natWord ((List.range 64).filter fun n => (i.reg a).getLsbD n).length)
  | .brev p d a => some (writes p { src := [a] } d fun i => (i.reg a).reverse)
  | .abs p d a => some (writes p { src := [a] } d fun i => toWord (i.reg a).toInt.natAbs)
  | .mov p d a => some (writes p { src := [a] } d fun i => i.reg a)
  | .add p d a b => some (writes p { src := a :: srcRegs b } d fun i => i.reg a + i.src b)
  | .sub p d a b => some (writes p { src := a :: srcRegs b } d fun i => i.reg a - i.src b)
  | .mul p d a b => some (writes p { src := a :: srcRegs b } d fun i => i.reg a * i.src b)
  | .mulh p u d a b => some (writes p { src := a :: srcRegs b } d fun i =>
      if u then ((i.reg a).setWidth 128 * (i.src b).setWidth 128).extractLsb' 64 64
      else ((i.reg a).signExtend 128 * (i.src b).signExtend 128).extractLsb' 64 64)
  | .and p d a b => some (writes p { src := a :: srcRegs b } d fun i => i.reg a &&& i.src b)
  | .or p d a b => some (writes p { src := a :: srcRegs b } d fun i => i.reg a ||| i.src b)
  | .xor p d a b => some (writes p { src := a :: srcRegs b } d fun i => i.reg a ^^^ i.src b)
  | .andn p d a b => some (writes p { src := a :: srcRegs b } d fun i => i.reg a &&& ~~~(i.src b))
  | .shl p d a b => some (writes p { src := a :: srcRegs b } d fun i => i.reg a <<< ((i.src b).toNat % 64))
  | .shr p d a b => some (writes p { src := a :: srcRegs b } d fun i => i.reg a >>> ((i.src b).toNat % 64))
  | .sar p d a b => some (writes p { src := a :: srcRegs b } d fun i => (i.reg a).sshiftRight ((i.src b).toNat % 64))
  | .rot p d a b => some (writes p { src := a :: srcRegs b } d fun i => (i.reg a).rotateLeft ((i.src b).toNat % 64))
  | .min p u d a b => some (writes p { src := a :: srcRegs b } d fun i =>
      if u then (if (i.reg a).toNat ≤ (i.src b).toNat then i.reg a else i.src b)
      else if (i.reg a).toInt ≤ (i.src b).toInt then i.reg a else i.src b)
  | .max p u d a b => some (writes p { src := a :: srcRegs b } d fun i =>
      if u then (if (i.src b).toNat ≤ (i.reg a).toNat then i.reg a else i.src b)
      else if (i.src b).toInt ≤ (i.reg a).toInt then i.reg a else i.src b)
  | .bfx p g d a b => some (writes p { src := a :: srcRegs b } d fun i => bitExtract g (i.reg a) (i.fieldSpec b))
  | .bfi p d a b => some (writes p { src := d :: a :: srcRegs b } d fun i =>
      bitInsert (i.reg d) (i.reg a) (i.fieldSpec b))
  | .lea p n d a b => some (writes p { src := a :: srcRegs b } d fun i => i.reg a + i.src b * BitVec.ofNat 64 (2 ^ n.val))
  | .leaPc p d imm => some (writes p {} d fun i => i.t.pc.setWidth 64 + imm.signExtend 64)
  | .movi p d imm => some (writes p {} d fun _ => imm.signExtend 64)
  | .movi128 p d lo hi => some (writes p {} d (fun _ => hi ++ lo) 16)
  | .movhi p d imm => some (writes p { src := [d] } d fun i => imm ++ (i.reg d).extractLsb' 0 32)
  | .sel p d c a b => some (writes p { src := a :: srcRegs b } d fun i => if i.t.flag c then i.reg a else i.src b)
  | _ => none

/-- The operations with no effect but to retire (R35, R55). -/
def idleForm : Instr → Option Form
  | .pad => some { pred := ⟨false, 0⟩, len := 4, uses := {}, eff := fun _ s => some (.retire s) }
  | .nop p => some { pred := p, uses := {}, eff := fun _ s => some (.retire s) }
  | _ => none

/-- A result rounded once to the format the instruction names (R86, R87). -/
def rounded (single : Bool) (x : Num) : Word := wordOfNum (scalarFmt single) x

/-- A float source (R86). -/
def fsrc (single : Bool) (i : Issue) (r : Reg) : Num := numOfReg (scalarFmt single) (i.reg r)

/-- Float results (R86 to R88). -/
def floatForm : Instr → Option Form
  | .fadd p g d a b => some (writes p { src := [a, b] } d fun i => rounded g ((fsrc g i a).add (fsrc g i b)))
  | .fsub p g d a b => some (writes p { src := [a, b] } d fun i => rounded g ((fsrc g i a).sub (fsrc g i b)))
  | .fmul p g d a b => some (writes p { src := [a, b] } d fun i => rounded g ((fsrc g i a).mul (fsrc g i b)))
  | .ffma p g d a b c => some (writes p { src := [a, b, c] } d fun i =>
      rounded g ((fsrc g i a).fma (fsrc g i b) (fsrc g i c)))
  | .fmin p g d a b => some (writes p { src := [a, b] } d fun i =>
      natWord (minMaxRaw (scalarFmt g) true (rawOfReg (scalarFmt g) (i.reg a)) (rawOfReg (scalarFmt g) (i.reg b))))
  | .fmax p g d a b => some (writes p { src := [a, b] } d fun i =>
      natWord (minMaxRaw (scalarFmt g) false (rawOfReg (scalarFmt g) (i.reg a)) (rawOfReg (scalarFmt g) (i.reg b))))
  | _ => none

/-- A long operation: the value is computed at issue, the destination is pending until the result lands (R71, R72). -/
def startsLong (p : Pred) (u : Uses) (d : Reg) (f : Issue → Option Word) : Form :=
  { pred := p, uses := { u with dst := [d], pend := true },
    eff := fun i s => (f i).map fun v =>
      .retire (s.modThread i.k fun t => { t with pend := some { reg := d, pair := false }, longop := some v }) }

/-- The quotient and remainder of R78 as the integers they are: truncated division, the remainder with the dividend's sign. -/
def quotient (u : Bool) (x y : Word) : Word := if u then x / y else toWord (x.toInt.tdiv y.toInt)
def remainder (u : Bool) (x y : Word) : Word := if u then x % y else toWord (x.toInt.tmod y.toInt)

/-- The long operations (R71, R78, R87): a zero divisor of DIV and REM is no completion. -/
def longForm : Instr → Option Form
  | .div p u d a b => some (startsLong p { src := a :: srcRegs b } d fun i =>
      if i.src b = 0 then none else some (quotient u (i.reg a) (i.src b)))
  | .rem p u d a b => some (startsLong p { src := a :: srcRegs b } d fun i =>
      if i.src b = 0 then none else some (remainder u (i.reg a) (i.src b)))
  | .fdiv p g d a b => some (startsLong p { src := [a, b] } d fun i => some (rounded g ((fsrc g i a).div (fsrc g i b))))
  | .fsqrt p g d a => some (startsLong p { src := [a] } d fun i => some (rounded g (fsrc g i a).sqrt))
  | _ => none

/-- A packed form: it completes where EFMT names an accepted format (R283, R284). -/
def packs (p : Pred) (u : Uses) (d : Reg) (g : Fmt → Issue → Word) : Form :=
  { pred := p, uses := { u with dst := [d] },
    eff := fun i s =>
      match Fmt.ofCode i.t.efmt.toNat with
      | some f => if packable f then some (.retire (s.wr i.k d (g f i))) else none
      | none => none }

/-- The register whose element j is `g` of the sources' elements j. -/
def elementwise (g : Fmt → Nat → Nat → Nat) (a b : Reg) (f : Fmt) (i : Issue) : Word :=
  packWord f fun j => g f (packElem f (i.reg a) j) (packElem f (i.reg b) j)

/-- How two elements stand. -/
def packOrder (f : Fmt) (x y : Nat) : Option Ordering :=
  if f.isInt then some (compare (packInt f x) (packInt f y)) else (floatNum f x).cmp (floatNum f y)

/-- Packed instructions (R285 to R288). -/
def packedForm : Instr → Option Form
  | .efset p b => some
      { pred := p, uses := { src := srcRegs b },
        eff := fun i s =>
          let n := (i.src b).toNat
          if n < 256 ∧ (n = 0 ∨ (Fmt.ofCode n).any packable) then
            some (.retire (s.modThread i.k fun t => { t with efmt := BitVec.ofNat 8 n }))
          else none }
  | .padd p sat d a b => some (packs p { src := [a, b] } d (elementwise (packOp sat (· + ·) Num.add) a b))
  | .psub p sat d a b => some (packs p { src := [a, b] } d (elementwise (packOp sat (· - ·) Num.sub) a b))
  | .pmul p sat d a b => some (packs p { src := [a, b] } d (elementwise (packOp sat (· * ·) Num.mul) a b))
  | .pmin p d a b => some (packs p { src := [a, b] } d (elementwise (packPick true) a b))
  | .pmax p d a b => some (packs p { src := [a, b] } d (elementwise (packPick false) a b))
  | .pcmp p c d a b => some (packs p { src := [a, b] } d
      (elementwise (fun f x y => if fcondHolds c (packOrder f x y) then 2 ^ f.width - 1 else 0) a b))
  | .pabs p sat d a => some (packs p { src := [a] } d fun f i => packWord f fun j =>
      let x := packElem f (i.reg a) j
      if f.isInt then packResult f sat (packInt f x).natAbs else ((floatNum f x).setSign false).encode f)
  | .pshf p d a b => some (packs p { src := [a, b] } d fun f i => packWord f fun j =>
      let n := field (i.reg b).toNat (4 * j) 4
      if n < packCount f then packElem f (i.reg a) n else 0)
  | .pdot p d a b => some (packs p { src := [d, a, b] } d fun f i =>
      let js := List.range (packCount f)
      let x (j : Nat) : Nat := packElem f (i.reg a) j
      let y (j : Nat) : Nat := packElem f (i.reg b) j
      if f.isInt then i.reg d + toWord (js.map fun j => packInt f (x j) * packInt f (y j)).sum
      else
        let c := floatNum .f32 ((i.reg d).toNat % 2 ^ 32)
        match (c :: js.flatMap fun j => [floatNum f (x j), floatNum f (y j)]).find? Num.isNaN with
        | some n => natWord (n.encode .f32)
        | none => natWord ((Num.sum (c :: js.map fun j => (floatNum f (x j)).mul (floatNum f (y j)))).encode .f32))
  | _ => none

/-- A form that goes to a target: it completes where the target is a multiple of 4 (R92). -/
def goesTo (p : Pred) (u : Uses) (target : Issue → BitVec 56) (f : Issue → State → State) : Form :=
  { pred := p, uses := u,
    eff := fun i s => if (target i).toNat % 4 = 0 then some (.jump (target i) (f i s)) else none }

/-- A call: the link takes the address after it, and with .SV a register takes the old link (R95). -/
def calls (p : Pred) (u : Uses) (sv : Option Reg) (target : Issue → BitVec 56) : Form :=
  goesTo p { u with dst := sv.toList } target fun i s =>
    let s := match sv with
      | some d => s.wr i.k d (i.t.link.setWidth 64)
      | none => s
    s.modThread i.k fun t => { t with link := i.t.pc + 8 }

/-- Branches and calls (R92 to R95). -/
def branchForm : Instr → Option Form
  | .bra p imm => some (goesTo p {} (fun i => i.t.pc + imm.signExtend 56 * 4) fun _ s => s)
  | .brx p a => some (goesTo p { src := [a] } (fun i => (i.reg a).extractLsb' 0 56) fun _ s => s)
  | .call p sv imm => some (calls p {} sv fun i => i.t.pc + imm.signExtend 56 * 4)
  | .callx p sv a => some (calls p { src := [a] } sv fun i => (i.reg a).extractLsb' 0 56)
  | .ret p none => some (goesTo p {} (fun i => i.t.link) fun i s => s.modThread i.k fun t => { t with link := i.t.link })
  | .ret p (some a) => some (goesTo p { src := [a] } (fun i => (i.reg a).extractLsb' 0 56) fun i s =>
      s.modThread i.k fun t => { t with link := (i.reg a).extractLsb' 0 56 })
  | _ => none

/-- What opening a loop of `len` units and `count` trips does (R99): nothing is opened for a count of zero, the PC going past
the body; else level 0 opens, or level 1 inside it. -/
def opens (i : Issue) (s : State) (len count : Nat) : Option Effect :=
  let a := i.t.pc.toNat
  let stop := a + 8 + 4 * len
  if len = 0 ∨ a / 2 ^ 18 ≠ (a + 8) / 2 ^ 18 ∨ a / 2 ^ 18 ≠ (stop - 1) / 2 ^ 18 ∨ (i.t.lact0 ∧ i.t.lact1) ∨
      (i.t.lact0 ∧ i.t.loop0.stop a < stop) then none
  else if count = 0 then some (.jump (BitVec.ofNat 56 stop) s)
  else
    let l : LoopLevel :=
      { count := BitVec.ofNat 32 count, blen := BitVec.ofNat 16 len, bstart := BitVec.ofNat 16 ((a + 8) / 4) }
    some (.retire (s.modThread i.k fun t =>
      if i.t.lact0 then { t with loop1 := l, lact1 := true } else { t with loop0 := l, lact0 := true }))

/-- Hardware loops (R99 to R103). -/
def loopForm : Instr → Option Form
  | .loop p len count => some { pred := p, uses := {}, eff := fun i s => opens i s len.toNat count.toNat }
  | .loopg p a len => some
      { pred := p, uses := { src := [a] },
        eff := fun i s => opens i s len.toNat (max 0 (min (i.reg a).toInt (2 ^ 32 - 1))).toNat }
  | .lbrk p => some
      { pred := p, uses := { lbrk := true },
        eff := fun i s =>
          if i.t.lact1 then
            some (.jump (BitVec.ofNat 56 (i.t.loop1.stop i.t.pc.toNat)) (s.modThread i.k fun t => { t with lact1 := false }))
          else if i.t.lact0 then
            some (.jump (BitVec.ofNat 56 (i.t.loop0.stop i.t.pc.toNat)) (s.modThread i.k fun t => { t with lact0 := false }))
          else none }
  | .lbrkAll p => some
      { pred := p, uses := { lbrk := true },
        eff := fun i s =>
          if i.t.lact0 ∨ i.t.lact1 then
            some (.jump (BitVec.ofNat 56 (i.t.loop0.stop i.t.pc.toNat))
              (s.modThread i.k fun t => { t with lact0 := false, lact1 := false }))
          else none }
  | _ => none

/-- Flag instructions (R84, R89, R96 to R98). -/
def flagForm : Instr → Option Form
  | .cmp p c d a b => some (setsFlag p { src := a :: srcRegs b } d fun i => cmpHolds c (i.reg a) (i.src b))
  | .fcmp p c g d a b => some (setsFlag p { src := [a, b] } d fun i => fcondHolds c ((fsrc g i a).cmp (fsrc g i b)))
  | .fop p op d a b => some (setsFlag p {} d fun i => boolOp op (i.t.flag a) (i.t.flag b))
  | .fset p d v => some (setsFlag p {} d fun _ => v)
  | .fsetM p a mask => some
      { pred := p, uses := { src := [a] },
        eff := fun i s => some (.retire (s.modThread i.k fun t => { t with flags := flagsMasked t.flags (i.reg a) mask })) }
  | .fget p all d => some (writes p {} d fun i => natWord (if all then i.t.predWord else i.t.predWord % 256))
  | _ => none

end Sys2Proof.Machine.Claim
end

