-- ==== Sys2Proof/Safety/System.lean ====
section
/-! DEFINITION. How the system instructions end (R184, R192, R193, R202, R203). -/

namespace Sys2Proof.Machine.Claim

/-- The privilege a system register asks of a reader and of a writer (Table 8.2). -/
def readUses (d : Reg) (sel : BitVec 12) : Uses := { dst := [d], priv := sel == 0x0B0 || sel == 0x0B1 }
def writeUses (a : Reg) (sel : BitVec 12) : Uses := { src := [a], priv := sel == 0x070 || sel == 0x080 }

/-- A line that has made its change waits with kind 0 for a shootdown, then takes its destination, or fills the slot its bound g7
has reserved for it, and retires (R202, R203, R226). -/
def untilShot (i : Issue) (s : State) (dest : Option (Reg × Word)) (target : Word) : Effect :=
  let (slot, s) := dest.elim (none, s) fun d => i.reserve s d.1
  .hold (s.modThread i.k fun t =>
    { t.toWait 0 0 .shootdown with finish := some { dest := dest, len := 8, slot := slot }, target := target })

/-- A page-table entry is written at an address of global memory whose home neither faults nor delays it (R202): its old value
goes to gD, at once or after the shootdown. -/
def publishes (i : Issue) (s : State) (d a b : Reg) (shoot : Bool) : Option Effect :=
  let at_ := (i.reg a).toNat
  if at_ % 8 ≠ 0 then none
  else afterDraining i s fun s =>
    if s.homeFault (.phys at_) 0 ≠ 0 ∨ s.homeBusy (.phys at_) = true then none
    else
      let old := leNat (s.ownedBytes 0 at_ 8)
      let s := if s.entryAt at_ = (i.reg b).toNat then s else s.freeAttested at_
      let (t, s) := s.publish ((s.agent i.t).via .device 3) at_ (i.reg b).toNat ((s.thread? i.k).elim i.t.pts (·.pts))
      let s := s.modThread i.k fun x => x.raise t
      some (if shoot then untilShot i (s.dropTlb fun e => e.path.contains at_) (some (d, natWord old)) (i.reg a)
        else .retire (s.wr i.k d (natWord old)))

/-- The form of a CORECTL, by what it answers in gD and does: `f` gives the code and the state (R193). -/
def corectl (p : Pred) (d a : Reg) (f : Issue → State → Nat → Option (Word × State)) : Form :=
  { pred := p, uses := { src := [a], dst := [d], priv := true },
    eff := fun i s =>
      match coreTarget (i.reg a).toNat with
      | none => some (.retire (s.wr i.k d 2))
      | some c => (f i s c).map fun r => .retire (r.2.wr i.k d r.1) }

/-- A line that has asked for displacements waits with kind 0 for the save areas, then answers 0; the threads of the crews to be
displaced issue nothing more (R193, R194). -/
def untilSaved (i : Issue) (s : State) (d : Reg) (target : Word) (crews : List Nat) : Effect :=
  match answersLater i (s.modThread i.k fun t => { t with target := target }) d 0 .save with
  | .hold s => .hold (crews.foldl (init := s) fun s c => s.beginSave c)
  | e => e

/-- System instructions (R184, R192, R193, R202, R203). -/
def systemForm : Instr → Option Form
  | .sysr p d sel => some
      { pred := p, uses := readUses d sel,
        eff := fun i s => (s.sysRead i.crew i.c sel.toNat).map fun r =>
          .retire (r.2.wr i.k d (natWord r.1)) }
  | .sysw p sel a => some
      { pred := p, uses := writeUses a sel,
        eff := fun i s =>
          if sel = 0x070 then
            some (.retire (s.modTile i.c.tile fun t =>
              { t with lvint := min (max ((i.reg a).toNat % 2 ^ 21) 1024) 1048576 }))
          else if sel = 0x080 then some (.retire (s.setParlim i.c.tile (i.reg a)))
          else ((((s.crew? i.crew).getD i.c).keep s.clock).sysWrite sel.toNat (i.reg a)).map fun c => .retire (s.setCrew i.crew c) }
  | .xlpub p d a b => some
      { pred := p, uses := { src := [a, b], dst := [d], drains := true, priv := true },
        eff := fun i s => publishes i s d a b true }
  | .xlpubNs p d a b => some
      { pred := p, uses := { src := [a, b], dst := [d], drains := true, priv := true },
        eff := fun i s => publishes i s d a b false }
  | .xlinvAll p => some
      { pred := p, uses := { priv := true },
        eff := fun i s => some (untilShot i (s.dropTlb fun _ => true) none (1#64 <<< 63)) }
  | .xlinvOwn p a => some
      { pred := p, uses := { src := [a], priv := true },
        eff := fun i s =>
          if (i.reg a).toNat < 2 ^ 16 then some (untilShot i (s.dropTlb fun _ => true) none (1#64 <<< 63)) else none }
  | .svcsend p d a b => some
      { pred := p, uses := { src := [a, b], drains := true },
        eff := fun i s => afterDraining i s fun s =>
          let m := s.mender i.crew
          let r := s.ring m
          if s.ringBusy m then none
          else if r.room ∧ r.waiting.isEmpty then
            let t := (s.thread? i.k).getD i.t
            let ws := t.faultRecord { code := 0, addr := (i.reg a).toNat, data := (i.reg b).toNat }
            some (.retire ((s.ringPlace m ws t.pts).modThread i.k fun t => t.setFlag d true))
          else some (.retire (s.modThread i.k fun t => t.setFlag d false)) }
  | .corectlOut p d a => some (corectl p d a fun _ s c => some
      (if (s.core c).mappedOut then (1, s)
       else (0, (s.mapCoreOut c).emptyCore c)))
  | .corectlIn p d a => some (corectl p d a fun _ s c => some
      (if !(s.core c).mappedOut then (1, s)
       else
         let s' := { s with draws := s.draws + 1 }
         if Config.selfTest c s.draws then (0, (s'.modCore c (·.mapIn s.clock)).modTile (c / 8) fun x => { x with mappedOut := false })
         else (3, s')))
  | .corectlTout p d a => some
      { pred := p, uses := { src := [a], dst := [d], priv := true },
        eff := fun i s =>
          match coreTarget (i.reg a).toNat with
          | none => some (.retire (s.wr i.k d 2))
          | some c =>
            if (s.tile (c / 8)).mappedOut then some (.retire (s.wr i.k d 1))
            else if (s.crewsAt (c / 8)).isEmpty then some (.retire ((s.mapTileOut (c / 8)).wr i.k d 0))
            else some (untilSaved i s d (natWord (2 ^ 32 + c / 8)) (s.crewsAt (c / 8))) }
  | .corectlDisp p d a => some
      { pred := p, uses := { src := [a], dst := [d], priv := true },
        eff := fun i s =>
          match s.crew? (i.reg a).toNat with
          | none => some (.retire (s.wr i.k d 2))
          | some c =>
            if c.displaced then some (.retire (s.wr i.k d 1))
            else some (untilSaved i s d (natWord (i.reg a).toNat) [(i.reg a).toNat]) }
  | .corectlStat p d a => some (corectl p d a fun _ s c =>
      let x := s.core c
      let t := s.tile (c / 8)
      some (natWord (b2n (x.mappedOut || t.mappedOut) + 2 * b2n (x.failed || t.failed) + 4 * b2n t.halfRate), s))
  | _ => none

end Sys2Proof.Machine.Claim
end

