-- ==== Sys2Proof/Safety/Threads.lean ====
section
/-! DEFINITION. How barriers, timelines, messages, thread and queue instructions end (R137 to R146, R151 to R156, R170 to R180,
R232 to R237). -/

namespace Sys2Proof.Machine.Claim

/-- Barriers and timelines (R140 to R146). -/
def barrierForm : Instr → Option Form
  | .bara p d a => some
      { pred := p, uses := { dst := [d], drains := true },
        eff := fun i s => afterDraining i s fun s =>
          let pts := (s.thread? i.k).elim i.t.pts (·.pts)
          some (.retire ((s.modBarrier i.crew a fun b =>
            { b with nt := tmax b.nt pts, arrived := min (b.arrived + 1) 511 }).wr i.k d ((i.barrier s a).phase.setWidth 64))) }
  | .barw p a b => some
      { pred := p, uses := { src := [b] },
        eff := fun i s =>
          if (i.barrier s a).phase = (i.reg b).extractLsb' 0 16 then none
          else some (.retire (s.modThread i.k fun t => t.acquire (i.barrier s a).ct)) }
  | .barx p a b => some
      { pred := p, uses := { src := srcRegs b },
        eff := fun i s => some (.retire (s.modBarrier i.crew a fun x =>
          { x with pending := x.pending + (i.src b).extractLsb' 0 48 })) }
  | .barcfg p a b => some
      { pred := p, uses := { src := srcRegs b },
        eff := fun i s =>
          let v := (i.src b).toNat
          if 1 ≤ v ∧ v ≤ 256 then some (.retire (s.modBarrier i.crew a fun x => { x with expected := v })) else none }
  | .barcfgRd p d a => some
      { pred := p, uses := { dst := [d] }, eff := fun i s => some (.retire (s.wr i.k d (natWord (i.barrier s a).word))) }
  | .barcfgPb p d a => some
      { pred := p, uses := { dst := [d] },
        eff := fun i s => some (.retire (s.wr i.k d ((i.barrier s a).pending.signExtend 64))) }
  | .tlwait p d t b => some
      { pred := p, uses := { src := srcRegs b, dst := [d] },
        eff := fun i s =>
          let x := i.timeline s t
          let n := (i.src b).toNat
          if x.done.toNat < n then none
          else
            let s := s.modThread i.k fun y => y.acquire x.dt
            some (.retire
              (if x.failn ≠ 0 ∧ x.failn.toNat ≤ n then
                (s.modCrew i.crew fun c => c.setTimeline t { x with failn := 0, failc := 0, more := 0 }).wr i.k d
                  (natWord (x.failc.toNat + 2 ^ 8 * x.more.toNat + 2 ^ 16 * (x.failn.toNat % 2 ^ 48)))
               else s.wr i.k d 0)) }
  | .tlget p d t => some
      { pred := p, uses := { dst := [d] }, eff := fun i s => some (.retire (s.wr i.k d (i.timeline s t).done)) }
  | .tlgetI p d t => some
      { pred := p, uses := { dst := [d] }, eff := fun i s => some (.retire (s.wr i.k d (i.timeline s t).issued)) }
  | _ => none

/-- A flag told what happened, where the form names one, then the retirement. -/
def told (i : Issue) (s : State) (f : Option Reg) (v : Bool) : Effect :=
  match f with
  | some f => .retire (s.modThread i.k fun t => t.setFlag f v)
  | none => .retire s

/-- A SEND to a target of the task (R152): delivered, or with .T turned away by a full inbox. -/
def sends (i : Issue) (s : State) (f : Option Reg) (a b : Reg) : Option Effect :=
  afterDraining i s fun s =>
    match i.sendDest s (i.reg a) with
    | none => none
    | some (k, t) =>
      if s.inboxFull k t then (if f.isSome then some (told i s f false) else none)
      else
        let pts := (s.thread? i.k).elim i.t.pts (·.pts)
        let m : Msg := { payload := i.reg b, crew := i.crew, tidx := i.t.tidx.toNat, time := pts, launch := some i.c.launch }
        some (told i (((s.deliver k m).countSent i.c.launch).offerOf i.k 6 0 0 (i.reg a)) f true)

/-- Messages (R152 to R154). -/
def messageForm : Instr → Option Form
  | .send p a b => some
      { pred := p, uses := { src := [a, b], drains := true }, eff := fun i s => sends i s none a b }
  | .sendT p d a b => some
      { pred := p, uses := { src := [a, b], drains := true }, eff := fun i s => sends i s (some d) a b }
  | .recv p f id d => some
      { pred := p, uses := if id then { dstPair := [d] } else { dst := [d] },
        eff := fun i s =>
          match i.t.inbox with
          | [] => if f.isSome then some (told i s f false) else none
          | m :: ms =>
            let sender := natWord (sendObj m.crew m.tidx)
            let s := s.modThread i.k fun t => { t with inbox := ms }.acquire m.time
            let s := (((s.countRecv m.launch).wakeSenders i.k).offerOf i.k 6 1 0 sender).wr i.k d m.payload
            some (told i (if id then s.wr i.k (nextReg d) sender else s) f true) }
  | .chstat p d => some (writes p {} d fun i => natWord i.t.inbox.length)
  | .chstatD p d a => some
      { pred := p, uses := { src := [a], dst := [d] },
        eff := fun i s => some (.retire (s.wr i.k d
          (let (c, n) := i.destOf (i.reg a)
           let held := if (s.crew? c).isSome then (s.thread? (threadKey c n)).elim 0 (·.inbox.length) else 0
           natWord (held + if (i.resolveDest s (i.reg a)).isSome then 16 else 0)))) }
  | _ => none

/-- Threads and contexts (R171 to R180). -/
def threadForm : Instr → Option Form
  | .spawn p d a b => some
      { pred := p, uses := { src := [a, b], dst := [d], drains := true },
        eff := fun i s =>
          if (i.reg a).toNat % 4 ≠ 0 then none
          else afterDraining i s fun s =>
            match i.exitedSlot s with
            | none => some (.retire (s.wr i.k d (BitVec.allOnes 64)))
            | some n =>
              let t := (s.thread? i.k).getD i.t
              let k := threadKey i.crew n
              let old := (s.thread? k).getD Thread.reset
              let new := { spawned t n (i.reg a) (i.reg b) with unbound := old.unbound, landing := old.landing }
              let s := (s.setThread k new).putInn (i.c.tile / 24) k
              some (.retire (s.wr i.k d (natWord n))) }
  | .exit p => some
      { pred := p, uses := { drains := true },
        eff := fun i s => afterDraining i s fun s => if i.t.pend.isSome then none else some (.gone (s.exitLine i.k)) }
  | .yield p => some
      { pred := p, uses := {},
        eff := fun i s => some (.gone ((s.retireAt i.k 8).modThread i.k fun t =>
          if t.st = .ready then { t.toWait 15 0 .nothing with yieldAt := s.clock } else t)) }
  | .wait p => some
      { pred := p, uses := { drains := true },
        eff := fun i s =>
          if i.t.pend.isSome then none
          else afterDraining i s fun s => some (.retire (s.modThread i.k fun t => t.acquire t.pts)) }
  | .park p => some
      { pred := p, uses := {},
        eff := fun i s => some
          (if i.t.token then .retire (s.modThread i.k fun t => { t.acquire t.wt with token := false })
           else if i.t.stepb then .retire s
           else .gone (s.modThread i.k fun t => { (t.fallThrough 8).clearWait with st := .parked })) }
  | .wake p f a => some
      { pred := p, uses := { src := [a], drains := true },
        eff := fun i s => afterDraining i s fun s =>
          match i.resolveDest s (i.reg a) with
          | none => none
          | some (k, t) =>
            let pts := (s.thread? i.k).elim i.t.pts (·.pts)
            some (told i ((if t.st == .parked then s.wakeParked k pts
              else s.modThread k fun t => { t with token := true, wt := tmax t.wt pts }).late (crewOf k) 0) f
              (t.st == .parked)) }
  | .self p v d => some (writes p {} d fun i =>
      match v with
      | .idx => i.t.tidx.setWidth 64
      | .crew => i.t.crewn.setWidth 64
      | .task => i.t.gtid
      | .size => natWord i.c.decl.threads
      | .inst => natWord i.c.inst)
  | .mbxr p d b => some
      { pred := p, uses := { src := srcRegs b, dst := [d] },
        eff := fun i s =>
          if (i.src b).toNat < 32 then some (.retire (s.wr i.k d (i.c.mailbox.getD (i.src b).toNat 0))) else none }
  | .evict p => some
      { pred := p, uses := {},
        eff := fun i s => some (.gone (match i.t.entryCore with
          | some c => (s.retireAt i.k 8).checkOutInn i.k c
          | none => s.retireAt i.k 8)) }
  | .evictMem p => some
      { pred := p, uses := {}, eff := fun i s => some (.gone ((s.retireAt i.k 8).modThread i.k fun t => t.checkOut .memory)) }
  | .pin p d => some
      { pred := p, uses := {},
        eff := fun i s =>
          let room := match i.t.entryCore with
            | some c => decide (((s.entriesOf c).filter fun e => e.2.pin).length < pinAllowance (s.tile (c / 8)).parlim)
            | none => false
          some (told i (if !i.t.pin && room then s.modThread i.k fun t => { t with pin := true } else s) (some d)
            (i.t.pin || room)) }
  | .pinU p => some
      { pred := p, uses := {}, eff := fun i s => some (.retire (s.modThread i.k fun t => { t with pin := false })) }
  | .ctxrd p d a w => some
      { pred := p, uses := { src := [a], dst := [d], pend := true, priv := true },
        eff := fun i s =>
          match i.targetOf s (i.reg a) with
          | none => none
          | some (_, t) => some (.retire (s.modThread i.k fun x =>
              { x with pend := some { reg := d, pair := false }, longop := some (t.word w) })) }
  | .ctxwr p a c w => some
      { pred := p, uses := { src := [a, c], priv := true },
        eff := fun i s =>
          match i.targetOf s (i.reg a) with
          | none => none
          | some (k, t) =>
            if t.st = .parked ∨ t.st = .faulted ∨ t.st = .trapped ∨ t.st = .debugStopped then
              some (.retire (s.setThread k (t.merge w (i.reg c)))) else none }
  | _ => none

/-- Queues (R233 to R237). -/
def queueForm : Instr → Option Form
  | .qcfg p q b => some
      { pred := p, uses := { src := srcRegs b },
        eff := fun i s =>
          let v := (i.src b).toNat
          if i.c.hasQueue q ∧ 1 ≤ v ∧ v ≤ 16 ∧ (i.queue s q).inFlight = 0 then
            some (.retire ((s.forgetQueue i.crew q).modQueue i.crew q fun x =>
              { Queue.reset with limit := v, reserved := x.reserved, removed := x.removed + x.count }))
          else none }
  | .qbindPop p q => some
      { pred := p, uses := {},
        eff := fun i s => if i.c.hasQueue q then
          some (.retire (s.modThread i.k fun t => { t with popq := q, popv := true })) else none }
  | .qbindPush p q => some
      { pred := p, uses := {},
        eff := fun i s => if i.c.hasQueue q then
          some (.retire (s.modThread i.k fun t => { t with pushq := q, pushv := true })) else none }
  | .qbindUpop p => some
      { pred := p, uses := {}, eff := fun i s => some (.retire (s.modThread i.k fun t => { t with popv := false })) }
  | .qbindUpush p => some
      { pred := p, uses := {}, eff := fun i s => some (.retire (s.modThread i.k fun t => { t with pushv := false })) }
  | .qstat p d q => some
      { pred := p, uses := { dst := [d] },
        eff := fun i s => some (.retire (s.wr i.k d (if i.c.hasQueue q then natWord (i.queue s q).word else 0))) }
  | .qdrain p q => some
      { pred := p, uses := {},
        eff := fun i s =>
          if i.c.hasQueue q ∧ (i.t.drain.filter (·.1 == q)).elim (i.queue s q).reserved (·.2) ≤ (i.queue s q).removed then
            some (.retire (s.modThread i.k fun t => { t with drain := none })) else none }
  | .qpeek p d q b => some
      { pred := p, uses := { src := srcRegs b, dst := [d] },
        eff := fun i s =>
          let n := (i.src b).toNat
          let x := i.queue s q
          let y := x.slot (x.head + n)
          if i.c.hasQueue q ∧ n ≤ 15 ∧ x.filledAt n = true ∧ !y.fault then some (.retire (s.wr i.k d y.val)) else none }
  | _ => none

end Sys2Proof.Machine.Claim
end

