-- ==== Sys2Proof/Safety/Work.lean ====
section
/-! DEFINITION. How the launch, work-list, tier, meter, attestation, trace and debug instructions end (R207 to R218, R394 to
R400, R404 to R417), and the instructions whose own effect is a trap. -/

namespace Sys2Proof.Machine.Claim

/-- A value is written and the instruction retires. -/
def gives (i : Issue) (s : State) (d : Reg) (v : Word) : Effect := .retire (s.wr i.k d v)

/-- A launch whose record and tables have been read: accepted under the lowest free pending entry, which gD names, or refused
with the reason; the line waits until gD is written (R394). -/
def launches (i : Issue) (s : State) (d : Reg) (va : Nat) (w : List Nat) (graph : Option (List Node × List Edge)) : Effect :=
  let t := (s.thread? i.k).getD i.t
  let parent := Map.get? s.work.launches i.c.launch
  let depth := 1 + parent.elim 0 (·.depth)
  let limit := min (parent.elim 24 (·.limit)) (recLimit w)
  let r := s.refusal w graph i.c.task.gtid s.freePend.isNone t.privl depth limit
  match s.freePend, graph with
  | some e, some (ns, es) =>
    if r ≠ 0 then answersLater i s d (natWord (2 ^ 63 + r)) .reply
    else
      let own := field (w.getD 0 0) 8 4
      let prio := if t.privl then own else max own i.c.prio
      let l := newLaunch w i.c.task prio t.pts (ns.map fun n => { n with prio := prio }) es
      let s := s.countSent i.c.launch
      let (n, s) := s.accept { l with recordVa := va, depth := depth, limit := limit, parent := some i.c.launch,
                                      entry := some e, crew := i.crew }
      let p : PendEntry :=
        { launch := n, crew := i.crew, ended := false, et := 0, result := 0, joined := false, crewGone := false }
      answersLater i { s with work := { s.work with pend := Map.put s.work.pend e p } } d (natWord e) .reply
  | _, _ => answersLater i s d (natWord (2 ^ 63 + r)) .reply

/-- A read of the line's own that binds at once (R110). -/
def readsNow (i : Issue) (s : State) (va n unit : Nat) : Option (List Byte × State) :=
  match s.readNow i.k va n unit with
  | (.ok bs, s) => some (bs, s)
  | (.error _, _) => none

/-- A launch that has ended is joined: gD takes its result, the line acquires its end time, and its entry is free (R395). -/
def joinsLaunch (i : Issue) (s : State) (d a : Reg) (test : Bool) : Option Effect :=
  match i.pendOf s (i.reg a) with
  | none => none
  | some (e, p) =>
    if !p.ended then (if test then some (gives i s d (1#64 <<< 63)) else none)
    else some (gives i ((s.modThread i.k fun t => t.acquire p.et).freeEntryOf e p) d p.result)

/-- A launch's nodes take a priority, no better than the crew's own for a user thread (R397). -/
def sets (i : Issue) (s : State) (d : Reg) (launch v : Nat) : Option Effect :=
  if 15 < v then none
  else
    let v := if i.t.privl then v else max v i.c.prio
    some (gives i (s.modLaunch launch fun l => { l with prio := v, nodes := l.nodes.map fun n => { n with prio := v } }) d
      (natWord ((Map.get? s.work.launches launch).elim 0 (·.prio))))

/-- Launches and work lists (R394 to R400). -/
def workForm : Instr → Option Form
  | .launch p d a => some
      { pred := p, uses := { src := [a], dst := [d], drains := true },
        eff := fun i s =>
          let va := vaOf (i.reg a)
          if va % 256 ≠ 0 then none
          else afterDraining i s fun s =>
            (readsNow i s va 256 128).bind fun (bs, s) =>
              let w := wordsOf bs
              (readsNow i s (vaBits (w.getD 1 0)) (64 * recNodes w) 128).bind fun (ns, s) =>
                (readsNow i s (vaBits (w.getD 3 0)) (8 * recEdges w) 128).map fun (es, s) =>
                  launches i s d va w (if recordSound w false then graphOf 0 ns es else none) }
  | .join p d a => some { pred := p, uses := { src := [a], dst := [d] }, eff := fun i s => joinsLaunch i s d a false }
  | .joinT p d a => some { pred := p, uses := { src := [a], dst := [d] }, eff := fun i s => joinsLaunch i s d a true }
  | .done p => some
      { pred := p, uses := { drains := true },
        eff := fun i s => afterDraining i s fun s =>
          if i.t.pend.isSome then none
          else
            let s := ((s.linesOf i.crew).filter fun e => e.1 != i.k).foldl (init := s) fun s e => s.terminate e.1
            some (.gone ((s.modCrew i.crew fun c => { c with terminated := true }).exitLine i.k)) }
  | .prio p d a b => some
      { pred := p, uses := { src := a :: srcRegs b, dst := [d] },
        eff := fun i s => (i.pendOf s (i.reg a)).bind fun e => sets i s d e.2.launch (i.src b).toNat }
  | .prioSelf p d b => some
      { pred := p, uses := { src := srcRegs b, dst := [d] },
        eff := fun i s => sets i s d i.c.launch (i.src b).toNat }
  | .wladd p d a => some
      { pred := p, uses := { src := [a], dst := [d], drains := true },
        eff := fun i s =>
          if !i.holdsList s then none
          else afterDraining i s fun s =>
            let pts := (s.thread? i.k).elim i.t.pts (·.pts)
            some (if 1024 ≤ (s.tile i.c.tile).wl.length then gives i s d 1
              else gives i (s.modTile i.c.tile fun t => { t with wl := t.wl ++ [(i.reg a, pts)] }) d 0) }
  | .wltake p d c => some
      { pred := p, uses := { dst := [d] },
        eff := fun i s =>
          if !i.holdsList s then none
          else
            match (s.tile i.c.tile).wl.getLast? with
            | none => some (.retire (s.modThread i.k fun t => t.setFlag c false))
            | some e =>
              let s := s.modTile i.c.tile fun t => { t with wl := t.wl.dropLast }
              some (gives i (s.modThread i.k fun t => (t.acquire e.2).setFlag c true) d e.1) }
  | .wlcfg p d => some
      { pred := p, uses := { dst := [d] },
        eff := fun i s =>
          match (s.tile i.c.tile).wlHolder with
          | none => some (gives i (s.modTile i.c.tile fun t =>
              { t with wlHolder := some (i.c.launch, i.c.node), wl := [], wlEn := false, wlThresh := 0, wlMaxmv := 0 }) d 0)
          | some h => some (gives i s d (if h = (i.c.launch, i.c.node) then 0 else 1)) }
  | .wlcfgRel p d => some
      { pred := p, uses := { dst := [d] },
        eff := fun i s =>
          if !i.holdsList s then some (gives i s d 1)
          else if (s.tile i.c.tile).wl.isEmpty then some (gives i (s.modTile i.c.tile fun t =>
              { t with wlHolder := none, wl := [], wlEn := false, wlThresh := 0, wlMaxmv := 0 }) d 0)
          else some (gives i s d 2) }
  | .wlcfgSt p d => some
      { pred := p, uses := { dst := [d] },
        eff := fun i s => some (gives i s d (natWord ((s.tile i.c.tile).wlWord (i.c.launch, i.c.node)))) }
  | .lvcfg p b => some
      { pred := p, uses := { src := srcRegs b },
        eff := fun i s =>
          let v := (i.src b).toNat
          if !i.holdsList s ∨ 2 ^ 21 ≤ v then none
          else some (.retire (s.modTile i.c.tile fun t =>
            { t with wlEn := bitAt v 0, wlThresh := field v 1 10, wlMaxmv := field v 11 10 })) }
  | _ => none

/-- A meter of Table 9.4 (R215). -/
def reads (p : Pred) (d : Reg) (b : Src) (f : Tier → Map Nat) : Form :=
  { pred := p, uses := { src := srcRegs b, dst := [d] },
    eff := fun i s =>
      if (i.src b).toNat < 64 then some (gives i s d (natWord (Map.getD (f s.tier) (i.src b).toNat 0))) else none }

/-- A signed report is written at an aligned buffer the line may write and has no buffered store to, once for each of the 2^40
sequence numbers; the line waits for the signature (R216). -/
def signs (p : Pred) (d a b : Reg) (final : Bool) : Form :=
  { pred := p, uses := { src := [a, b], dst := [d], seq := true, priv := true },
    eff := fun i s =>
      let va := vaOf (i.reg a)
      if va % 8192 ≠ 0 then none
      else
        match s.resolve (s.agent i.t) va 8192 .write with
        | (.error _, _) => none
        | (.ok x, s') =>
          if 2 ^ 40 ≤ s'.tier.seq then some (gives i s' d 1)
          else if s'.wcHolds i.k ((List.range 128).map fun n => { x with target := x.target.plus (64 * n), bytes := 64 }) then
            none
          else
            match s'.writeNow i.k va 128 (s.tier.reportBuffer (i.reg b) final) with
            | (.error _, _) => none
            | (.ok _, s) => some (answersLater i
                { s with tier := { s.tier with seq := s.tier.seq + 1, locked := s.tier.locked || final } } d 0 .reply) }

/-- Tiers, keys, meters and attestation (R207 to R218). -/
def tierForm : Instr → Option Form
  | .mapout p d a => some
      { pred := p, uses := { src := [a], dst := [d], drains := true, priv := true },
        eff := fun i s =>
          let pa := (i.reg a).toNat
          if 3 < pa / 2 ^ 48 ∨ !physPopulated pa then some (gives i s d 2)
          else if s.windowOut pa then some (gives i s d 1)
          else afterDraining i s fun s =>
            let (lost, s) := s.choose
            let lost := lost && s.windowCached pa
            let h := houseOf pa
            let s := { s with mem := { s.mem with out := s.mem.out ++ [layerWindow pa] } }
            let ev := h + 2 ^ 4 * field pa 36 2 + 2 ^ 6 * field pa 32 4 + 2 ^ 10 * b2n lost
            some (gives i { s with tier := { s.tier with
              events := s.tier.events ++ [(h, natWord ev, natWord (s.houseCap h))] } } d 0) }
  | .migr p d a b t => some
      { pred := p, uses := { src := [a, b], dst := [d], priv := true },
        eff := fun i s =>
          let va := vaOf (i.reg a)
          let dst := (i.reg b).toNat
          match (if va / 2 ^ 52 ≤ 7 then s.translate (s.agent i.t).tile (s.agent i.t).root va else (none, s)) with
          | (none, _) => none
          | (some e, s') =>
            let leaf := e.leaf.toNat
            if (!pteG leaf && pteOwner leaf != (s.agent i.t).owner) ∨ !s'.frameOk dst e.size then none
            else
              let num := (s'.crew? i.crew).elim 0 fun c => (c.timeline t).issued + 1
              let s' := s'.modCrew i.crew fun c => c.setTimeline t { c.timeline t with issued := num }
              let m : Migration :=
                { crew := i.crew, tl := t, num := num, time := i.t.pts, va := e.va, leafAt := e.path.head?.getD 0,
                  leaf := e.leaf, size := e.size, src := pteFrame leaf, dst := dst, moved := 0, failed := none }
              some (gives i { s' with tier := { s'.tier with migrations := s'.tier.migrations ++ [m] } } d num) }
  | .wsld p d a b c => some
      { pred := p, uses := { src := [a, b, c], dst := [d], drains := true, priv := true },
        eff := fun i s =>
          let va := vaOf (i.reg a)
          let off := (i.reg b).toNat
          let n := (i.reg c).toNat
          if (wsldRange va off n).isSome then none
          else
            match s.resolveAll (s.agent i.t) va .read (pieces 128 va (n / 128 + 2) n) with
            | (.error _, _) => none
            | (.ok ps, s) =>
              if ps.any fun x => match x.target with
                  | .phys _ => false
                  | _ => true then none
              else if s.wsBarred (s.agent i.t) off n = true then none
              else afterDraining i s fun s =>
                if (ps.any fun x => s.homeBusy x.target) ∨ s.mem.wsWrite.isSome then none
                else
                  let pts := (s.thread? i.k).elim i.t.pts (·.pts)
                  let (f, t, s) := State.wsLines (s.tileOfLine i.t) ps off pts s
                  let s := { s with mem := { s.mem with wsWrite := some (off, n) } }
                  some (answersLater i (s.modThread i.k fun x => x.raise t) d (natWord f) .wsld) }
  | .keyset p d a b => some
      { pred := p, uses := { src := [a, b], dst := [d], seq := true, priv := true },
        eff := fun i s =>
          let o := (i.reg a).toNat
          if 2 ^ 16 ≤ o then none
          else if o = 0 then some (gives i s d 2)
          else if (i.reg b).toNat % 64 ≠ 0 then none
          else if s.keyPresent o then some (gives i s d 3)
          else if 4096 ≤ s.mem.keys.length + 1 then some (gives i s d 1)
          else (readsNow i s (vaOf (i.reg b)) 64 128).map fun (bs, s) =>
            let k := leNat bs
            let s := if (Map.get? s.mem.lastKeys o).elim false (· != k) then s.garble o else s
            gives i { s with mem := { s.mem with keys := Map.put s.mem.keys o k,
                                                 lastKeys := Map.put s.mem.lastKeys o k } } d 0 }
  | .keysetDel p d a => some
      { pred := p, uses := { src := [a], dst := [d], priv := true },
        eff := fun i s =>
          let o := (i.reg a).toNat
          if 2 ^ 16 ≤ o then none
          else if o = 0 then some (gives i s d 2)
          else if s.keyInUse o then none
          else some (gives i { s with mem := { s.mem with keys := Map.del s.mem.keys o } } d 0) }
  | .metrd p d b => some (reads p d b (·.bytes))
  | .metrdN p d b => some (reads p d b (·.reads))
  | .metsign p d a b => some (signs p d a b false)
  | .metsignFinal p d a b => some (signs p d a b true)
  | .attest p d a b => some
      { pred := p, uses := { src := [a, b], dst := [d], seq := true, priv := true },
        eff := fun i s =>
          let va := vaOf (i.reg a)
          let n := (i.reg b).toNat
          match s.freeAttest with
          | none => some (gives i s d (BitVec.allOnes 64))
          | some e =>
            if va % 4 ≠ 0 ∨ n % 4 ≠ 0 ∨ n < 4 ∨ 2 ^ 24 < n ∨ 8 * 2 ^ 52 < va + n then
              some (gives i s d (BitVec.allOnes 64))
            else
              let ag := s.agent i.t
              match s.attestParts ag va (pieces 128 va (n / 128 + 2) n) with
              | (.error none, s) => some (gives i s d (BitVec.allOnes 64))
              | (.error (some _), _) => none
              | (.ok ps, s) =>
                if s.partsFault ps ≠ 0 ∨ (ps.any fun x => s.homeBusy x.target) then none
                else
                  let (bs, t, s) := s.loadParts ag.tile 3 i.t.pts ps
                  let bs := s.overlayAll i.k (ps.flatMap halves) bs
                  let x : Attested :=
                    { hash := leNat (sha256 bs), va := va, len := n, gtid := i.c.task.gtid, root := i.c.task.xlroot }
                  let s := { s with tier := { s.tier with attested := Map.put s.tier.attested e x } }
                  some (gives i (s.modThread i.k fun y => y.acquire t) d (natWord e)) }
  | .attestRev p d a => some
      { pred := p, uses := { src := [a], dst := [d], priv := true },
        eff := fun i s => some (gives i
          { s with tier := { s.tier with attested := Map.del s.tier.attested ((i.reg a).toNat % 256) } } d 0) }
  | _ => none

/-- A write of the trigger unit's state that passes the checks of Table 24.3: the change awaits the end of the cycle (R416). -/
def triggers (p : Pred) (d : Reg) (src : List Reg) (ok : Issue → State → Bool) (f : Issue → TrigChange) : Form :=
  { pred := p, uses := { src := src, dst := [d], priv := true },
    eff := fun i s =>
      if ok i s then some (gives i { s with dbg := { s.dbg with later := s.dbg.later ++ [f i] } } d 0) else none }

/-- The core a target word names, where its bits 63:11 are zero (R415). -/
def slotReads (p : Pred) (d a : Reg) (n : Nat) (clear : Bool) : Form :=
  { pred := p, uses := { src := [a], dst := [d], priv := true },
    eff := fun i s =>
      if 2 ^ 11 ≤ (i.reg a).toNat ∨ (Core.reset.counter n).isNone then none
      else
        match coreTarget (i.reg a).toNat with
        | none => some (answersLater i s d 0 .reply)
        | some c =>
          let s := s.catchUp c
          some (answersLater i (if clear then s.modCore c fun x => x.clearCounter n else s) d
            (((s.core c).counter n).getD 0) .reply) }

/-- A condition word of Table 24.3 with its unassigned bits zero. -/
def condOk (v : Word) : Bool := decide (v.toNat % 16 < 4 ∧ field v.toNat 7 9 = 0 ∧ v.toNat < 2 ^ 32)

/-- Trace and debug (R404, R415 to R417). -/
def traceForm : Instr → Option Form
  | .trace p code a => some
      { pred := p, uses := { src := [a] }, eff := fun i s => some (.retire (s.offerOf i.k 0 0 code.toNat (i.reg a))) }
  | .lclk p d => some (writes p {} d fun i => i.t.pts.setWidth 64)
  | .lclkAcq p d => some (writes p {} d fun i => i.t.acq.setWidth 64)
  | .sample p d a => some
      { pred := p, uses := { src := [a], dst := [d], priv := true },
        eff := fun i s =>
          if 2 ^ 11 ≤ (i.reg a).toNat then none
          else
            match coreTarget (i.reg a).toNat with
            | none => some (answersLater i s d 0 .reply)
            | some c =>
              if (s.core c).mappedOut || (s.tile (c / 8)).mappedOut then some (answersLater i s d 0 .reply)
              else
                let r := i.sampleWord s c
                some (answersLater i r.2 d (natWord r.1) .reply) }
  | .trigsetBuf p d a b => some (triggers p d [a, b]
      (fun i s => (i.reg a).toNat == 0 || (ringSizeOk (i.reg b).toNat && s.ringOk (i.reg a).toNat (i.reg b).toNat))
      fun i => .buf (i.reg a).toNat (i.reg b).toNat)
  | .trigsetStart p d a => some (triggers p d [a] (fun i _ => condOk (i.reg a)) fun i => .start (i.reg a))
  | .trigsetStop p d a => some (triggers p d [a] (fun i _ => condOk (i.reg a)) fun i => .stop (i.reg a))
  | .trigsetBp p d a b slot => some (triggers p d [a, b]
      (fun i _ => decide ((i.reg b).toNat % 4 = 0 ∧ field (i.reg b).toNat 56 6 = 0))
      fun i =>
        let r := (i.reg b).toNat
        .bp slot { gtid := i.reg a, pc := (i.reg b).extractLsb' 0 56, en := bitAt r 63, stop := bitAt r 62 })
  | .trigsetMask p d a => some (triggers p d [a] (fun i _ => decide ((i.reg a).toNat < 256))
      fun i => .mask ((i.reg a).extractLsb' 0 8 &&& 0xF9#8))
  | .trigsetSt p d => some
      { pred := p, uses := { dst := [d], priv := true }, eff := fun i s => some (gives i s d (natWord s.dbg.settled.statWord)) }
  | .slotrd p d a n => some (slotReads p d a n.toNat false)
  | .slotrdClr p d a n => some (slotReads p d a n.toNat true)
  | _ => none

/-- The instructions whose own effect is a user trap: the code and INFO (R53, R182, R414). -/
def trapForm : Instr → Option Form
  | .illegal => some { pred := ⟨false, 0⟩, uses := {}, eff := fun _ _ => some (.trap { code := 0x01 }) }
  | .trap p n => some { pred := p, uses := {}, eff := fun _ _ => some (.trap { code := codeTrap, info := n.toNat }) }
  | .bkpt p n => some { pred := p, uses := {}, eff := fun _ _ => some (.trap { code := codeBkpt, info := n.toNat }) }
  | _ => none

/-- Return from a trap (R187): a valid record whose PC is a multiple of 4; the record's VALID bit is cleared by a store. -/
def returnForm : Instr → Option Form
  | .tret p => some
      { pred := p, uses := { src := [1, 2], dst := [1, 2], seq := true },
        eff := fun i s =>
          let at_ := recordVa i.c i.t
          if s.recordHeld i.k i.t then none
          else (readsNow i s at_ 64 8).bind fun (bs, s) =>
            let w (n : Nat) : Nat := leNat (slice bs (8 * n) 8)
            if !bitAt (w 0) 8 ∨ w 1 % 4 ≠ 0 then none
            else
              match s.writeNow i.k at_ 8 (natBytes 8 (w 0 - 2 ^ 8)) with
              | (.error _, _) => none
              | (.ok _, s) =>
                some (.jump (BitVec.ofNat 56 (w 1)) (s.modThread i.k fun t =>
                  ((t.setReg 1 (natWord (w 5))).setReg 2 (natWord (w 6))).setQb (w 7 % 2 ^ 8))) }
  | _ => none

end Sys2Proof.Machine.Claim
end

