-- ==== Sys2Proof/Safety/Frames.lean ====
section
/-! DEFINITION. The form of every instruction with an encoding, and the terms in which claims say what an instruction leaves
alone: registers, flags, the crew's special registers, memory. -/

namespace Sys2Proof.Machine.Claim

/-- The forms of an instruction that is not a moment instruction, by the tables of its families. -/
def formsOf (x : Instr) : List Form :=
  [integerForm x, idleForm x, floatForm x, longForm x, packedForm x, branchForm x, loopForm x, flagForm x, memoryForm x,
   orderForm x, barrierForm x, messageForm x, threadForm x, queueForm x, elementForm x, vectorForm x, laneForm x,
   convertForm x, engineForm x, mangleForm x, tileForm x, arrayForm x, carrierForm x, hamperForm x, systemForm x,
   workForm x, tierForm x, traceForm x, trapForm x, returnForm x].filterMap id

/-- The form of an instruction whose crew's MCTL holds this value. -/
def formOf (mctl : Word) (x : Instr) : Option Form := ((momentForm mctl x).toList ++ formsOf x).head?

/-- The flags an instruction writes. -/
def flagsWritten : Instr → List Reg
  | .cmp _ _ d _ _ | .fcmp _ _ _ d _ _ | .fop _ _ d _ _ | .fset _ d _ | .sendT _ d _ _ | .pin _ d | .svcsend _ d _ _ => [d]
  | .fsetM _ _ mask => (List.finRange 8).filter fun n => mask.getLsbD n.val
  | .recv _ t _ _ | .wake _ t _ => t.toList
  | .wltake _ _ c => [c]
  | _ => []

/-! ### How an instruction that is not carried out ends -/

/-- The line takes a user trap instead of this instruction (R185). -/
def traps (s : State) (i : Issue) (code : Nat) (info : Nat := 0) (addr : Nat := 0) (detail : Nat := 0) : Out :=
  ends s i 8 (.trap { code := code, info := info, addr := addr, detail := detail })

/-- The instruction does not issue: the line waits on it with this kind and object. -/
def waits (s : State) (i : Issue) (kind obj : Nat) : Out := ends s i 8 (.wait kind obj .nothing id)

/-- The line stops with this system fault (R190). -/
def faults (s : State) (i : Issue) (code addr : Nat) : Out := ends s i 8 (.stop { code := code, addr := addr })

/-- The instructions that only a privileged thread may run (Tables 7.9, 8.1, 8.2, 9.1, 18.3, 24.6). -/
def privileged : Instr → Bool
  | .xlpub _ _ _ _ | .xlpubNs _ _ _ _ | .xlinvAll _ | .xlinvOwn _ _ | .corectlOut _ _ _ | .corectlIn _ _ _
  | .corectlTout _ _ _ | .corectlDisp _ _ _ | .corectlStat _ _ _ | .mapout _ _ _ | .migr _ _ _ _ _ | .wsld _ _ _ _ _
  | .keyset _ _ _ _ | .keysetDel _ _ _ | .metsign _ _ _ _ | .metsignFinal _ _ _ _ | .attest _ _ _ _ | .attestRev _ _ _
  | .ctxrd _ _ _ _ | .ctxwr _ _ _ _ | .cpstRes _ _ _ | .cpstEnd _ _ _ _ | .sample _ _ _ | .slotrd _ _ _ _
  | .slotrdClr _ _ _ _ | .trigsetBp _ _ _ _ _ | .trigsetStart _ _ _ | .trigsetStop _ _ _ | .trigsetBuf _ _ _ _
  | .trigsetMask _ _ _ | .trigsetSt _ _ => true
  | .sysr _ _ sel => sel == 0x0B0 || sel == 0x0B1
  | .sysw _ sel _ => sel == 0x070 || sel == 0x080
  | _ => false

/-! ### Fetch -/

/-- The line that issues, the bytes from its PC to the end of the fetch block that holds it, and the state its instruction
runs from: its PC translates, its task may run there (R219), and its core holds the block (R36, R93). -/
def fetches (s : State) : Option (Issue × List Byte × State) :=
  match issuing s with
  | none => none
  | some i =>
    match s.fetchAddr i.t with
    | (.error _, _) => none
    | (.ok p, s) =>
      if s.unattested i.t i.c 4 then none
      else
        match s.blockBytes i.t.entryCore p with
        | (none, _) => none
        | (some bs, s) => if s.wordUnattested i.t i.c bs then none else some (i, bs.drop (i.t.pc.toNat % 32), s)

/-- The first `n` of the bytes fetched lie in one fetch block (R34). -/
def inBlock (i : Issue) (bs : List Byte) (n : Nat) : Bool := decide (n ≤ bs.length ∧ i.t.pc.toNat % 32 + n ≤ 32)

/-! ### The line after the step -/

/-- The step answers a next state in which line `k` is as `P` says. -/
def leaves (o : Out) (k : Nat) (P : State → Thread → Prop) : Prop := ∃ t w, o = .next t ∧ t.thread? k = some w ∧ P t w

/-- The line has taken the entry of a user trap: its PC is its crew's handler, g1 and g2 name the trap and its record
(R185). -/
def enteredHandler (i : Issue) (w : Thread) : Bool :=
  decide (i.c.tvec ≠ 0 ∧ w.pc = BitVec.ofNat 56 i.c.tvec.toNat ∧ w.reg 2 = BitVec.ofNat 64 (recordVa i.c i.t))

/-! ### Special registers -/

/-- The crew's control registers that only SYSW writes (Tables 8.3, 13.6, 16.1, 17.2, 17.6). -/
def Controls (c : Crew) : List Word := [c.tvec, c.tarea, c.mctl, c.cvctl, c.acfg, c.mgspill]

/-- SYSW. -/
def isSysw : Instr → Bool
  | .sysw _ _ _ => true
  | _ => false

/-- The instructions that write CVSTAT at issue (R184, R249, R251, R252, R260, R330). -/
def writesCvstat : Instr → Bool
  | .sysw _ _ _ | .cvt _ _ _ _ _ _ _ | .vcvt _ _ _ _ _ _ _ | .cvstatClr _ _ | .ard _ _ _ _ _ _ _ _ => true
  | _ => false

/-- The instructions that write a window register (R184, R356). -/
def writesWindow : Instr → Bool
  | .sysw _ _ _ | .winset _ _ _ _ _ | .winsetCl _ _ => true
  | _ => false

/-- The instructions that write a handle (R269, R356). -/
def writesHandle : Instr → Bool
  | .hset _ _ _ | .winset _ _ _ _ _ => true
  | _ => false

/-- The instructions that write tile predicates, shapes, tile registers or accumulators at issue (R320 to R324, R330, R331). -/
def writesArray : Instr → Bool
  | .tset _ _ _ | .tld _ _ _ _ _ _ | .tzero _ _ | .ttrn _ _ _ | .tpred _ _ _ _ | .kop _ _ _ _ _ | .aclr _ _ | .ard _ _ _ _ _ _ _ _
  | .awr _ _ _ _ _ _ => true
  | _ => false

/-! ### Memory -/

/-- The instructions that store as they issue: batches and tables of the vector unit, accumulator reads, page-table entries,
records to menders, weight loads, reports; and those whose issue is a trap or a return from one. -/
def storesAtIssue (x : Instr) : Bool :=
  (elementForm x).isSome || (trapForm x).isSome || (returnForm x).isSome || match x with
    | .vbcast _ _ _ _ _ | .vperm _ _ _ _ _ _ | .vscan _ _ _ _ _ _ _ | .vtbl _ _ _ _ _ _ | .vcvt _ _ _ _ _ _ _
    | .ard _ _ _ _ _ _ _ _ | .xlpub _ _ _ _ | .xlpubNs _ _ _ _ | .svcsend _ _ _ _ | .wsld _ _ _ _ _
    | .keyset _ _ _ _ | .metsign _ _ _ _ | .metsignFinal _ _ _ _ => true
    | _ => false

/-- The instructions that may bring the save area of a displaced crew up to date: a wake of one of its threads, and what a
mender does with a held operation (R175, R343). -/
def maySaveLate : Instr → Bool
  | .wake _ _ _ | .cpstRes _ _ _ | .cpstEnd _ _ _ _ => true
  | _ => false

/-- No crew is displaced. -/
def noneAway (s : State) : Prop := ∀ n c, s.crew? n = some c → c.displaced = false

/-- The physical bytes of a piece of an access: none for a context line, or the weight store, which no store changes. -/
def bytesOf (p : Part) : Option (Nat × Nat) :=
  match p.target with
  | .phys pa => some (pa, pa + p.bytes)
  | .spad c off => some (spadPa c off, spadPa c off + p.bytes)
  | .ws _ | .ctx _ _ => none

/-- A store by `owner` to a piece leaves the 512-byte span of byte `a` as it is: the span is the owner's or nobody's, or it is
not the piece's (R205). -/
def spanKept (s : State) (p : Part) (owner a : Nat) : Prop :=
  match p.target with
  | .phys pa => (Map.get? s.mem.tags (a / 512)).all (· == owner) = true ∨ pa / 512 ≠ a / 512
  | .spad c off => (∀ x, s.crew? c = some x → x.spadOwner off = owner) ∨ spadPa c off / 512 ≠ a / 512
  | .ws _ | .ctx _ _ => True

/-- Byte `a` lies outside the pieces of a store by one owner, and in no span of another owner that the store takes over and
clears (R205). -/
def untouched (s : State) (ps : List Part) (owner a : Nat) : Prop :=
  ∀ p ∈ ps, p.attr.owner = owner ∧ spanKept s p owner a ∧ ∀ lo hi, bytesOf p = some (lo, hi) → ¬(lo ≤ a ∧ a < hi)

/-- Byte `a` lies in no span of a crew's scratchpad that another owner has written (R205). -/
def ownSpan (s : State) (crew a : Nat) : Prop :=
  ∀ x, s.crew? crew = some x → spadPa crew 0 ≤ a → x.spadOwner (a - spadPa crew 0) = x.task.owner

/-- Byte `a` lies outside the next record of a mender's ring, and in no span of another owner that the record takes over. -/
def offRing (s : State) (m a : Nat) : Prop :=
  let lo := (s.ring m).base + 64 * ((s.ring m).tail % Config.ringSize)
  ¬(lo ≤ a ∧ a < lo + 64) ∧
    (Map.get? s.mem.tags (a / 512) = some 0 ∨ (lo / 512 ≠ a / 512 ∧ (lo + 63) / 512 ≠ a / 512))

/-- Byte `a` lies outside every element of a handle in a crew's scratchpad. -/
def offElements (crew : Nat) (h : Handle) (a : Nat) : Prop :=
  ∀ n, ¬(spadPa crew (h.bytesOf n).1 ≤ a ∧ a < spadPa crew (h.bytesOf n).2)

/-- A range of a home cut at the lines of 128 bytes, as an engine writes it (R336). -/
def linesOf (p : Part) : List Part :=
  (pieces 128 p.target.pos (p.bytes / 128 + 2) p.bytes).map fun x => { p with target := p.target.plus x.1, bytes := x.2 }

/-- Where the words of a trap record go, one after another: byte `a` lies outside them (R185). -/
def offWords (k : Nat) : (va : Nat) → List Nat → State → (owner a : Nat) → Prop
  | _, [], _, _, _ => True
  | va, w :: ws, s, o, a =>
    (∀ t ps, s.thread? k = some t →
      (s.resolveAll (s.agent t) (va % 2 ^ 56) .write (pieces 8 (va % 2 ^ 56) 3 8)).1 = .ok ps → untouched s ps o a) ∧
      offWords k (va + 8) ws (s.writeNow k va 8 (natBytes 8 w)).2 o a

/-- The handles a conversion operation writes (R254, R255, R257 to R259). -/
def convWrites : Instr → List Nat
  | .qntk _ _ _ _ _ _ _ _ _ _ | .csrx _ _ _ _ _ _ _ _ _ => [0, 2, 3]
  | .qscl _ _ _ _ _ _ _ _ _ => [2, 3]
  | .dqnk _ _ _ _ _ _ _ _ _ _ _ | .csrd _ _ _ _ _ _ _ _ _ => [0]
  | _ => []

/-! ### Homes -/

/-- The times of a piece's home (R105, R106). -/
def leaseAt (s : State) (w : Target) : Lease :=
  match w with
  | .phys pa => s.lineLease (pa / 128)
  | .spad c off => (s.crew? c).elim Lease.zero (·.spanLease off)
  | .ws _ | .ctx _ _ => Lease.zero

/-- Where a piece in global memory or a scratchpad stands in physical memory. -/
def placeOf : Target → Nat
  | .phys pa => pa
  | .spad c off => spadPa c off
  | .ws off => wsBase + off
  | .ctx _ _ => 0

/-- The home is global memory, or the scratchpad of a crew that is there. -/
def homeIs (s : State) (w : Target) : Bool :=
  match w with
  | .phys _ => true
  | .spad c _ => (s.crew? c).any fun x => Map.sorted x.span
  | .ws _ | .ctx _ _ => false

/-- An address of the context space that leads to the line `k` (R27). -/
def ownLine (k va : Nat) : Bool :=
  let va := va % 2 ^ 56
  va / 2 ^ 52 == 0xA && threadKey (va / 2 ^ 15 % 2 ^ 20) (va / 2 ^ 7 % 2 ^ 8) == k

/-- A source register as an instruction sees it: a bound g6 is the entry at the head of its queue (R226). -/
def operand (i : Issue) (r : Reg) : Word :=
  if r = 6 ∧ i.t.popv = true then ((i.c.queue i.t.popq).slot (i.c.queue i.t.popq).head).val else i.t.reg r

/-- The destination handle of an instruction that writes a batch. -/
def batchDest : Instr → Option Reg16
  | .vadd _ _ _ x0 _ _ | .vsub _ _ _ x0 _ _ | .vmul _ _ _ x0 _ _ | .vfma _ _ _ x0 _ _ _ | .vdiv _ _ _ x0 _ _
  | .vmin _ _ _ x0 _ _ | .vmax _ _ _ x0 _ _ | .vabs _ _ _ x0 _ | .vneg _ _ _ x0 _ | .vcmp _ _ _ _ x0 _ _
  | .vsel _ _ _ x0 _ _ _ | .vrcp _ _ _ x0 _ | .vrsq _ _ _ x0 _ | .vexp2 _ _ _ x0 _ | .vlog2 _ _ _ x0 _
  | .vsin _ _ _ x0 _ | .vcos _ _ _ x0 _ => some x0
  | .vbcast _ _ _ _ x0 | .vperm _ _ _ x0 _ _ | .vscan _ _ _ _ _ x0 _ | .vtbl _ _ _ x0 _ _ | .vcvt _ _ _ _ _ x0 _
  | .ard _ _ _ _ _ _ _ x0 => some x0
  | _ => none

/-- The step with what it means for saved crews: what it changes of one is noted in its dirty bits (R196), or reaches the save area
of one that is displaced (R198). -/
def noted (s : State) : Out → Out
  | .next t => .next (s.afterStep t)
  | o => o

/-- A byte of memory. -/
def byteAt (s : State) (a : Nat) : Byte := Memory.read s.mem.mem a

end Sys2Proof.Machine.Claim
end

