-- ==== Sys2Proof/Certificates/Slice0/Obligations.lean ====
section
/-! DEFINITION. The statements for the provers. The first group says, family by family, how every instruction with an encoding
completes: its form in Sys2Proof/Safety names the predicate, the registers it uses, the operands and states on which it
completes, and the state it leaves. -/

open Sys2Proof Sys2Proof.Machine Sys2Proof.Machine.Claim

/-! ### Completion, by family -/

/-- R53, R76 to R85 (Tables 3.4 to 3.6): integer results, and the instructions with no effect but to retire (R35, R55). -/
def Obligations.IntegerCompletes : Prop :=
  ∀ x f, integerForm x = some f ∨ idleForm x = some f → f.describes x

/-- R86 to R88: float results, each rounded once. -/
def Obligations.FloatCompletes : Prop := ∀ x f, floatForm x = some f → f.describes x

/-- R71, R78, R87: a long operation computes at issue and leaves its destination pending; the result then lands in it, after the
answer of another unit that the line may be waiting for (R216, R415, R417). -/
def Obligations.LongCompletes : Prop :=
  (∀ x f, longForm x = some f → f.describes x) ∧
    ∀ k s t v p, s.thread? k = some t → t.longop = some v → t.pend = some p → ¬(t.st = .waiting ∧ t.await = .reply) →
      leaves (exec (.longOpResult k) s) k fun _ w => w.reg p.reg = v ∧ w.pend = none ∧ w.longop = none

/-- R283 to R288: packed elements under EFMT. -/
def Obligations.PackedCompletes : Prop := ∀ x f, packedForm x = some f → f.describes x

/-- R84, R89, R92 to R103: branches, calls, hardware loops and flags. -/
def Obligations.FlowCompletes : Prop :=
  ∀ x f, branchForm x = some f ∨ loopForm x = some f ∨ flagForm x = some f → f.describes x

/-- R125 to R129, R132 to R136: loads, stores, queue loads and atomics as they issue. The model's choices here: one entry of a
write-combining buffer for a thread's block (notes/assumptions/66.md), the pts of a `.FEC` load's clear (69.md). -/
def Obligations.MemoryCompletes : Prop := ∀ x f, memoryForm x = some f → f.describes x

/-- R130, R131, R140 to R154: prefetch, fence, granules, barriers, timelines and messages. The model's choice here: S of BARCFG
(notes/assumptions/71.md). -/
def Obligations.OrderCompletes : Prop :=
  ∀ x f, orderForm x = some f ∨ barrierForm x = some f ∨ messageForm x = some f → f.describes x

/-- R171 to R180: threads, waits, contexts. The model's choices here: where SPAWN places the new line (notes/assumptions/34.md;
R171 allows the inn or a free entry of a core), and a PARK being single-stepped (73.md). -/
def Obligations.ThreadCompletes : Prop := ∀ x f, threadForm x = some f → f.describes x

/-- R233 to R237: queue instructions. -/
def Obligations.QueueCompletes : Prop := ∀ x f, queueForm x = some f → f.describes x

/-- R271 to R282: element-wise batches, special functions, broadcast, permutation, reductions, scans, tables. The model's
choices here: which of two bracketing values a special function gives (notes/assumptions/14.md), and that the batches of one
instruction bind together as it issues (32.md). -/
def Obligations.VectorCompletes : Prop := ∀ x f, elementForm x = some f ∨ vectorForm x = some f → f.describes x

/-- R251 to R253, R257 to R262, R269: lanes, handles, conversions, CVSTAT, and acceptance by the conversion engine. The model's
choices here: NaN codes (notes/assumptions/33.md), what a waiting restore or claim keeps from a VCLAIM (30.md), a K16 code of value
0 under an infinite superscale (97.md), ADDR of a failed check (28.md). -/
def Obligations.ConversionCompletes : Prop :=
  ∀ x f, laneForm x = some f ∨ convertForm x = some f ∨ engineForm x = some f → f.describes x

/-- R332 to R334: the mangle. The model's choices here: MGSPILL is read at acceptance (notes/assumptions/36.md), no source of
MGADD or MGDRAIN can overlap a destination (88.md). -/
def Obligations.MangleCompletes : Prop := ∀ x f, mangleForm x = some f → f.describes x

/-- R320 to R324: tile registers and predicates. The model's choices here: the bytes of a TTRN of a 64-bit format with more than
32 rows (notes/assumptions/60.md), ADDR of a misaligned pitch (28.md). -/
def Obligations.TileCompletes : Prop := ∀ x f, tileForm x = some f → f.describes x

/-- R313 to R331: acceptance of multiplies, and accumulators. The model's choices here: the halves of ARD.M
(notes/assumptions/33.md), readings of R313, R318, R325 and R326 (39.md). -/
def Obligations.ArrayCompletes : Prop := ∀ x f, arrayForm x = some f → f.describes x

/-- R292 to R307: a moment instruction joins the steps of its tile with its operands and the value of MCTL as it issues; where
there is no choice, the instruction of the tile that acts next has its effect on the moment registers and retires, or notes the
elements it stores, which then bind and retire it; where there is a choice, one of those that may act does. The model's choices
here: registers, queue operands and handles are taken at issue, MLD reads its elements as it issues, MST and MCOL.H store all
theirs together in a following MOMENT_STEP, and which instruction acts is free where several are queued and one has elements to
store (notes/assumptions/31.md); which of two values MNL gives (14.md). -/
def Obligations.MomentCompletes : Prop :=
  (∀ x f mctl s i j s1 e, issuing s = some j → j.c.mctl = mctl → momentForm mctl x = some f →
    begins f.pred f.uses s = some (i, s1) → f.eff i s1 = some e → completes e = true → exec x s = ends s i f.len e) ∧
  (∀ tile s m t, nextStep tile s = some m → stepOf tile s m = some t → exec (.momentStep tile) s = .next t) ∧
  ∀ tile s, stepChoices tile s ≠ [] → ∃ m ∈ stepChoices tile s, ∃ n, ∀ t,
    stepOf tile { s with draws := s.draws + n } m = some t → exec (.momentStep tile) s = .next t

/-- R335, R343, R350 to R356, R362 to R371: the carrier, windows and the hamper. The model's choices here: a copy refused with an
earlier segment held (notes/assumptions/77.md), ADDR of a failed check (28.md), readings of the hamper's rules (38.md). -/
def Obligations.CarrierCompletes : Prop := ∀ x f, carrierForm x = some f ∨ hamperForm x = some f → f.describes x

/-- R184, R192, R193, R202, R203: system registers, publication, shootdown, mender requests, core control. The model's choices
here: the owner of XLPUB's store (notes/assumptions/53.md), the self-test of a core (25.md), what brings a tile back (54.md), bits
63:20 of CORECTL.DISP's gA (94.md). -/
def Obligations.SystemCompletes : Prop := ∀ x f, systemForm x = some f → f.describes x

/-- R394 to R400: launches, joins, priorities and work lists. The model's choices here: bits of a record that Table 21.1 does not
list (notes/assumptions/40.md), the control word of a freed work list (42.md). -/
def Obligations.WorkCompletes : Prop := ∀ x f, workForm x = some f → f.describes x

/-- R207 to R218, R404, R408, R415 to R417: tiers, keys, meters, attestation, trace and debug. The model's choices here: values
that keys decide (notes/assumptions/15.md, 80.md), LOST of MAPOUT (24.md), data under a replaced key (50.md), when WSLD and
SAMPLE look (52.md), WSLD onto metered spans (90.md), which entry ATTEST takes (95.md), details of the trace (20.md). -/
def Obligations.TierCompletes : Prop :=
  ∀ x f, tierForm x = some f ∨ traceForm x = some f → f.describes x

/-- R53, R182, R187, R188, R414: the instructions whose effect is a user trap, and the return from one. -/
def Obligations.TrapCompletes : Prop :=
  ∀ x f, trapForm x = some f ∨ returnForm x = some f → f.describes x

/-! ### The steps of the opcode table that have no encoding -/

/-- R110 to R123, R166, R225, R345: accesses bind, results land, blocks are filled; R145, R161 to R185, R202, R211, R263: what
happens to lines. The model's choices here: CORE_CYCLE serves lines in turn by their number (notes/assumptions/8.md), in one cycle
that all cores share (65.md) and in an order within it (98.md); what LANE_GRANT_SERVE owes a waiting restore or claim (30.md); the
value an LD.nb takes at LOAD_FILL (68.md); scopes (59.md, 70.md), bytes of a meter (85.md), accesses of a terminated line (48.md),
system faults from outside (17.md), the WATCH count (55.md), roaming lines (11.md), PRIO among aged lines (96.md), blocks of the
instruction cache (82.md). -/
def Obligations.LineEvents : Prop := ∀ x s t, accessEvent x s = some t ∨ lineEvent x s = some t → exec x s = .next t

/-- R254 to R259, R294, R313, R333 to R343, R365 to R369: the engines' own steps; a MOMENT_STEP that has a choice is one of those it
may take. The model's choices here: moment instructions read at issue and store together in a following step, and which acts is
free (notes/assumptions/31.md), NaN readings of array sums (33.md), a segment of a copy binds whole (37.md), CSRD beyond X2
(10.md), SEGOFF (23.md), readings of R259, R334, R337, R341 and R364 to R371 (75.md, 87.md, 36.md, 39.md, 91.md, 38.md). -/
def Obligations.EngineEvents : Prop :=
  (∀ x s t, engineEvent x s = some t → exec x s = .next t) ∧
  ∀ tile s, stepChoices tile s ≠ [] → ∃ m ∈ stepChoices tile s, ∃ n, ∀ t,
    stepOf tile { s with draws := s.draws + n } m = some t → exec (.momentStep tile) s = .next t

/-- R374 to R403: launches, instances, work lists, host queues; R193 to R199, R210: displacement and migration. The model's
choices here: places and numbers of instances (notes/assumptions/34.md, 41.md, 43.md), INSTANCE_BIND clears the scratchpad (57.md),
CREW_RESTORE takes the declaration from the crew (22.md), orphan work lists (42.md), the pool's reads and stores (56.md), readings
of saving and restoring (44.md, 45.md, 58.md, 76.md, 86.md, 92.md), a migration under a missing key (51.md) and when it looks at its
leaf (89.md). -/
def Obligations.LaunchEvents : Prop := ∀ x s t, launchEvent x s = some t ∨ moveEvent x s = some t → exec x s = .next t

/-- R107, R189, R191, R209, R212, R220 to R222: the host, other packages, faults, wall-clock time; R404 to R417: the trace unit
and the test access port. The model's choices here: the reach of host and fabric accesses (notes/assumptions/47.md), system
space (16.md), links (18.md, 83.md), what a device reset keeps (46.md), a failed array's records (79.md), a mender's answers
(78.md), raw arrays (21.md, 81.md), details of the trace (20.md). -/
def Obligations.OutsideEvents : Prop := ∀ x s t, outsideEvent x s = some t ∨ debugEvent x s = some t → exec x s = .next t

/-! ### Encoding -/

/-- R31, R32, R37 to R44: decoding an encoded well-formed instruction gives it back, whatever bytes follow it. -/
def Obligations.DecodeEncodeAgree : Prop :=
  ∀ i bs, wellFormed i = true → encode i ≠ [] → decode (wordBytes (encode i) ++ bs) = .ok (i, bs)

/-- R38, R51: what is decoded is well formed, and its encoding is exactly the bytes read. -/
def Obligations.EncodeDecodeAgree : Prop :=
  ∀ bs i rest, decode bs = .ok (i, rest) → wellFormed i = true ∧ wordBytes (encode i) ++ rest = bs

/-- Words of the spec's worked examples decode to the instructions they stand for (sections 02, 03, 04 and 08). -/
def Obligations.SpecWordsDecode : Prop :=
  decode (wordBytes [0x0808C488#32, 0x000083C8#32]) = .ok (.bfx ⟨false, 2⟩ true 3 4 (.imm 0x83C#28), []) ∧
    decode (wordBytes [0x00694140#32, 0x00000000#32]) = .ok (.div ⟨false, 0⟩ false 5 4 (.reg 6), []) ∧
    decode (wordBytes [0x00004540#32, 0x00000004#32]) = .ok (.movi ⟨false, 0⟩ 1 4#32, []) ∧
    decode (wordBytes [0x00003FC0#32, 0x00000000#32]) = .ok (.illegal, []) ∧
    decode (wordBytes [0xFFFFFFFF#32]) = .ok (.pad, [])

/-! ### The step, fetch and issue -/

/-- R51: a step at a line whose bytes decode to an instruction is `exec` of it, in the state the fetch leaves; what it changes of
a crew that has been saved sets the crew's dirty bits (R196), or reaches the save area of a displaced crew (R198). -/
def Obligations.StepRunsDecoded : Prop :=
  ∀ s i bs s' x rest, fetches s = some (i, bs, s') → decode bs = .ok (x, rest) →
    i.t.pc.toNat % 32 + (bs.length - rest.length) ≤ 32 → i.t.pastBody (bs.length - rest.length) = false →
    step s = noted s (exec x s')

/-- With no line selected, a cycle that is under way goes on; and with none under way, a step is the next event of the agenda;
while the clocks stand, one that needs them does not take place, and one that comes over a link waits there (R410). The agenda is
the model's own (notes/assumptions/2.md), which events need no clock is its reading (47.md), and the cycle that all cores share is
too (65.md). -/
def Obligations.StepRunsAgenda : Prop :=
  (∀ s, s.issuer = none → s.cycleOpen = true → s.dbg.frozen = false → step s = noted s (.next s.goOn)) ∧
  ∀ s e es, s.issuer = none → s.cycleOpen = false ∨ s.dbg.frozen = true → s.agenda = e :: es →
    step s = noted s (if s.dbg.frozen = true ∧ whileFrozen e = false then .next ({ s with agenda := es }.whileStanding e)
      else exec e { s with agenda := es })

/-- R53, R54: the words of ILLEGAL and of zeros raise ILLOP wherever they are fetched whole. -/
def Obligations.UnassignedWordsTrap : Prop :=
  encode .illegal = [0x00003FC0#32, 0x00000000#32] ∧ decode (wordBytes [0xFFFFFFFF#32]) = .ok (.pad, []) ∧
    ∀ s i bs s', fetches s = some (i, bs, s') → inBlock i bs 8 = true →
      leNat (bs.take 8) = 0x3FC0 ∨ leNat (bs.take 8) = 0 → step s = noted s (traps s' i 0x01)

/-- R101: an instruction that begins inside an active body and ends past its end raises ILLOP, under a false predicate too. -/
def Obligations.PastBodyTraps : Prop :=
  ∀ s i bs s' x rest, fetches s = some (i, bs, s') → decode bs = .ok (x, rest) →
    i.t.pc.toNat % 32 + (bs.length - rest.length) ≤ 32 →
    (let a := i.t.pc.toNat
     let n := bs.length - rest.length
     (i.t.lact0 = true ∧ i.t.loop0.start a ≤ a ∧ a < i.t.loop0.stop a ∧ i.t.loop0.stop a < a + n) ∨
       (i.t.lact1 = true ∧ i.t.loop1.start a ≤ a ∧ a < i.t.loop1.stop a ∧ i.t.loop1.stop a < a + n)) →
    step s = noted s (traps s' i 0x01)

/-- R35: a pad word takes its slot and, where no crew is displaced, to whose save area a step may bring what it is owed (R198),
leaves memory and every register, flag and time of its line as they were; the PC advances by 4 where no loop body ends there. -/
def Obligations.PadWordRetires : Prop :=
  ∀ s i bs s', fetches s = some (i, bs, s') → inBlock i bs 4 = true → leNat (bs.take 4) = 0xFFFFFFFF →
    i.t.pastBody 4 = false → noneAway s →
    leaves (step s) i.k fun t w =>
      t.mem = s'.mem ∧ (∀ n c, s'.crew? n = some c → ∃ b d, t.crew? n = some { c with watchArmed := b, dirty := d }) ∧ w.g = i.t.g ∧
        w.flags = i.t.flags ∧ w.efmt = i.t.efmt ∧ w.link = i.t.link ∧ w.pts = i.t.pts ∧ w.acq = i.t.acq ∧
        ((i.t.lact0 && i.t.loop0.endsAt i.t.pc.toNat 4) = false → (i.t.lact1 && i.t.loop1.endsAt i.t.pc.toNat 4) = false →
          w.pc = BitVec.ofNat 56 (i.t.pc.toNat + 4))

/-- R45, R46, R47: the predicate is a tile predicate for major opcodes 0xA0 to 0xAF and a flag for the others; an instruction whose
predicate is false retires by falling through, and an LBRK takes no loop-end step then (R102; where R100 differs, notes/assumptions/26.md). -/
def Obligations.FalsePredicateRetires : Prop :=
  (∀ x f r mctl, formOf mctl x = some f → rawOf x = some r →
    f.pred = r.p ∧ (f.uses.tile = true ↔ 0xA0 ≤ r.opc.val ∧ r.opc.val ≤ 0xAF)) ∧
  (∀ t c neg, predTrue ⟨neg, 0⟩ false t c = !neg ∧ predTrue ⟨neg, 0⟩ true t c = !neg) ∧
  ∀ x f s i, issuing s = some i → formOf i.c.mctl x = some f → predTrue f.pred f.uses.tile i.t i.c = false →
    exec x s = ends s i f.len
      (if f.uses.lbrk then .jump (i.t.pc + 8) { s with issuer := none } else .retire { s with issuer := none })

/-- R72: an instruction that reads or writes the pending register, or would start a second load or long operation, does not
issue: its line waits with kind 1 and the register's number, its PC and registers as they were. -/
def Obligations.PendingRegisterWaits : Prop :=
  ∀ x f s i p, issuing s = some i → formOf i.c.mctl x = some f → predTrue f.pred f.uses.tile i.t i.c = true →
    i.t.deferred = [] → i.t.pend = some p →
    (f.uses.pend = true ∨ p.reg ∈ f.uses.reads ++ f.uses.writes ∨
      (p.pair = true ∧ nextReg p.reg ∈ f.uses.reads ++ f.uses.writes)) →
    leaves (exec x s) i.k fun _ w =>
      w.st = .waiting ∧ w.wkind = 1 ∧ w.wobj = BitVec.ofNat 28 p.reg.val ∧ w.pc = i.t.pc ∧ w.g = i.t.g ∧
        w.flags = i.t.flags

/-- R181: the privileged instructions are those of Tables 7.9, 8.1, 8.2, 9.1, 18.3 and 24.6, and in a thread without
privilege each stops it with PRIV, its PC and registers as they were. -/
def Obligations.PrivilegedInUserMode : Prop :=
  (∀ x f mctl, formOf mctl x = some f → f.uses.priv = privileged x) ∧
  ∀ x f s i, issuing s = some i → formOf i.c.mctl x = some f → privileged x = true → i.t.privl = false →
    predTrue f.pred f.uses.tile i.t i.c = true → goesOn i.t f.uses = true →
    exec x s = faults s i 0x25 0 ∧
      leaves (exec x s) i.k fun _ w => w.st = .faulted ∧ w.pc = i.t.pc ∧ w.g = i.t.g ∧ w.flags = i.t.flags

/-! ### Results -/

/-- R78: DIV and REM trap on zero; else the quotient rounds toward zero, the remainder takes the dividend's sign, and −2^63 by
−1 gives −2^63 and 0. The result lands in the destination (R71). -/
def Obligations.DivisionResults : Prop :=
  ∀ p u d a b s i s1, begins p { src := a :: srcRegs b, dst := [d], pend := true } s = some (i, s1) →
    (i.src b = 0 → exec (.div p u d a b) s = traps s i 0x04 ∧ exec (.rem p u d a b) s = traps s i 0x04) ∧
    (i.src b ≠ 0 → ∃ q r : Word,
      exec (.div p u d a b) s = ends s i 8 (.retire (s1.modThread i.k fun t =>
        { t with pend := some { reg := d, pair := false }, longop := some q })) ∧
      exec (.rem p u d a b) s = ends s i 8 (.retire (s1.modThread i.k fun t =>
        { t with pend := some { reg := d, pair := false }, longop := some r })) ∧
      (u = true → (i.reg a).toNat = q.toNat * (i.src b).toNat + r.toNat ∧ r.toNat < (i.src b).toNat) ∧
      (u = false → (i.reg a).toInt = -(2 ^ 63 : Int) → (i.src b).toInt = -1 → q.toInt = -(2 ^ 63 : Int) ∧ r = 0) ∧
      (u = false → ¬((i.reg a).toInt = -(2 ^ 63 : Int) ∧ (i.src b).toInt = -1) →
        (i.reg a).toInt = q.toInt * (i.src b).toInt + r.toInt ∧ r.toInt.natAbs < (i.src b).toInt.natAbs ∧
          (0 ≤ (i.reg a).toInt → 0 ≤ r.toInt) ∧ ((i.reg a).toInt ≤ 0 → r.toInt ≤ 0)))

/-- R80, R81: BFX and BFI, from P = gB bits 15:0 or IMM28. -/
def Obligations.BitFields : Prop :=
  ∀ p g d a b s i s1,
    (begins p { src := a :: srcRegs b, dst := [d] } s = some (i, s1) →
      ∃ v, exec (.bfx p g d a b) s = ends s i 8 (.retire (s1.wr i.k d v)) ∧
        (let P := match b with
          | .reg r => (i.reg r).toNat
          | .imm m => m.toNat
         let off := P % 256
         let wid := P / 256 % 256
         let w := min wid (64 - off)
         let f := (i.reg a).toNat / 2 ^ off % 2 ^ w
         (wid = 0 ∨ 64 ≤ off → v = 0) ∧
           (wid ≠ 0 → off < 64 →
             (g = false → v.toNat = f) ∧
             (g = true → v.toInt = if f / 2 ^ (w - 1) % 2 = 1 then (f : Int) - (2 : Int) ^ w else (f : Int))))) ∧
    (begins p { src := d :: a :: srcRegs b, dst := [d] } s = some (i, s1) →
      ∃ v, exec (.bfi p d a b) s = ends s i 8 (.retire (s1.wr i.k d v)) ∧
        (let P := match b with
          | .reg r => (i.reg r).toNat
          | .imm m => m.toNat
         let off := P % 256
         let wid := P / 256 % 256
         let w := min wid (64 - off)
         let mask : Word := BitVec.ofNat 64 ((2 ^ w - 1) * 2 ^ off)
         (wid = 0 ∨ 64 ≤ off → v = i.reg d) ∧
           (wid ≠ 0 → off < 64 → v = (i.reg d &&& ~~~mask) ||| ((i.reg a <<< off) &&& mask))))

/-- R96, R97, R98: FOP, FSET, FSET.M and FGET: each flag after them, f0 never written. -/
def Obligations.FlagWrites : Prop :=
  (∀ p op d a b s i s1, begins p {} s = some (i, s1) →
    leaves (exec (.fop p op d a b) s) i.k fun _ w => ∀ n, w.flag n =
      if n = d ∧ n ≠ 0 then
        match op with
        | .and => i.t.flag a && i.t.flag b
        | .or => i.t.flag a || i.t.flag b
        | .xor => i.t.flag a ^^ i.t.flag b
        | .andn => i.t.flag a && !i.t.flag b
        | .nand => !(i.t.flag a && i.t.flag b)
        | .nor => !(i.t.flag a || i.t.flag b)
        | .xnor => !(i.t.flag a ^^ i.t.flag b)
        | .orn => i.t.flag a || !i.t.flag b
      else i.t.flag n) ∧
  (∀ p d v s i s1, begins p {} s = some (i, s1) →
    leaves (exec (.fset p d v) s) i.k fun _ w => ∀ n, w.flag n = if n = d ∧ n ≠ 0 then v else i.t.flag n) ∧
  (∀ p a mask s i s1, begins p { src := [a] } s = some (i, s1) →
    leaves (exec (.fsetM p a mask) s) i.k fun _ w => ∀ n : Fin 8, w.flag n =
      if n ≠ 0 ∧ mask.getLsbD n.val = true then (i.reg a).getLsbD n.val else i.t.flag n) ∧
  (∀ p all d s i s1, begins p { dst := [d] } s = some (i, s1) →
    ∃ v, exec (.fget p all d) s = ends s i 8 (.retire (s1.wr i.k d v)) ∧ v.getLsbD 0 = true ∧
      (∀ n : Fin 8, v.getLsbD n.val = i.t.flag n) ∧ (all = false → v.toNat < 256) ∧
      (all = true → v.toNat < 2 ^ 32 ∧ v.toNat / 2 ^ 8 % 2 ^ 8 = i.t.efmt.toNat ∧
        v.getLsbD 16 = i.t.lact0 ∧ v.getLsbD 17 = i.t.lact1 ∧ v.toNat / 2 ^ 18 % 2 ^ 6 = 0 ∧
        v.toNat / 2 ^ 24 = i.t.lgrant.toNat))

/-- R102: LBRK closes the innermost active level and goes to its end, LBRK.ALL closes both and goes to the end of level 0;
with no level active LOOPDEPTH; under a false predicate it falls through with no loop-end step (notes/assumptions/26.md). -/
def Obligations.LoopBreak : Prop :=
  (∀ p s i s1, begins p { lbrk := true } s = some (i, s1) →
    (i.t.lact1 = true → leaves (exec (.lbrk p) s) i.k fun _ w =>
      w.pc = BitVec.ofNat 56 (i.t.loop1.stop i.t.pc.toNat) ∧ w.lact1 = false ∧ w.lact0 = i.t.lact0) ∧
    (i.t.lact1 = false → i.t.lact0 = true → leaves (exec (.lbrk p) s) i.k fun _ w =>
      w.pc = BitVec.ofNat 56 (i.t.loop0.stop i.t.pc.toNat) ∧ w.lact0 = false) ∧
    (i.t.lact0 = true ∨ i.t.lact1 = true → leaves (exec (.lbrkAll p) s) i.k fun _ w =>
      w.pc = BitVec.ofNat 56 (i.t.loop0.stop i.t.pc.toNat) ∧ w.lact0 = false ∧ w.lact1 = false) ∧
    (i.t.lact0 = false → i.t.lact1 = false →
      exec (.lbrk p) s = traps s i 0x08 ∧ exec (.lbrkAll p) s = traps s i 0x08)) ∧
  ∀ p s i, issuing s = some i → predTrue p false i.t i.c = false →
    (leaves (exec (.lbrk p) s) i.k fun _ w =>
      w.pc = i.t.pc + 8 ∧ w.lact0 = i.t.lact0 ∧ w.lact1 = i.t.lact1 ∧ w.loop0 = i.t.loop0 ∧ w.loop1 = i.t.loop1) ∧
    (leaves (exec (.lbrkAll p) s) i.k fun _ w =>
      w.pc = i.t.pc + 8 ∧ w.lact0 = i.t.lact0 ∧ w.lact1 = i.t.lact1 ∧ w.loop0 = i.t.loop0 ∧ w.loop1 = i.t.loop1)

/-- R92, R95: a call goes to its target with the link naming the address after it and, with .SV, gD the link before it; a
return goes to the link or to gA, which the link then names; a target that is no multiple of 4 raises ALIGN. -/
def Obligations.CallsAndReturns : Prop :=
  (∀ p sv imm s i s1, begins p { dst := sv.toList } s = some (i, s1) →
    (let t := i.t.pc + imm.signExtend 56 * 4
     (t.toNat % 4 ≠ 0 → exec (.call p sv imm) s = traps s i 0x03 0 t.toNat) ∧
       (t.toNat % 4 = 0 → leaves (exec (.call p sv imm) s) i.k fun _ w => w.pc = t ∧ w.link = i.t.pc + 8 ∧
         ∀ d, sv = some d → ¬(d = 7 ∧ i.t.pushv = true) → w.reg d = i.t.link.setWidth 64))) ∧
  (∀ p sv a s i s1, begins p { src := [a], dst := sv.toList } s = some (i, s1) →
    (let t := (i.reg a).setWidth 56
     (t.toNat % 4 ≠ 0 → exec (.callx p sv a) s = traps s i 0x03 0 t.toNat) ∧
       (t.toNat % 4 = 0 → leaves (exec (.callx p sv a) s) i.k fun _ w => w.pc = t ∧ w.link = i.t.pc + 8 ∧
         ∀ d, sv = some d → ¬(d = 7 ∧ i.t.pushv = true) → w.reg d = i.t.link.setWidth 64))) ∧
  (∀ p r s i s1, begins p { src := r.toList } s = some (i, s1) →
    (let t : BitVec 56 := match r with
      | some a => (i.reg a).setWidth 56
      | none => i.t.link
     (t.toNat % 4 ≠ 0 → exec (.ret p r) s = traps s i 0x03 0 t.toNat) ∧
       (t.toNat % 4 = 0 → leaves (exec (.ret p r) s) i.k fun _ w => w.pc = t ∧ w.link = t)))

/-! ### Traps -/

/-- The record of a user trap (Table 8.4): CODE, VALID, INFO, the PC, the instruction, ADDR, DETAIL, g1, g2 and the queue
bindings. -/
def trapRecord (t : Thread) (s : State) (ti : TrapInfo) : List Nat :=
  [ti.code + 2 ^ 8 + 2 ^ 16 * ti.info, t.pc.toNat, s.insnWord t ti.code, ti.addr % 2 ^ 64, ti.detail % 2 ^ 64, (t.reg 1).toNat,
   (t.reg 2).toNat, t.qb]

/-- R185, R188: TRAP with a handler, a free record that can be written, and nothing pending, unbound or owed: looking at VALID
leaves the line's times as they were, the record is written in order, g1 and g2 name the trap and the record, the queue bindings
end, the PC is TVEC's, and flags, loop levels and the link stay. That other agents see no part of the record is the model's choice
(notes/assumptions/27.md). -/
def Obligations.TrapEntryTakes : Prop :=
  ∀ p n s i s1 bs s2 s3 w3, begins p {} s = some (i, s1) → i.t.pend = none → i.t.unbound = [] → i.t.deferred = [] →
    s1.recordHeld i.k i.t = false → i.c.tvec ≠ 0 →
    s1.peekNow i.k (recordVa i.c i.t) 8 8 = (.ok bs, s2) → bitAt (leNat bs) 8 = false →
    State.writeWords i.k (recordVa i.c i.t) (trapRecord i.t s2 { code := 0x0D, info := n.toNat }) s2 = (true, s3) →
    s3.thread? i.k = some w3 →
    leaves (exec (.trap p n) s) i.k fun t w =>
      w.pc = BitVec.ofNat 56 i.c.tvec.toNat ∧ w.reg 1 = 0x0D ∧ w.reg 2 = BitVec.ofNat 64 (recordVa i.c i.t) ∧
        w.popv = false ∧ w.pushv = false ∧ w.flags = w3.flags ∧ w.lact0 = w3.lact0 ∧ w.lact1 = w3.lact1 ∧
        w.loop0 = w3.loop0 ∧ w.loop1 = w3.loop1 ∧ w.link = w3.link ∧ w.pts = w3.pts ∧
        (∀ r, r ≠ 1 → r ≠ 2 → w.reg r = w3.reg r) ∧ t.mem.mem = s3.mem.mem

/-- The fault record of an escalated TRAP (Table 8.6): the user code as CODE and UCODE, DOUBLE, the task, the line, and the PC
twice; the other words are zero. -/
def escalation (i : Issue) (double : Bool) : List Nat :=
  [0x0D + (if double then 2 ^ 8 else 0) + 2 ^ 16 * 0x0D, i.t.gtid.toNat, i.t.ident, i.t.pc.toNat, i.t.pc.toNat, 0, 0, 0]

/-- R185, R188, R189: with no handler, or with the record still valid, TRAP escalates: the line is trapped at the trapping
instruction, and its registers stay; the fault record, with DOUBLE set where the trap record was still valid, goes to the
mender of the crew, at the tail of its ring while that has room, no record waits and the host does not hold the line (R212), and
behind the waiting records otherwise; every other byte, the record at TAREA among them, reads as before. -/
def Obligations.DoubleTrapEscalates : Prop :=
  ∀ p n s i s1 double, begins p {} s = some (i, s1) → i.t.pend = none → i.t.unbound = [] → i.t.deferred = [] →
    s1.recordHeld i.k i.t = false → Memory.wf s.mem.mem = true →
    ((i.c.tvec = 0 ∧ double = false) ∨
      (i.c.tvec ≠ 0 ∧ double = true ∧
        ∃ bs s2, s1.peekNow i.k (recordVa i.c i.t) 8 8 = (.ok bs, s2) ∧ bitAt (leNat bs) 8 = true)) →
    leaves (exec (.trap p n) s) i.k fun t w =>
      (w.st = .trapped ∧ w.pc = i.t.pc ∧ w.g = i.t.g ∧ w.flags = i.t.flags ∧ w.link = i.t.link ∧ w.pts = i.t.pts) ∧
      (let m := menderOf i.c.tile
       let r := s.ring m
       let lo := r.base + 64 * (r.tail % Config.ringSize)
       (r.tail - r.head < Config.ringSize → r.waiting = [] → s.ringBusy m = false →
         (t.ring m).tail = r.tail + 1 ∧
           Memory.readBytes t.mem.mem lo 64 = (escalation i double).flatMap (natBytes 8) ∧
           ∀ a, offRing s m a → byteAt t a = byteAt s a) ∧
       (¬(r.tail - r.head < Config.ringSize ∧ r.waiting = [] ∧ s.ringBusy m = false) →
         (t.ring m).waiting = r.waiting ++ [(escalation i double).map (BitVec.ofNat 64)] ∧ t.mem.mem = s.mem.mem))

/-- R187: TRET takes g1, g2, the queue bindings and the PC from the record and clears VALID; a record that is not valid raises
ILLOP, one whose PC is no multiple of 4 ALIGN. No loop-end step is taken. An entry of the line's own that holds the record's
block drains first (R117): the line then waits, and nothing else changes. -/
def Obligations.TrapReturnRestores : Prop :=
  ∀ p s i s1, begins p { src := [1, 2], dst := [1, 2], seq := true } s = some (i, s1) →
    (s1.recordHeld i.k i.t = true → leaves (exec (.tret p) s) i.k fun _ w =>
      w.st = .waiting ∧ w.wkind = 0 ∧ w.pc = i.t.pc ∧ w.g = i.t.g) ∧
    ∀ bs s2, s1.recordHeld i.k i.t = false → s1.readNow i.k (recordVa i.c i.t) 64 8 = (.ok bs, s2) →
    (let word (n : Nat) : Nat := leNat (slice bs (8 * n) 8)
     let pc := word 1 % 2 ^ 56
     (bitAt (word 0) 8 = false → exec (.tret p) s = traps s i 0x01) ∧
       (bitAt (word 0) 8 = true → pc % 4 ≠ 0 → exec (.tret p) s = traps s i 0x03 0 pc) ∧
       (bitAt (word 0) 8 = true → pc % 4 = 0 →
         ∀ s3 w3, s2.writeNow i.k (recordVa i.c i.t) 8 (natBytes 8 (word 0 - 2 ^ 8)) = (.ok (), s3) →
           s3.thread? i.k = some w3 →
           leaves (exec (.tret p) s) i.k fun t w =>
             w.pc = BitVec.ofNat 56 pc ∧ w.reg 1 = BitVec.ofNat 64 (word 5) ∧ w.reg 2 = BitVec.ofNat 64 (word 6) ∧
               w.qb = word 7 % 2 ^ 8 ∧ (∀ r, r ≠ 1 → r ≠ 2 → w.reg r = w3.reg r) ∧ w.flags = w3.flags ∧
               w.lact0 = w3.lact0 ∧ w.lact1 = w3.lact1 ∧ t.mem.mem = s3.mem.mem))

/-! ### Reset and the canonical form -/

/-- Device reset: no crew is bound and no launch held; WSREF reads BANK 0 and ACTIVE 1 (Table 5.2); only the device key is
present (R204); a host queue is disabled with priority 15 (Table 21.5); tracing is off and no breakpoint is enabled (R406,
R408); a tile's PARLIM is 32 and LVINT 65,536 (Tables 7.8, 21.9). Two clauses are the model's own: the TAP instruction is IDCODE
(notes/assumptions/12.md), and memory, which the spec leaves open, lists nothing (1.md). -/
def Obligations.ResetState : Prop :=
  State.reset.crews = [] ∧ State.reset.threads = [] ∧ State.reset.work.launches = [] ∧ State.reset.issuer = none ∧
    State.reset.mem.wsBank = 0 ∧ State.reset.mem.wsActive = true ∧
    (∀ o, State.reset.keyPresent o = true ↔ o = 0) ∧
    HostQueue.reset.en = false ∧ HostQueue.reset.prio = 15 ∧
    State.reset.dbg.on = false ∧ (∀ n : Fin 8, (State.reset.dbg.bps[n]).en = false) ∧
    (∀ n, (State.reset.tile n).parlim = 32 ∧ (State.reset.tile n).lvint = 65536) ∧
    State.reset.dbg.tapIr = 0x02#8 ∧ State.reset.mem.mem = [] ∧ Memory.wf State.reset.mem.mem = true

/-- Every step keeps the canonical form of memory: addresses strictly rising, no entry equal to what an unlisted address reads
as (what that is, is the model's choice: notes/assumptions/1.md). -/
def Obligations.MemoryCanonicalKept : Prop :=
  ∀ s t, Memory.wf s.mem.mem = true → step s = .next t → Memory.wf t.mem.mem = true

/-! ### Frames -/

/-- The scalar, packed, branch, loop and flag instructions leave everything but their own line, their crew's queues, their
core's counters and the offered trace events as it was. -/
def Obligations.PlainFrame : Prop :=
  ∀ x f s i s1 e t,
    (integerForm x = some f ∨ idleForm x = some f ∨ floatForm x = some f ∨ longForm x = some f ∨ packedForm x = some f ∨
      branchForm x = some f ∨ loopForm x = some f ∨ flagForm x = some f) →
    begins f.pred f.uses s = some (i, s1) → f.eff i s1 = some e → completes e = true → exec x s = .next t →
    t.mem = s.mem ∧ t.tiles = s.tiles ∧ t.sites = s.sites ∧ t.rings = s.rings ∧ t.tier = s.tier ∧ t.work = s.work ∧
      t.agenda = s.agenda ∧
      (∀ n c, s.crew? n = some c → ∃ qs b, t.crew? n = some { c with queues := qs, watchArmed := b }) ∧
      (∀ n v, n ≠ i.k → s.thread? n = some v →
        ∃ w, t.thread? n = some w ∧ w.g = v.g ∧ w.flags = v.flags ∧ w.pc = v.pc ∧ w.link = v.link ∧ w.pts = v.pts) ∧
      ∃ w, t.thread? i.k = some w ∧ w.pts = i.t.pts ∧ w.acq = i.t.acq ∧ w.privl = i.t.privl ∧ w.gtid = i.t.gtid ∧
        w.owner = i.t.owner ∧ w.unbound = i.t.unbound ∧ w.deferred = i.t.deferred ∧ w.inbox = i.t.inbox ∧
        w.popv = i.t.popv ∧ w.pushv = i.t.pushv ∧ w.lgrant = i.t.lgrant

/-- Whatever next state an instruction answers, its own line's general registers are as they were but for those its form
writes, and but for g1 and g2 where a trap was entered; its flags are as they were but for those it writes. The words of a line
can also be stored to through the context space (R27, R180): the premises say that the trap record, the report of a METSIGN and
the save area of a displaced crew do not lead to this line's own words. -/
def Obligations.RegisterFrame : Prop :=
  ∀ x f s i t w, issuing s = some i → i.t.st = .ready → formOf i.c.mctl x = some f → exec x s = .next t →
    t.thread? i.k = some w →
    (∀ n, n < 64 → ownLine i.k (recordVa i.c i.t + n) = false) →
    (∀ p d a b n, x = .metsign p d a b ∨ x = .metsignFinal p d a b → n < 8192 →
      ownLine i.k ((operand i a).toNat + n) = false) →
    (∀ m c n, s.crew? m = some c → c.displaced = true → n < 2 ^ 21 → ownLine i.k (c.saveBase m + n) = false) →
    (∀ r, r ∉ f.uses.writes → w.reg r = i.t.reg r ∨ ((r = 1 ∨ r = 2) ∧ enteredHandler i w = true)) ∧
      ∀ r, r ∉ flagsWritten x → w.flag r = i.t.flag r

/-- Whatever next state an instruction answers, the special registers of every crew are as they were but for those it writes:
the control registers and MSTAT by SYSW alone, CVSTAT, windows, handles and the array's registers by the instructions that
name them, moment registers by none as it issues. -/
def Obligations.SpecialRegisterFrame : Prop :=
  ∀ x s t n c c', encode x ≠ [] → exec x s = .next t → s.crew? n = some c → t.crew? n = some c' →
    (isSysw x = false → Controls c' = Controls c ∧ c'.mstat = c.mstat) ∧
      (writesCvstat x = false → c'.cvstat = c.cvstat) ∧ (writesWindow x = false → c'.win = c.win) ∧
      (writesHandle x = false → c'.handles = c.handles) ∧
      (writesArray x = false → c'.kpred = c.kpred ∧ c'.shapes = c.shapes ∧ c'.tileB = c.tileB ∧ c'.accE = c.accE) ∧
      c'.momE = c.momE

/-- The forms that store nothing as they issue leave every byte of memory as it was when they complete: every instruction but
those of `storesAtIssue`; stores and TST among them, which store when they bind (R111, R322). Three may bring the save area of a
displaced crew up to date, and leave memory as it was where no crew is displaced (R198). -/
def Obligations.StorelessFrame : Prop :=
  ∀ x f s i s1 e j t, issuing s = some j → formOf j.c.mctl x = some f → storesAtIssue x = false →
    (maySaveLate x = true → noneAway s) →
    begins f.pred f.uses s = some (i, s1) → f.eff i s1 = some e → completes e = true → exec x s = .next t →
    t.mem.mem = s.mem.mem

/-- What a thread's stores and atomics change when they bind: STORE_BIND, with the rows of a TST, and LOAD_FILL, with its atomics,
store only to the bytes of the piece that binds, and the drain of a write-combining entry only to the bytes of its block: every
other byte reads as before, spans of another owner that a store takes over apart (R205). -/
def Obligations.StoreFrame : Prop :=
  (∀ k s t o a, exec (.storeBind k) s = .next t →
    (∀ acc, nextOf s k storesOnly = some acc → untouched s (acc.left.take 1) o a) → byteAt t a = byteAt s a) ∧
  (∀ k s t o a, exec (.loadFill k) s = .next t →
    (∀ acc, nextOf s k fills = some acc → untouched s (acc.parts.take 1) o a) → byteAt t a = byteAt s a) ∧
  ∀ core block k s t a, exec (.wcEntryDrain core block k) s = .next t →
    (∀ w, ((s.core core).wc.find? fun w => w.thread == k && w.target.block == block) = some w →
      untouched s [{ target := w.target, attr := w.attr, bytes := 64 }] w.attr.owner a) → byteAt t a = byteAt s a

/-- A batch instruction stores only to the elements of its destination handle, in its own crew's scratchpad: every other byte
reads as before, spans of it that another owner has written apart (R205). -/
def Obligations.VectorStoreFrame : Prop :=
  ∀ x f x0 s i s1 e t a, batchDest x = some x0 →
    (elementForm x = some f ∨ vectorForm x = some f ∨ convertForm x = some f ∨ arrayForm x = some f) →
    begins f.pred f.uses s = some (i, s1) → f.eff i s1 = some e → completes e = true → exec x s = .next t →
    ownSpan s i.crew a →
    (∀ n, n < (i.c.handle x0).len →
      ¬(spadPa i.crew ((i.c.handle x0).bytesOf n).1 ≤ a ∧ a < spadPa i.crew ((i.c.handle x0).bytesOf n).2)) →
    byteAt t a = byteAt s a

/-- XLPUB stores to the 8 bytes of its entry, SVCSEND to the 64 of the ring's next record, WSLD to the spans of the weight
store it names, METSIGN to its 8 KiB buffer: when they complete, every other byte reads as before, spans of another owner that
the store takes over apart (R189, R202, R205, R211, R216). -/
def Obligations.SystemStoreFrame : Prop :=
  (∀ p d a b s i s1 e f t n, systemForm (.xlpub p d a b) = some f ∨ systemForm (.xlpubNs p d a b) = some f →
    begins f.pred f.uses s = some (i, s1) → f.eff i s1 = some e → completes e = true →
    exec (.xlpub p d a b) s = .next t ∨ exec (.xlpubNs p d a b) s = .next t →
    (let lo := (i.reg a).toNat
     ¬(lo ≤ n ∧ n < lo + 8) → (Map.get? s.mem.tags (n / 512)).getD 0 = 0 ∨ lo / 512 ≠ n / 512 → byteAt t n = byteAt s n)) ∧
  (∀ p d a b s i s1 e f t n, systemForm (.svcsend p d a b) = some f → begins f.pred f.uses s = some (i, s1) →
    f.eff i s1 = some e → completes e = true → exec (.svcsend p d a b) s = .next t →
    (let r := s.ring (menderOf i.c.tile)
     let lo := r.base + 64 * (r.tail % Config.ringSize)
     ¬(lo ≤ n ∧ n < lo + 64) →
       (Map.get? s.mem.tags (n / 512)).getD 0 = 0 ∨ (lo / 512 ≠ n / 512 ∧ (lo + 63) / 512 ≠ n / 512) →
       byteAt t n = byteAt s n)) ∧
  (∀ p d a b c s i s1 e f t n, tierForm (.wsld p d a b c) = some f → begins f.pred f.uses s = some (i, s1) →
    f.eff i s1 = some e → completes e = true → exec (.wsld p d a b c) s = .next t →
    (let lo := wsBase + (i.reg b).toNat
     n / 512 < lo / 512 ∨ (lo + (i.reg c).toNat + 127) / 512 < n / 512) → byteAt t n = byteAt s n) ∧
  ∀ x p d a b s i s1 e f t o n, x = .metsign p d a b ∨ x = .metsignFinal p d a b → tierForm x = some f →
    begins f.pred f.uses s = some (i, s1) → f.eff i s1 = some e → completes e = true → exec x s = .next t →
    (let va := vaOf (i.reg a)
     let s2 := (s1.resolve (s1.agent i.t) va 8192 .write).2
     ∀ ps, (s2.resolveAll (s2.agent i.t) (va % 2 ^ 56) .write (pieces 128 (va % 2 ^ 56) 66 8192)).1 = .ok ps →
       untouched s ps o n → byteAt t n = byteAt s n)

/-- What taking a user trap stores, for a TRAP as it issues and for a trap that has waited: the words of its record, one after
another, and where it escalates or an owed fault takes its place, the next record of the mender's ring; every other byte reads
as before (R185, R188, R189). -/
def Obligations.TrapStoreFrame : Prop :=
  (∀ p n s i s1 t o a, begins p {} s = some (i, s1) → exec (.trap p n) s = .next t → offRing s (menderOf i.c.tile) a →
    (let s2 := (s1.peekNow i.k (recordVa i.c i.t) 8 8).2
     offWords i.k (recordVa i.c i.t) (trapRecord i.t s2 { code := 0x0D, info := n.toNat }) s2 o a) →
    byteAt t a = byteAt s a) ∧
  ∀ k s t v c ti o a, s.thread? k = some v → v.trapq = some ti → s.crewSeen v.crewn.toNat = some c →
    exec (.trapEntry k) s = .next t → offRing s (menderOf c.tile) a →
    (let s2 := (s.peekNow k (recordVa c v) 8 8).2
     offWords k (recordVa c v) (trapRecord v s2 ti) s2 o a) →
    byteAt t a = byteAt s a

/-- What the engines store, where no crew is displaced: a segment of a copy its range of the destination; an element of a gather
or scatter its place; a conversion the elements of the handles it writes; a mangle operation its spill area or its two
handles; a pair stream the records of the batch; a moment instruction the elements of its handle. Every other byte reads as
before, spans of another owner apart (R205, R254, R270, R334, R336, R353, R368). -/
def Obligations.EngineStoreFrame : Prop :=
  (∀ tile n s t a op c, noneAway s → copyAt s tile n = some (op, c) → exec (.copySegmentBind tile n) s = .next t →
    (∀ off len seg src dst m s1 d, op.kind = .linear → op.nextSegment = some (off, len, seg) →
      s.segmentAt (c.agent op.crew) op off = (src, dst, m, s1) →
      ((s1.segmentRights (c.agent op.crew) src (min m len) false).2.segmentRights (c.agent op.crew) dst (min m len) true).1
        = .ok d →
      untouched s (linesOf d) d.attr.owner a) →
    byteAt t a = byteAt s a) ∧
  (∀ tile n e s t a op c, noneAway s → copyAt s tile n = some (op, c) → exec (.gatherReply tile n e) s = .next t →
    (∀ z, op.kind = .gather z →
      untouched s (linesOf { target := .spad op.crew (op.dst % 2 ^ 20 + z * e), attr := bareAttr c.task.owner, bytes := z })
        c.task.owner a) →
    (∀ z d off, op.kind = .scatter z → entryOf op.crew (op.entries.getD e 0) z = some (d, off) →
      untouched s (linesOf { target := .spad d off, attr := bareAttr c.task.owner, bytes := z }) c.task.owner a) →
    byteAt t a = byteAt s a) ∧
  (∀ tile s t a op ops, noneAway s → (s.tile tile).convQ = op :: ops → op.asker = none →
    exec (.convEngineRun tile) s = .next t → ownSpan s op.crew a →
    (∀ j ∈ convWrites op.instr, offElements op.crew (Handle.ofBits (op.handles.getD j 0)) a) → byteAt t a = byteAt s a) ∧
  (∀ tile s t a op ops, (s.tile tile).mangleQ = op :: ops → exec (.mangleOpRun tile) s = .next t → ownSpan s op.crew a →
    (match op.instr with
      | .mgadd _ _ _ _ _ _ _ =>
        ¬(spadPa op.crew (spillBase op.ctl) ≤ a ∧ a < spadPa op.crew (spillBase op.ctl + 16 * spillCap op.ctl))
      | _ => ∀ j, j < 2 → offElements op.crew (Handle.ofBits (op.handles.getD j 0)) a) → byteAt t a = byteAt s a) ∧
  (∀ site ctx s t a n h k c, s.hamperAt site ctx = some (n, h, k, c) → exec (.hamperBatchWrite site ctx) s = .next t →
    ownSpan s k a →
    (∀ x, (h.stream = some x ∨ (h.stream = none ∧ ∃ buf size tl num pc time rest,
        h.ops = .pair buf size tl num pc time :: rest ∧ (h.openStream buf size tl num pc time).stream = some x)) →
      (let off := if x.next % 2 = 1 then x.buf.2 else x.buf.1
       ¬(spadPa k off ≤ a ∧ a < spadPa k off + 32 * min batchSize x.recs.length))) → byteAt t a = byteAt s a) ∧
  ∀ tile s t a, exec (.momentStep tile) s = .next t →
    (∀ m i, m ∈ stepChoices tile s → stepSees s m = some i → ownSpan s i.crew a ∧
      (m.writes = none → ∀ n, (momentEffect i { s with draws := n } m.reads m.instr).isSome = true) ∧
      ∀ r x0, m.writes.isSome = true → momentStore m.instr = some (r, x0) → offElements i.crew (i.c.handle x0) a) →
    byteAt t a = byteAt s a

/-! ### Homes -/

/-- R106, R111: a sequential store of whole bytes to one line of global memory, or one span of a scratchpad, binds: its home's
lease ends at max(pts, rts + 1), which the thread's pts takes, its bytes read back, and a copy in the issuing tile's L1 takes
the new lease. -/
def Obligations.StoreBindsAtHome : Prop :=
  ∀ k s v acc rest p, s.thread? k = some v → v.unbound = acc :: rest →
    acc.kind = .store ∨ acc.kind = .storePair ∨ acc.kind = .row true → acc.remote = false → v.await ≠ .rows → acc.bit = 0 →
    acc.got = [] → acc.parts = [p] → acc.width = 8 * p.bytes → homeIs s p.target = true → s.nextBusy acc = false →
    s.homeFault p.target p.attr.owner = 0 → Memory.wf s.mem.mem = true →
    (let w := tmax v.pts (tadd (leaseAt s p.target).rts 1)
     leaves (exec (.storeBind k) s) k fun t x =>
       leaseAt t p.target = { wts := w, rts := w } ∧ x.pts = tmax v.pts w ∧
         Memory.readNat t.mem.mem (placeOf p.target) p.bytes = acc.data % 2 ^ acc.width ∧
         ∀ pa l, p.target = .phys pa → (s.tile acc.tile).l1find (pa / 128) = some l →
           ∃ l', (t.tile acc.tile).l1find (pa / 128) = some l' ∧ l'.wts = w ∧ l'.rts = w)

/-- R132, R133, R136: an atomic on one line of global memory, or one span of a scratchpad, binds. AMO writes what Table 6.3 gives
of the old value and gB, CAS and CASP the new value where the comparison holds: the home's lease then ends at
max(pts, rts + 1). Where the comparison fails nothing is written, pts takes the home's wts, and its rts covers pts. The register
takes the old value, sign-extended for S32 alone, a pair its low and high halves, and the acquire time is pts. -/
def Obligations.AtomicBindsAtHome : Prop :=
  ∀ k s v acc rest p, s.thread? k = some v → v.unbound = acc :: rest → acc.remote = false → v.await ≠ .rows →
    acc.parts = [p] → acc.got = [] → homeIs s p.target = true → s.nextBusy acc = false →
    s.homeFault p.target p.attr.owner = 0 → Memory.wf s.mem.mem = true → p.bytes = acc.width / 8 →
    (let h := leaseAt s p.target
     let old := leNat (s.homeBytes p)
     let w := tmax v.pts (tadd h.rts 1)
     let writes (new : Nat) (R : Thread → Prop) : Prop :=
       leaves (exec (.loadFill k) s) k fun t x =>
         leaseAt t p.target = { wts := w, rts := w } ∧ x.pts = tmax v.pts w ∧ x.acq = x.pts ∧ R x ∧
           Memory.readNat t.mem.mem (placeOf p.target) p.bytes = new
     let fails (R : Thread → Prop) : Prop :=
       leaves (exec (.loadFill k) s) k fun t x =>
         x.pts = tmax v.pts h.wts ∧ x.acq = x.pts ∧ R x ∧ t.mem.mem = s.mem.mem ∧
           ((∀ pa, p.target = .phys pa → (Map.get? s.mem.tags (pa / 128 / 4)).all (· == p.attr.owner) = true) →
             leaseAt t p.target = { wts := h.wts, rts := tmax h.rts (tmax v.pts h.wts) })
     let takesOld (d : Reg) (f : Fmt) (x : Thread) : Prop :=
       x.reg d = if f = .s32 then (BitVec.ofNat 32 old).signExtend 64 else BitVec.ofNat 64 old
     let takesPair (d : Reg) (x : Thread) : Prop :=
       x.reg d = BitVec.ofNat 64 old ∧ x.reg (nextReg d) = BitVec.ofNat 64 (old / 2 ^ 64)
     (∀ op d f, acc.kind = .amo op d f → acc.width = f.width → f.width = 32 ∨ f.width = 64 → acc.data < 2 ^ f.width →
       (let a := BitVec.ofNat f.width old
        let b := BitVec.ofNat f.width acc.data
        let new : Nat := match op with
          | .swap => acc.data
          | .add => (a + b).toNat
          | .and => (a &&& b).toNat
          | .or => (a ||| b).toNat
          | .xor => (a ^^^ b).toNat
          | .min => if (if f.isSigned then a.slt b else a.ult b) = true then a.toNat else b.toNat
          | .max => if (if f.isSigned then a.slt b else a.ult b) = true then b.toNat else a.toNat
          | .fadd => ((floatNum f old).add (floatNum f acc.data)).encode f % 2 ^ f.width
        writes new (takesOld d f))) ∧
     (∀ d f e, acc.kind = .cas d f e → acc.width = f.width → f.width = 32 ∨ f.width = 64 →
       (old = e → writes (acc.data % 2 ^ f.width) (takesOld d f)) ∧ (old ≠ e → fails (takesOld d f))) ∧
     (∀ d e, acc.kind = .casp d e → acc.width = 128 → d.val % 2 = 0 →
       (old = e → writes (acc.data % 2 ^ 128) (takesPair d)) ∧ (old ≠ e → fails (takesPair d))))

/-- R109, R110, R114, R119: a sequential load of a line of global memory binds, none of its thread's buffered bits among its
bytes. Whatever its scope, its value is that of a copy in the issuing tile's L1 or the home's, whose lease then ends no earlier
than pts + 16, and pts rises no further than that line's wts. Where every agent that has written the line is one the load is
ordered with, it is the copy's under a live lease and otherwise the home's, and pts takes the line's wts exactly, unless the load
has thread or crew scope and the copy may answer whatever its lease. A copy that is another owner's gives zeros (R205) where its
span is tagged. The model's choices here: a copy of a span that no store has tagged is readable, whoever's it is, and gives its
bytes (notes/assumptions/6.md); which of two allowed values is given is free (3.md, 59.md); which crews house scope reaches
(70.md). -/
def Obligations.LoadBindsAtHome : Prop :=
  ∀ k s v acc rest p pa d f, s.thread? k = some v → v.unbound = acc :: rest →
    acc.kind = .load d f false .plain ∨ acc.kind = .loadBits d f false → acc.remote = false → v.await ≠ .rows →
    acc.got = [] → acc.parts = [p] → p.target = .phys pa → s.nextBusy acc = false → s.homeFault (.phys pa) p.attr.owner = 0 →
    s.wcHolds k acc.parts = false → pa % 128 + p.bytes ≤ 128 →
    (let h := s.lineLease (pa / 128)
     let value (bs : List Byte) : Word := extend f (leNat bs / 2 ^ acc.bit % 2 ^ acc.width)
     let ofHome := value (slice (s.ownedBytes p.attr.owner (pa / 128 * 128) 128) (pa % 128) p.bytes)
     let readable (l : L1Line) : Prop := l.owner = p.attr.owner ∨ Map.get? s.mem.tags (pa / 128 / 4) = none
     let ofCopy (l : L1Line) (x : Thread) : Prop :=
       (readable l → x.reg d = value (slice l.data (pa % 128) p.bytes)) ∧
         (¬readable l → x.reg d = value (List.replicate p.bytes 0))
     let within (x : Thread) (wts : LTime) : Prop := v.pts.toNat ≤ x.pts.toNat ∧ x.pts.toNat ≤ (tmax v.pts wts).toNat
     let renewed (t : State) : Prop :=
       (Map.get? s.mem.tags (pa / 128 / 4)).all (· == p.attr.owner) = true →
         t.lineLease (pa / 128) = { wts := h.wts, rts := tmax h.rts (tadd v.pts 16) }
     let live (l : L1Line) : Prop := l.perm = true ∨ (v.pts.toNat ≤ l.rts.toNat ∧ l.rts ≠ maxTime)
     let copy := if p.attr.cached = true then (s.tile acc.tile).l1find (pa / 128) else none
     let ordered := ∀ y ∈ Map.getD s.mem.writers (pa / 128) [], s.mutual (s.writerOf v acc) y.1 = true
     (leaves (exec (.loadFill k) s) k fun t x =>
       (∃ l, copy = some l ∧ (l.perm = true ∨ l.rts ≠ maxTime) ∧ ofCopy l x ∧ within x l.wts) ∨
         (x.reg d = ofHome ∧ within x h.wts ∧ renewed t)) ∧
     (ordered → ∀ l, copy = some l → live l →
       leaves (exec (.loadFill k) s) k fun t x =>
         ofCopy l x ∧ x.pts = tmax v.pts l.wts ∧ t.mem.leases = s.mem.leases) ∧
     (ordered → (∀ l, copy = some l → ¬live l ∧ acc.scope ≠ .thread ∧ acc.scope ≠ .crew) →
       leaves (exec (.loadFill k) s) k fun t x => x.pts = tmax v.pts h.wts ∧ x.reg d = ofHome ∧ renewed t))

/-! ### Engines, launches and displacement -/

/-- R336, R337, R338, R142: where what is left of a CPY is one segment whose source lies in one line of global memory with no copy
in the tile L1, COPY_SEGMENT_BIND moves it: the bytes at the destination are those of the source as its owner reads them, the
granules of a scratchpad they lie in are full, and the barrier's PENDING falls by as many, where it does not reach zero with
them. -/
def Obligations.CopyMovesBytes : Prop :=
  ∀ tile n s op c src dst s1 p s2 d s3 pa lo hi, noneAway s → copyAt s tile n = some (op, c) → op.kind = .linear →
    op.held = [] → op.nextSegment = some (0, op.total, none) → s.segmentAt (c.agent op.crew) op 0 = (src, dst, op.total, s1) →
    s1.segmentRights (c.agent op.crew) src op.total false = (.ok p, s2) →
    s2.segmentRights (c.agent op.crew) dst op.total true = (.ok d, s3) →
    s3.segmentHome src p = none → s3.segmentHome dst d = none → p.target = .phys pa → pa % 128 + op.total ≤ 128 →
    (s3.tile c.tile).l1find (pa / 128) = none → bytesOf d = some (lo, hi) → Memory.wf s.mem.mem = true →
    ∃ t, exec (.copySegmentBind tile n) s = .next t ∧
      Memory.readBytes t.mem.mem lo op.total = s.ownedBytes p.attr.owner pa op.total ∧
      (∀ crew off x, d.target = .spad crew off → t.crew? crew = some x →
        ∀ g, off / 16 ≤ g → 16 * g < off + op.total → (x.granule g).full = true) ∧
      ∀ b, op.bar = some b → op.total < (c.barrier b).pending.toNat →
        ∃ x, t.crew? op.crew = some x ∧ (x.barrier b).pending.toNat = (c.barrier b).pending.toNat - op.total

/-- R384, R388, R394: a LAUNCH that completes leaves its line waiting for gD, with the lowest free pending entry as the value,
which then holds the launch of its record, a child of the line's own; or with bit 63 of the value set, and no entry and no
launch changed. An instance that a desk has selected is bound, where its node names no mailbox and no handles: its crew has the
declared tile, task and declaration and a scratchpad of zeros (the content at a bind is the model's choice,
notes/assumptions/57.md), and each of its lines starts at the node's entry, ready, with zero registers, f0 alone set, and the
instance's bind time. -/
def Obligations.LaunchTakesEntry : Prop :=
  (∀ p d a s i s1 e f t, workForm (.launch p d a) = some f → begins f.pred f.uses s = some (i, s1) → f.eff i s1 = some e →
    completes e = true → exec (.launch p d a) s = .next t →
    ∃ w v, t.thread? i.k = some w ∧ w.st = .waiting ∧ (w.finish.bind (·.dest)) = some (d, v) ∧
      ((∃ n y l, v = BitVec.ofNat 64 n ∧ n < Config.pendingEntries ∧ Map.get? s.work.pend n = none ∧
          (∀ m, m < n → (Map.get? s.work.pend m).isSome = true) ∧ Map.get? t.work.pend n = some y ∧ y.crew = i.crew ∧
          y.ended = false ∧ y.joined = false ∧ Map.get? t.work.launches y.launch = some l ∧
          l.recordVa = vaOf (i.reg a) ∧ l.parent = some i.c.launch ∧ l.entry = some n) ∨
        (v.getLsbD 63 = true ∧ t.work = s.work))) ∧
  ∀ site s l n i x nd tile num, s.selectedAt site = some (l, n, i) → Map.get? s.work.launches l = some x →
    x.nodes[n]? = some nd → (dieTiles site).find? (s.offers s.room nd.decl) = some tile → s.freeNumbers 1 = some num →
    s.liveThreads x.task.gtid + nd.decl.threads ≤ 2 ^ 24 →
    (nd.insts.any fun y => decide (y.1 < i) && y.2.state == .selected) = false → nd.mbox = 0 → nd.handles = 0 →
    ∃ t c, exec (.instanceBind site) s = .next t ∧ t.crew? num = some c ∧ c.tile = tile ∧ c.task = x.task ∧
      c.decl = nd.decl ∧ c.displaced = false ∧ (∀ off, off < 2 ^ 20 → byteAt t (spadPa num off) = 0) ∧
      ∀ j, j < nd.decl.threads → ∃ w, t.thread? (threadKey num j) = some w ∧ w.pc = BitVec.ofNat 56 nd.entry ∧
        w.g = Vector.replicate 8 0 ∧ w.flags = 1 ∧ w.st = .ready ∧ w.privl = x.priv ∧ w.pts = x.bindTime n i ∧
        w.acq = x.bindTime n i ∧ w.tidx = BitVec.ofNat 8 j

/-- What of a crew's special registers an image of its save area holds, where Table 8.8 puts them: TVEC, TAREA, MCTL, MSTAT,
CVCTL, CVSTAT, the windows, MGSPILL and the handles. -/
def imageHolds (m : Map Byte) (c : Crew) : Prop :=
  (∀ n w, [c.tvec, c.tarea, c.mctl, c.mstat, c.cvctl, c.cvstat][n]? = some w →
    leNat (imageBytes m (0x100 + 8 * n) 8) = w.toNat) ∧
  (∀ n : Fin 4, leNat (imageBytes m (0x138 + 8 * n.val) 8) = (c.win[n]).toNat) ∧
  leNat (imageBytes m 0x158 8) = c.mgspill.toNat ∧
  ∀ n : Fin 16, leNat (imageBytes m (0x200 + 16 * n.val) 16) = (c.handles[n]).toNat

/-- What a crew's special registers are after a restore from an image, their reserved fields zero (R6): TVEC, TAREA, MCTL, MSTAT,
CVCTL, CVSTAT, ACFG, the windows, MGSPILL, the handles and the mailbox. -/
def imageGives (m : Map Byte) (c : Crew) : Prop :=
  let word (n : Nat) : Nat := leNat (imageBytes m (0x100 + 8 * n) 8)
  c.tvec.toNat = word 0 / 4 % 2 ^ 54 * 4 ∧ c.tarea.toNat = word 1 / 64 % 2 ^ 50 * 64 ∧ c.mctl.toNat = word 2 % 8 ∧
    c.mstat.toNat = word 3 % 8 ∧ c.cvctl.toNat = word 4 % 4 ∧
    c.cvstat.toNat = word 5 % 2 ^ 6 + word 5 / 2 ^ 16 % 2 ^ 32 * 2 ^ 16 ∧ c.acfg.toNat = word 6 % 2 ^ 12 ∧
    (∀ n : Fin 4, (let w := word (7 + n.val)
      (c.win[n]).toNat = w % 2 ^ 3 + w / 2 ^ 4 % 2 ^ 16 * 2 ^ 4 + min (w / 2 ^ 20 % 2 ^ 17) 65536 * 2 ^ 20 +
        w / 2 ^ 40 % 2 ^ 20 * 2 ^ 40)) ∧
    c.mgspill.toNat = word 11 / 2 ^ 4 % 2 ^ 16 * 2 ^ 4 + min (word 11 / 2 ^ 20 % 2 ^ 17) 65536 * 2 ^ 20 ∧
    (∀ n : Fin 16, (c.handles[n]).toNat = leNat (imageBytes m (0x200 + 16 * n.val) 16) % 2 ^ 71) ∧
    c.mailbox = (List.range 32).map fun n => BitVec.ofNat 64 (leNat (imageBytes m (0x300 + 8 * n) 8))

/-- R194, R195, R197: a save that waits for nothing leaves its crew displaced, saved once more, with every line of it in memory,
and the image it writes holds the crew's special registers where Table 8.8 puts them; a restore to a tile that can take it leaves
the crew there, no longer displaced, with its special registers as the save area then holds them. That a restore takes what memory
then holds is the model's reading (notes/assumptions/45.md). -/
def Obligations.SaveDisplaces : Prop :=
  (∀ crew s c, (s.beginSave crew).crew? crew = some c → (s.beginSave crew).saveReady crew c = true →
    (((s.beginSave crew).linesOf crew).all fun e => ((s.beginSave crew).wcOf e.1).isEmpty) = true →
    (s.beginSave crew).savesHeld crew c 4096 c.saveUnits = [] →
    ∃ t x m, exec (.crewSave crew) s = .next t ∧ t.crew? crew = some x ∧ x.displaced = true ∧ x.saves = c.saves + 1 ∧
      x.lastSaved = some m ∧ imageHolds m c ∧
      ∀ k w, t.thread? k = some w → crewOf k = crew → w.loc = .memory) ∧
  ∀ crew tile s c m s1, s.crew? crew = some c → s.mayRestore crew c tile = true →
    s.readArea crew c c.saveUnits [] = (some m, s1) →
    ∃ t x, exec (.crewRestore crew tile) s = .next t ∧ t.crew? crew = some x ∧ x.displaced = false ∧ x.saving = false ∧
      x.tile = tile ∧ imageGives m x
end

