-- ==== Sys2Proof/Laws/Issue.lean ====
section
/-! SUPPORT. What `issue` answers when the instruction begins: the one lemma a proof about an instruction's own effect cites. -/

namespace Sys2Proof.Laws

open Sys2Proof.Machine Sys2Proof.Machine.Claim

/-- The thread and crew of the line that issues. -/
theorem issuing_some {s : State} {i : Issue} (h : issuing s = some i) :
    s.issuer = some i.k ∧ s.thread? i.k = some i.t ∧ (s.crew? i.t.crewn.toNat).map (·.seen s.clock) = some i.c ∧
      i.crew = i.t.crewn.toNat ∧ i.popped = none := by
  unfold issuing at h
  split at h
  · cases h
  · split at h
    · cases h
    · split at h
      · cases h
      · cases h; simp_all

/-- `issue` is the effect of R51 applied, for the line that issues. -/
theorem issue_of_issuing {s : State} {i : Issue} (h : issuing s = some i) (p : Pred) (len : Nat) (u : Uses)
    (body : Issue → State → Effect) :
    issue p len u body s =
      .next ((i.effect p u body { s with issuer := none }).apply i len { s with issuer := none }) := by
  unfold issuing at h
  unfold issue
  split at h
  · cases h
  · split at h
    · cases h
    · split at h
      · cases h
      · cases h; simp_all

/-- An effect is carried out by the line's number, crew and core alone. -/
theorem apply_congr {i j : Issue} (hk : i.k = j.k) (hc : i.crew = j.crew) (ht : i.t.entryCore = j.t.entryCore)
    (e : Effect) (len : Nat) (s : State) : e.apply i len s = e.apply j len s := by
  cases e <;> simp [Effect.apply, hk, hc, ht]

/-- Where the queue bindings are in order, the body runs on what it takes. -/
theorem withQueues_of_takes {u : Uses} {s s1 : State} {j i : Issue} (h : takes j u s = some (i, s1))
    (body : Issue → State → Effect) (hc : completes (body i s1) = true) :
    j.withQueues u body s = body i s1 ∧ i.k = j.k ∧ i.crew = j.crew ∧ i.t.entryCore = j.t.entryCore := by
  unfold takes at h
  unfold Issue.withQueues
  split at h
  · cases h
  · rename_i hm
    simp only [Bool.or_eq_true, not_or, Bool.not_eq_true, Option.isSome_eq_false_iff, Option.isNone_iff_eq_none] at hm
    obtain ⟨hm, hr⟩ := hm
    rw [hm]
    simp only [pops, pushes, hasRoom] at h hr ⊢
    have full (n : Nat) (hn : (j.t.pushv && u.writes.contains 7 && (!decide (n < 16) || j.yields s j.t.pushq false)) = false) :
        (j.t.pushv && u.writes.contains 7 && decide (n ≥ 16)) = false ∧
          (j.t.pushv && u.writes.contains 7 && j.yields s j.t.pushq (decide (n ≥ 16))) = false := by
      cases hb : (j.t.pushv && u.writes.contains 7)
      · simp
      · rw [hb] at hn
        have h1 : n < 16 := by
          by_contra h
          simp [h] at hn
        have h2 : ¬16 ≤ n := by omega
        simp [h1, h2] at hn ⊢
        exact hn
    cases hP : (j.t.popv && u.reads.contains 6)
    · simp only [hP, Bool.false_eq_true, if_false, false_and, Bool.false_and] at h hr ⊢
      cases h
      rw [if_neg (by simpa using (full _ hr).2), if_neg (by simpa using (full _ hr).1)]
      exact ⟨rfl, rfl, rfl, rfl⟩
    · simp only [hP, if_true, true_and, Bool.true_and] at h hr ⊢
      split at h
      · cases h
      · rename_i hq
        simp only [Bool.or_eq_true, not_or, Bool.not_eq_true] at hq
        cases h
        rw [if_neg (by simpa using hq.1), if_neg (by simpa using (full _ hr).2), if_neg (by simpa using (full _ hr).1),
          if_neg (by simp [hq.2])]
        refine ⟨?_, rfl, rfl, rfl⟩
        split
        · rename_i hs; rw [hs] at hc; cases hc
        · rfl

/-- An instruction that begins answers the state its body leaves. -/
theorem issue_of_begins {p : Pred} {u : Uses} {s : State} {i : Issue} {s1 : State} (h : begins p u s = some (i, s1))
    (len : Nat) (body : Issue → State → Effect) (hc : completes (body i s1) = true) :
    issue p len u body s = ends s i len (body i s1) := by
  unfold begins at h
  split at h
  · cases h
  · rename_i j hj
    rw [issue_of_issuing hj]
    split at h
    · cases h
    · rename_i hn
      simp only [Bool.or_eq_true, Bool.not_eq_true', not_or, Bool.not_eq_false] at hn
      obtain ⟨⟨hp, hg⟩, hv⟩ := hn
      have hno : j.t.mustWait u = .no := by
        unfold goesOn at hg
        split at hg
        · assumption
        · cases hg
      obtain ⟨hb, hk, hcr, ht⟩ := withQueues_of_takes h body hc
      have heff : j.effect p u body { s with issuer := none } = body i s1 := by
        simp only [Issue.effect, hp, hno, Bool.not_true, if_neg hv]
        exact hb
      rw [heff, apply_congr hk.symm hcr.symm ht.symm]
      rfl

/-- To say how an instruction ends it is enough to know its body. -/
theorem describes_of_body {f : Form} {x : Instr} (body : Issue → State → Effect)
    (hx : ∀ s, exec x s = issue f.pred f.len f.uses body s)
    (hb : ∀ i s e, f.eff i s = some e → body i s = e) : f.describes x := by
  intro s i s1 e hbeg he hc
  have hbody := hb i s1 e he
  rw [hx, issue_of_begins hbeg _ _ (by rw [hbody]; exact hc), hbody]

end Sys2Proof.Laws
end

