-- ==== Sys2Proof/Laws/Batch.lean ====
section
/-! SUPPORT. How batches run (R267 to R270): from the sources a batch reads and its span to the effect it ends with. -/

namespace Sys2Proof.Laws

open Sys2Proof Sys2Proof.Machine Sys2Proof.Machine.Claim

/-- Where a batch can read its sources, `batchRead` goes on with them. -/
theorem batchRead_of {i : Issue} {s s1 : State} {srcs dsts : List Elems} {vs : List (List Nat)}
    (h : batchSources i s srcs dsts = some (vs, s1)) (body : List (List Nat) → State → Effect) :
    i.batchRead s srcs dsts body = body vs s1 := by
  unfold batchSources at h
  unfold Issue.batchRead
  dsimp only at h ⊢
  rw [Option.ite_none_left_eq_some] at h
  obtain ⟨hc, h⟩ := h
  simp only [not_or, Bool.not_eq_true, Option.isSome_eq_false_iff, Option.isNone_iff_eq_none] at hc
  obtain ⟨h1, h2, h3, h4⟩ := hc
  have h3' : i.waitFull s srcs = none := by simp [Issue.waitFull, h3]
  have h4' : (srcs.findSome? fun e => (s.poisoned i.crew e).map fun va => (e.h, va)) = none := by
    rw [List.findSome?_eq_none_iff] at h4 ⊢
    intro e he; simp [h4 e he]
  rw [h1, h2, h3', h4']
  simp only [Option.some.injEq, Prod.mk.injEq] at h
  obtain ⟨rfl, rfl⟩ := h
  rfl

/-- Where a batch has a span, `batch` runs on it. -/
theorem batch_of {i : Issue} {a : Reg} {checks : List (Reg16 × (Fmt → Bool))} {lens : List Reg16} {lo hi : Nat}
    (h : batchSpan i a checks lens = some (lo, hi)) (empty : Effect) (body : Nat → Nat → Effect) :
    i.batch a checks lens empty body = if hi ≤ lo then empty else body lo hi := by
  unfold batchSpan at h
  unfold Issue.batch
  split at h
  · cases h
  · rename_i hc
    simp only [not_or, Option.not_isSome_iff_eq_none] at hc
    rw [if_neg hc.1, hc.2]
    cases h
    rfl

/-- A batch that completes is what its body gives. -/
theorem batchRun_of {i : Issue} {a : Reg} {checks : List (Reg16 × (Fmt → Bool))} {lens : List Reg16} {empty e : Effect}
    {f : List Nat → Option Effect} {body : Nat → Nat → Effect}
    (h : batchRun i a checks lens empty f = some e)
    (hb : ∀ lo hi, ¬ hi ≤ lo → f (span lo hi) = some e → body lo hi = e) :
    i.batch a checks lens empty body = e := by
  unfold batchRun at h
  split at h
  · cases h
  · rename_i lo hi hs
    rw [batch_of hs]
    split
    · simp_all
    · rename_i hn; rw [if_neg hn] at h; exact hb _ _ hn h

/-- An element-wise batch has its form where the two element functions agree. -/
theorem mapBatch_of (p d a x0 srcs checks) (f : Fmt → List (Fmt × Nat) → Nat) (g : Fmt → List (Fmt × Nat) → Nat) (x : Instr)
    (hx : ∀ s, exec x s = mapBatch p d a x0 srcs checks g s)
    (hfg : ∀ (i : Issue) (fs : List Fmt) vs, fs.length = srcs.length → f (i.fmt x0) (fs.zip vs) = g (i.fmt x0) (fs.zip vs)) :
    (mapForm p d a x0 srcs checks f).describes x := by
  refine describes_of_body _ hx ?_
  intro i s e he
  dsimp only [mapForm] at he
  refine batchRun_of he ?_
  intro lo hi _ h
  simp only [Option.map_eq_some_iff] at h
  obtain ⟨⟨vs, s1⟩, h1, rfl⟩ := h
  dsimp only
  rw [batchRead_of h1]
  simp [batchDone, Issue.put, natWord, hfg]


end Sys2Proof.Laws
end

