-- ==== Sys2Proof/Laws/Fields.lean ====
section
/-! SUPPORT. What each field of an instruction word reads as, once it has been written (Tables 2.2 to 2.4). -/

namespace Sys2Proof.Laws

open Sys2Proof.Machine (Fmt)

/-! ### Codes -/

@[simp] theorem scope_code (s : Scope) : Scope.ofCode s.code = some s := by cases s <;> rfl
@[simp] theorem cmp_code (c : CmpCond) : CmpCond.ofCode c.code = some c := by cases c <;> rfl
@[simp] theorem fcond_code (c : FCond) : FCond.ofCode c.code = some c := by cases c <;> rfl
@[simp] theorem bool_code (c : BoolOp) : BoolOp.ofCode c.code = some c := by cases c <;> rfl
@[simp] theorem fe_code (c : FeQual) : FeQual.ofCode c.code = some c := by cases c <;> rfl
@[simp] theorem fmt_code (f : Fmt) : Fmt.ofCode f.code = some f := by cases f <;> rfl
theorem fmt_code_lt (f : Fmt) : f.code < 256 := by cases f <;> decide
@[simp] theorem qbit_qb (b : Bool) : qbit (qOf (qb b)) 0 = b := by cases b <;> rfl
theorem fe_code_lt (f : FeQual) : f.code < 8 := by cases f <;> decide

/-! ### Bits 31:27 -/

@[simp] theorem qOf_val (n : Nat) : (qOf n).val = n % 32 := rfl
@[simp] theorem qM_scope (o : Nat) (s : Scope) : (qM o s).val / 4 = s.code := by
  simp only [qM]; omega
@[simp] theorem qM_ord (o : Nat) (s : Scope) : (qM o s).val % 4 = o % 4 := by
  simp only [qM]; omega

/-! ### Registers in wider fields -/

@[simp] theorem bitsReg_regBits (r : Reg) : bitsReg (regBits r) = r := by revert r; decide
@[simp] theorem bitsX_xBits (r : Reg16) : bitsX (xBits r) = r := by revert r; decide
@[simp] theorem regTl_tlReg (t : Tl) : regTl (tlReg t) = t := by revert t; decide
@[simp] theorem narrow_wide (r : Reg) : narrow (wide r) = r := by revert r; decide
@[simp] theorem xBar_barX (b : Option Reg) : xBar (barX b) = b := by
  cases b with
  | none => rfl
  | some b => revert b; decide

/-! ### Parts of an appended word -/

theorem part_low {n m : Nat} (a : BitVec n) (b : BitVec m) (o w : Nat) (h : o + w ≤ m) :
    (a ++ b).extractLsb' o w = b.extractLsb' o w := by
  ext i hi; simp [BitVec.getLsbD_append]; omega
theorem part_high {n m : Nat} (a : BitVec n) (b : BitVec m) (o w : Nat) (h : m ≤ o) :
    (a ++ b).extractLsb' o w = a.extractLsb' (o - m) w := by
  ext i hi
  simp only [BitVec.getElem_extractLsb', BitVec.getLsbD_append, show ¬ o + i < m by omega, if_false]
  congr 1; omega
theorem part_all {n : Nat} (a : BitVec n) : a.extractLsb' 0 n = a := by ext i hi; simp
theorem bit_low {n m : Nat} (a : BitVec n) (b : BitVec m) (o : Nat) (h : o < m) : (a ++ b).getLsbD o = b.getLsbD o := by
  simp [BitVec.getLsbD_append, h]
theorem bit_high {n m : Nat} (a : BitVec n) (b : BitVec m) (o : Nat) (h : m ≤ o) :
    (a ++ b).getLsbD o = a.getLsbD (o - m) := by
  simp [BitVec.getLsbD_append, show ¬ o < m by omega]

/-! ### The upper word of shape G -/

@[simp] theorem hiC_c (c : Reg) : (hiC c).extractLsb' 0 3 = regBits c :=
  (part_low 0#29 (regBits c) 0 3 (by omega)).trans (part_all _)
@[simp] theorem hiC_bi (c : Reg) : (hiC c).getLsbD 3 = false :=
  (bit_high 0#29 (regBits c) 3 (by omega)).trans (by decide)
@[simp] theorem hiImm_c (c : Reg) (i : BitVec 28) : (hiImm c i).extractLsb' 0 3 = regBits c :=
  (part_low i (1#1 ++ regBits c : BitVec 4) 0 3 (by omega)).trans
    ((part_low 1#1 (regBits c) 0 3 (by omega)).trans (part_all _))
@[simp] theorem hiImm_bi (c : Reg) (i : BitVec 28) : (hiImm c i).getLsbD 3 = true :=
  (bit_low i (1#1 ++ regBits c : BitVec 4) 3 (by omega)).trans ((bit_high 1#1 (regBits c) 3 (by omega)).trans (by decide))
@[simp] theorem hiImm_imm (c : Reg) (i : BitVec 28) : (hiImm c i).extractLsb' 4 28 = i :=
  (part_high i (1#1 ++ regBits c : BitVec 4) 4 28 (by omega)).trans (part_all _)
/-- Part of an immediate. -/
theorem hiImm_part (c : Reg) (i : BitVec 28) (w : Nat) : (hiImm c i).extractLsb' 4 w = i.extractLsb' 0 w :=
  part_high i (1#1 ++ regBits c : BitVec 4) 4 w (by omega)
theorem hiImm_partAt (c : Reg) (i : BitVec 28) (o w : Nat) : (hiImm c i).extractLsb' (4 + o) w = i.extractLsb' o w :=
  (part_high i (1#1 ++ regBits c : BitVec 4) (4 + o) w (by omega)).trans (by congr 1; omega)
/-- A field of a 28-bit immediate with zeros above it. -/
@[simp] theorem imm16 (x : BitVec 16) (c : Reg) : (hiImm c (0#12 ++ x : BitVec (12 + 16))).extractLsb' 4 16 = x :=
  (hiImm_part c _ 16).trans ((part_low 0#12 x 0 16 (by omega)).trans (part_all _))
@[simp] theorem imm12 (x : BitVec 12) (c : Reg) : (hiImm c (0#16 ++ x : BitVec (16 + 12))).extractLsb' 4 12 = x :=
  (hiImm_part c _ 12).trans ((part_low 0#16 x 0 12 (by omega)).trans (part_all _))
@[simp] theorem imm8 (x : BitVec 8) (c : Reg) : (hiImm c (0#20 ++ x : BitVec (20 + 8))).extractLsb' 4 8 = x :=
  (hiImm_part c _ 8).trans ((part_low 0#20 x 0 8 (by omega)).trans (part_all _))
@[simp] theorem imm6 (x : BitVec 6) (c : Reg) : (hiImm c (0#22 ++ x : BitVec (22 + 6))).extractLsb' 4 6 = x :=
  (hiImm_part c _ 6).trans ((part_low 0#22 x 0 6 (by omega)).trans (part_all _))
@[simp] theorem imm4 (x : BitVec 4) (c : Reg) : (hiImm c (0#24 ++ x : BitVec (24 + 4))).extractLsb' 4 4 = x :=
  (hiImm_part c _ 4).trans ((part_low 0#24 x 0 4 (by omega)).trans (part_all _))
@[simp] theorem cvt_dst (s d : BitVec 8) (c : Reg) :
    (hiImm c (0#12 ++ (s ++ d : BitVec (8 + 8)) : BitVec (12 + 16))).extractLsb' 4 8 = d :=
  (hiImm_part c _ 8).trans ((part_low 0#12 (s ++ d : BitVec (8 + 8)) 0 8 (by omega)).trans
    ((part_low s d 0 8 (by omega)).trans (part_all _)))
@[simp] theorem cvt_src (s d : BitVec 8) (c : Reg) :
    (hiImm c (0#12 ++ (s ++ d : BitVec (8 + 8)) : BitVec (12 + 16))).extractLsb' 12 8 = s :=
  (hiImm_partAt c _ 8 8).trans ((part_low 0#12 (s ++ d : BitVec (8 + 8)) 8 8 (by omega)).trans
    ((part_high s d 8 8 (by omega)).trans (part_all _)))
@[simp] theorem trap_imm (n : BitVec 16) : ((0#16 ++ n : BitVec (16 + 16)) : BitVec 32).extractLsb' 0 16 = n :=
  (part_low 0#16 n 0 16 (by omega)).trans (part_all _)
@[simp] theorem loop_len (c l : BitVec 16) : ((c ++ l : BitVec (16 + 16)) : BitVec 32).extractLsb' 0 16 = l :=
  (part_low c l 0 16 (by omega)).trans (part_all _)
@[simp] theorem loop_count (c l : BitVec 16) : ((c ++ l : BitVec (16 + 16)) : BitVec 32).extractLsb' 16 16 = c :=
  (part_high c l 16 16 (by omega)).trans (part_all _)
theorem fset_bit (c : Reg) (v : Bool) : (hiImm c (BitVec.ofNat 28 (qb v))).getLsbD 4 = v :=
  (bit_high (BitVec.ofNat 28 (qb v)) (1#1 ++ regBits c : BitVec 4) 4 (by omega)).trans (by cases v <;> decide)

@[simp] theorem fset_get (c : Reg) (v : Bool) : (hiImm c (BitVec.ofNat 28 (qb v)))[4] = v := fset_bit c v

/-- A second source reads as it was written. -/
theorem src_hiSrc (c : Reg) (b : Src) (r : Raw) (hb : r.b = srcB b) (hh : r.hi = hiSrc c b) : r.src = b := by
  cases b with
  | reg x => simp only [Raw.src, Raw.bi, hh, hiSrc, hiC_bi, hb, srcB]; rfl
  | imm x => simp only [Raw.src, Raw.bi, Raw.imm28, hh, hiSrc, hiImm_bi, hiImm_imm]; rfl
@[simp] theorem src_mk (len : Fin 4) (p : Pred) (opc : Fin 256) (d a c : Reg) (min : Fin 16) (q : Fin 32) (e1 e2 : BitVec 32)
    (b : Src) : (Raw.mk len p opc d a (srcB b) min q (hiSrc c b) e1 e2).src = b := src_hiSrc c b _ rfl rfl
@[simp] theorem c_hiSrc (c : Reg) (b : Src) : (hiSrc c b).extractLsb' 0 3 = regBits c := by cases b <;> simp [hiSrc]

/-! ### The upper word of shape M -/

/-- The low 14 bits of shape M. -/
theorem hiM_low (m : AddrMode) (qx fmt : Nat) (e : Fin 8) (o w : Nat) (h : o + w ≤ 14) :
    (hiM m qx fmt e).extractLsb' o w =
      (BitVec.ofNat 3 qx ++ (BitVec.ofNat 8 fmt ++ regBits e : BitVec (8 + 3)) : BitVec (3 + 11)).extractLsb' o w :=
  part_low (modeBits m) (BitVec.ofNat 3 qx ++ (BitVec.ofNat 8 fmt ++ regBits e : BitVec (8 + 3)) : BitVec (3 + 11)) o w h
/-- The high 18 bits of shape M. -/
theorem hiM_high (m : AddrMode) (qx fmt : Nat) (e : Fin 8) (o w : Nat) (h : 14 ≤ o) :
    (hiM m qx fmt e).extractLsb' o w = (modeBits m).extractLsb' (o - 14) w :=
  part_high (modeBits m) (BitVec.ofNat 3 qx ++ (BitVec.ofNat 8 fmt ++ regBits e : BitVec (8 + 3)) : BitVec (3 + 11)) o w h

@[simp] theorem hiM_evp (m : AddrMode) (qx fmt : Nat) (e : Fin 8) : (hiM m qx fmt e).extractLsb' 0 3 = regBits e :=
  (hiM_low m qx fmt e 0 3 (by omega)).trans
    ((part_low (BitVec.ofNat 3 qx) (BitVec.ofNat 8 fmt ++ regBits e : BitVec (8 + 3)) 0 3 (by omega)).trans
      ((part_low (BitVec.ofNat 8 fmt) (regBits e) 0 3 (by omega)).trans (part_all _)))
@[simp] theorem hiM_fmt (m : AddrMode) (qx fmt : Nat) (e : Fin 8) :
    (hiM m qx fmt e).extractLsb' 3 8 = BitVec.ofNat 8 fmt :=
  (hiM_low m qx fmt e 3 8 (by omega)).trans
    ((part_low (BitVec.ofNat 3 qx) (BitVec.ofNat 8 fmt ++ regBits e : BitVec (8 + 3)) 3 8 (by omega)).trans
      ((part_high (BitVec.ofNat 8 fmt) (regBits e) 3 8 (by omega)).trans (part_all _)))
@[simp] theorem hiM_qx (m : AddrMode) (qx fmt : Nat) (e : Fin 8) :
    (hiM m qx fmt e).extractLsb' 11 3 = BitVec.ofNat 3 qx :=
  (hiM_low m qx fmt e 11 3 (by omega)).trans
    ((part_high (BitVec.ofNat 3 qx) (BitVec.ofNat 8 fmt ++ regBits e : BitVec (8 + 3)) 11 3 (by omega)).trans (part_all _))
@[simp] theorem hiM_off (o : BitVec 17) (qx fmt : Nat) (e : Fin 8) : (hiM (.off o) qx fmt e).extractLsb' 15 17 = o :=
  (hiM_high _ qx fmt e 15 17 (by omega)).trans ((part_high o 0#1 1 17 (by omega)).trans (part_all _))
@[simp] theorem hiM_index (c : Reg) (qx fmt : Nat) (e : Fin 8) :
    (hiM (.index c) qx fmt e).extractLsb' 15 3 = regBits c :=
  (hiM_high _ qx fmt e 15 3 (by omega)).trans
    ((part_low 0#14 (regBits c ++ 1#1 : BitVec (3 + 1)) 1 3 (by omega)).trans
      ((part_high (regBits c) 1#1 1 3 (by omega)).trans (part_all _)))
theorem hiM_bit (m : AddrMode) (qx fmt : Nat) (e : Fin 8) : (hiM m qx fmt e).getLsbD 14 = (modeBits m).getLsbD 0 :=
  bit_high (modeBits m) (BitVec.ofNat 3 qx ++ (BitVec.ofNat 8 fmt ++ regBits e : BitVec (8 + 3)) : BitVec (3 + 11)) 14
    (by omega)
@[simp] theorem hiM_ix (m : AddrMode) (qx fmt : Nat) (e : Fin 8) :
    (hiM m qx fmt e).getLsbD 14 = match m with | .off _ => false | .index _ => true := by
  rw [hiM_bit]
  cases m with
  | off o =>
    exact (bit_low o 0#1 0 (by omega)).trans rfl
  | index c =>
    exact (bit_low 0#14 (regBits c ++ 1#1 : BitVec (3 + 1)) 0 (by omega)).trans
      ((bit_low (regBits c) 1#1 0 (by omega)).trans rfl)

@[simp] theorem hiM_get (m : AddrMode) (qx fmt : Nat) (e : Fin 8) :
    (hiM m qx fmt e)[14] = match m with | .off _ => false | .index _ => true := hiM_ix m qx fmt e

/-- A memory operand reads as it was written. -/
@[simp] theorem mem_mk (len : Fin 4) (p : Pred) (opc : Fin 256) (d b : Reg) (min : Fin 16) (e1 e2 : BitVec 32) (o qx fmt : Nat)
    (m : MemArg) :
    (Raw.mk len p opc d m.base b min (qM o m.scope) (hiM m.mode qx fmt m.evp) e1 e2).mem = some m := by
  obtain ⟨a, mode, s, e⟩ := m
  cases mode <;> simp [Raw.mem, Raw.scope, Raw.mode, Raw.off, Raw.evp]
@[simp] theorem fmt_mk (len : Fin 4) (p : Pred) (opc : Fin 256) (d a b : Reg) (min : Fin 16) (q : Fin 32) (e1 e2 : BitVec 32)
    (qx : Nat) (m : AddrMode) (e : Fin 8) (f : Fmt) :
    (Raw.mk len p opc d a b min q (hiM m qx f.code e) e1 e2).fmt = some f := by
  simp [Raw.fmt, Raw.fmtCode, Nat.mod_eq_of_lt (fmt_code_lt f)]
@[simp] theorem qx_mk (len : Fin 4) (p : Pred) (opc : Fin 256) (d a b : Reg) (min : Fin 16) (q : Fin 32) (e1 e2 : BitVec 32)
    (f : FeQual) (m : AddrMode) (e : Fin 8) (n : Nat) :
    FeQual.ofCode (Raw.mk len p opc d a b min q (hiM m f.code n e) e1 e2).qx = some f := by
  simp [Raw.qx, Nat.mod_eq_of_lt (fe_code_lt f)]

/-! ### The extension word -/

@[simp] theorem e1X_x0 (x0 x1 x2 x3 : Reg16) : (e1X x0 x1 x2 x3).extractLsb' 0 4 = xBits x0 :=
  (part_low 0#16 (xBits x3 ++ (xBits x2 ++ (xBits x1 ++ xBits x0 : BitVec (4 + 4)) : BitVec (4 + 8)) : BitVec (4 + 12))
    0 4 (by omega)).trans ((part_low (xBits x3) _ 0 4 (by omega)).trans ((part_low (xBits x2) _ 0 4 (by omega)).trans
      ((part_low (xBits x1) (xBits x0) 0 4 (by omega)).trans (part_all _))))
@[simp] theorem e1X_x1 (x0 x1 x2 x3 : Reg16) : (e1X x0 x1 x2 x3).extractLsb' 4 4 = xBits x1 :=
  (part_low 0#16 (xBits x3 ++ (xBits x2 ++ (xBits x1 ++ xBits x0 : BitVec (4 + 4)) : BitVec (4 + 8)) : BitVec (4 + 12))
    4 4 (by omega)).trans ((part_low (xBits x3) _ 4 4 (by omega)).trans ((part_low (xBits x2) _ 4 4 (by omega)).trans
      ((part_high (xBits x1) (xBits x0) 4 4 (by omega)).trans (part_all _))))
@[simp] theorem e1X_x2 (x0 x1 x2 x3 : Reg16) : (e1X x0 x1 x2 x3).extractLsb' 8 4 = xBits x2 :=
  (part_low 0#16 (xBits x3 ++ (xBits x2 ++ (xBits x1 ++ xBits x0 : BitVec (4 + 4)) : BitVec (4 + 8)) : BitVec (4 + 12))
    8 4 (by omega)).trans ((part_low (xBits x3) _ 8 4 (by omega)).trans ((part_high (xBits x2) _ 8 4 (by omega)).trans
      (part_all _)))
@[simp] theorem e1X_x3 (x0 x1 x2 x3 : Reg16) : (e1X x0 x1 x2 x3).extractLsb' 12 4 = xBits x3 :=
  (part_low 0#16 (xBits x3 ++ (xBits x2 ++ (xBits x1 ++ xBits x0 : BitVec (4 + 4)) : BitVec (4 + 8)) : BitVec (4 + 12))
    12 4 (by omega)).trans ((part_high (xBits x3) _ 12 4 (by omega)).trans (part_all _))

end Sys2Proof.Laws
end

