-- ==== Sys2Proof/Laws/Forms.lean ====
section
/-! SUPPORT. Every instruction with an encoding is issued under the predicate, the length and the register uses of its form:
from this, what R51 does before an instruction's own effect is the same for all of them. -/

namespace Sys2Proof.Laws

open Sys2Proof Sys2Proof.Machine Sys2Proof.Machine.Claim

/-- The instruction is issued under the form's predicate, length and uses. -/
def Issues (x : Instr) (f : Form) : Prop := ∃ body, ∀ s, exec x s = issue f.pred f.len f.uses body s

theorem integerForm_issues {x : Instr} {f : Form} (h : integerForm x = some f) : Issues x f := by
  unfold integerForm at h
  split at h
  all_goals first
    | cases h; exact ⟨_, fun _ => rfl⟩
    | cases h

theorem idleForm_issues {x : Instr} {f : Form} (h : idleForm x = some f) : Issues x f := by
  unfold idleForm at h
  split at h
  all_goals first
    | cases h; exact ⟨_, fun _ => rfl⟩
    | cases h

theorem floatForm_issues {x : Instr} {f : Form} (h : floatForm x = some f) : Issues x f := by
  unfold floatForm at h
  split at h
  all_goals first
    | cases h; exact ⟨_, fun _ => rfl⟩
    | cases h

theorem longForm_issues {x : Instr} {f : Form} (h : longForm x = some f) : Issues x f := by
  unfold longForm at h
  split at h
  all_goals first
    | cases h; exact ⟨_, fun _ => rfl⟩
    | cases h

theorem packedForm_issues {x : Instr} {f : Form} (h : packedForm x = some f) : Issues x f := by
  unfold packedForm at h
  split at h
  all_goals first
    | cases h; exact ⟨_, fun _ => rfl⟩
    | cases h

theorem branchForm_issues {x : Instr} {f : Form} (h : branchForm x = some f) : Issues x f := by
  unfold branchForm at h
  split at h
  all_goals first
    | cases h; exact ⟨_, fun _ => rfl⟩
    | cases h

theorem loopForm_issues {x : Instr} {f : Form} (h : loopForm x = some f) : Issues x f := by
  unfold loopForm at h
  split at h
  all_goals first
    | cases h; exact ⟨_, fun _ => rfl⟩
    | cases h

theorem flagForm_issues {x : Instr} {f : Form} (h : flagForm x = some f) : Issues x f := by
  unfold flagForm at h
  split at h
  all_goals first
    | cases h; exact ⟨_, fun _ => rfl⟩
    | cases h

theorem memoryForm_issues {x : Instr} {f : Form} (h : memoryForm x = some f) : Issues x f := by
  unfold memoryForm at h
  split at h
  all_goals first
    | cases h; exact ⟨_, fun _ => rfl⟩
    | cases h

theorem orderForm_issues {x : Instr} {f : Form} (h : orderForm x = some f) : Issues x f := by
  unfold orderForm at h
  split at h
  all_goals first
    | cases h; exact ⟨_, fun _ => rfl⟩
    | cases h

theorem barrierForm_issues {x : Instr} {f : Form} (h : barrierForm x = some f) : Issues x f := by
  unfold barrierForm at h
  split at h
  all_goals first
    | cases h; exact ⟨_, fun _ => rfl⟩
    | cases h

theorem messageForm_issues {x : Instr} {f : Form} (h : messageForm x = some f) : Issues x f := by
  unfold messageForm at h
  split at h
  all_goals first
    | cases h; exact ⟨_, fun _ => rfl⟩
    | cases h

theorem threadForm_issues {x : Instr} {f : Form} (h : threadForm x = some f) : Issues x f := by
  unfold threadForm at h
  split at h
  all_goals first
    | cases h; exact ⟨_, fun _ => rfl⟩
    | cases h

theorem queueForm_issues {x : Instr} {f : Form} (h : queueForm x = some f) : Issues x f := by
  unfold queueForm at h
  split at h
  all_goals first
    | cases h; exact ⟨_, fun _ => rfl⟩
    | cases h

theorem elementForm_issues {x : Instr} {f : Form} (h : elementForm x = some f) : Issues x f := by
  unfold elementForm at h
  split at h
  all_goals first
    | cases h; exact ⟨_, fun _ => rfl⟩
    | cases h

theorem vectorForm_issues {x : Instr} {f : Form} (h : vectorForm x = some f) : Issues x f := by
  unfold vectorForm at h
  split at h
  all_goals first
    | cases h; exact ⟨_, fun _ => rfl⟩
    | cases h

theorem laneForm_issues {x : Instr} {f : Form} (h : laneForm x = some f) : Issues x f := by
  unfold laneForm at h
  split at h
  all_goals first
    | cases h; exact ⟨_, fun _ => rfl⟩
    | cases h

theorem convertForm_issues {x : Instr} {f : Form} (h : convertForm x = some f) : Issues x f := by
  unfold convertForm at h
  split at h
  all_goals first
    | cases h; exact ⟨_, fun _ => rfl⟩
    | cases h

theorem engineForm_issues {x : Instr} {f : Form} (h : engineForm x = some f) : Issues x f := by
  unfold engineForm at h
  split at h
  all_goals first
    | cases h; exact ⟨_, fun _ => rfl⟩
    | cases h

theorem mangleForm_issues {x : Instr} {f : Form} (h : mangleForm x = some f) : Issues x f := by
  unfold mangleForm at h
  split at h
  all_goals first
    | cases h; exact ⟨_, fun _ => rfl⟩
    | cases h

theorem tileForm_issues {x : Instr} {f : Form} (h : tileForm x = some f) : Issues x f := by
  unfold tileForm at h
  split at h
  all_goals first
    | cases h; exact ⟨_, fun _ => rfl⟩
    | cases h

theorem arrayForm_issues {x : Instr} {f : Form} (h : arrayForm x = some f) : Issues x f := by
  unfold arrayForm at h
  split at h
  all_goals first
    | cases h; exact ⟨_, fun _ => rfl⟩
    | cases h

theorem carrierForm_issues {x : Instr} {f : Form} (h : carrierForm x = some f) : Issues x f := by
  unfold carrierForm at h
  split at h
  all_goals first
    | cases h; exact ⟨_, fun _ => rfl⟩
    | cases h

theorem hamperForm_issues {x : Instr} {f : Form} (h : hamperForm x = some f) : Issues x f := by
  unfold hamperForm at h
  split at h
  all_goals first
    | cases h; exact ⟨_, fun _ => rfl⟩
    | cases h

theorem readUses_priv (d : Reg) (sel : BitVec 12) : readUses d sel = { dst := [d], priv := sysReadPriv sel.toNat } := by
  simp only [readUses, sysReadPriv, Uses.mk.injEq, true_and, and_true]
  rw [Bool.eq_iff_iff]; simp [← BitVec.toNat_inj]

theorem writeUses_priv (a : Reg) (sel : BitVec 12) :
    writeUses a sel = { src := [a], priv := sysWritePriv sel.toNat } := by
  simp only [writeUses, sysWritePriv, Uses.mk.injEq, true_and, and_true]
  rw [Bool.eq_iff_iff]; simp [← BitVec.toNat_inj]

theorem systemForm_issues {x : Instr} {f : Form} (h : systemForm x = some f) : Issues x f := by
  unfold systemForm at h
  split at h
  all_goals first
    | cases h; exact ⟨_, fun _ => rfl⟩
    | cases h; rw [Issues, readUses_priv]; exact ⟨_, fun _ => rfl⟩
    | cases h; rw [Issues, writeUses_priv]; exact ⟨_, fun _ => rfl⟩
    | cases h

theorem workForm_issues {x : Instr} {f : Form} (h : workForm x = some f) : Issues x f := by
  unfold workForm at h
  split at h
  all_goals first
    | cases h; exact ⟨_, fun _ => rfl⟩
    | cases h

theorem tierForm_issues {x : Instr} {f : Form} (h : tierForm x = some f) : Issues x f := by
  unfold tierForm at h
  split at h
  all_goals first
    | cases h; exact ⟨_, fun _ => rfl⟩
    | cases h

theorem traceForm_issues {x : Instr} {f : Form} (h : traceForm x = some f) : Issues x f := by
  unfold traceForm at h
  split at h
  all_goals first
    | cases h; exact ⟨_, fun _ => rfl⟩
    | cases h

theorem trapForm_issues {x : Instr} {f : Form} (h : trapForm x = some f) : Issues x f := by
  unfold trapForm at h
  split at h
  all_goals first
    | cases h; exact ⟨_, fun _ => rfl⟩
    | cases h

theorem returnForm_issues {x : Instr} {f : Form} (h : returnForm x = some f) : Issues x f := by
  unfold returnForm at h
  split at h
  all_goals first
    | cases h; exact ⟨_, fun _ => rfl⟩
    | cases h

/-- A moment instruction reads gB as the MCTL of its crew has it (R293). -/
theorem momentForm_issues {mctl : Word} {x : Instr} {f : Form} {s : State} {i : Issue} (h : momentForm mctl x = some f)
    (hi : issuing s = some i) (hm : i.c.mctl = mctl) :
    ∃ body, exec x s = issue f.pred f.len f.uses body s := by
  obtain ⟨hk, ht, hc, -, -⟩ := issuing_some hi
  have hs : s.issuerMctl = mctl := by simp [State.issuerMctl, State.crewSeen, hk, ht, hc, hm]
  have hr (b : Reg) : rhoRegs s b = if mctl.toNat % 4 = 3 then [b] else [] := by rw [rhoRegs, hs]
  have hl (a b : Reg) : (if mctl.toNat % 4 = 3 then [a, b] else [a]) = a :: rhoRegs s b := by
    rw [hr]; split <;> rfl
  have hcol (op : ColOp) (a b : Reg) : (if op = .upper ∨ op = .lower then [a, b] else [a]) = a :: colRegs op b := by
    rw [colRegs]; split <;> rfl
  cases x
  all_goals first
    | (simp only [momentForm, momentParts, Option.map_some, Option.some.injEq] at h
       subst h
       simp only [momentReads, hl, hcol]
       exact ⟨_, rfl⟩)
    | cases h

end Sys2Proof.Laws
end

