-- ==== Sys2Proof/Laws/Memory.lean ====
section
/-! SUPPORT. Laws of finite maps and of byte memory: a read after a write, and the canonical form, which every memory operation
keeps. -/

namespace Sys2Proof.Laws

open Sys2Proof Sys2Proof.Machine

variable {α : Type}

/-! ### Maps -/

theorem Map.get?_put_same (m : Map α) (k : Nat) (v : α) : Machine.Map.get? (Machine.Map.put m k v) k = some v := by
  induction m with
  | nil => simp [Machine.Map.put, Machine.Map.get?]
  | cons e m ih =>
    obtain ⟨j, w⟩ := e
    simp only [Machine.Map.put]
    split
    · simp [Machine.Map.get?]
    · split
      · simp [Machine.Map.get?]
      · rename_i h
        simp [Machine.Map.get?, ih, Ne.symm h]

theorem Map.get?_put_ne (m : Map α) {k n : Nat} (v : α) (h : k ≠ n) :
    Machine.Map.get? (Machine.Map.put m k v) n = Machine.Map.get? m n := by
  induction m with
  | nil => simp [Machine.Map.put, Machine.Map.get?, h]
  | cons e m ih =>
    obtain ⟨j, w⟩ := e
    simp only [Machine.Map.put]
    split
    · simp [Machine.Map.get?, h]
    · split
      · rename_i hj
        subst hj
        simp [Machine.Map.get?, h]
      · simp [Machine.Map.get?, ih]

theorem Map.get?_del_ne (m : Map α) {k n : Nat} (h : k ≠ n) :
    Machine.Map.get? (Machine.Map.del m k) n = Machine.Map.get? m n := by
  induction m with
  | nil => rfl
  | cons e m ih =>
    obtain ⟨j, w⟩ := e
    simp only [Machine.Map.del]
    split
    · rename_i hj
      subst hj
      simp [Machine.Map.get?, h]
    · simp [Machine.Map.get?, ih]

/-- Keys strictly rising, as a relation between neighbours: every key after the first is above it. -/
theorem Map.sorted_cons (e : Nat × α) (m : Map α) :
    Machine.Map.sorted (e :: m) = true ↔ (∀ f ∈ m, e.1 < f.1) ∧ Machine.Map.sorted m = true := by
  induction m generalizing e with
  | nil => simp [Machine.Map.sorted]
  | cons f m ih =>
    obtain ⟨a, v⟩ := e
    obtain ⟨b, w⟩ := f
    simp only [Machine.Map.sorted, Bool.and_eq_true, decide_eq_true_eq]
    constructor
    · rintro ⟨hab, hs⟩
      refine ⟨fun x hx => ?_, hs⟩
      rcases List.mem_cons.mp hx with rfl | hx
      · exact hab
      · exact lt_trans hab (((ih (b, w)).mp hs).1 x hx)
    · rintro ⟨hall, hs⟩
      exact ⟨hall (b, w) (List.mem_cons_self ..), hs⟩

/-- Keys of a map after a put. -/
theorem Map.mem_put {m : Map α} {k : Nat} {v : α} {f : Nat × α} (h : f ∈ Machine.Map.put m k v) : f = (k, v) ∨ f ∈ m := by
  induction m with
  | nil => simpa [Machine.Map.put] using h
  | cons e m ih =>
    obtain ⟨j, w⟩ := e
    simp only [Machine.Map.put] at h
    split at h
    · simpa using h
    · split at h
      · rcases List.mem_cons.mp h with h | h
        · exact .inl h
        · exact .inr (List.mem_cons_of_mem _ h)
      · rcases List.mem_cons.mp h with h | h
        · exact .inr (h ▸ List.mem_cons_self ..)
        · rcases ih h with h | h
          · exact .inl h
          · exact .inr (List.mem_cons_of_mem _ h)

theorem Map.mem_del {m : Map α} {k : Nat} {f : Nat × α} (h : f ∈ Machine.Map.del m k) : f ∈ m := by
  induction m with
  | nil => exact h
  | cons e m ih =>
    obtain ⟨j, w⟩ := e
    simp only [Machine.Map.del] at h
    split at h
    · exact List.mem_cons_of_mem _ h
    · rcases List.mem_cons.mp h with h | h
      · exact h ▸ List.mem_cons_self ..
      · exact List.mem_cons_of_mem _ (ih h)

theorem Map.sorted_put {m : Map α} (h : Machine.Map.sorted m = true) (k : Nat) (v : α) :
    Machine.Map.sorted (Machine.Map.put m k v) = true := by
  induction m with
  | nil => simp [Machine.Map.put, Machine.Map.sorted]
  | cons e m ih =>
    obtain ⟨j, w⟩ := e
    obtain ⟨hj, hs⟩ := (Map.sorted_cons _ _).mp h
    simp only [Machine.Map.put]
    split
    · rename_i hk
      refine (Map.sorted_cons _ _).mpr ⟨fun f hf => ?_, h⟩
      rcases List.mem_cons.mp hf with rfl | hf
      · exact hk
      · exact lt_trans hk (hj f hf)
    · split
      · rename_i hk
        exact (Map.sorted_cons _ _).mpr ⟨fun f hf => hk ▸ hj f hf, hs⟩
      · rename_i h1 h2
        refine (Map.sorted_cons _ _).mpr ⟨fun f hf => ?_, ih hs⟩
        rcases Map.mem_put hf with rfl | hf
        · show j < k
          omega
        · exact hj f hf

theorem Map.sorted_del {m : Map α} (h : Machine.Map.sorted m = true) (k : Nat) :
    Machine.Map.sorted (Machine.Map.del m k) = true := by
  induction m with
  | nil => rfl
  | cons e m ih =>
    obtain ⟨j, w⟩ := e
    obtain ⟨hj, hs⟩ := (Map.sorted_cons _ _).mp h
    simp only [Machine.Map.del]
    split
    · exact hs
    · exact (Map.sorted_cons _ _).mpr ⟨fun f hf => hj f (Map.mem_del hf), ih hs⟩

theorem Map.get?_of_lt {m : Map α} {k : Nat} (h : ∀ f ∈ m, k < f.1) : Machine.Map.get? m k = none := by
  induction m with
  | nil => rfl
  | cons e m ih =>
    have := h e (List.mem_cons_self ..)
    simp [Machine.Map.get?, Nat.ne_of_gt this, ih fun f hf => h f (List.mem_cons_of_mem _ hf)]

theorem Map.get?_del_same {m : Map α} (h : Machine.Map.sorted m = true) (k : Nat) :
    Machine.Map.get? (Machine.Map.del m k) k = none := by
  induction m with
  | nil => rfl
  | cons e m ih =>
    obtain ⟨j, w⟩ := e
    obtain ⟨hj, hs⟩ := (Map.sorted_cons _ _).mp h
    simp only [Machine.Map.del]
    split
    · rename_i hk
      exact Map.get?_of_lt (hk ▸ hj)
    · rename_i hk
      simp [Machine.Map.get?, hk, ih hs]

theorem Map.sorted_filter {m : Map α} (h : Machine.Map.sorted m = true) (p : Nat × α → Bool) :
    Machine.Map.sorted (m.filter p) = true := by
  induction m with
  | nil => rfl
  | cons e m ih =>
    obtain ⟨hj, hs⟩ := (Map.sorted_cons _ _).mp h
    rw [List.filter_cons]
    split
    · exact (Map.sorted_cons _ _).mpr ⟨fun f hf => hj f (List.mem_of_mem_filter hf), ih hs⟩
    · exact ih hs

/-! ### Byte memory -/

theorem Memory.read_write_ne (m : Memory) {a b : Nat} (v : Byte) (h : a ≠ b) :
    Memory.read (Memory.write m a v) b = Memory.read m b := by
  unfold Memory.read Memory.write Machine.Map.set Machine.Map.getD
  split
  · rw [Map.get?_del_ne m h]
  · rw [Map.get?_put_ne m v h]

theorem Memory.wf_iff (m : Memory) :
    Memory.wf m = true ↔ Machine.Map.sorted m = true ∧ ∀ c ∈ m, c.2 ≠ emptyByte := by
  simp [Memory.wf, List.all_eq_true]

theorem Memory.read_write_same {m : Memory} (h : Memory.wf m = true) (a : Nat) (v : Byte) :
    Memory.read (Memory.write m a v) a = v := by
  unfold Memory.read Memory.write Machine.Map.set Machine.Map.getD
  split
  · rename_i hv
    rw [Map.get?_del_same ((Memory.wf_iff m).mp h).1, hv]
    rfl
  · rw [Map.get?_put_same]
    rfl

theorem Memory.wf_write {m : Memory} (h : Memory.wf m = true) (a : Nat) (v : Byte) :
    Memory.wf (Memory.write m a v) = true := by
  obtain ⟨hs, hne⟩ := (Memory.wf_iff m).mp h
  unfold Memory.write Machine.Map.set
  split
  · exact (Memory.wf_iff _).mpr ⟨Map.sorted_del hs a, fun c hc => hne c (Map.mem_del hc)⟩
  · rename_i hv
    refine (Memory.wf_iff _).mpr ⟨Map.sorted_put hs a v, fun c hc => ?_⟩
    rcases Map.mem_put hc with rfl | hc
    · exact hv
    · exact hne c hc

theorem Memory.wf_writeBytes {m : Memory} (h : Memory.wf m = true) (a : Nat) (bs : List Byte) :
    Memory.wf (Memory.writeBytes m a bs) = true := by
  induction bs generalizing m a with
  | nil => exact h
  | cons b bs ih => exact ih (Memory.wf_write h a b) (a + 1)

theorem Memory.wf_writeNat {m : Memory} (h : Memory.wf m = true) (a n v : Nat) :
    Memory.wf (Memory.writeNat m a n v) = true := Memory.wf_writeBytes h a _

theorem Memory.wf_clearRange {m : Memory} (h : Memory.wf m = true) (a n : Nat) :
    Memory.wf (clearRange m a n) = true := by
  obtain ⟨hs, hne⟩ := (Memory.wf_iff m).mp h
  exact (Memory.wf_iff _).mpr ⟨Map.sorted_filter hs _, fun c hc => hne c (List.mem_of_mem_filter hc)⟩

theorem Memory.read_writeBytes_outside (m : Memory) (a : Nat) (bs : List Byte) {b : Nat}
    (h : ¬(a ≤ b ∧ b < a + bs.length)) : Memory.read (Memory.writeBytes m a bs) b = Memory.read m b := by
  induction bs generalizing m a with
  | nil => rfl
  | cons x bs ih =>
    simp only [List.length_cons] at h
    rw [Memory.writeBytes, ih _ _ (by omega), Memory.read_write_ne m x (by omega)]

/-- The bytes written read back. -/
theorem Memory.readBytes_writeBytes {m : Memory} (h : Memory.wf m = true) (a : Nat) (bs : List Byte) :
    Memory.readBytes (Memory.writeBytes m a bs) a bs.length = bs := by
  induction bs generalizing m a with
  | nil => rfl
  | cons b bs ih =>
    rw [List.length_cons, Memory.readBytes, Memory.writeBytes, ih (Memory.wf_write h a b),
      Memory.read_writeBytes_outside _ _ _ (by omega), Memory.read_write_same h]

theorem Memory.read_clearRange (m : Memory) (a n : Nat) {b : Nat} (h : ¬(a ≤ b ∧ b < a + n)) :
    Memory.read (clearRange m a n) b = Memory.read m b := by
  unfold Memory.read Machine.Map.getD clearRange
  congr 1
  induction m with
  | nil => rfl
  | cons e m ih =>
    obtain ⟨j, w⟩ := e
    rw [List.filter_cons]
    split
    · simp only [Machine.Map.get?, ih]
    · rename_i hj
      have : j ≠ b := by
        rintro rfl
        simp at hj
        omega
      simp only [Machine.Map.get?, if_neg this, ih]

/-! ### The stores of Home.lean -/

theorem retag_wf {m : MemSys} (h : Memory.wf m.mem = true) (owner span : Nat) : Memory.wf (m.retag owner span).mem = true := by
  unfold MemSys.retag
  split
  · split
    · exact h
    · exact Memory.wf_clearRange h _ _
  · exact h

end Sys2Proof.Laws
end

