-- ==== Sys2Proof/Laws/State.lean ====
section
/-! SUPPORT. One lemma per field of the state and per update of it, so that no later proof unfolds a record update; and what
each update does to the object it names. -/

namespace Sys2Proof.Laws

set_option Elab.async false

open Sys2Proof Sys2Proof.Machine

@[simp] theorem setThread_agenda (s : State) (k : Nat) (t : Thread) : (s.setThread k t).agenda = s.agenda := rfl
@[simp] theorem setThread_issuer (s : State) (k : Nat) (t : Thread) : (s.setThread k t).issuer = s.issuer := rfl
@[simp] theorem setThread_draws (s : State) (k : Nat) (t : Thread) : (s.setThread k t).draws = s.draws := rfl
@[simp] theorem setThread_tick (s : State) (k : Nat) (t : Thread) : (s.setThread k t).tick = s.tick := rfl
@[simp] theorem setThread_clock (s : State) (k : Nat) (t : Thread) : (s.setThread k t).clock = s.clock := rfl
@[simp] theorem setThread_mem (s : State) (k : Nat) (t : Thread) : (s.setThread k t).mem = s.mem := rfl
@[simp] theorem setThread_crews (s : State) (k : Nat) (t : Thread) : (s.setThread k t).crews = s.crews := rfl
@[simp] theorem setThread_tiles (s : State) (k : Nat) (t : Thread) : (s.setThread k t).tiles = s.tiles := rfl
@[simp] theorem setThread_cores (s : State) (k : Nat) (t : Thread) : (s.setThread k t).cores = s.cores := rfl
@[simp] theorem setThread_sites (s : State) (k : Nat) (t : Thread) : (s.setThread k t).sites = s.sites := rfl
@[simp] theorem setThread_rings (s : State) (k : Nat) (t : Thread) : (s.setThread k t).rings = s.rings := rfl
@[simp] theorem setThread_tier (s : State) (k : Nat) (t : Thread) : (s.setThread k t).tier = s.tier := rfl
@[simp] theorem setThread_work (s : State) (k : Nat) (t : Thread) : (s.setThread k t).work = s.work := rfl
@[simp] theorem setThread_dbg (s : State) (k : Nat) (t : Thread) : (s.setThread k t).dbg = s.dbg := rfl

@[simp] theorem setCrew_agenda (s : State) (n : Nat) (c : Crew) : (s.setCrew n c).agenda = s.agenda := rfl
@[simp] theorem setCrew_issuer (s : State) (n : Nat) (c : Crew) : (s.setCrew n c).issuer = s.issuer := rfl
@[simp] theorem setCrew_draws (s : State) (n : Nat) (c : Crew) : (s.setCrew n c).draws = s.draws := rfl
@[simp] theorem setCrew_tick (s : State) (n : Nat) (c : Crew) : (s.setCrew n c).tick = s.tick := rfl
@[simp] theorem setCrew_clock (s : State) (n : Nat) (c : Crew) : (s.setCrew n c).clock = s.clock := rfl
@[simp] theorem setCrew_mem (s : State) (n : Nat) (c : Crew) : (s.setCrew n c).mem = s.mem := rfl
@[simp] theorem setCrew_threads (s : State) (n : Nat) (c : Crew) : (s.setCrew n c).threads = s.threads := rfl
@[simp] theorem setCrew_tiles (s : State) (n : Nat) (c : Crew) : (s.setCrew n c).tiles = s.tiles := rfl
@[simp] theorem setCrew_cores (s : State) (n : Nat) (c : Crew) : (s.setCrew n c).cores = s.cores := rfl
@[simp] theorem setCrew_sites (s : State) (n : Nat) (c : Crew) : (s.setCrew n c).sites = s.sites := rfl
@[simp] theorem setCrew_rings (s : State) (n : Nat) (c : Crew) : (s.setCrew n c).rings = s.rings := rfl
@[simp] theorem setCrew_tier (s : State) (n : Nat) (c : Crew) : (s.setCrew n c).tier = s.tier := rfl
@[simp] theorem setCrew_work (s : State) (n : Nat) (c : Crew) : (s.setCrew n c).work = s.work := rfl
@[simp] theorem setCrew_dbg (s : State) (n : Nat) (c : Crew) : (s.setCrew n c).dbg = s.dbg := rfl

@[simp] theorem modTile_agenda (s : State) (n : Nat) (f : Tile → Tile) : (s.modTile n f).agenda = s.agenda := rfl
@[simp] theorem modTile_issuer (s : State) (n : Nat) (f : Tile → Tile) : (s.modTile n f).issuer = s.issuer := rfl
@[simp] theorem modTile_draws (s : State) (n : Nat) (f : Tile → Tile) : (s.modTile n f).draws = s.draws := rfl
@[simp] theorem modTile_tick (s : State) (n : Nat) (f : Tile → Tile) : (s.modTile n f).tick = s.tick := rfl
@[simp] theorem modTile_clock (s : State) (n : Nat) (f : Tile → Tile) : (s.modTile n f).clock = s.clock := rfl
@[simp] theorem modTile_mem (s : State) (n : Nat) (f : Tile → Tile) : (s.modTile n f).mem = s.mem := rfl
@[simp] theorem modTile_threads (s : State) (n : Nat) (f : Tile → Tile) : (s.modTile n f).threads = s.threads := rfl
@[simp] theorem modTile_crews (s : State) (n : Nat) (f : Tile → Tile) : (s.modTile n f).crews = s.crews := rfl
@[simp] theorem modTile_cores (s : State) (n : Nat) (f : Tile → Tile) : (s.modTile n f).cores = s.cores := rfl
@[simp] theorem modTile_sites (s : State) (n : Nat) (f : Tile → Tile) : (s.modTile n f).sites = s.sites := rfl
@[simp] theorem modTile_rings (s : State) (n : Nat) (f : Tile → Tile) : (s.modTile n f).rings = s.rings := rfl
@[simp] theorem modTile_tier (s : State) (n : Nat) (f : Tile → Tile) : (s.modTile n f).tier = s.tier := rfl
@[simp] theorem modTile_work (s : State) (n : Nat) (f : Tile → Tile) : (s.modTile n f).work = s.work := rfl
@[simp] theorem modTile_dbg (s : State) (n : Nat) (f : Tile → Tile) : (s.modTile n f).dbg = s.dbg := rfl

@[simp] theorem modCore_agenda (s : State) (n : Nat) (f : Core → Core) : (s.modCore n f).agenda = s.agenda := rfl
@[simp] theorem modCore_issuer (s : State) (n : Nat) (f : Core → Core) : (s.modCore n f).issuer = s.issuer := rfl
@[simp] theorem modCore_draws (s : State) (n : Nat) (f : Core → Core) : (s.modCore n f).draws = s.draws := rfl
@[simp] theorem modCore_tick (s : State) (n : Nat) (f : Core → Core) : (s.modCore n f).tick = s.tick := rfl
@[simp] theorem modCore_clock (s : State) (n : Nat) (f : Core → Core) : (s.modCore n f).clock = s.clock := rfl
@[simp] theorem modCore_mem (s : State) (n : Nat) (f : Core → Core) : (s.modCore n f).mem = s.mem := rfl
@[simp] theorem modCore_threads (s : State) (n : Nat) (f : Core → Core) : (s.modCore n f).threads = s.threads := rfl
@[simp] theorem modCore_crews (s : State) (n : Nat) (f : Core → Core) : (s.modCore n f).crews = s.crews := rfl
@[simp] theorem modCore_tiles (s : State) (n : Nat) (f : Core → Core) : (s.modCore n f).tiles = s.tiles := rfl
@[simp] theorem modCore_sites (s : State) (n : Nat) (f : Core → Core) : (s.modCore n f).sites = s.sites := rfl
@[simp] theorem modCore_rings (s : State) (n : Nat) (f : Core → Core) : (s.modCore n f).rings = s.rings := rfl
@[simp] theorem modCore_tier (s : State) (n : Nat) (f : Core → Core) : (s.modCore n f).tier = s.tier := rfl
@[simp] theorem modCore_work (s : State) (n : Nat) (f : Core → Core) : (s.modCore n f).work = s.work := rfl
@[simp] theorem modCore_dbg (s : State) (n : Nat) (f : Core → Core) : (s.modCore n f).dbg = s.dbg := rfl

@[simp] theorem modSite_agenda (s : State) (n : Nat) (f : Site → Site) : (s.modSite n f).agenda = s.agenda := rfl
@[simp] theorem modSite_issuer (s : State) (n : Nat) (f : Site → Site) : (s.modSite n f).issuer = s.issuer := rfl
@[simp] theorem modSite_draws (s : State) (n : Nat) (f : Site → Site) : (s.modSite n f).draws = s.draws := rfl
@[simp] theorem modSite_tick (s : State) (n : Nat) (f : Site → Site) : (s.modSite n f).tick = s.tick := rfl
@[simp] theorem modSite_clock (s : State) (n : Nat) (f : Site → Site) : (s.modSite n f).clock = s.clock := rfl
@[simp] theorem modSite_mem (s : State) (n : Nat) (f : Site → Site) : (s.modSite n f).mem = s.mem := rfl
@[simp] theorem modSite_threads (s : State) (n : Nat) (f : Site → Site) : (s.modSite n f).threads = s.threads := rfl
@[simp] theorem modSite_crews (s : State) (n : Nat) (f : Site → Site) : (s.modSite n f).crews = s.crews := rfl
@[simp] theorem modSite_tiles (s : State) (n : Nat) (f : Site → Site) : (s.modSite n f).tiles = s.tiles := rfl
@[simp] theorem modSite_cores (s : State) (n : Nat) (f : Site → Site) : (s.modSite n f).cores = s.cores := rfl
@[simp] theorem modSite_rings (s : State) (n : Nat) (f : Site → Site) : (s.modSite n f).rings = s.rings := rfl
@[simp] theorem modSite_tier (s : State) (n : Nat) (f : Site → Site) : (s.modSite n f).tier = s.tier := rfl
@[simp] theorem modSite_work (s : State) (n : Nat) (f : Site → Site) : (s.modSite n f).work = s.work := rfl
@[simp] theorem modSite_dbg (s : State) (n : Nat) (f : Site → Site) : (s.modSite n f).dbg = s.dbg := rfl

@[simp] theorem modRing_agenda (s : State) (n : Nat) (f : Ring → Ring) : (s.modRing n f).agenda = s.agenda := rfl
@[simp] theorem modRing_issuer (s : State) (n : Nat) (f : Ring → Ring) : (s.modRing n f).issuer = s.issuer := rfl
@[simp] theorem modRing_draws (s : State) (n : Nat) (f : Ring → Ring) : (s.modRing n f).draws = s.draws := rfl
@[simp] theorem modRing_tick (s : State) (n : Nat) (f : Ring → Ring) : (s.modRing n f).tick = s.tick := rfl
@[simp] theorem modRing_clock (s : State) (n : Nat) (f : Ring → Ring) : (s.modRing n f).clock = s.clock := rfl
@[simp] theorem modRing_mem (s : State) (n : Nat) (f : Ring → Ring) : (s.modRing n f).mem = s.mem := rfl
@[simp] theorem modRing_threads (s : State) (n : Nat) (f : Ring → Ring) : (s.modRing n f).threads = s.threads := rfl
@[simp] theorem modRing_crews (s : State) (n : Nat) (f : Ring → Ring) : (s.modRing n f).crews = s.crews := rfl
@[simp] theorem modRing_tiles (s : State) (n : Nat) (f : Ring → Ring) : (s.modRing n f).tiles = s.tiles := rfl
@[simp] theorem modRing_cores (s : State) (n : Nat) (f : Ring → Ring) : (s.modRing n f).cores = s.cores := rfl
@[simp] theorem modRing_sites (s : State) (n : Nat) (f : Ring → Ring) : (s.modRing n f).sites = s.sites := rfl
@[simp] theorem modRing_tier (s : State) (n : Nat) (f : Ring → Ring) : (s.modRing n f).tier = s.tier := rfl
@[simp] theorem modRing_work (s : State) (n : Nat) (f : Ring → Ring) : (s.modRing n f).work = s.work := rfl
@[simp] theorem modRing_dbg (s : State) (n : Nat) (f : Ring → Ring) : (s.modRing n f).dbg = s.dbg := rfl

@[simp] theorem stamp_agenda (s : State) : (s.stamp.2).agenda = s.agenda := rfl
@[simp] theorem stamp_issuer (s : State) : (s.stamp.2).issuer = s.issuer := rfl
@[simp] theorem stamp_draws (s : State) : (s.stamp.2).draws = s.draws := rfl
@[simp] theorem stamp_clock (s : State) : (s.stamp.2).clock = s.clock := rfl
@[simp] theorem stamp_mem (s : State) : (s.stamp.2).mem = s.mem := rfl
@[simp] theorem stamp_threads (s : State) : (s.stamp.2).threads = s.threads := rfl
@[simp] theorem stamp_crews (s : State) : (s.stamp.2).crews = s.crews := rfl
@[simp] theorem stamp_tiles (s : State) : (s.stamp.2).tiles = s.tiles := rfl
@[simp] theorem stamp_cores (s : State) : (s.stamp.2).cores = s.cores := rfl
@[simp] theorem stamp_sites (s : State) : (s.stamp.2).sites = s.sites := rfl
@[simp] theorem stamp_rings (s : State) : (s.stamp.2).rings = s.rings := rfl
@[simp] theorem stamp_tier (s : State) : (s.stamp.2).tier = s.tier := rfl
@[simp] theorem stamp_work (s : State) : (s.stamp.2).work = s.work := rfl
@[simp] theorem stamp_dbg (s : State) : (s.stamp.2).dbg = s.dbg := rfl

@[simp] theorem choose_agenda (s : State) : (s.choose.2).agenda = s.agenda := rfl
@[simp] theorem choose_issuer (s : State) : (s.choose.2).issuer = s.issuer := rfl
@[simp] theorem choose_tick (s : State) : (s.choose.2).tick = s.tick := rfl
@[simp] theorem choose_clock (s : State) : (s.choose.2).clock = s.clock := rfl
@[simp] theorem choose_mem (s : State) : (s.choose.2).mem = s.mem := rfl
@[simp] theorem choose_threads (s : State) : (s.choose.2).threads = s.threads := rfl
@[simp] theorem choose_crews (s : State) : (s.choose.2).crews = s.crews := rfl
@[simp] theorem choose_tiles (s : State) : (s.choose.2).tiles = s.tiles := rfl
@[simp] theorem choose_cores (s : State) : (s.choose.2).cores = s.cores := rfl
@[simp] theorem choose_sites (s : State) : (s.choose.2).sites = s.sites := rfl
@[simp] theorem choose_rings (s : State) : (s.choose.2).rings = s.rings := rfl
@[simp] theorem choose_tier (s : State) : (s.choose.2).tier = s.tier := rfl
@[simp] theorem choose_work (s : State) : (s.choose.2).work = s.work := rfl
@[simp] theorem choose_dbg (s : State) : (s.choose.2).dbg = s.dbg := rfl

@[simp] theorem freeWord_agenda (s : State) : (s.freeWord.2).agenda = s.agenda := rfl
@[simp] theorem freeWord_issuer (s : State) : (s.freeWord.2).issuer = s.issuer := rfl
@[simp] theorem freeWord_tick (s : State) : (s.freeWord.2).tick = s.tick := rfl
@[simp] theorem freeWord_clock (s : State) : (s.freeWord.2).clock = s.clock := rfl
@[simp] theorem freeWord_mem (s : State) : (s.freeWord.2).mem = s.mem := rfl
@[simp] theorem freeWord_threads (s : State) : (s.freeWord.2).threads = s.threads := rfl
@[simp] theorem freeWord_crews (s : State) : (s.freeWord.2).crews = s.crews := rfl
@[simp] theorem freeWord_tiles (s : State) : (s.freeWord.2).tiles = s.tiles := rfl
@[simp] theorem freeWord_cores (s : State) : (s.freeWord.2).cores = s.cores := rfl
@[simp] theorem freeWord_sites (s : State) : (s.freeWord.2).sites = s.sites := rfl
@[simp] theorem freeWord_rings (s : State) : (s.freeWord.2).rings = s.rings := rfl
@[simp] theorem freeWord_tier (s : State) : (s.freeWord.2).tier = s.tier := rfl
@[simp] theorem freeWord_work (s : State) : (s.freeWord.2).work = s.work := rfl
@[simp] theorem freeWord_dbg (s : State) : (s.freeWord.2).dbg = s.dbg := rfl

@[simp] theorem wakeWhere_agenda (s : State) (p : Thread → Bool) : (s.wakeWhere p).agenda = s.agenda := rfl
@[simp] theorem wakeWhere_issuer (s : State) (p : Thread → Bool) : (s.wakeWhere p).issuer = s.issuer := rfl
@[simp] theorem wakeWhere_draws (s : State) (p : Thread → Bool) : (s.wakeWhere p).draws = s.draws := rfl
@[simp] theorem wakeWhere_tick (s : State) (p : Thread → Bool) : (s.wakeWhere p).tick = s.tick := rfl
@[simp] theorem wakeWhere_clock (s : State) (p : Thread → Bool) : (s.wakeWhere p).clock = s.clock := rfl
@[simp] theorem wakeWhere_mem (s : State) (p : Thread → Bool) : (s.wakeWhere p).mem = s.mem := rfl
@[simp] theorem wakeWhere_crews (s : State) (p : Thread → Bool) : (s.wakeWhere p).crews = s.crews := rfl
@[simp] theorem wakeWhere_tiles (s : State) (p : Thread → Bool) : (s.wakeWhere p).tiles = s.tiles := rfl
@[simp] theorem wakeWhere_cores (s : State) (p : Thread → Bool) : (s.wakeWhere p).cores = s.cores := rfl
@[simp] theorem wakeWhere_sites (s : State) (p : Thread → Bool) : (s.wakeWhere p).sites = s.sites := rfl
@[simp] theorem wakeWhere_rings (s : State) (p : Thread → Bool) : (s.wakeWhere p).rings = s.rings := rfl
@[simp] theorem wakeWhere_tier (s : State) (p : Thread → Bool) : (s.wakeWhere p).tier = s.tier := rfl
@[simp] theorem wakeWhere_work (s : State) (p : Thread → Bool) : (s.wakeWhere p).work = s.work := rfl
@[simp] theorem wakeWhere_dbg (s : State) (p : Thread → Bool) : (s.wakeWhere p).dbg = s.dbg := rfl

@[simp] theorem wakeAwait_agenda (s : State) (a : Await) : (s.wakeAwait a).agenda = s.agenda := rfl
@[simp] theorem wakeAwait_issuer (s : State) (a : Await) : (s.wakeAwait a).issuer = s.issuer := rfl
@[simp] theorem wakeAwait_draws (s : State) (a : Await) : (s.wakeAwait a).draws = s.draws := rfl
@[simp] theorem wakeAwait_tick (s : State) (a : Await) : (s.wakeAwait a).tick = s.tick := rfl
@[simp] theorem wakeAwait_clock (s : State) (a : Await) : (s.wakeAwait a).clock = s.clock := rfl
@[simp] theorem wakeAwait_mem (s : State) (a : Await) : (s.wakeAwait a).mem = s.mem := rfl
@[simp] theorem wakeAwait_crews (s : State) (a : Await) : (s.wakeAwait a).crews = s.crews := rfl
@[simp] theorem wakeAwait_tiles (s : State) (a : Await) : (s.wakeAwait a).tiles = s.tiles := rfl
@[simp] theorem wakeAwait_cores (s : State) (a : Await) : (s.wakeAwait a).cores = s.cores := rfl
@[simp] theorem wakeAwait_sites (s : State) (a : Await) : (s.wakeAwait a).sites = s.sites := rfl
@[simp] theorem wakeAwait_rings (s : State) (a : Await) : (s.wakeAwait a).rings = s.rings := rfl
@[simp] theorem wakeAwait_tier (s : State) (a : Await) : (s.wakeAwait a).tier = s.tier := rfl
@[simp] theorem wakeAwait_work (s : State) (a : Await) : (s.wakeAwait a).work = s.work := rfl
@[simp] theorem wakeAwait_dbg (s : State) (a : Await) : (s.wakeAwait a).dbg = s.dbg := rfl

@[simp] theorem wakeKind_agenda (s : State) (crew kind : Nat) (p : Nat → Bool) : (s.wakeKind crew kind p).agenda = s.agenda := rfl
@[simp] theorem wakeKind_issuer (s : State) (crew kind : Nat) (p : Nat → Bool) : (s.wakeKind crew kind p).issuer = s.issuer := rfl
@[simp] theorem wakeKind_draws (s : State) (crew kind : Nat) (p : Nat → Bool) : (s.wakeKind crew kind p).draws = s.draws := rfl
@[simp] theorem wakeKind_tick (s : State) (crew kind : Nat) (p : Nat → Bool) : (s.wakeKind crew kind p).tick = s.tick := rfl
@[simp] theorem wakeKind_clock (s : State) (crew kind : Nat) (p : Nat → Bool) : (s.wakeKind crew kind p).clock = s.clock := rfl
@[simp] theorem wakeKind_mem (s : State) (crew kind : Nat) (p : Nat → Bool) : (s.wakeKind crew kind p).mem = s.mem := rfl
@[simp] theorem wakeKind_crews (s : State) (crew kind : Nat) (p : Nat → Bool) : (s.wakeKind crew kind p).crews = s.crews := rfl
@[simp] theorem wakeKind_tiles (s : State) (crew kind : Nat) (p : Nat → Bool) : (s.wakeKind crew kind p).tiles = s.tiles := rfl
@[simp] theorem wakeKind_cores (s : State) (crew kind : Nat) (p : Nat → Bool) : (s.wakeKind crew kind p).cores = s.cores := rfl
@[simp] theorem wakeKind_sites (s : State) (crew kind : Nat) (p : Nat → Bool) : (s.wakeKind crew kind p).sites = s.sites := rfl
@[simp] theorem wakeKind_rings (s : State) (crew kind : Nat) (p : Nat → Bool) : (s.wakeKind crew kind p).rings = s.rings := rfl
@[simp] theorem wakeKind_tier (s : State) (crew kind : Nat) (p : Nat → Bool) : (s.wakeKind crew kind p).tier = s.tier := rfl
@[simp] theorem wakeKind_work (s : State) (crew kind : Nat) (p : Nat → Bool) : (s.wakeKind crew kind p).work = s.work := rfl
@[simp] theorem wakeKind_dbg (s : State) (crew kind : Nat) (p : Nat → Bool) : (s.wakeKind crew kind p).dbg = s.dbg := rfl

@[simp] theorem modThread_agenda (s : State) (k : Nat) (f : Thread → Thread) : (s.modThread k f).agenda = s.agenda := by
  unfold State.modThread; split <;> rfl
@[simp] theorem modThread_issuer (s : State) (k : Nat) (f : Thread → Thread) : (s.modThread k f).issuer = s.issuer := by
  unfold State.modThread; split <;> rfl
@[simp] theorem modThread_draws (s : State) (k : Nat) (f : Thread → Thread) : (s.modThread k f).draws = s.draws := by
  unfold State.modThread; split <;> rfl
@[simp] theorem modThread_tick (s : State) (k : Nat) (f : Thread → Thread) : (s.modThread k f).tick = s.tick := by
  unfold State.modThread; split <;> rfl
@[simp] theorem modThread_clock (s : State) (k : Nat) (f : Thread → Thread) : (s.modThread k f).clock = s.clock := by
  unfold State.modThread; split <;> rfl
@[simp] theorem modThread_mem (s : State) (k : Nat) (f : Thread → Thread) : (s.modThread k f).mem = s.mem := by
  unfold State.modThread; split <;> rfl
@[simp] theorem modThread_crews (s : State) (k : Nat) (f : Thread → Thread) : (s.modThread k f).crews = s.crews := by
  unfold State.modThread; split <;> rfl
@[simp] theorem modThread_tiles (s : State) (k : Nat) (f : Thread → Thread) : (s.modThread k f).tiles = s.tiles := by
  unfold State.modThread; split <;> rfl
@[simp] theorem modThread_cores (s : State) (k : Nat) (f : Thread → Thread) : (s.modThread k f).cores = s.cores := by
  unfold State.modThread; split <;> rfl
@[simp] theorem modThread_sites (s : State) (k : Nat) (f : Thread → Thread) : (s.modThread k f).sites = s.sites := by
  unfold State.modThread; split <;> rfl
@[simp] theorem modThread_rings (s : State) (k : Nat) (f : Thread → Thread) : (s.modThread k f).rings = s.rings := by
  unfold State.modThread; split <;> rfl
@[simp] theorem modThread_tier (s : State) (k : Nat) (f : Thread → Thread) : (s.modThread k f).tier = s.tier := by
  unfold State.modThread; split <;> rfl
@[simp] theorem modThread_work (s : State) (k : Nat) (f : Thread → Thread) : (s.modThread k f).work = s.work := by
  unfold State.modThread; split <;> rfl
@[simp] theorem modThread_dbg (s : State) (k : Nat) (f : Thread → Thread) : (s.modThread k f).dbg = s.dbg := by
  unfold State.modThread; split <;> rfl

@[simp] theorem modCrew_agenda (s : State) (n : Nat) (f : Crew → Crew) : (s.modCrew n f).agenda = s.agenda := by
  unfold State.modCrew; split <;> rfl
@[simp] theorem modCrew_issuer (s : State) (n : Nat) (f : Crew → Crew) : (s.modCrew n f).issuer = s.issuer := by
  unfold State.modCrew; split <;> rfl
@[simp] theorem modCrew_draws (s : State) (n : Nat) (f : Crew → Crew) : (s.modCrew n f).draws = s.draws := by
  unfold State.modCrew; split <;> rfl
@[simp] theorem modCrew_tick (s : State) (n : Nat) (f : Crew → Crew) : (s.modCrew n f).tick = s.tick := by
  unfold State.modCrew; split <;> rfl
@[simp] theorem modCrew_clock (s : State) (n : Nat) (f : Crew → Crew) : (s.modCrew n f).clock = s.clock := by
  unfold State.modCrew; split <;> rfl
@[simp] theorem modCrew_mem (s : State) (n : Nat) (f : Crew → Crew) : (s.modCrew n f).mem = s.mem := by
  unfold State.modCrew; split <;> rfl
@[simp] theorem modCrew_threads (s : State) (n : Nat) (f : Crew → Crew) : (s.modCrew n f).threads = s.threads := by
  unfold State.modCrew; split <;> rfl
@[simp] theorem modCrew_tiles (s : State) (n : Nat) (f : Crew → Crew) : (s.modCrew n f).tiles = s.tiles := by
  unfold State.modCrew; split <;> rfl
@[simp] theorem modCrew_cores (s : State) (n : Nat) (f : Crew → Crew) : (s.modCrew n f).cores = s.cores := by
  unfold State.modCrew; split <;> rfl
@[simp] theorem modCrew_sites (s : State) (n : Nat) (f : Crew → Crew) : (s.modCrew n f).sites = s.sites := by
  unfold State.modCrew; split <;> rfl
@[simp] theorem modCrew_rings (s : State) (n : Nat) (f : Crew → Crew) : (s.modCrew n f).rings = s.rings := by
  unfold State.modCrew; split <;> rfl
@[simp] theorem modCrew_tier (s : State) (n : Nat) (f : Crew → Crew) : (s.modCrew n f).tier = s.tier := by
  unfold State.modCrew; split <;> rfl
@[simp] theorem modCrew_work (s : State) (n : Nat) (f : Crew → Crew) : (s.modCrew n f).work = s.work := by
  unfold State.modCrew; split <;> rfl
@[simp] theorem modCrew_dbg (s : State) (n : Nat) (f : Crew → Crew) : (s.modCrew n f).dbg = s.dbg := by
  unfold State.modCrew; split <;> rfl

@[simp] theorem offer_agenda (s : State) (e : TraceEv) : (s.offer e).agenda = s.agenda := rfl
@[simp] theorem offer_issuer (s : State) (e : TraceEv) : (s.offer e).issuer = s.issuer := rfl
@[simp] theorem offer_draws (s : State) (e : TraceEv) : (s.offer e).draws = s.draws := rfl
@[simp] theorem offer_tick (s : State) (e : TraceEv) : (s.offer e).tick = s.tick := rfl
@[simp] theorem offer_clock (s : State) (e : TraceEv) : (s.offer e).clock = s.clock := rfl
@[simp] theorem offer_mem (s : State) (e : TraceEv) : (s.offer e).mem = s.mem := rfl
@[simp] theorem offer_threads (s : State) (e : TraceEv) : (s.offer e).threads = s.threads := rfl
@[simp] theorem offer_crews (s : State) (e : TraceEv) : (s.offer e).crews = s.crews := rfl
@[simp] theorem offer_tiles (s : State) (e : TraceEv) : (s.offer e).tiles = s.tiles := rfl
@[simp] theorem offer_cores (s : State) (e : TraceEv) : (s.offer e).cores = s.cores := rfl
@[simp] theorem offer_sites (s : State) (e : TraceEv) : (s.offer e).sites = s.sites := rfl
@[simp] theorem offer_rings (s : State) (e : TraceEv) : (s.offer e).rings = s.rings := rfl
@[simp] theorem offer_tier (s : State) (e : TraceEv) : (s.offer e).tier = s.tier := rfl
@[simp] theorem offer_work (s : State) (e : TraceEv) : (s.offer e).work = s.work := rfl

/-! ### The object an update names -/

@[simp] theorem setThread_same (s : State) (k : Nat) (t : Thread) : (s.setThread k t).thread? k = some t :=
  Map.get?_put_same ..
theorem setThread_ne (s : State) {k n : Nat} (t : Thread) (h : k ≠ n) : (s.setThread k t).thread? n = s.thread? n :=
  Map.get?_put_ne _ _ h
@[simp] theorem setCrew_same (s : State) (n : Nat) (c : Crew) : (s.setCrew n c).crew? n = some c := Map.get?_put_same ..
theorem setCrew_ne (s : State) {m n : Nat} (c : Crew) (h : m ≠ n) : (s.setCrew m c).crew? n = s.crew? n :=
  Map.get?_put_ne _ _ h

theorem modThread_same {s : State} {k : Nat} {t : Thread} (h : s.thread? k = some t) (f : Thread → Thread) :
    (s.modThread k f).thread? k = some (f t) := by
  simp [State.modThread, h]
theorem modThread_ne (s : State) {k n : Nat} (f : Thread → Thread) (h : k ≠ n) :
    (s.modThread k f).thread? n = s.thread? n := by
  unfold State.modThread
  split
  · exact setThread_ne _ _ h
  · rfl
theorem modCrew_same {s : State} {n : Nat} {c : Crew} (h : s.crew? n = some c) (f : Crew → Crew) :
    (s.modCrew n f).crew? n = some (f c) := by
  simp [State.modCrew, h]
theorem modCrew_ne (s : State) {m n : Nat} (f : Crew → Crew) (h : m ≠ n) : (s.modCrew m f).crew? n = s.crew? n := by
  unfold State.modCrew
  split
  · exact setCrew_ne _ _ h
  · rfl
@[simp] theorem modTile_same (s : State) (n : Nat) (f : Tile → Tile) : (s.modTile n f).tile n = f (s.tile n) := by
  simp [State.modTile, State.tile, Machine.Map.modify, Machine.Map.getD, Map.get?_put_same]
theorem modTile_ne (s : State) {m n : Nat} (f : Tile → Tile) (h : m ≠ n) : (s.modTile m f).tile n = s.tile n := by
  simp [State.modTile, State.tile, Machine.Map.modify, Machine.Map.getD, Map.get?_put_ne _ _ h]
@[simp] theorem modCore_same (s : State) (n : Nat) (f : Core → Core) : (s.modCore n f).core n = f (s.core n) := by
  simp [State.modCore, State.core, Machine.Map.modify, Machine.Map.getD, Map.get?_put_same]
theorem modCore_ne (s : State) {m n : Nat} (f : Core → Core) (h : m ≠ n) : (s.modCore m f).core n = s.core n := by
  simp [State.modCore, State.core, Machine.Map.modify, Machine.Map.getD, Map.get?_put_ne _ _ h]

/-! ### What an instruction of a cycle sees of its crew (R47) -/

@[simp] theorem crew_regs_withRegs (c : Crew) (r : CrewRegs) : (c.withRegs r).regs = r := rfl
@[simp] theorem crew_withRegs_regs (c : Crew) : c.withRegs c.regs = c := rfl

/-- A crew whose registers have not changed in the cycle is seen as it is. -/
theorem crewSeen_of_crew {s : State} {n : Nat} {c : Crew} (h : s.crew? n = some c) (he : c.early = none) :
    s.crewSeen n = some c := by
  simp [State.crewSeen, Crew.seen, h, he]

/-- A register that an instruction has written is seen as it was for the rest of the cycle, and as it is from the next cycle on. -/
theorem crewSeen_keep {c : Crew} (now : Nat) (f : Crew → Crew)
    (hf : (f (c.keep now)).early = some (now, c.regs)) :
    ((f (c.keep now)).seen now).regs = c.regs ∧ (f (c.keep now)).seen (now + 1) = f (c.keep now) := by
  simp [Crew.seen, hf, Crew.regs, Crew.withRegs]

/-! ### Lines whose words the fields of an update leave alone -/

@[simp] theorem thread_raise_g (t : Thread) (x : LTime) : (t.raise x).g = t.g := rfl
@[simp] theorem thread_raise_flags (t : Thread) (x : LTime) : (t.raise x).flags = t.flags := rfl
@[simp] theorem thread_raise_pc (t : Thread) (x : LTime) : (t.raise x).pc = t.pc := rfl
@[simp] theorem thread_raise_link (t : Thread) (x : LTime) : (t.raise x).link = t.link := rfl
@[simp] theorem thread_raise_privl (t : Thread) (x : LTime) : (t.raise x).privl = t.privl := rfl
@[simp] theorem thread_raise_efmt (t : Thread) (x : LTime) : (t.raise x).efmt = t.efmt := rfl
@[simp] theorem thread_raise_lact0 (t : Thread) (x : LTime) : (t.raise x).lact0 = t.lact0 := rfl
@[simp] theorem thread_raise_lact1 (t : Thread) (x : LTime) : (t.raise x).lact1 = t.lact1 := rfl
@[simp] theorem thread_raise_loop0 (t : Thread) (x : LTime) : (t.raise x).loop0 = t.loop0 := rfl
@[simp] theorem thread_raise_loop1 (t : Thread) (x : LTime) : (t.raise x).loop1 = t.loop1 := rfl
@[simp] theorem thread_raise_pend (t : Thread) (x : LTime) : (t.raise x).pend = t.pend := rfl
@[simp] theorem thread_raise_unbound (t : Thread) (x : LTime) : (t.raise x).unbound = t.unbound := rfl
@[simp] theorem thread_raise_deferred (t : Thread) (x : LTime) : (t.raise x).deferred = t.deferred := rfl
@[simp] theorem thread_raise_popv (t : Thread) (x : LTime) : (t.raise x).popv = t.popv := rfl
@[simp] theorem thread_raise_pushv (t : Thread) (x : LTime) : (t.raise x).pushv = t.pushv := rfl
@[simp] theorem thread_raise_popq (t : Thread) (x : LTime) : (t.raise x).popq = t.popq := rfl
@[simp] theorem thread_raise_pushq (t : Thread) (x : LTime) : (t.raise x).pushq = t.pushq := rfl

@[simp] theorem thread_acquire_g (t : Thread) (x : LTime) : (t.acquire x).g = t.g := rfl
@[simp] theorem thread_acquire_flags (t : Thread) (x : LTime) : (t.acquire x).flags = t.flags := rfl
@[simp] theorem thread_acquire_pc (t : Thread) (x : LTime) : (t.acquire x).pc = t.pc := rfl
@[simp] theorem thread_acquire_link (t : Thread) (x : LTime) : (t.acquire x).link = t.link := rfl
@[simp] theorem thread_acquire_privl (t : Thread) (x : LTime) : (t.acquire x).privl = t.privl := rfl
@[simp] theorem thread_acquire_efmt (t : Thread) (x : LTime) : (t.acquire x).efmt = t.efmt := rfl
@[simp] theorem thread_acquire_lact0 (t : Thread) (x : LTime) : (t.acquire x).lact0 = t.lact0 := rfl
@[simp] theorem thread_acquire_lact1 (t : Thread) (x : LTime) : (t.acquire x).lact1 = t.lact1 := rfl
@[simp] theorem thread_acquire_loop0 (t : Thread) (x : LTime) : (t.acquire x).loop0 = t.loop0 := rfl
@[simp] theorem thread_acquire_loop1 (t : Thread) (x : LTime) : (t.acquire x).loop1 = t.loop1 := rfl
@[simp] theorem thread_acquire_pend (t : Thread) (x : LTime) : (t.acquire x).pend = t.pend := rfl
@[simp] theorem thread_acquire_unbound (t : Thread) (x : LTime) : (t.acquire x).unbound = t.unbound := rfl
@[simp] theorem thread_acquire_deferred (t : Thread) (x : LTime) : (t.acquire x).deferred = t.deferred := rfl
@[simp] theorem thread_acquire_popv (t : Thread) (x : LTime) : (t.acquire x).popv = t.popv := rfl
@[simp] theorem thread_acquire_pushv (t : Thread) (x : LTime) : (t.acquire x).pushv = t.pushv := rfl
@[simp] theorem thread_acquire_popq (t : Thread) (x : LTime) : (t.acquire x).popq = t.popq := rfl
@[simp] theorem thread_acquire_pushq (t : Thread) (x : LTime) : (t.acquire x).pushq = t.pushq := rfl

@[simp] theorem thread_toWait_g (t : Thread) (kind obj : Nat) (a : Await) : (t.toWait kind obj a).g = t.g := rfl
@[simp] theorem thread_toWait_flags (t : Thread) (kind obj : Nat) (a : Await) : (t.toWait kind obj a).flags = t.flags := rfl
@[simp] theorem thread_toWait_pc (t : Thread) (kind obj : Nat) (a : Await) : (t.toWait kind obj a).pc = t.pc := rfl
@[simp] theorem thread_toWait_link (t : Thread) (kind obj : Nat) (a : Await) : (t.toWait kind obj a).link = t.link := rfl
@[simp] theorem thread_toWait_privl (t : Thread) (kind obj : Nat) (a : Await) : (t.toWait kind obj a).privl = t.privl := rfl
@[simp] theorem thread_toWait_efmt (t : Thread) (kind obj : Nat) (a : Await) : (t.toWait kind obj a).efmt = t.efmt := rfl
@[simp] theorem thread_toWait_lact0 (t : Thread) (kind obj : Nat) (a : Await) : (t.toWait kind obj a).lact0 = t.lact0 := rfl
@[simp] theorem thread_toWait_lact1 (t : Thread) (kind obj : Nat) (a : Await) : (t.toWait kind obj a).lact1 = t.lact1 := rfl
@[simp] theorem thread_toWait_loop0 (t : Thread) (kind obj : Nat) (a : Await) : (t.toWait kind obj a).loop0 = t.loop0 := rfl
@[simp] theorem thread_toWait_loop1 (t : Thread) (kind obj : Nat) (a : Await) : (t.toWait kind obj a).loop1 = t.loop1 := rfl
@[simp] theorem thread_toWait_pend (t : Thread) (kind obj : Nat) (a : Await) : (t.toWait kind obj a).pend = t.pend := rfl
@[simp] theorem thread_toWait_unbound (t : Thread) (kind obj : Nat) (a : Await) : (t.toWait kind obj a).unbound = t.unbound := rfl
@[simp] theorem thread_toWait_deferred (t : Thread) (kind obj : Nat) (a : Await) : (t.toWait kind obj a).deferred = t.deferred := rfl
@[simp] theorem thread_toWait_popv (t : Thread) (kind obj : Nat) (a : Await) : (t.toWait kind obj a).popv = t.popv := rfl
@[simp] theorem thread_toWait_pushv (t : Thread) (kind obj : Nat) (a : Await) : (t.toWait kind obj a).pushv = t.pushv := rfl
@[simp] theorem thread_toWait_popq (t : Thread) (kind obj : Nat) (a : Await) : (t.toWait kind obj a).popq = t.popq := rfl
@[simp] theorem thread_toWait_pushq (t : Thread) (kind obj : Nat) (a : Await) : (t.toWait kind obj a).pushq = t.pushq := rfl

@[simp] theorem thread_clearWait_g (t : Thread) : (t.clearWait).g = t.g := rfl
@[simp] theorem thread_clearWait_flags (t : Thread) : (t.clearWait).flags = t.flags := rfl
@[simp] theorem thread_clearWait_pc (t : Thread) : (t.clearWait).pc = t.pc := rfl
@[simp] theorem thread_clearWait_link (t : Thread) : (t.clearWait).link = t.link := rfl
@[simp] theorem thread_clearWait_privl (t : Thread) : (t.clearWait).privl = t.privl := rfl
@[simp] theorem thread_clearWait_efmt (t : Thread) : (t.clearWait).efmt = t.efmt := rfl
@[simp] theorem thread_clearWait_lact0 (t : Thread) : (t.clearWait).lact0 = t.lact0 := rfl
@[simp] theorem thread_clearWait_lact1 (t : Thread) : (t.clearWait).lact1 = t.lact1 := rfl
@[simp] theorem thread_clearWait_loop0 (t : Thread) : (t.clearWait).loop0 = t.loop0 := rfl
@[simp] theorem thread_clearWait_loop1 (t : Thread) : (t.clearWait).loop1 = t.loop1 := rfl
@[simp] theorem thread_clearWait_pend (t : Thread) : (t.clearWait).pend = t.pend := rfl
@[simp] theorem thread_clearWait_unbound (t : Thread) : (t.clearWait).unbound = t.unbound := rfl
@[simp] theorem thread_clearWait_deferred (t : Thread) : (t.clearWait).deferred = t.deferred := rfl
@[simp] theorem thread_clearWait_popv (t : Thread) : (t.clearWait).popv = t.popv := rfl
@[simp] theorem thread_clearWait_pushv (t : Thread) : (t.clearWait).pushv = t.pushv := rfl
@[simp] theorem thread_clearWait_popq (t : Thread) : (t.clearWait).popq = t.popq := rfl
@[simp] theorem thread_clearWait_pushq (t : Thread) : (t.clearWait).pushq = t.pushq := rfl

@[simp] theorem thread_setReg_flags (t : Thread) (d : Reg) (v : Word) : (t.setReg d v).flags = t.flags := rfl
@[simp] theorem thread_setReg_pc (t : Thread) (d : Reg) (v : Word) : (t.setReg d v).pc = t.pc := rfl
@[simp] theorem thread_setReg_link (t : Thread) (d : Reg) (v : Word) : (t.setReg d v).link = t.link := rfl
@[simp] theorem thread_setReg_privl (t : Thread) (d : Reg) (v : Word) : (t.setReg d v).privl = t.privl := rfl
@[simp] theorem thread_setReg_efmt (t : Thread) (d : Reg) (v : Word) : (t.setReg d v).efmt = t.efmt := rfl
@[simp] theorem thread_setReg_lact0 (t : Thread) (d : Reg) (v : Word) : (t.setReg d v).lact0 = t.lact0 := rfl
@[simp] theorem thread_setReg_lact1 (t : Thread) (d : Reg) (v : Word) : (t.setReg d v).lact1 = t.lact1 := rfl
@[simp] theorem thread_setReg_loop0 (t : Thread) (d : Reg) (v : Word) : (t.setReg d v).loop0 = t.loop0 := rfl
@[simp] theorem thread_setReg_loop1 (t : Thread) (d : Reg) (v : Word) : (t.setReg d v).loop1 = t.loop1 := rfl
@[simp] theorem thread_setReg_pend (t : Thread) (d : Reg) (v : Word) : (t.setReg d v).pend = t.pend := rfl
@[simp] theorem thread_setReg_unbound (t : Thread) (d : Reg) (v : Word) : (t.setReg d v).unbound = t.unbound := rfl
@[simp] theorem thread_setReg_deferred (t : Thread) (d : Reg) (v : Word) : (t.setReg d v).deferred = t.deferred := rfl
@[simp] theorem thread_setReg_popv (t : Thread) (d : Reg) (v : Word) : (t.setReg d v).popv = t.popv := rfl
@[simp] theorem thread_setReg_pushv (t : Thread) (d : Reg) (v : Word) : (t.setReg d v).pushv = t.pushv := rfl
@[simp] theorem thread_setReg_popq (t : Thread) (d : Reg) (v : Word) : (t.setReg d v).popq = t.popq := rfl
@[simp] theorem thread_setReg_pushq (t : Thread) (d : Reg) (v : Word) : (t.setReg d v).pushq = t.pushq := rfl

end Sys2Proof.Laws
end

