-- ==== Sys2Proof/Laws/Home.lean ====
section
/-! SUPPORT. The accesses every agent makes: a load changes no byte of memory, a store keeps the canonical form and every byte
outside it, and the shared operations over them (records, traps, effects) keep the canonical form. -/

namespace Sys2Proof.Laws

set_option Elab.async false

open Sys2Proof Sys2Proof.Machine

/-- The memory of a state is in canonical form. -/
def Canonical (s : State) : Prop := Memory.wf s.mem.mem = true

theorem Canonical.of_mem {s t : State} (h : Canonical s) (e : t.mem.mem = s.mem.mem) : Canonical t := by
  unfold Canonical
  rw [e]
  exact h

/-- What holds of a fold's start and is kept by each of its steps holds of its end. -/
theorem foldl_keeps {α β : Type} {P : β → Prop} {f : β → α → β} (hf : ∀ b a, P b → P (f b a)) {b : β} (h : P b)
    (as : List α) : P (as.foldl f b) := by
  induction as generalizing b with
  | nil => exact h
  | cons a as ih => exact ih (hf b a h)

/-! ### Loads -/

@[simp] theorem setLease_mem (s : State) (line : Nat) (l : Lease) : (s.setLease line l).mem.mem = s.mem.mem := rfl

@[simp] theorem evictL2_mem (s : State) (line : Nat) : (s.evictL2 line).mem.mem = s.mem.mem := by
  unfold State.evictL2
  split <;> rfl

@[simp] theorem touchL2_mem (s : State) (line evp : Nat) : (s.touchL2 line evp).mem.mem = s.mem.mem := by
  unfold State.touchL2
  simp only
  split
  · rfl
  · split
    · rfl
    · split
      · rfl
      · cases l2victim _ <;> simp

@[simp] theorem keepLine_mem (s : State) (line evp : Nat) (l : Lease) : (s.keepLine line evp l).mem.mem = s.mem.mem := by
  simp [State.keepLine]

@[simp] theorem recordRead_mem (s : State) (owner line evp : Nat) (l : Lease) :
    (s.recordRead owner line evp l).mem.mem = s.mem.mem := by
  unfold State.recordRead
  split
  · split
    · exact keepLine_mem ..
    · rfl
  · exact keepLine_mem ..

@[simp] theorem l1Touch_mem (s : State) (tile line evp : Nat) : (s.l1Touch tile line evp).mem = s.mem := by
  simp [State.l1Touch]

theorem lineFetch_mem (s : State) (tile line off n : Nat) (a : PageAttr) (evp : Nat) (t : LTime) :
    (s.lineFetch tile line off n a evp t).2.2.mem.mem = s.mem.mem := by
  unfold State.lineFetch
  simp only
  split <;> simp

theorem lineLoad_mem (s : State) (tile line off n : Nat) (a : PageAttr) (evp : Nat) (t : LTime) :
    (s.lineLoad tile line off n a evp t).2.2.mem.mem = s.mem.mem := by
  unfold State.lineLoad
  split
  · simp
  · exact lineFetch_mem s tile line off n a evp t

theorem loadAt_mem (s : State) (tile : Nat) (tgt : Target) (n : Nat) (a : PageAttr) (evp : Nat) (t : LTime) :
    (s.loadAt tile tgt n a evp t).2.2.mem.mem = s.mem.mem := by
  unfold State.loadAt
  split
  · exact lineLoad_mem ..
  · rfl
  · simp only [modCrew_mem]
  · exact lineLoad_mem ..

theorem loadParts_mem (s : State) (tile evp : Nat) (t : LTime) (ps : List Part) :
    (s.loadParts tile evp t ps).2.2.mem.mem = s.mem.mem := by
  unfold State.loadParts
  exact foldl_keeps (P := fun x : List Byte × LTime × State => x.2.2.mem.mem = s.mem.mem)
    (fun b a h => by simp only; rw [loadAt_mem]; exact h) rfl ps

theorem loadRange_mem (s : State) (tile : Nat) (tgt : Target) (n unit : Nat) (a : PageAttr) (evp : Nat) (t : LTime) :
    (s.loadRange tile tgt n unit a evp t).2.2.mem.mem = s.mem.mem := by
  unfold State.loadRange
  exact foldl_keeps (P := fun x : List Byte × LTime × State => x.2.2.mem.mem = s.mem.mem)
    (fun b a h => by simp only; rw [loadAt_mem]; exact h) rfl _

/-! ### Stores -/

@[simp] theorem staleSet_mem (s : State) (w : Target) (t : LTime) : (s.staleSet w t).mem = s.mem := rfl

theorem ctxStore_mem (s : State) (k b n data mask : Nat) : (s.ctxStore k b n data mask).mem = s.mem := by
  unfold State.ctxStore
  exact foldl_keeps (P := fun x : State => x.mem = s.mem)
    (fun x w h => by
      simp only
      split
      · rw [modThread_mem]; exact h
      · exact h) rfl _

/-- The copies of a line in tile L1s change with it, and no byte of memory. -/
@[simp] theorem l1Copies_mem (s : State) (tiles : List Nat) (line owner : Nat) (h : Lease) (f : L1Line → List Byte) :
    (s.l1Copies tiles line owner h f).mem = s.mem :=
  foldl_keeps (P := fun x : State => x.mem = s.mem)
    (fun x k hx => by
      split
      · rw [modTile_mem]; exact hx
      · exact hx) rfl tiles

theorem retagSpad_canonical {s : State} (h : Canonical s) (crew off owner : Nat) : Canonical (s.retagSpad crew off owner) := by
  unfold State.retagSpad
  split
  · split
    · exact h
    · exact Memory.wf_clearRange h _ _
  · exact h

theorem storeAt_canonical {s : State} (h : Canonical s) (v : Via) (tgt : Target) (n data mask owner : Nat)
    (t : LTime) : Canonical (s.storeAt v tgt n data mask owner t).2 := by
  unfold State.storeAt
  split
  · simp only
    unfold Canonical
    rw [staleSet_mem, l1Copies_mem, keepLine_mem]
    exact Memory.wf_writeBytes (retag_wf h _ _) _ _
  · exact h
  · rename_i c off
    have hr : Canonical (s.retagSpad c off owner) := retagSpad_canonical h ..
    simp only
    unfold Canonical
    rw [staleSet_mem]
    split
    · split
      · rw [modCrew_mem]
        exact Memory.wf_writeBytes hr _ _
      · rw [modTile_mem, modCrew_mem]
        exact Memory.wf_writeBytes hr _ _
    · rw [modCrew_mem]
      exact Memory.wf_writeBytes hr _ _
  · simp only
    exact h.of_mem (by rw [l1Copies_mem, ctxStore_mem]; rfl)

theorem storeParts_canonical {s : State} (h : Canonical s) (v : Via) (data mask : Nat) (t : LTime)
    (ps : List Part) : Canonical (s.storeParts v data mask t ps).2 := by
  unfold State.storeParts
  exact foldl_keeps (P := fun x : Nat × Nat × LTime × State => Canonical x.2.2.2)
    (fun b a hb => storeAt_canonical hb ..) h ps

theorem storeRange_canonical {s : State} (h : Canonical s) (v : Via) (tgt : Target) (unit : Nat) (bs : List Byte)
    (owner : Nat) (t : LTime) : Canonical (s.storeRange v tgt unit bs owner t).2 := by
  unfold State.storeRange
  exact foldl_keeps (P := fun x : LTime × State => Canonical x.2) (fun b a hb => storeAt_canonical hb ..) h _

/-! ### Translation -/

theorem translate_mem (s : State) (tile root va : Nat) : (s.translate tile root va).2.mem = s.mem := by
  unfold State.translate
  split
  · rfl
  · split <;> rfl

theorem resolve_mem (s : State) (a : Agent) (va n : Nat) (r : Right) : (s.resolve a va n r).2.mem = s.mem := by
  have ht := translate_mem s a.tile a.root (va % 2 ^ 56)
  unfold State.resolve
  simp only
  generalize s.translate a.tile a.root (va % 2 ^ 56) = x at ht ⊢
  rcases x with ⟨_ | e, s'⟩ <;> simp only at ht ⊢ <;> repeat' split
  all_goals first
    | rfl
    | exact ht

theorem resolveAll_mem (s : State) (a : Agent) (va : Nat) (r : Right) (ps : List (Nat × Nat)) :
    (s.resolveAll a va r ps).2.mem = s.mem := by
  induction ps generalizing s with
  | nil => rfl
  | cons p ps ih =>
    have h1 := resolve_mem s a (va + p.1) p.2 r
    unfold State.resolveAll
    split
    · rename_i heq; rw [heq] at h1; exact h1
    · rename_i q s1 heq
      rw [heq] at h1
      have h2 := ih s1
      split
      · rename_i h3; rw [h3] at h2; exact h2.trans h1
      · rename_i h3; rw [h3] at h2; exact h2.trans h1

/-! ### A line's own accesses bound at once -/

theorem readNow_mem (s : State) (k va n unit : Nat) : (s.readNow k va n unit).2.mem.mem = s.mem.mem := by
  unfold State.readNow
  split
  · rfl
  · rename_i t ht
    have h := resolveAll_mem s (s.agent t) (va % 2 ^ 56) .read (pieces unit (va % 2 ^ 56) (n / unit + 2) n)
    simp only
    split
    · rename_i heq; rw [heq] at h; exact congrArg MemSys.mem h
    · rename_i ps s1 heq
      rw [heq] at h
      split
      · exact congrArg MemSys.mem h
      · exact congrArg MemSys.mem h
      · split
        · exact congrArg MemSys.mem h
        · split
          · exact congrArg MemSys.mem h
          · split
            · exact congrArg MemSys.mem h
            · simp only [modThread_mem]
              rw [loadParts_mem]
              exact congrArg MemSys.mem h

theorem peekNow_mem (s : State) (k va n unit : Nat) : (s.peekNow k va n unit).2.mem.mem = s.mem.mem := by
  unfold State.peekNow
  simp only
  split
  · rw [modThread_mem]; exact readNow_mem ..
  · exact readNow_mem ..

theorem writeNow_canonical {s : State} (hs : Canonical s) (k va unit : Nat) (bs : List Byte) :
    Canonical (s.writeNow k va unit bs).2 := by
  unfold State.writeNow
  split
  · exact hs
  · rename_i t ht
    have h := resolveAll_mem s (s.agent t) (va % 2 ^ 56) .write (pieces unit (va % 2 ^ 56) (bs.length / unit + 2) bs.length)
    simp only
    split
    · rename_i heq; rw [heq] at h; exact hs.of_mem (congrArg MemSys.mem h)
    · rename_i ps s1 heq
      rw [heq] at h
      have h1 : Canonical s1 := hs.of_mem (congrArg MemSys.mem h)
      split
      · exact h1
      · exact h1
      · split
        · exact h1
        · split
          · exact h1
          · simp only
            unfold Canonical
            rw [modThread_mem]
            exact storeParts_canonical h1 _ _ _ _ _

theorem writeWords_canonical {s : State} (hs : Canonical s) (k va : Nat) (ws : List Nat) :
    Canonical (State.writeWords k va ws s).2 := by
  induction ws generalizing s va with
  | nil => exact hs
  | cons w ws ih =>
    have h := writeNow_canonical hs k va 8 (natBytes 8 w)
    unfold State.writeWords
    split
    · rename_i heq; rw [heq] at h; exact h
    · rename_i heq; rw [heq] at h; exact ih h _

/-! ### Records, faults and traps -/

theorem ringPlace_canonical {s : State} (hs : Canonical s) (m : Nat) (ws : List Nat) (t : LTime) :
    Canonical (s.ringPlace m ws t) := by
  unfold State.ringPlace
  simp only
  unfold Canonical
  rw [modRing_mem]
  exact storeRange_canonical hs _ _ _ _ _ _

/-- A snoop changes no byte. -/
@[simp] theorem snoop_mem (s : State) (ls : List Nat) : (s.snoop ls).mem.mem = s.mem.mem := by
  unfold State.snoop
  induction ls generalizing s with
  | nil => rfl
  | cons l ls ih =>
    rw [List.foldl_cons, ih]
    split <;> rfl

theorem ringSend_canonical {s : State} (hs : Canonical s) (m : Nat) (ws : List Nat) (t : LTime) :
    Canonical (s.ringSend m ws t) := by
  unfold State.ringSend
  simp only
  split
  · exact ringPlace_canonical hs ..
  · split
    · exact hs.of_mem (by rw [snoop_mem, modRing_mem])
    · exact hs.of_mem (by rw [modRing_mem])

/-! ### What an instruction gives back -/

@[simp] theorem wakeQueue_mem (s : State) (c : Nat) (q : Reg) (n : Nat) : (s.wakeQueue c q n).mem = s.mem := by
  unfold State.wakeQueue
  split <;> rfl

@[simp] theorem modQueue_mem (s : State) (c : Nat) (q : Reg) (f : Queue → Queue) : (s.modQueue c q f).mem = s.mem := by
  simp [State.modQueue]

@[simp] theorem dropSlot_mem (s : State) (c : Nat) (q : Reg) (n : Nat) : (s.dropSlot c q n).mem = s.mem := by
  unfold State.dropSlot
  split
  · rfl
  · split
    · simp [State.mapSlots]
    · rfl

@[simp] theorem returnSlots_mem (s : State) (c : Nat) (x : Option (Reg × Nat)) (p : Option (Reg × Slot)) :
    (s.returnSlots c x p).mem = s.mem := by
  cases x <;> cases p <;> simp [State.returnSlots]

@[simp] theorem keepPopped_mem (s : State) (c : Nat) (p : Option (Reg × Slot)) : (s.keepPopped c p).mem = s.mem := by
  cases p <;> simp [State.keepPopped]

@[simp] theorem backOut_mem (s : State) (t : Thread) (d : Bool) : (s.backOut t d).mem = s.mem := by
  unfold State.backOut
  split
  · rfl
  · simp only
    split <;> simp

theorem sysFault_canonical {s : State} (hs : Canonical s) (k : Nat) (f : FaultInfo) : Canonical (s.sysFault k f) := by
  unfold State.sysFault
  split
  · exact hs
  · exact ringSend_canonical (hs.of_mem (by simp)) ..

theorem escalate_canonical {s : State} (hs : Canonical s) (k : Nat) (ti : TrapInfo) (d : Bool) :
    Canonical (s.escalate k ti d) := by
  unfold State.escalate
  split
  · exact hs
  · exact ringSend_canonical (hs.of_mem (by simp)) ..

theorem stopDeferred_canonical {s : State} (hs : Canonical s) (k : Nat) (d : Deferred) :
    Canonical (s.stopDeferred k d) := by
  unfold State.stopDeferred
  exact sysFault_canonical (hs.of_mem (by rw [modThread_mem])) ..

@[simp] theorem stepStop_mem (s : State) (k : Nat) : (s.stepStop k).mem = s.mem := by
  unfold State.stepStop
  split
  · split <;> rfl
  · rfl

theorem enterTrap_canonical {s : State} (hs : Canonical s) (k : Nat) (ti : TrapInfo) : Canonical (s.enterTrap k ti) := by
  unfold State.enterTrap
  split
  · exact hs
  · split
    · exact stopDeferred_canonical hs ..
    · split
      · exact escalate_canonical hs ..
      · split
        · exact escalate_canonical hs ..
        · rename_i t _ _ _ _ c _ _
          have h := peekNow_mem s k (recordVa c t) 8 8
          simp only
          split
          · rename_i heq; rw [heq] at h; exact (hs.of_mem h).of_mem (by rw [snoop_mem, modThread_mem])
          · rename_i heq; rw [heq] at h; exact (hs.of_mem h).of_mem (by rw [modThread_mem])
          · rename_i heq; rw [heq] at h; exact escalate_canonical (hs.of_mem h) ..
          · rename_i bs s1 heq
            rw [heq] at h
            have h1 : Canonical s1 := hs.of_mem h
            split
            · exact escalate_canonical h1 ..
            · have hw (ws : List Nat) := writeWords_canonical h1 k (recordVa c t) ws
              split
              · rename_i heq2
                have h2 := heq2 ▸ hw _
                exact escalate_canonical h2 ..
              · rename_i heq2
                have h2 := heq2 ▸ hw _
                exact h2.of_mem (by simp)

theorem userTrap_canonical {s : State} (hs : Canonical s) (k : Nat) (ti : TrapInfo) : Canonical (s.userTrap k ti) := by
  unfold State.userTrap
  split
  · exact hs
  · split
    · exact hs
    · split
      · exact enterTrap_canonical hs ..
      · exact hs

/-! ### Ends of instructions -/

@[simp] theorem noteRetired_mem (s : State) (n : Nat) : (s.noteRetired n).mem = s.mem := by
  unfold State.noteRetired
  split
  · split <;> rfl
  · rfl

@[simp] theorem retireAt_mem (s : State) (k len : Nat) : (s.retireAt k len).mem = s.mem := by simp [State.retireAt]
@[simp] theorem jumpTo_mem (s : State) (k : Nat) (pc : BitVec 56) : (s.jumpTo k pc).mem = s.mem := by simp [State.jumpTo]

@[simp] theorem issued_mem (s pre : State) (k : Nat) (core : Option Nat) : (s.issued pre k core).mem = s.mem := by
  unfold State.issued
  split
  · rfl
  · simp

@[simp] theorem endCycle_mem (s : State) (core : Nat) (x : Option Nat) : (s.endCycle core x).mem = s.mem := rfl

theorem fetchAddr_mem (s : State) (t : Thread) : (s.fetchAddr t).2.mem = s.mem := resolve_mem ..

@[simp] theorem selectLine_mem (core fuel : Nat) (s : State) : (State.selectLine core fuel s).mem = s.mem := by
  induction fuel generalizing s with
  | zero => simp [State.selectLine]
  | succ n ih =>
    unfold State.selectLine
    split
    · simp
    · split
      · simp
      · rename_i k t _
        simp only
        split
        · simp
        · generalize hd : ({ s with dbg := _ } : State) = s1
          have h1 : s1.mem = s.mem := by rw [← hd]
          have h := fetchAddr_mem s1 t
          split
          · rename_i heq; rw [heq] at h; exact h.trans h1
          · rename_i heq
            rw [heq] at h
            split
            · exact h.trans h1
            · rw [ih, modThread_mem]
              exact h.trans h1

@[simp] theorem notIssued_mem (s : State) (core : Option Nat) : (s.notIssued core).mem = s.mem := by
  unfold State.notIssued
  split <;> simp

/-- An effect keeps the canonical form where the states it carries do. -/
theorem apply_canonical {s : State} (hs : Canonical s) (i : Issue) (len : Nat) (e : Effect)
    (he : match e with
      | .retire t | .jump _ t | .hold t | .gone t | .halt t | .fell _ t => Canonical t
      | .wait _ _ _ f => Canonical (f s)
      | .trap _ | .stop _ | .marked _ | .later _ => True) : Canonical (e.apply i len s) := by
  unfold Effect.apply
  cases e with
  | retire t => exact Canonical.of_mem he (by simp)
  | jump pc t => exact Canonical.of_mem he (by simp)
  | wait kind obj a f => exact Canonical.of_mem he (by simp)
  | trap ti => exact (userTrap_canonical hs i.k ti).of_mem (by simp)
  | stop f => exact (sysFault_canonical hs i.k f).of_mem (by simp)
  | fell f t => exact (sysFault_canonical he i.k f).of_mem (by simp)
  | marked f => exact (sysFault_canonical hs i.k f).of_mem (by simp)
  | later q => exact hs.of_mem (by cases i.t.entryCore <;> simp)
  | hold t => exact Canonical.of_mem he (by simp)
  | gone t => exact Canonical.of_mem he (by simp)
  | halt t => exact Canonical.of_mem he (by simp)

end Sys2Proof.Laws
end

