-- ==== Sys2Proof/Laws/PerInstr.lean ====
section
/-! SUPPORT. Every instruction's word parses back to it: one lemma per constructor (Tables 2.1 to 2.7 and the encoding tables
of each chapter). The steps of the opcode table that have no word have none to parse. -/

set_option linter.unusedSimpArgs false
set_option linter.unusedVariables false
set_option linter.unnecessarySeqFocus false

namespace Sys2Proof.Laws

set_option Elab.async false

/-- The word of an instruction names it. -/
def Roundtrip.Statement (i : Instr) : Prop := ∀ w, rawOf i = some w → parse w = some i

theorem Roundtrip.pad : Roundtrip.Statement .pad := fun _ h => nomatch h

theorem Roundtrip.illegal : Roundtrip.Statement .illegal := by
  intro w h
  cases h
  rfl

theorem Roundtrip.nop : ∀ p, Roundtrip.Statement (.nop p) := by
  intro p w h
  cases h
  simp [parse, parse2, raw]

theorem Roundtrip.clz : ∀ p d a, Roundtrip.Statement (.clz p d a) := by
  intro p d a w h
  cases h
  simp [parse, parse0, rDA, raw]

theorem Roundtrip.ctz : ∀ p d a, Roundtrip.Statement (.ctz p d a) := by
  intro p d a w h
  cases h
  simp [parse, parse0, rDA, raw]

theorem Roundtrip.popc : ∀ p d a, Roundtrip.Statement (.popc p d a) := by
  intro p d a w h
  cases h
  simp [parse, parse0, rDA, raw]

theorem Roundtrip.brev : ∀ p d a, Roundtrip.Statement (.brev p d a) := by
  intro p d a w h
  cases h
  simp [parse, parse0, rDA, raw]

theorem Roundtrip.add : ∀ p d a b, Roundtrip.Statement (.add p d a b) := by
  intro p d a b w h
  cases h
  simp [parse, parse0, rDAS, raw]

theorem Roundtrip.sub : ∀ p d a b, Roundtrip.Statement (.sub p d a b) := by
  intro p d a b w h
  cases h
  simp [parse, parse0, rDAS, raw]

theorem Roundtrip.mul : ∀ p d a b, Roundtrip.Statement (.mul p d a b) := by
  intro p d a b w h
  cases h
  simp [parse, parse0, rDAS, raw]

theorem Roundtrip.mulh : ∀ p u d a b, Roundtrip.Statement (.mulh p u d a b) := by
  intro p u d a b w h
  cases h
  simp [parse, parse0, rDAS, raw]

theorem Roundtrip.div : ∀ p u d a b, Roundtrip.Statement (.div p u d a b) := by
  intro p u d a b w h
  cases h
  simp [parse, parse0, rDAS, raw]

theorem Roundtrip.rem : ∀ p u d a b, Roundtrip.Statement (.rem p u d a b) := by
  intro p u d a b w h
  cases h
  simp [parse, parse0, rDAS, raw]

theorem Roundtrip.and : ∀ p d a b, Roundtrip.Statement (.and p d a b) := by
  intro p d a b w h
  cases h
  simp [parse, parse0, rDAS, raw]

theorem Roundtrip.or : ∀ p d a b, Roundtrip.Statement (.or p d a b) := by
  intro p d a b w h
  cases h
  simp [parse, parse0, rDAS, raw]

theorem Roundtrip.xor : ∀ p d a b, Roundtrip.Statement (.xor p d a b) := by
  intro p d a b w h
  cases h
  simp [parse, parse0, rDAS, raw]

theorem Roundtrip.andn : ∀ p d a b, Roundtrip.Statement (.andn p d a b) := by
  intro p d a b w h
  cases h
  simp [parse, parse0, rDAS, raw]

theorem Roundtrip.shl : ∀ p d a b, Roundtrip.Statement (.shl p d a b) := by
  intro p d a b w h
  cases h
  simp [parse, parse0, rDAS, raw]

theorem Roundtrip.shr : ∀ p d a b, Roundtrip.Statement (.shr p d a b) := by
  intro p d a b w h
  cases h
  simp [parse, parse0, rDAS, raw]

theorem Roundtrip.sar : ∀ p d a b, Roundtrip.Statement (.sar p d a b) := by
  intro p d a b w h
  cases h
  simp [parse, parse0, rDAS, raw]

theorem Roundtrip.rot : ∀ p d a b, Roundtrip.Statement (.rot p d a b) := by
  intro p d a b w h
  cases h
  simp [parse, parse0, rDAS, raw]

theorem Roundtrip.min : ∀ p u d a b, Roundtrip.Statement (.min p u d a b) := by
  intro p u d a b w h
  cases h
  simp [parse, parse0, rDAS, raw]

theorem Roundtrip.max : ∀ p u d a b, Roundtrip.Statement (.max p u d a b) := by
  intro p u d a b w h
  cases h
  simp [parse, parse1, rDAS, raw]

theorem Roundtrip.abs : ∀ p d a, Roundtrip.Statement (.abs p d a) := by
  intro p d a w h
  cases h
  simp [parse, parse1, rDA, raw]

theorem Roundtrip.bfx : ∀ p s d a b, Roundtrip.Statement (.bfx p s d a b) := by
  intro p s d a b w h
  cases h
  simp [parse, parse1, rDAS, raw]

theorem Roundtrip.bfi : ∀ p d a b, Roundtrip.Statement (.bfi p d a b) := by
  intro p d a b w h
  cases h
  simp [parse, parse1, rDAS, raw]

theorem Roundtrip.lea : ∀ p sh d a b, Roundtrip.Statement (.lea p sh d a b) := by
  intro p sh d a b w h
  cases h
  simp [parse, parse1, rDAS, raw, Fin.ext_iff, Nat.mod_eq_of_lt]

theorem Roundtrip.leaPc : ∀ p d imm, Roundtrip.Statement (.leaPc p d imm) := by
  intro p d imm w h
  cases h
  simp [parse, parse1, raw]

theorem Roundtrip.movi : ∀ p d imm, Roundtrip.Statement (.movi p d imm) := by
  intro p d imm w h
  cases h
  simp [parse, parse1, raw]

theorem Roundtrip.movi128 : ∀ p d lo hi, Roundtrip.Statement (.movi128 p d lo hi) := by
  intro p d lo hi w h
  cases h
  simp [parse, parse1, raw]

theorem Roundtrip.movhi : ∀ p d imm, Roundtrip.Statement (.movhi p d imm) := by
  intro p d imm w h
  cases h
  simp [parse, parse1, raw]

theorem Roundtrip.mov : ∀ p d a, Roundtrip.Statement (.mov p d a) := by
  intro p d a w h
  cases h
  simp [parse, parse1, rDA, raw]

theorem Roundtrip.sel : ∀ p d c a b, Roundtrip.Statement (.sel p d c a b) := by
  intro p d c a b w h
  cases h
  simp [parse, parse1, rDAS, raw, Raw.c]

theorem Roundtrip.cmp : ∀ p c d a b, Roundtrip.Statement (.cmp p c d a b) := by
  intro p c d a b w h
  cases c <;> cases h <;> (simp [parse, parse1, rDAS, raw] <;> rfl)

theorem Roundtrip.fadd : ∀ p s d a b, Roundtrip.Statement (.fadd p s d a b) := by
  intro p s d a b w h
  cases h
  simp [parse, parse1, rDAB, raw]

theorem Roundtrip.fsub : ∀ p s d a b, Roundtrip.Statement (.fsub p s d a b) := by
  intro p s d a b w h
  cases h
  simp [parse, parse1, rDAB, raw]

theorem Roundtrip.fmul : ∀ p s d a b, Roundtrip.Statement (.fmul p s d a b) := by
  intro p s d a b w h
  cases h
  simp [parse, parse1, rDAB, raw]

theorem Roundtrip.ffma : ∀ p s d a b c, Roundtrip.Statement (.ffma p s d a b c) := by
  intro p s d a b c w h
  cases h
  simp [parse, parse1, rDAB, raw, Raw.c]

theorem Roundtrip.fdiv : ∀ p s d a b, Roundtrip.Statement (.fdiv p s d a b) := by
  intro p s d a b w h
  cases h
  simp [parse, parse1, rDAB, raw]

theorem Roundtrip.fsqrt : ∀ p s d a, Roundtrip.Statement (.fsqrt p s d a) := by
  intro p s d a w h
  cases h
  simp [parse, parse1, rDA, raw]

theorem Roundtrip.fmin : ∀ p s d a b, Roundtrip.Statement (.fmin p s d a b) := by
  intro p s d a b w h
  cases h
  simp [parse, parse1, rDAB, raw]

theorem Roundtrip.fmax : ∀ p s d a b, Roundtrip.Statement (.fmax p s d a b) := by
  intro p s d a b w h
  cases h
  simp [parse, parse1, rDAB, raw]

theorem Roundtrip.fcmp : ∀ p c s d a b, Roundtrip.Statement (.fcmp p c s d a b) := by
  intro p c s d a b w h
  cases c <;> cases s <;> cases h <;> (simp [parse, parse1, rDAB, raw] <;> exact ⟨rfl, rfl⟩)

theorem Roundtrip.bra : ∀ p imm, Roundtrip.Statement (.bra p imm) := by
  intro p imm w h
  cases h
  simp [parse, parse2, raw]

theorem Roundtrip.brx : ∀ p a, Roundtrip.Statement (.brx p a) := by
  intro p a w h
  cases h
  simp [parse, parse2, raw]

theorem Roundtrip.call : ∀ p sv imm, Roundtrip.Statement (.call p sv imm) := by
  intro p sv imm w h
  cases sv <;> cases h <;> simp [parse, parse2, raw]

theorem Roundtrip.callx : ∀ p sv a, Roundtrip.Statement (.callx p sv a) := by
  intro p sv a w h
  cases sv <;> cases h <;> simp [parse, parse2, raw]

theorem Roundtrip.ret : ∀ p r, Roundtrip.Statement (.ret p r) := by
  intro p r w h
  cases r <;> cases h <;> simp [parse, parse2, raw]

theorem Roundtrip.loop : ∀ p len count, Roundtrip.Statement (.loop p len count) := by
  intro p len count w h
  cases h
  simp [parse, parse2, raw]

theorem Roundtrip.loopg : ∀ p a len, Roundtrip.Statement (.loopg p a len) := by
  intro p a len w h
  cases h
  simp [parse, parse2, raw]

theorem Roundtrip.lbrk : ∀ p, Roundtrip.Statement (.lbrk p) := by
  intro p w h
  cases h
  simp [parse, parse2, raw]

theorem Roundtrip.lbrkAll : ∀ p, Roundtrip.Statement (.lbrkAll p) := by
  intro p w h
  cases h
  simp [parse, parse2, raw]

theorem Roundtrip.fop : ∀ p op d a b, Roundtrip.Statement (.fop p op d a b) := by
  intro p op d a b w h
  cases op <;> cases h <;> (simp [parse, parse2, rDAB, raw] <;> rfl)

theorem Roundtrip.fset : ∀ p d v, Roundtrip.Statement (.fset p d v) := by
  intro p d v w h
  cases h
  simp [parse, parse2, raw]

theorem Roundtrip.fsetM : ∀ p a mask, Roundtrip.Statement (.fsetM p a mask) := by
  intro p a mask w h
  cases h
  simp [parse, parse2, raw]

theorem Roundtrip.fget : ∀ p all d, Roundtrip.Statement (.fget p all d) := by
  intro p all d w h
  cases all <;> cases h <;> (simp [parse, parse2, raw] <;> rfl)

theorem Roundtrip.ld : ∀ p f q nb d m, Roundtrip.Statement (.ld p f q nb d m) := by
  intro p f q nb d m w h
  cases nb <;> cases h <;> simp [parse, parse3, rMem, raw, Raw.ord, qbit, qb]

theorem Roundtrip.st : ∀ p f wc b m, Roundtrip.Statement (.st p f wc b m) := by
  intro p f wc b m w h
  cases wc <;> cases h <;> simp [parse, parse3, rMem, raw, Raw.ord, qbit, qb]

theorem Roundtrip.ldp : ∀ p f q nb d m, Roundtrip.Statement (.ldp p f q nb d m) := by
  intro p f q nb d m w h
  cases nb <;> cases h <;> simp [parse, parse3, rMem, raw, Raw.ord, qbit, qb]

theorem Roundtrip.stp : ∀ p f wc b m, Roundtrip.Statement (.stp p f wc b m) := by
  intro p f wc b m w h
  cases wc <;> cases h <;> simp [parse, parse3, rMem, raw, Raw.ord, qbit, qb]

theorem Roundtrip.ldb : ∀ p f nb d m, Roundtrip.Statement (.ldb p f nb d m) := by
  intro p f nb d m w h
  cases nb <;> cases h <;> simp [parse, parse3, rMem, raw, Raw.ord, qbit, qb]

theorem Roundtrip.stb : ∀ p f wc b m, Roundtrip.Statement (.stb p f wc b m) := by
  intro p f wc b m w h
  cases wc <;> cases h <;> simp [parse, parse3, rMem, raw, Raw.ord, qbit, qb]

theorem Roundtrip.ldq : ∀ p f q m, Roundtrip.Statement (.ldq p f q m) := by
  intro p f q m w h
  cases h
  simp [parse, parse3, rMem, raw]

theorem Roundtrip.pf : ∀ p evp a off, Roundtrip.Statement (.pf p evp a off) := by
  intro p evp a off w h
  cases h
  simp [parse, parse3, raw, Raw.evp, Raw.off]

theorem Roundtrip.fence : ∀ p sc, Roundtrip.Statement (.fence p sc) := by
  intro p sc w h
  cases h
  simp [parse, parse3, raw, Raw.scope]

theorem Roundtrip.amoSwap : ∀ p f d b m, Roundtrip.Statement (.amoSwap p f d b m) := by
  intro p f d b m w h
  cases h
  simp [parse, parse4, rMem, raw]

theorem Roundtrip.amoAdd : ∀ p f d b m, Roundtrip.Statement (.amoAdd p f d b m) := by
  intro p f d b m w h
  cases h
  simp [parse, parse4, rMem, raw]

theorem Roundtrip.amoAnd : ∀ p f d b m, Roundtrip.Statement (.amoAnd p f d b m) := by
  intro p f d b m w h
  cases h
  simp [parse, parse4, rMem, raw]

theorem Roundtrip.amoOr : ∀ p f d b m, Roundtrip.Statement (.amoOr p f d b m) := by
  intro p f d b m w h
  cases h
  simp [parse, parse4, rMem, raw]

theorem Roundtrip.amoXor : ∀ p f d b m, Roundtrip.Statement (.amoXor p f d b m) := by
  intro p f d b m w h
  cases h
  simp [parse, parse4, rMem, raw]

theorem Roundtrip.amoMin : ∀ p f d b m, Roundtrip.Statement (.amoMin p f d b m) := by
  intro p f d b m w h
  cases h
  simp [parse, parse4, rMem, raw]

theorem Roundtrip.amoMax : ∀ p f d b m, Roundtrip.Statement (.amoMax p f d b m) := by
  intro p f d b m w h
  cases h
  simp [parse, parse4, rMem, raw]

theorem Roundtrip.amoFadd : ∀ p f d b m, Roundtrip.Statement (.amoFadd p f d b m) := by
  intro p f d b m w h
  cases h
  simp [parse, parse4, rMem, raw]

theorem Roundtrip.cas : ∀ p f d b m, Roundtrip.Statement (.cas p f d b m) := by
  intro p f d b m w h
  cases h
  simp [parse, parse4, rMem, raw]

theorem Roundtrip.casp : ∀ p d b m, Roundtrip.Statement (.casp p d b m) := by
  intro p d b m w h
  cases h
  simp [parse, parse4, rMem, raw]

theorem Roundtrip.bara : ∀ p d a, Roundtrip.Statement (.bara p d a) := by
  intro p d a w h
  cases h
  simp [parse, parse4, rDA, raw]

theorem Roundtrip.barw : ∀ p a b, Roundtrip.Statement (.barw p a b) := by
  intro p a b w h
  cases h
  simp [parse, parse4, raw]

theorem Roundtrip.barx : ∀ p a b, Roundtrip.Statement (.barx p a b) := by
  intro p a b w h
  cases h
  simp [parse, parse4, rDAS, raw]

theorem Roundtrip.barcfg : ∀ p a b, Roundtrip.Statement (.barcfg p a b) := by
  intro p a b w h
  cases h
  simp [parse, parse4, rDAS, raw]

theorem Roundtrip.barcfgRd : ∀ p d a, Roundtrip.Statement (.barcfgRd p d a) := by
  intro p d a w h
  cases h
  simp [parse, parse4, rDA, raw]

theorem Roundtrip.barcfgPb : ∀ p d a, Roundtrip.Statement (.barcfgPb p d a) := by
  intro p d a w h
  cases h
  simp [parse, parse4, rDA, raw]

theorem Roundtrip.tlwait : ∀ p d t b, Roundtrip.Statement (.tlwait p d t b) := by
  intro p d t b w h
  cases h
  simp [parse, parse4, rDAS, raw]

theorem Roundtrip.tlget : ∀ p d t, Roundtrip.Statement (.tlget p d t) := by
  intro p d t w h
  cases h
  (simp [parse, parse4, rDA, raw] <;> rfl)

theorem Roundtrip.tlgetI : ∀ p d t, Roundtrip.Statement (.tlgetI p d t) := by
  intro p d t w h
  cases h
  (simp [parse, parse4, rDA, raw] <;> rfl)

theorem Roundtrip.few : ∀ p a off, Roundtrip.Statement (.few p a off) := by
  intro p a off w h
  cases h
  simp [parse, parse4, raw, Raw.off]

theorem Roundtrip.fewE : ∀ p a off, Roundtrip.Statement (.fewE p a off) := by
  intro p a off w h
  cases h
  simp [parse, parse4, raw, Raw.off]

theorem Roundtrip.feset : ∀ p sc a off, Roundtrip.Statement (.feset p sc a off) := by
  intro p sc a off w h
  cases h
  simp [parse, parse4, raw, Raw.scope, Raw.off]

theorem Roundtrip.feclr : ∀ p sc a off, Roundtrip.Statement (.feclr p sc a off) := by
  intro p sc a off w h
  cases h
  simp [parse, parse4, raw, Raw.scope, Raw.off]

theorem Roundtrip.send : ∀ p a b, Roundtrip.Statement (.send p a b) := by
  intro p a b w h
  cases h
  simp [parse, parse4, raw, qbit, qb]

theorem Roundtrip.sendT : ∀ p d a b, Roundtrip.Statement (.sendT p d a b) := by
  intro p d a b w h
  cases h
  (simp [parse, parse4, rDAB, raw] <;> rfl)

theorem Roundtrip.recv : ∀ p t id d, Roundtrip.Statement (.recv p t id d) := by
  intro p t id d w h
  cases t <;> cases id <;> cases h <;> (simp [parse, parse4, raw, Raw.c] <;> exact ⟨rfl, rfl⟩)

theorem Roundtrip.chstat : ∀ p d, Roundtrip.Statement (.chstat p d) := by
  intro p d w h
  cases h
  simp [parse, parse4, raw, qbit, qb]

theorem Roundtrip.chstatD : ∀ p d a, Roundtrip.Statement (.chstatD p d a) := by
  intro p d a w h
  cases h
  (simp [parse, parse4, rDA, raw] <;> rfl)

theorem Roundtrip.spawn : ∀ p d a b, Roundtrip.Statement (.spawn p d a b) := by
  intro p d a b w h
  cases h
  simp [parse, parse5, rDAB, raw]

theorem Roundtrip.exit : ∀ p, Roundtrip.Statement (.exit p) := by
  intro p w h
  cases h
  simp [parse, parse5, raw]

theorem Roundtrip.yield : ∀ p, Roundtrip.Statement (.yield p) := by
  intro p w h
  cases h
  simp [parse, parse5, raw]

theorem Roundtrip.wait : ∀ p, Roundtrip.Statement (.wait p) := by
  intro p w h
  cases h
  simp [parse, parse5, raw]

theorem Roundtrip.park : ∀ p, Roundtrip.Statement (.park p) := by
  intro p w h
  cases h
  simp [parse, parse5, raw]

theorem Roundtrip.wake : ∀ p t a, Roundtrip.Statement (.wake p t a) := by
  intro p t a w h
  cases t <;> cases h <;> simp [parse, parse5, raw, rDA]

theorem Roundtrip.self : ∀ p v d, Roundtrip.Statement (.self p v d) := by
  intro p v d w h
  cases v <;> cases h <;> (simp [parse, parse5, raw] <;> rfl)

theorem Roundtrip.mbxr : ∀ p d b, Roundtrip.Statement (.mbxr p d b) := by
  intro p d b w h
  cases h
  simp [parse, parse5, rDAS, raw]

theorem Roundtrip.evict : ∀ p, Roundtrip.Statement (.evict p) := by
  intro p w h
  cases h
  simp [parse, parse5, raw]

theorem Roundtrip.evictMem : ∀ p, Roundtrip.Statement (.evictMem p) := by
  intro p w h
  cases h
  simp [parse, parse5, raw]

theorem Roundtrip.pin : ∀ p d, Roundtrip.Statement (.pin p d) := by
  intro p d w h
  cases h
  simp [parse, parse5, raw]

theorem Roundtrip.pinU : ∀ p, Roundtrip.Statement (.pinU p) := by
  intro p w h
  cases h
  simp [parse, parse5, raw]

theorem Roundtrip.ctxrd : ∀ p d a w, Roundtrip.Statement (.ctxrd p d a w) := by
  intro p d a w w h
  cases h
  simp [parse, parse5, rDA, raw]

theorem Roundtrip.ctxwr : ∀ p a c w, Roundtrip.Statement (.ctxwr p a c w) := by
  intro p a c w w h
  cases h
  simp [parse, parse5, raw, Raw.c]

theorem Roundtrip.qcfg : ∀ p q b, Roundtrip.Statement (.qcfg p q b) := by
  intro p q b w h
  cases h
  simp [parse, parse5, rDAS, raw]

theorem Roundtrip.qbindPop : ∀ p q, Roundtrip.Statement (.qbindPop p q) := by
  intro p q w h
  cases h
  simp [parse, parse5, raw]

theorem Roundtrip.qbindPush : ∀ p q, Roundtrip.Statement (.qbindPush p q) := by
  intro p q w h
  cases h
  simp [parse, parse5, raw]

theorem Roundtrip.qbindUpop : ∀ p, Roundtrip.Statement (.qbindUpop p) := by
  intro p w h
  cases h
  simp [parse, parse5, raw]

theorem Roundtrip.qbindUpush : ∀ p, Roundtrip.Statement (.qbindUpush p) := by
  intro p w h
  cases h
  simp [parse, parse5, raw]

theorem Roundtrip.qstat : ∀ p d q, Roundtrip.Statement (.qstat p d q) := by
  intro p d q w h
  cases h
  simp [parse, parse5, rDA, raw]

theorem Roundtrip.qdrain : ∀ p q, Roundtrip.Statement (.qdrain p q) := by
  intro p q w h
  cases h
  simp [parse, parse5, raw]

theorem Roundtrip.qpeek : ∀ p d q b, Roundtrip.Statement (.qpeek p d q b) := by
  intro p d q b w h
  cases h
  simp [parse, parse5, rDAS, raw]

theorem Roundtrip.cvt : ∀ p rm ov dst src d a, Roundtrip.Statement (.cvt p rm ov dst src d a) := by
  intro p rm ov dst src d a w h
  cases rm <;> cases ov <;> cases h <;> (simp [parse, parse6, rDA, raw, qbit, qb, Rounding.code,
      Rounding.ofCode] <;> exact ⟨cvt_dst _ _ _, cvt_src _ _ _⟩)

theorem Roundtrip.vcvt : ∀ p rm ov d a x0 x1, Roundtrip.Statement (.vcvt p rm ov d a x0 x1) := by
  intro p rm ov d a x0 x1 w h
  cases rm <;> cases ov <;> cases h <;> (simp [parse, parse6, rX, raw, Raw.x0, Raw.x1] <;> exact ⟨rfl, rfl⟩)

theorem Roundtrip.qntk : ∀ p ov d a b t x0 x1 x2 x3, Roundtrip.Statement (.qntk p ov d a b t x0 x1 x2 x3) := by
  intro p ov d a b t x0 x1 x2 x3 w h
  cases ov <;> cases h <;> (simp [parse, parse6, rXT, rX, raw, Raw.tl, Raw.c, Raw.x0, Raw.x1, Raw.x2, Raw.x3] <;> rfl)

theorem Roundtrip.dqnk : ∀ p rm ov d a b t x0 x1 x2 x3, Roundtrip.Statement (.dqnk p rm ov d a b t x0 x1 x2 x3) := by
  intro p rm ov d a b t x0 x1 x2 x3 w h
  cases rm <;> cases ov <;> cases h <;> (simp [parse, parse6, rXT, rX, raw, Raw.tl, Raw.c, Raw.x0, Raw.x1, Raw.x2,
      Raw.x3] <;> exact ⟨rfl, rfl⟩)

theorem Roundtrip.qscl : ∀ p ov d a b t x1 x2 x3, Roundtrip.Statement (.qscl p ov d a b t x1 x2 x3) := by
  intro p ov d a b t x1 x2 x3 w h
  cases ov <;> cases h <;> (simp [parse, parse6, rXT, rX, raw, Raw.tl, Raw.c, Raw.x1, Raw.x2, Raw.x3] <;> rfl)

theorem Roundtrip.csrx : ∀ p d a b t x0 x1 x2 x3, Roundtrip.Statement (.csrx p d a b t x0 x1 x2 x3) := by
  intro p d a b t x0 x1 x2 x3 w h
  cases h
  simp [parse, parse6, rXT, rX, raw, Raw.tl, Raw.c, Raw.x0, Raw.x1, Raw.x2, Raw.x3]

theorem Roundtrip.csrd : ∀ p d a b t x0 x1 x2 x3, Roundtrip.Statement (.csrd p d a b t x0 x1 x2 x3) := by
  intro p d a b t x0 x1 x2 x3 w h
  cases h
  simp [parse, parse6, rXT, rX, raw, Raw.tl, Raw.c, Raw.x0, Raw.x1, Raw.x2, Raw.x3]

theorem Roundtrip.cvstat : ∀ p d, Roundtrip.Statement (.cvstat p d) := by
  intro p d w h
  cases h
  simp [parse, parse6, raw]

theorem Roundtrip.cvstatClr : ∀ p d, Roundtrip.Statement (.cvstatClr p d) := by
  intro p d w h
  cases h
  simp [parse, parse6, raw]

theorem Roundtrip.vclaim : ∀ p d b, Roundtrip.Statement (.vclaim p d b) := by
  intro p d b w h
  cases h
  simp [parse, parse7, rDAS, raw]

theorem Roundtrip.vclaimW : ∀ p d b, Roundtrip.Statement (.vclaimW p d b) := by
  intro p d b w h
  cases h
  simp [parse, parse7, rDAS, raw]

theorem Roundtrip.vrel : ∀ p, Roundtrip.Statement (.vrel p) := by
  intro p w h
  cases h
  simp [parse, parse7, raw]

theorem Roundtrip.hset : ∀ p a x0, Roundtrip.Statement (.hset p a x0) := by
  intro p a x0 w h
  cases h
  simp [parse, parse7, rX, raw, Raw.x0]

theorem Roundtrip.hget : ∀ p d x0, Roundtrip.Statement (.hget p d x0) := by
  intro p d x0 w h
  cases h
  simp [parse, parse7, rX, raw, Raw.x0]

theorem Roundtrip.vadd : ∀ p d a x0 x1 x2, Roundtrip.Statement (.vadd p d a x0 x1 x2) := by
  intro p d a x0 x1 x2 w h
  cases h
  simp [parse, parse7, rX, raw, Raw.x0, Raw.x1, Raw.x2]

theorem Roundtrip.vsub : ∀ p d a x0 x1 x2, Roundtrip.Statement (.vsub p d a x0 x1 x2) := by
  intro p d a x0 x1 x2 w h
  cases h
  simp [parse, parse7, rX, raw, Raw.x0, Raw.x1, Raw.x2]

theorem Roundtrip.vmul : ∀ p d a x0 x1 x2, Roundtrip.Statement (.vmul p d a x0 x1 x2) := by
  intro p d a x0 x1 x2 w h
  cases h
  simp [parse, parse7, rX, raw, Raw.x0, Raw.x1, Raw.x2]

theorem Roundtrip.vfma : ∀ p d a x0 x1 x2 x3, Roundtrip.Statement (.vfma p d a x0 x1 x2 x3) := by
  intro p d a x0 x1 x2 x3 w h
  cases h
  simp [parse, parse7, rX, raw, Raw.x0, Raw.x1, Raw.x2, Raw.x3]

theorem Roundtrip.vdiv : ∀ p d a x0 x1 x2, Roundtrip.Statement (.vdiv p d a x0 x1 x2) := by
  intro p d a x0 x1 x2 w h
  cases h
  simp [parse, parse7, rX, raw, Raw.x0, Raw.x1, Raw.x2]

theorem Roundtrip.vmin : ∀ p d a x0 x1 x2, Roundtrip.Statement (.vmin p d a x0 x1 x2) := by
  intro p d a x0 x1 x2 w h
  cases h
  simp [parse, parse7, rX, raw, Raw.x0, Raw.x1, Raw.x2]

theorem Roundtrip.vmax : ∀ p d a x0 x1 x2, Roundtrip.Statement (.vmax p d a x0 x1 x2) := by
  intro p d a x0 x1 x2 w h
  cases h
  simp [parse, parse7, rX, raw, Raw.x0, Raw.x1, Raw.x2]

theorem Roundtrip.vabs : ∀ p d a x0 x1, Roundtrip.Statement (.vabs p d a x0 x1) := by
  intro p d a x0 x1 w h
  cases h
  simp [parse, parse7, rX, raw, Raw.x0, Raw.x1]

theorem Roundtrip.vneg : ∀ p d a x0 x1, Roundtrip.Statement (.vneg p d a x0 x1) := by
  intro p d a x0 x1 w h
  cases h
  simp [parse, parse7, rX, raw, Raw.x0, Raw.x1]

theorem Roundtrip.vcmp : ∀ p c d a x0 x1 x2, Roundtrip.Statement (.vcmp p c d a x0 x1 x2) := by
  intro p c d a x0 x1 x2 w h
  cases c <;> cases h <;> (simp [parse, parse7, rX, raw, Raw.x0, Raw.x1, Raw.x2] <;> rfl)

theorem Roundtrip.vsel : ∀ p d a x0 x1 x2 x3, Roundtrip.Statement (.vsel p d a x0 x1 x2 x3) := by
  intro p d a x0 x1 x2 x3 w h
  cases h
  simp [parse, parse7, rX, raw, Raw.x0, Raw.x1, Raw.x2, Raw.x3]

theorem Roundtrip.vred : ∀ p op acc d a x1, Roundtrip.Statement (.vred p op acc d a x1) := by
  intro p op acc d a x1 w h
  cases op <;> cases acc <;> cases h <;> (simp [parse, parse7, rX, raw, Raw.x1] <;> exact ⟨rfl, rfl⟩)

theorem Roundtrip.vscan : ∀ p op d a b x0 x1, Roundtrip.Statement (.vscan p op d a b x0 x1) := by
  intro p op d a b x0 x1 w h
  cases op <;> cases h <;> (simp [parse, parse8, rX, raw, Raw.x0, Raw.x1] <;> rfl)

theorem Roundtrip.vperm : ∀ p d a x0 x1 x2, Roundtrip.Statement (.vperm p d a x0 x1 x2) := by
  intro p d a x0 x1 x2 w h
  cases h
  simp [parse, parse8, rX, raw, Raw.x0, Raw.x1, Raw.x2]

theorem Roundtrip.vbcast : ∀ p d a b x0, Roundtrip.Statement (.vbcast p d a b x0) := by
  intro p d a b x0 w h
  cases h
  simp [parse, parse8, rX, raw, Raw.x0]

theorem Roundtrip.vextr : ∀ p d b x1, Roundtrip.Statement (.vextr p d b x1) := by
  intro p d b x1 w h
  cases h
  simp [parse, parse8, rX, raw, Raw.x1]

theorem Roundtrip.vrcp : ∀ p d a x0 x1, Roundtrip.Statement (.vrcp p d a x0 x1) := by
  intro p d a x0 x1 w h
  cases h
  simp [parse, parse8, rX, raw, Raw.x0, Raw.x1]

theorem Roundtrip.vrsq : ∀ p d a x0 x1, Roundtrip.Statement (.vrsq p d a x0 x1) := by
  intro p d a x0 x1 w h
  cases h
  simp [parse, parse8, rX, raw, Raw.x0, Raw.x1]

theorem Roundtrip.vexp2 : ∀ p d a x0 x1, Roundtrip.Statement (.vexp2 p d a x0 x1) := by
  intro p d a x0 x1 w h
  cases h
  simp [parse, parse8, rX, raw, Raw.x0, Raw.x1]

theorem Roundtrip.vlog2 : ∀ p d a x0 x1, Roundtrip.Statement (.vlog2 p d a x0 x1) := by
  intro p d a x0 x1 w h
  cases h
  simp [parse, parse8, rX, raw, Raw.x0, Raw.x1]

theorem Roundtrip.vsin : ∀ p d a x0 x1, Roundtrip.Statement (.vsin p d a x0 x1) := by
  intro p d a x0 x1 w h
  cases h
  simp [parse, parse8, rX, raw, Raw.x0, Raw.x1]

theorem Roundtrip.vcos : ∀ p d a x0 x1, Roundtrip.Statement (.vcos p d a x0 x1) := by
  intro p d a x0 x1 w h
  cases h
  simp [parse, parse8, rX, raw, Raw.x0, Raw.x1]

theorem Roundtrip.vtbl : ∀ p d a x0 x1 x2, Roundtrip.Statement (.vtbl p d a x0 x1 x2) := by
  intro p d a x0 x1 x2 w h
  cases h
  simp [parse, parse8, rX, raw, Raw.x0, Raw.x1, Raw.x2]

theorem Roundtrip.vtblcfg : ∀ p d x0, Roundtrip.Statement (.vtblcfg p d x0) := by
  intro p d x0 w h
  cases h
  simp [parse, parse8, rX, raw, Raw.x0]

theorem Roundtrip.efset : ∀ p b, Roundtrip.Statement (.efset p b) := by
  intro p b w h
  cases h
  simp [parse, parseC, rDAS, raw]

theorem Roundtrip.padd : ∀ p sat d a b, Roundtrip.Statement (.padd p sat d a b) := by
  intro p sat d a b w h
  cases h
  simp [parse, parseC, rDAB, raw]

theorem Roundtrip.psub : ∀ p sat d a b, Roundtrip.Statement (.psub p sat d a b) := by
  intro p sat d a b w h
  cases h
  simp [parse, parseC, rDAB, raw]

theorem Roundtrip.pmul : ∀ p sat d a b, Roundtrip.Statement (.pmul p sat d a b) := by
  intro p sat d a b w h
  cases h
  simp [parse, parseC, rDAB, raw]

theorem Roundtrip.pdot : ∀ p d a b, Roundtrip.Statement (.pdot p d a b) := by
  intro p d a b w h
  cases h
  simp [parse, parseC, rDAB, raw]

theorem Roundtrip.pmin : ∀ p d a b, Roundtrip.Statement (.pmin p d a b) := by
  intro p d a b w h
  cases h
  simp [parse, parseC, rDAB, raw]

theorem Roundtrip.pmax : ∀ p d a b, Roundtrip.Statement (.pmax p d a b) := by
  intro p d a b w h
  cases h
  simp [parse, parseC, rDAB, raw]

theorem Roundtrip.pabs : ∀ p sat d a, Roundtrip.Statement (.pabs p sat d a) := by
  intro p sat d a w h
  cases h
  simp [parse, parseC, rDA, raw]

theorem Roundtrip.pshf : ∀ p d a b, Roundtrip.Statement (.pshf p d a b) := by
  intro p d a b w h
  cases h
  simp [parse, parseC, rDAB, raw]

theorem Roundtrip.pcmp : ∀ p c d a b, Roundtrip.Statement (.pcmp p c d a b) := by
  intro p c d a b w h
  cases c <;> cases h <;> (simp [parse, parseC, rDAB, raw] <;> rfl)

theorem Roundtrip.mld : ∀ p d a x0 x1, Roundtrip.Statement (.mld p d a x0 x1) := by
  intro p d a x0 x1 w h
  cases h
  simp [parse, parse9, rX, raw, Raw.x0, Raw.x1]

theorem Roundtrip.mst : ∀ p d a x0 x1, Roundtrip.Statement (.mst p d a x0 x1) := by
  intro p d a x0 x1 w h
  cases h
  simp [parse, parse9, rX, raw, Raw.x0, Raw.x1]

theorem Roundtrip.mset : ∀ p d a b x0, Roundtrip.Statement (.mset p d a b x0) := by
  intro p d a b x0 w h
  cases h
  simp [parse, parse9, rX, raw, Raw.x0]

theorem Roundtrip.madd : ∀ p d a b x0 x1 x2, Roundtrip.Statement (.madd p d a b x0 x1 x2) := by
  intro p d a b x0 x1 x2 w h
  cases h
  simp [parse, parse9, rX, raw, Raw.x0, Raw.x1, Raw.x2]

theorem Roundtrip.msub : ∀ p d a b x0 x1 x2, Roundtrip.Statement (.msub p d a b x0 x1 x2) := by
  intro p d a b x0 x1 x2 w h
  cases h
  simp [parse, parse9, rX, raw, Raw.x0, Raw.x1, Raw.x2]

theorem Roundtrip.mmul : ∀ p d a b x0 x1 x2, Roundtrip.Statement (.mmul p d a b x0 x1 x2) := by
  intro p d a b x0 x1 x2 w h
  cases h
  simp [parse, parse9, rX, raw, Raw.x0, Raw.x1, Raw.x2]

theorem Roundtrip.mfma : ∀ p d a b x0 x1 x2 x3, Roundtrip.Statement (.mfma p d a b x0 x1 x2 x3) := by
  intro p d a b x0 x1 x2 x3 w h
  cases h
  simp [parse, parse9, rX, raw, Raw.x0, Raw.x1, Raw.x2, Raw.x3]

theorem Roundtrip.mscl : ∀ p d a b x0 x1, Roundtrip.Statement (.mscl p d a b x0 x1) := by
  intro p d a b x0 x1 w h
  cases h
  simp [parse, parse9, rX, raw, Raw.x0, Raw.x1]

theorem Roundtrip.msqr : ∀ p d a x0 x1, Roundtrip.Statement (.msqr p d a x0 x1) := by
  intro p d a x0 x1 w h
  cases h
  simp [parse, parse9, rX, raw, Raw.x0, Raw.x1]

theorem Roundtrip.mnl : ∀ p fn d a x0 x1, Roundtrip.Statement (.mnl p fn d a x0 x1) := by
  intro p fn d a x0 x1 w h
  cases fn <;> cases h <;> (simp [parse, parse9, rX, raw, Raw.x0, Raw.x1] <;> rfl)

theorem Roundtrip.mcol : ∀ p op d a b x1, Roundtrip.Statement (.mcol p op d a b x1) := by
  intro p op d a b x1 w h
  cases op <;> cases h <;> (simp [parse, parse9, rX, raw, Raw.x1] <;> rfl)

theorem Roundtrip.mcolH : ∀ p op d a b x0 x1, Roundtrip.Statement (.mcolH p op d a b x0 x1) := by
  intro p op d a b x0 x1 w h
  cases op <;> cases h <;> (simp [parse, parse9, rX, raw, Raw.x0, Raw.x1] <;> rfl)

theorem Roundtrip.mchk : ∀ p d a x1, Roundtrip.Statement (.mchk p d a x1) := by
  intro p d a x1 w h
  cases h
  simp [parse, parse9, rX, raw, Raw.x1]

theorem Roundtrip.tset : ∀ p d b, Roundtrip.Statement (.tset p d b) := by
  intro p d b w h
  cases h
  simp [parse, parseA, rDAS, raw]

theorem Roundtrip.tget : ∀ p d a, Roundtrip.Statement (.tget p d a) := by
  intro p d a w h
  cases h
  simp [parse, parseA, rDA, raw]

theorem Roundtrip.tld : ∀ p sc evp d a c, Roundtrip.Statement (.tld p sc evp d a c) := by
  intro p sc evp d a c w h
  cases h
  simp [parse, parseA, raw, Raw.evp, Raw.scope]

theorem Roundtrip.tst : ∀ p sc evp b a c, Roundtrip.Statement (.tst p sc evp b a c) := by
  intro p sc evp b a c w h
  cases h
  simp [parse, parseA, raw, Raw.evp, Raw.scope]

theorem Roundtrip.tzero : ∀ p d, Roundtrip.Statement (.tzero p d) := by
  intro p d w h
  cases h
  simp [parse, parseA, raw]

theorem Roundtrip.ttrn : ∀ p d a, Roundtrip.Statement (.ttrn p d a) := by
  intro p d a w h
  cases h
  simp [parse, parseA, rDA, raw]

theorem Roundtrip.tpred : ∀ p z d a, Roundtrip.Statement (.tpred p z d a) := by
  intro p z d a w h
  cases h
  simp [parse, parseA, rDA, raw]

theorem Roundtrip.kop : ∀ p op d a b, Roundtrip.Statement (.kop p op d a b) := by
  intro p op d a b w h
  cases op <;> cases h <;> (simp [parse, parseA, rDAB, raw] <;> rfl)

theorem Roundtrip.tmma : ∀ p z d a b c, Roundtrip.Statement (.tmma p z d a b c) := by
  intro p z d a b c w h
  cases h
  simp [parse, parseA, rDAB, raw, Raw.c]

theorem Roundtrip.tmms : ∀ p z one tp tr d a b c, Roundtrip.Statement (.tmms p z one tp tr d a b c) := by
  intro p z one tp tr d a b c w h
  cases z <;> cases one <;> cases tp <;> cases tr <;> cases h <;> simp [parse, parseA, rDAB, raw, Raw.c, qbit, qb]

theorem Roundtrip.tmmm : ∀ p z d a b, Roundtrip.Statement (.tmmm p z d a b) := by
  intro p z d a b w h
  cases h
  simp [parse, parseA, rDAB, raw]

theorem Roundtrip.aclr : ∀ p d, Roundtrip.Statement (.aclr p d) := by
  intro p d w h
  cases h
  simp [parse, parseA, raw]

theorem Roundtrip.ard : ∀ p rm ov m d a b x0, Roundtrip.Statement (.ard p rm ov m d a b x0) := by
  intro p rm ov m d a b x0 w h
  cases rm <;> cases ov <;> cases m <;> cases h <;> simp [parse, parseA, rX, raw, Raw.x0, qbit, qb, Rounding.code,
      Rounding.ofCode]

theorem Roundtrip.awr : ∀ p m d a b x1, Roundtrip.Statement (.awr p m d a b x1) := by
  intro p m d a b x1 w h
  cases m <;> cases h <;> (simp [parse, parseA, rX, raw, Raw.x1] <;> rfl)

theorem Roundtrip.mgcfg : ∀ p d, Roundtrip.Statement (.mgcfg p d) := by
  intro p d w h
  cases h
  simp [parse, parseA, raw, qbit, qb]

theorem Roundtrip.mgcfgRel : ∀ p d, Roundtrip.Statement (.mgcfgRel p d) := by
  intro p d w h
  cases h
  (simp [parse, parseA, raw] <;> rfl)

theorem Roundtrip.mgstat : ∀ p d, Roundtrip.Statement (.mgstat p d) := by
  intro p d w h
  cases h
  simp [parse, parseA, raw]

theorem Roundtrip.mgadd : ∀ p d a b t x1 x2, Roundtrip.Statement (.mgadd p d a b t x1 x2) := by
  intro p d a b t x1 x2 w h
  cases h
  simp [parse, parseA, rXT, rX, raw, Raw.tl, Raw.c, Raw.x1, Raw.x2]

theorem Roundtrip.mgdrain : ∀ p d a t x0 x1, Roundtrip.Statement (.mgdrain p d a t x0 x1) := by
  intro p d a t x0 x1 w h
  cases h
  simp [parse, parseA, rXT, rX, raw, Raw.tl, Raw.c, Raw.x0, Raw.x1]

theorem Roundtrip.cpy : ∀ p d a b t len bar, Roundtrip.Statement (.cpy p d a b t len bar) := by
  intro p d a b t len bar w h
  cases h
  simp [parse, parseB, rXT, rX, raw, Raw.tl, Raw.c, Raw.x0, Raw.x2]

theorem Roundtrip.cpy2d : ∀ p d a b t row shape bar, Roundtrip.Statement (.cpy2d p d a b t row shape bar) := by
  intro p d a b t row shape bar w h
  cases h
  simp [parse, parseB, rXT, rX, raw, Raw.tl, Raw.c, Raw.x0, Raw.x1, Raw.x2]

theorem Roundtrip.cpyT : ∀ p d b t pitch tile bar, Roundtrip.Statement (.cpyT p d b t pitch tile bar) := by
  intro p d b t pitch tile bar w h
  cases h
  simp [parse, parseB, rXT, rX, raw, Raw.tl, Raw.c, Raw.x0, Raw.x1, Raw.x2]

theorem Roundtrip.cpym : ∀ p d b t pitch tile bar fc follow, Roundtrip.Statement (.cpym p d b t pitch tile bar fc follow) := by
  intro p d b t pitch tile bar fc follow w h
  cases h
  simp [parse, parseB, rXT, rX, raw, Raw.tl, Raw.c, Raw.x0, Raw.x1, Raw.x3, Raw.x2]

theorem Roundtrip.gath : ∀ p z d a b t count bar, Roundtrip.Statement (.gath p z d a b t count bar) := by
  intro p z d a b t count bar w h
  cases z <;> cases h <;> (simp [parse, parseB, rXT, rX, raw, Raw.tl, Raw.c, Raw.x0, Raw.x2] <;> rfl)

theorem Roundtrip.scat : ∀ p z d a b t count bar, Roundtrip.Statement (.scat p z d a b t count bar) := by
  intro p z d a b t count bar w h
  cases z <;> cases h <;> (simp [parse, parseB, rXT, rX, raw, Raw.tl, Raw.c, Raw.x0, Raw.x2] <;> rfl)

theorem Roundtrip.cpstQ : ∀ p d t b, Roundtrip.Statement (.cpstQ p d t b) := by
  intro p d t b w h
  cases h
  simp [parse, parseB, rDAB, raw]

theorem Roundtrip.cpstRes : ∀ p d a, Roundtrip.Statement (.cpstRes p d a) := by
  intro p d a w h
  cases h
  simp [parse, parseB, rDA, raw]

theorem Roundtrip.cpstEnd : ∀ p d a b, Roundtrip.Statement (.cpstEnd p d a b) := by
  intro p d a b w h
  cases h
  simp [parse, parseB, rDAB, raw]

theorem Roundtrip.winset : ∀ p rt n b x0, Roundtrip.Statement (.winset p rt n b x0) := by
  intro p rt n b x0 w h
  cases rt <;> cases h <;> (simp [parse, parseB, rXT, rX, raw, Raw.tl, Raw.c, Raw.x0] <;> rfl)

theorem Roundtrip.winsetCl : ∀ p n, Roundtrip.Statement (.winsetCl p n) := by
  intro p n w h
  cases h
  simp [parse, parseB, rXT, rX, raw, Raw.tl, Raw.c]

theorem Roundtrip.nlcfg : ∀ p d a, Roundtrip.Statement (.nlcfg p d a) := by
  intro p d a w h
  cases h
  simp [parse, parseB, rDA, raw]

theorem Roundtrip.nlbin : ∀ p d a b t, Roundtrip.Statement (.nlbin p d a b t) := by
  intro p d a b t w h
  cases h
  simp [parse, parseB, rDAB, raw, Raw.tl, Raw.c]

theorem Roundtrip.nlpair : ∀ p d t x0 x1, Roundtrip.Statement (.nlpair p d t x0 x1) := by
  intro p d t x0 x1 w h
  cases h
  simp [parse, parseB, rXT, rX, raw, Raw.tl, Raw.c, Raw.x0, Raw.x1]

theorem Roundtrip.nlnext : ∀ p d, Roundtrip.Statement (.nlnext p d) := by
  intro p d w h
  cases h
  simp [parse, parseB, raw]

theorem Roundtrip.nlstat : ∀ p d, Roundtrip.Statement (.nlstat p d) := by
  intro p d w h
  cases h
  simp [parse, parseB, raw]

theorem Roundtrip.nlrel : ∀ p, Roundtrip.Statement (.nlrel p) := by
  intro p w h
  cases h
  simp [parse, parseB, raw]

theorem Roundtrip.launch : ∀ p d a, Roundtrip.Statement (.launch p d a) := by
  intro p d a w h
  cases h
  simp [parse, parseC, rDA, raw]

theorem Roundtrip.join : ∀ p d a, Roundtrip.Statement (.join p d a) := by
  intro p d a w h
  cases h
  simp [parse, parseC, rDA, raw]

theorem Roundtrip.joinT : ∀ p d a, Roundtrip.Statement (.joinT p d a) := by
  intro p d a w h
  cases h
  simp [parse, parseC, rDA, raw]

theorem Roundtrip.done : ∀ p, Roundtrip.Statement (.done p) := by
  intro p w h
  cases h
  simp [parse, parseC, raw]

theorem Roundtrip.prio : ∀ p d a b, Roundtrip.Statement (.prio p d a b) := by
  intro p d a b w h
  cases h
  simp [parse, parseC, rDAS, raw]

theorem Roundtrip.prioSelf : ∀ p d b, Roundtrip.Statement (.prioSelf p d b) := by
  intro p d b w h
  cases h
  simp [parse, parseC, rDAS, raw]

theorem Roundtrip.wladd : ∀ p d a, Roundtrip.Statement (.wladd p d a) := by
  intro p d a w h
  cases h
  simp [parse, parseC, rDA, raw]

theorem Roundtrip.wltake : ∀ p d c, Roundtrip.Statement (.wltake p d c) := by
  intro p d c w h
  cases h
  simp [parse, parseC, raw, Raw.c]

theorem Roundtrip.wlcfg : ∀ p d, Roundtrip.Statement (.wlcfg p d) := by
  intro p d w h
  cases h
  simp [parse, parseC, raw]

theorem Roundtrip.wlcfgRel : ∀ p d, Roundtrip.Statement (.wlcfgRel p d) := by
  intro p d w h
  cases h
  simp [parse, parseC, raw]

theorem Roundtrip.wlcfgSt : ∀ p d, Roundtrip.Statement (.wlcfgSt p d) := by
  intro p d w h
  cases h
  simp [parse, parseC, raw]

theorem Roundtrip.lvcfg : ∀ p b, Roundtrip.Statement (.lvcfg p b) := by
  intro p b w h
  cases h
  simp [parse, parseC, rDAS, raw]

theorem Roundtrip.trap : ∀ p n, Roundtrip.Statement (.trap p n) := by
  intro p n w h
  cases h
  simp [parse, parseD, raw]

theorem Roundtrip.tret : ∀ p, Roundtrip.Statement (.tret p) := by
  intro p w h
  cases h
  simp [parse, parseD, raw]

theorem Roundtrip.sysr : ∀ p d sel, Roundtrip.Statement (.sysr p d sel) := by
  intro p d sel w h
  cases h
  simp [parse, parseD, raw]

theorem Roundtrip.sysw : ∀ p sel a, Roundtrip.Statement (.sysw p sel a) := by
  intro p sel a w h
  cases h
  simp [parse, parseD, raw]

theorem Roundtrip.xlpub : ∀ p d a b, Roundtrip.Statement (.xlpub p d a b) := by
  intro p d a b w h
  cases h
  simp [parse, parseD, rDAB, raw]

theorem Roundtrip.xlpubNs : ∀ p d a b, Roundtrip.Statement (.xlpubNs p d a b) := by
  intro p d a b w h
  cases h
  simp [parse, parseD, rDAB, raw]

theorem Roundtrip.xlinvAll : ∀ p, Roundtrip.Statement (.xlinvAll p) := by
  intro p w h
  cases h
  simp [parse, parseD, raw]

theorem Roundtrip.xlinvOwn : ∀ p a, Roundtrip.Statement (.xlinvOwn p a) := by
  intro p a w h
  cases h
  simp [parse, parseD, raw]

theorem Roundtrip.svcsend : ∀ p d a b, Roundtrip.Statement (.svcsend p d a b) := by
  intro p d a b w h
  cases h
  simp [parse, parseD, rDAB, raw]

theorem Roundtrip.corectlOut : ∀ p d a, Roundtrip.Statement (.corectlOut p d a) := by
  intro p d a w h
  cases h
  simp [parse, parseD, rDA, raw]

theorem Roundtrip.corectlIn : ∀ p d a, Roundtrip.Statement (.corectlIn p d a) := by
  intro p d a w h
  cases h
  simp [parse, parseD, rDA, raw]

theorem Roundtrip.corectlTout : ∀ p d a, Roundtrip.Statement (.corectlTout p d a) := by
  intro p d a w h
  cases h
  simp [parse, parseD, rDA, raw]

theorem Roundtrip.corectlDisp : ∀ p d a, Roundtrip.Statement (.corectlDisp p d a) := by
  intro p d a w h
  cases h
  simp [parse, parseD, rDA, raw]

theorem Roundtrip.corectlStat : ∀ p d a, Roundtrip.Statement (.corectlStat p d a) := by
  intro p d a w h
  cases h
  simp [parse, parseD, rDA, raw]

theorem Roundtrip.mapout : ∀ p d a, Roundtrip.Statement (.mapout p d a) := by
  intro p d a w h
  cases h
  simp [parse, parseD, rDA, raw]

theorem Roundtrip.migr : ∀ p d a b t, Roundtrip.Statement (.migr p d a b t) := by
  intro p d a b t w h
  cases h
  simp [parse, parseD, rDAB, raw, Raw.tl, Raw.c]

theorem Roundtrip.wsld : ∀ p d a b c, Roundtrip.Statement (.wsld p d a b c) := by
  intro p d a b c w h
  cases h
  simp [parse, parseD, rDAB, raw, Raw.c]

theorem Roundtrip.keyset : ∀ p d a b, Roundtrip.Statement (.keyset p d a b) := by
  intro p d a b w h
  cases h
  simp [parse, parseD, rDAB, raw]

theorem Roundtrip.keysetDel : ∀ p d a, Roundtrip.Statement (.keysetDel p d a) := by
  intro p d a w h
  cases h
  simp [parse, parseD, rDA, raw]

theorem Roundtrip.metrd : ∀ p d b, Roundtrip.Statement (.metrd p d b) := by
  intro p d b w h
  cases h
  simp [parse, parseD, rDAS, raw]

theorem Roundtrip.metrdN : ∀ p d b, Roundtrip.Statement (.metrdN p d b) := by
  intro p d b w h
  cases h
  simp [parse, parseD, rDAS, raw]

theorem Roundtrip.metsign : ∀ p d a b, Roundtrip.Statement (.metsign p d a b) := by
  intro p d a b w h
  cases h
  simp [parse, parseD, rDAB, raw]

theorem Roundtrip.metsignFinal : ∀ p d a b, Roundtrip.Statement (.metsignFinal p d a b) := by
  intro p d a b w h
  cases h
  simp [parse, parseD, rDAB, raw]

theorem Roundtrip.attest : ∀ p d a b, Roundtrip.Statement (.attest p d a b) := by
  intro p d a b w h
  cases h
  simp [parse, parseD, rDAB, raw]

theorem Roundtrip.attestRev : ∀ p d a, Roundtrip.Statement (.attestRev p d a) := by
  intro p d a w h
  cases h
  simp [parse, parseD, rDA, raw]

theorem Roundtrip.trace : ∀ p code a, Roundtrip.Statement (.trace p code a) := by
  intro p code a w h
  cases h
  simp [parse, parseE, raw]

theorem Roundtrip.lclk : ∀ p d, Roundtrip.Statement (.lclk p d) := by
  intro p d w h
  cases h
  simp [parse, parseE, raw]

theorem Roundtrip.lclkAcq : ∀ p d, Roundtrip.Statement (.lclkAcq p d) := by
  intro p d w h
  cases h
  simp [parse, parseE, raw]

theorem Roundtrip.bkpt : ∀ p n, Roundtrip.Statement (.bkpt p n) := by
  intro p n w h
  cases h
  simp [parse, parseE, raw]

theorem Roundtrip.sample : ∀ p d a, Roundtrip.Statement (.sample p d a) := by
  intro p d a w h
  cases h
  simp [parse, parseE, rDA, raw]

theorem Roundtrip.trigsetBuf : ∀ p d a b, Roundtrip.Statement (.trigsetBuf p d a b) := by
  intro p d a b w h
  cases h
  simp [parse, parseE, rDAB, raw]

theorem Roundtrip.trigsetStart : ∀ p d a, Roundtrip.Statement (.trigsetStart p d a) := by
  intro p d a w h
  cases h
  simp [parse, parseE, rDA, raw]

theorem Roundtrip.trigsetStop : ∀ p d a, Roundtrip.Statement (.trigsetStop p d a) := by
  intro p d a w h
  cases h
  simp [parse, parseE, rDA, raw]

theorem Roundtrip.trigsetBp : ∀ p d a b slot, Roundtrip.Statement (.trigsetBp p d a b slot) := by
  intro p d a b slot w h
  cases h
  simp [parse, parseE, rDAB, raw, Raw.c]

theorem Roundtrip.trigsetMask : ∀ p d a, Roundtrip.Statement (.trigsetMask p d a) := by
  intro p d a w h
  cases h
  simp [parse, parseE, rDA, raw]

theorem Roundtrip.trigsetSt : ∀ p d, Roundtrip.Statement (.trigsetSt p d) := by
  intro p d w h
  cases h
  simp [parse, parseE, raw]

theorem Roundtrip.slotrd : ∀ p d a n, Roundtrip.Statement (.slotrd p d a n) := by
  intro p d a n w h
  cases h
  simp [parse, parseE, rDA, raw]

theorem Roundtrip.slotrdClr : ∀ p d a n, Roundtrip.Statement (.slotrdClr p d a n) := by
  intro p d a n w h
  cases h
  simp [parse, parseE, rDA, raw]

theorem Roundtrip.deviceReset : Roundtrip.Statement .deviceReset := fun _ h => nomatch h

theorem Roundtrip.clockStepSelect : ∀ c, Roundtrip.Statement (.clockStepSelect c) := fun _ _ h => nomatch h

theorem Roundtrip.systemSpaceWrite : ∀ unit off v,
      Roundtrip.Statement (.systemSpaceWrite unit off v) := fun _ _ _ _ h => nomatch h

theorem Roundtrip.coreCycle : ∀ core, Roundtrip.Statement (.coreCycle core) := fun _ _ h => nomatch h

theorem Roundtrip.icacheFill : ∀ thread, Roundtrip.Statement (.icacheFill thread) := fun _ _ h => nomatch h

theorem Roundtrip.longOpResult : ∀ thread, Roundtrip.Statement (.longOpResult thread) := fun _ _ h => nomatch h

theorem Roundtrip.loadFill : ∀ thread, Roundtrip.Statement (.loadFill thread) := fun _ _ h => nomatch h

theorem Roundtrip.storeBind : ∀ thread, Roundtrip.Statement (.storeBind thread) := fun _ _ h => nomatch h

theorem Roundtrip.wcEntryDrain : ∀ core block thread,
      Roundtrip.Statement (.wcEntryDrain core block thread) := fun _ _ _ _ h => nomatch h

theorem Roundtrip.deferredFault : ∀ thread, Roundtrip.Statement (.deferredFault thread) := fun _ _ h => nomatch h

theorem Roundtrip.wsRefreshStart : ∀ bank, Roundtrip.Statement (.wsRefreshStart bank) := fun _ _ h => nomatch h

theorem Roundtrip.wsRefreshEnd : Roundtrip.Statement .wsRefreshEnd := fun _ h => nomatch h

theorem Roundtrip.timelineRetire : ∀ crew t, Roundtrip.Statement (.timelineRetire crew t) := fun _ _ _ h => nomatch h

theorem Roundtrip.yieldTimeout : ∀ thread, Roundtrip.Statement (.yieldTimeout thread) := fun _ _ h => nomatch h

theorem Roundtrip.lineCheckInStart : ∀ thread, Roundtrip.Statement (.lineCheckInStart thread) := fun _ _ h => nomatch h

theorem Roundtrip.lineCheckInDone : ∀ thread, Roundtrip.Statement (.lineCheckInDone thread) := fun _ _ h => nomatch h

theorem Roundtrip.innMoveDone : ∀ thread, Roundtrip.Statement (.innMoveDone thread) := fun _ _ h => nomatch h

theorem Roundtrip.ageTick : ∀ thread, Roundtrip.Statement (.ageTick thread) := fun _ _ h => nomatch h

theorem Roundtrip.parlimWrite : ∀ tile v, Roundtrip.Statement (.parlimWrite tile v) := fun _ _ _ h => nomatch h

theorem Roundtrip.trapEntry : ∀ thread, Roundtrip.Statement (.trapEntry thread) := fun _ _ h => nomatch h

theorem Roundtrip.shootdownComplete : ∀ thread, Roundtrip.Statement (.shootdownComplete thread) := fun _ _ h => nomatch h

theorem Roundtrip.systemFault : ∀ thread code addr,
      Roundtrip.Statement (.systemFault thread code addr) := fun _ _ _ _ h => nomatch h

theorem Roundtrip.corefail : ∀ core, Roundtrip.Statement (.corefail core) := fun _ _ h => nomatch h

theorem Roundtrip.linkfail : ∀ link, Roundtrip.Statement (.linkfail link) := fun _ _ h => nomatch h

theorem Roundtrip.watch : ∀ crew, Roundtrip.Statement (.watch crew) := fun _ _ h => nomatch h

theorem Roundtrip.crewSave : ∀ crew, Roundtrip.Statement (.crewSave crew) := fun _ _ h => nomatch h

theorem Roundtrip.crewRestore : ∀ crew tile, Roundtrip.Statement (.crewRestore crew tile) := fun _ _ _ h => nomatch h

theorem Roundtrip.remapLateWrite : ∀ crew off bytes,
      Roundtrip.Statement (.remapLateWrite crew off bytes) := fun _ _ _ _ h => nomatch h

theorem Roundtrip.porterLineMove : Roundtrip.Statement .porterLineMove := fun _ h => nomatch h

theorem Roundtrip.migrationComplete : Roundtrip.Statement .migrationComplete := fun _ h => nomatch h

theorem Roundtrip.predecessorCommission : ∀ serial hash,
      Roundtrip.Statement (.predecessorCommission serial hash) := fun _ _ _ h => nomatch h

theorem Roundtrip.hostWrite : ∀ pa bytes keep, Roundtrip.Statement (.hostWrite pa bytes keep) := fun _ _ _ _ h => nomatch h

theorem Roundtrip.hostWriteBack : ∀ line bytes, Roundtrip.Statement (.hostWriteBack line bytes) := fun _ _ _ h => nomatch h

theorem Roundtrip.backInvalidateAnswer : ∀ line, Roundtrip.Statement (.backInvalidateAnswer line) := fun _ _ h => nomatch h

theorem Roundtrip.queueFill : ∀ thread, Roundtrip.Statement (.queueFill thread) := fun _ _ h => nomatch h

theorem Roundtrip.convEngineRun : ∀ tile, Roundtrip.Statement (.convEngineRun tile) := fun _ _ h => nomatch h

theorem Roundtrip.cvstatW1cWrite : ∀ crew v, Roundtrip.Statement (.cvstatW1cWrite crew v) := fun _ _ _ h => nomatch h

theorem Roundtrip.mstatW1cWrite : ∀ crew v, Roundtrip.Statement (.mstatW1cWrite crew v) := fun _ _ _ h => nomatch h

theorem Roundtrip.laneGrantServe : ∀ tile, Roundtrip.Statement (.laneGrantServe tile) := fun _ _ h => nomatch h

theorem Roundtrip.momentStep : ∀ tile, Roundtrip.Statement (.momentStep tile) := fun _ _ h => nomatch h

theorem Roundtrip.arrayOpStart : ∀ tile, Roundtrip.Statement (.arrayOpStart tile) := fun _ _ h => nomatch h

theorem Roundtrip.arrayOpComplete : ∀ tile, Roundtrip.Statement (.arrayOpComplete tile) := fun _ _ h => nomatch h

theorem Roundtrip.followOnDispatch : ∀ tile op, Roundtrip.Statement (.followOnDispatch tile op) := fun _ _ _ h => nomatch h

theorem Roundtrip.mangleOpRun : ∀ tile, Roundtrip.Statement (.mangleOpRun tile) := fun _ _ h => nomatch h

theorem Roundtrip.copySegmentBind : ∀ tile op, Roundtrip.Statement (.copySegmentBind tile op) := fun _ _ _ h => nomatch h

theorem Roundtrip.tileStep : ∀ tile op, Roundtrip.Statement (.tileStep tile op) := fun _ _ _ h => nomatch h

theorem Roundtrip.gatherReply : ∀ tile op elem, Roundtrip.Statement (.gatherReply tile op elem) := fun _ _ _ _ h => nomatch h

theorem Roundtrip.engineFault : ∀ tile op, Roundtrip.Statement (.engineFault tile op) := fun _ _ _ h => nomatch h

theorem Roundtrip.copyRetire : ∀ tile op, Roundtrip.Statement (.copyRetire tile op) := fun _ _ _ h => nomatch h

theorem Roundtrip.remoteAccessArrival : ∀ thread, Roundtrip.Statement (.remoteAccessArrival thread) := fun _ _ h => nomatch h

theorem Roundtrip.hamperBinRun : ∀ site ctx, Roundtrip.Statement (.hamperBinRun site ctx) := fun _ _ _ h => nomatch h

theorem Roundtrip.hamperBatchWrite : ∀ site ctx, Roundtrip.Statement (.hamperBatchWrite site ctx) := fun _ _ _ h => nomatch h

theorem Roundtrip.coachInterval : ∀ tile, Roundtrip.Statement (.coachInterval tile) := fun _ _ h => nomatch h

theorem Roundtrip.hqtailDoorbell : ∀ q v, Roundtrip.Statement (.hqtailDoorbell q v) := fun _ _ _ h => nomatch h

theorem Roundtrip.hqEnableWrite : ∀ q v, Roundtrip.Statement (.hqEnableWrite q v) := fun _ _ _ h => nomatch h

theorem Roundtrip.hostLaunchAccept : ∀ q, Roundtrip.Statement (.hostLaunchAccept q) := fun _ _ h => nomatch h

theorem Roundtrip.deskSelect : ∀ site, Roundtrip.Statement (.deskSelect site) := fun _ _ h => nomatch h

theorem Roundtrip.instanceBind : ∀ site, Roundtrip.Statement (.instanceBind site) := fun _ _ h => nomatch h

theorem Roundtrip.coResidentBind : ∀ launch, Roundtrip.Statement (.coResidentBind launch) := fun _ _ h => nomatch h

theorem Roundtrip.instanceEnd : ∀ crew, Roundtrip.Statement (.instanceEnd crew) := fun _ _ h => nomatch h

theorem Roundtrip.reductionSweep : Roundtrip.Statement .reductionSweep := fun _ h => nomatch h

theorem Roundtrip.triggerCycle : Roundtrip.Statement .triggerCycle := fun _ h => nomatch h

theorem Roundtrip.traceRecordWrite : Roundtrip.Statement .traceRecordWrite := fun _ h => nomatch h

theorem Roundtrip.freeze : Roundtrip.Statement .freeze := fun _ h => nomatch h

theorem Roundtrip.thaw : Roundtrip.Statement .thaw := fun _ h => nomatch h

theorem Roundtrip.arrayrd : ∀ sel, Roundtrip.Statement (.arrayrd sel) := fun _ _ h => nomatch h

theorem Roundtrip.extest : Roundtrip.Statement .extest := fun _ h => nomatch h

theorem Roundtrip.samplePreload : Roundtrip.Statement .samplePreload := fun _ h => nomatch h

theorem Roundtrip.idcode : Roundtrip.Statement .idcode := fun _ h => nomatch h

theorem Roundtrip.bypass : ∀ code, Roundtrip.Statement (.bypass code) := fun _ _ h => nomatch h

theorem Roundtrip.threadTermination : ∀ thread whole,
      Roundtrip.Statement (.threadTermination thread whole) := fun _ _ _ h => nomatch h

theorem Roundtrip.faultRingPointerWrite : ∀ mender head base,
      Roundtrip.Statement (.faultRingPointerWrite mender head base) := fun _ _ _ _ h => nomatch h

theorem Roundtrip.fabricAccessArrival : ∀ pa size op time,
      Roundtrip.Statement (.fabricAccessArrival pa size op time) := fun _ _ _ _ _ h => nomatch h

theorem Roundtrip.speculativeFetch : ∀ f, Roundtrip.Statement (.speculativeFetch f) := fun _ _ h => nomatch h

theorem Roundtrip.wsldComplete : ∀ thread, Roundtrip.Statement (.wsldComplete thread) := fun _ _ h => nomatch h

end Sys2Proof.Laws
end

