-- ==== Sys2Proof/Safety.lean ====
section
/-! DEFINITION. What counts as a safe run: a step that ends in a next state. -/

namespace Sys2Proof.Safety

open Sys2Proof.Machine

/-- The step from a state neither faults nor is refused. -/
def stepsOn (s : State) : Prop := ∃ t, step s = .next t

/-- Memory is in its canonical form: addresses rise, and no listed byte is the one an unlisted address reads as. -/
def memoryCanonical (s : State) : Prop := Memory.wf s.mem.mem = true

end Sys2Proof.Safety
end

