-- ==== Sys2Proof/Tests/Slice0.lean ====
section
/-! SUPPORT. Tests: words of the spec decode to the instructions they stand for, ill-formed instructions are refused, and every
statement of Sys2Proof/Certificates/Slice0/Obligations.lean has a state and operands that meet its hypotheses. Expected values
come from the spec's encodings, worked examples and rules. -/

namespace Sys2Proof.Tests

open Sys2Proof Sys2Proof.Machine Sys2Proof.Machine.Claim

set_option Elab.async false

/-- The predicate that always holds. -/
def p0 : Pred := ⟨false, 0⟩

/-! ### Fields the spec refuses (R38, R43, R56; Tables 5.3, 6.2, 6.3, 8.2, 24.4), and fields next to them it admits -/

def m0 : MemArg := ⟨1, .off 0#17, .system, 3⟩

/-- Every instruction of the list has ill-formed fields. -/
def refused (xs : List Instr) : Bool := xs.all fun x => !wellFormed x

theorem test_illFormed_immediates :
    refused [.bfx p0 true 1 2 (.imm 0x10000#28), .bfi p0 1 2 (.imm 0x10000#28), .mbxr p0 1 (.imm 32#28),
      .qpeek p0 1 2 (.imm 16#28), .efset p0 (.imm 256#28), .tset p0 1 (.imm 0x80000#28), .prio p0 1 2 (.imm 16#28),
      .prioSelf p0 1 (.imm 16#28), .lvcfg p0 (.imm 0x200000#28), .metrd p0 1 (.imm 64#28),
      .metrdN p0 1 (.imm 64#28), .vclaim p0 1 (.imm 12#28), .vclaim p0 1 (.imm 264#28), .vclaimW p0 1 (.imm 0#28)] = true := by
  decide

theorem test_illFormed_formats :
    refused [.ld p0 .s4 .plain false 1 m0, .st p0 .f6 false 1 m0, .ldq p0 .mf32 1 m0, .ldp p0 .s32 .plain false 2 m0,
      .stp p0 .f32 false 2 m0, .ldb p0 .s8 false 1 m0, .stb p0 .f16 false 1 m0, .amoSwap p0 .s16 1 2 m0,
      .amoAdd p0 .f64 1 2 m0, .amoAnd p0 .z8 1 2 m0, .amoOr p0 .f32 1 2 m0, .amoXor p0 .z16 1 2 m0, .amoMin p0 .f64 1 2 m0,
      .amoMax p0 .f64 1 2 m0, .amoFadd p0 .s64 1 2 m0, .cas p0 .f64 1 2 m0] = true := by decide

theorem test_illFormed_registers :
    refused [.ldp p0 .s64 .plain false 3 m0, .stp p0 .s64 false 3 m0, .casp p0 3 2 m0, .casp p0 2 3 m0, .recv p0 none true 1,
      .hset p0 1 2, .hget p0 1 2, .mcol p0 .mean 1 2 3 4, .mcolH p0 .sd 1 2 3 4 5] = true := by decide

theorem test_illFormed_selectors :
    refused [.sysr p0 1 0x003#12, .sysw p0 0x003#12 1, .sysw p0 0x001#12 1, .sysw p0 0x0B0#12 1, .slotrd p0 1 2 6#6,
      .slotrdClr p0 1 2 41#6] = true := by decide

theorem test_wellFormed_limits :
    [Instr.bfx p0 true 1 2 (.imm 0xFFFF#28), .mbxr p0 1 (.imm 31#28), .qpeek p0 1 2 (.imm 15#28), .efset p0 (.imm 255#28),
      .ldp p0 .f64 .plain false 6 m0, .ldb p0 .f6 false 1 m0, .casp p0 6 0 m0, .recv p0 none false 1, .mcol p0 .upper 1 2 3 4,
      .sysw p0 0x080#12 1, .sysr p0 1 0x0B1#12, .slotrd p0 1 2 40#6, .tset p0 1 (.imm 0x7FFFF#28), .vclaim p0 1 (.imm 256#28)].all wellFormed = true := by
  decide

/-! ### Words the spec writes out -/

/-- The words decode to the instruction, with nothing left over. -/
abbrev Spells (ws : List (BitVec 32)) (x : Instr) : Prop := decode (wordBytes ws) = .ok (x, [])

theorem test_decode_scalar :
    Spells [0x0808C488#32, 0x000083C8#32] (.bfx ⟨false, 2⟩ true 3 4 (.imm 0x83C#28)) ∧
      Spells [0x00694140#32, 0#32] (.div p0 false 5 4 (.reg 6)) ∧ Spells [0x00004540#32, 4#32] (.movi p0 1 4#32) ∧
      Spells [0x38428500#32, 0#32] (.lea p0 7 2 1 (.reg 4)) ∧ Spells [0x00003FC0#32, 0#32] .illegal ∧
      Spells [0xFFFFFFFF#32] .pad := ⟨rfl, rfl, rfl, rfl, rfl, rfl⟩

theorem test_decode_control :
    Spells [0x00000980#32, 0x00020006#32] (.loop p0 6#16 2#16) ∧ Spells [0x00001440#32, 0#32] (.exit p0) ∧
      Spells [0x000234C0#32, 0x00000808#32] (.sysw p0 0x080#12 1) ∧
      Spells [0x00011500#32, 0#32] (.self p0 .idx 4) ∧ Spells [0x00805500#32, 8#32] (.mbxr p0 1 (.imm 0#28)) :=
  ⟨rfl, rfl, rfl, rfl, rfl⟩

theorem test_decode_memory :
    Spells [0x20044C2C#32, 0x0008002D#32] (.ld ⟨true, 3⟩ .s32 .plain false 1 ⟨2, .off 16#17, .crew, 5⟩) ∧
      Spells [0x2002CC00#32, 0x0001503B#32] (.ld p0 .s64 .fec false 3 ⟨1, .index 2, .crew, 3⟩) ∧
      Spells [0x80429080#32, 3#32] (.casp p0 2 4 ⟨1, .off 0#17, .device, 3⟩) ∧
      Spells [0x80048C80#32, 0x3B#32] (.ldp p0 .s64 .plain false 2 ⟨2, .off 0#17, .device, 3⟩) ∧
      Spells [0x80020D80#32, 0x2B#32] (.ldq p0 .s32 0 ⟨1, .off 0#17, .device, 3⟩) := ⟨rfl, rfl, rfl, rfl, rfl⟩

theorem test_decode_queues_and_conversion :
    Spells [0x00001600#32, 0x28#32] (.qcfg p0 0 (.imm 2#28)) ∧ Spells [0x10001640#32, 0#32] (.qbindUpop p0) ∧
      Spells [0x0002D800#32, 0x00011148#32] (.cvt p0 .rne false 0x14#8 0x11#8 3 1) ∧
      Spells [0x006A5881#32, 2#32, 0x3214#32] (.qntk p0 false 1 5 6 2 4 1 2 3) := ⟨rfl, rfl, rfl, rfl⟩

theorem test_decode_vector_and_moment :
    Spells [0x0008A281#32, 0#32, 0x713#32] (.vtbl p0 2 4 3 1 7) ∧
      Spells [0x0822F240#32, 0#32] (.padd p0 true 3 1 2) ∧
      Spells [0x0058A541#32, 0#32, 0x213#32] (.mmul p0 2 4 5 3 1 2) ∧
      Spells [0x0021A481#32, 0#32, 1#32] (.mset p0 6 0 2 1) ∧
      Spells [0x18406681#32, 0#32, 0x40#32] (.mcol p0 .upper 1 0 4 4) ∧
      Spells [0x0001A641#32, 0#32, 5#32] (.mnl p0 .relu 6 0 5 0) := ⟨rfl, rfl, rfl, rfl, rfl, rfl⟩

theorem test_decode_tile_and_carrier :
    Spells [0x0000A800#32, 0x000C0118#32] (.tset p0 2 (.imm 0xC011#28)) ∧
      Spells [0x083469C8#32, 0#32] (.tmma ⟨false, 2⟩ true 1 2 3 0) ∧
      Spells [0x00346C01#32, 1#32, 0xA04#32] (.cpy p0 1 2 3 1 4 (some 2)) := ⟨rfl, rfl, rfl⟩

theorem test_decode_hamper_and_work :
    Spells [0x006A6E40#32, 1#32] (.nlbin p0 1 5 6 1) ∧ Spells [0x0000EE81#32, 1#32, 0x32#32] (.nlpair p0 3 1 2 3) ∧
      Spells [0x00012EC0#32, 0#32] (.nlnext p0 4) ∧ Spells [0x00047000#32, 0#32] (.launch p0 1 2) ∧
      Spells [0x0002F040#32, 0#32] (.join p0 3 1) ∧ Spells [0x0000B140#32, 1#32] (.wltake p0 2 1) :=
  ⟨rfl, rfl, rfl, rfl, rfl, rfl⟩

theorem test_decode_meters_and_debug :
    Spells [0x0800B680#32, 0x58#32] (.metrdN p0 2 (.imm 5#28)) ∧ Spells [0x00083800#32, 0x58#32] (.trace p0 5#16 4) ∧
      Spells [0x0000B840#32, 0#32] (.lclk p0 2) := ⟨rfl, rfl, rfl⟩

theorem witness_decodeEncodeAgree :
    wellFormed (.movi128 p0 4 5#32 6#32) = true ∧ encode (.movi128 p0 4 5#32 6#32) = [0x00010542#32, 5#32, 0#32, 6#32] := by
  decide

/-! ### A small state: line 0 of crew 0 issues in core 0 of tile 0, with every resource declared -/

/-- A handle word (Table 14.1): byte offset, elements, format, flags W, C, D, X. -/
def hd (byte len : Nat) (f : Fmt) (flags : Nat := 0) : BitVec 128 :=
  BitVec.ofNat 128 (8 * byte + 2 ^ 23 * len + 2 ^ 59 * f.code + 2 ^ 67 * flags)

/-- A declaration of everything a crew can hold. -/
def allDecl : Decl :=
  { threads := 4, scratch := 65536, tiles := 8, acc := 8, moments := 16, lanes := 64, queues := 8, hamper := true,
    house := 0, meters := 0 }

/-- The crew's handles: F32 operands 0 to 3, integers 4 and 5, K16 and its scales, pairs, F64, indices, a table, buffers. -/
def handles : Vector (BitVec 128) 16 :=
  #v[hd 0 8 .f32, hd 64 8 .f32, hd 128 8 .f32, hd 192 8 .f32, hd 256 8 .z32, hd 320 8 .z8, hd 576 64 .k16, hd 704 1 .z8,
     hd 708 1 .f32, hd 768 8 .mf32, hd 832 8 .f64, hd 1024 8 .f32, hd 896 8 .z32, hd 1088 64 .f32, hd 2048 1024 .z64,
     hd 10240 1024 .z64]

/-- The crew: an F32 table at scratchpad byte 1024, tiles 0 and 1 of 4 rows of 8 BF16 elements, 2 metadata, 3 and 4 MB16
pairs, 5 and 6 E4M3, 7 unshaped. -/
def crew0 : Crew :=
  { Crew.reset 0 { Task.zero with gtid := 1 } allDecl with
    handles := handles,
    shapes := #v[0x4313#64, 0x4313#64, 0x4308#64, 0x0321#64, 0x0321#64, 0x0314#64, 0x4314#64, 0#64],
    tileB := [0, 1, 256, 257, 512, 513, 768, 769].map fun n => (2 * 16384 + n, 0x33#8),
    acfg := 0x0100#64, kpred := 3 }

/-- The line: privileged, resident in core 0, eight lanes, g1 = 64, g2 = 1, g3 = 0x3F800000. -/
def line0 : Thread :=
  { Thread.reset with
    loc := .parlour 0, privl := true, lgrant := 1, gtid := 1, g := #v[0, 64, 1, 0x3F800000, 8, 2, 128, 16], flags := 3,
    pts := 5, acq := 3, pc := 0x1000 }

/-- The first 2 MiB of root 0 are global memory from 0 up, readable, writable, cached. -/
def page0 : TlbEntry := { root := 0, va := 0, size := 2 ^ 21, leaf := 0x37#64, path := [256] }

/-- A launch of one node and one instance, bound as crew 0. -/
def launch0 : Launch :=
  newLaunch [] { Task.zero with gtid := 1 } 3 0
    [{ entry := 0, inst := 1, decl := allDecl, mbox := 0, handles := 0, prio := 3,
       insts := [(0, { state := .bound, site := 0, tile := 0, prio := 3, et := 0, crew := none })] }] []

/-- The state built from a line, a crew and a tile. -/
def stateOf (t : Thread) (c : Crew) (x : Tile) : State :=
  { State.reset with
    issuer := some 0, threads := [(0, t)], crews := [(0, c)], tiles := [(0, { x with tlb := [page0] })],
    sites := [(0, { Site.reset with hamper := Site.reset.hamper.set 0 { HamperCtx.reset with crew := some 0 } })],
    work := { Work.reset with launches := [(0, launch0)], nextLaunch := 1 } }

def demo : State := stateOf line0 crew0 Tile.reset

/-- The instruction completes on this state: its form begins there and has its effect. -/
def completes (s : State) (x : Instr) : Bool :=
  match issuing s with
  | none => false
  | some j =>
    match formOf j.c.mctl x with
    | none => false
    | some f =>
      match begins f.pred f.uses s with
      | none => false
      | some (i, s1) => (f.eff i s1).isSome

/-- What a step answers, when it is a next state. -/
def outState : Out → Option State
  | .next t => some t
  | _ => none

/-- It completes, and answers the state its form gives. -/
def agrees (s : State) (x : Instr) : Bool :=
  completes s x &&
    match issuing s with
    | none => false
    | some j =>
      match (formOf j.c.mctl x).bind fun f => (begins f.pred f.uses s).bind fun r =>
          (f.eff r.1 r.2).map fun e => e.apply r.1 f.len { s with issuer := none } with
      | some t => outState (exec x s) == some t
      | none => false

/-- The line starts its batches at element 0, with g1 its crew's scratchpad in its window and g5 = 1. -/
def lineV : Thread := { line0 with g := #v[0, 9 * 2 ^ 52, 64, 0x3F800000, 8, 1, 2, 2 ^ 20], efmt := 0x01,
                                   lact0 := true, loop0 := { count := 2, blen := 4, bstart := 0x400 } }
/-- The mangle and the work list are the crew's, and a scratchpad table stands at byte 1024: one segment, x_lo 0, scale 1. -/
def tileV : Tile := { Tile.reset with mgHolder := some 0, wlHolder := some (0, 0), wl := [(7, 2)] }
def crewV : Crew :=
  { crew0 with
    gran := [(0, { full := true, ft := 1, et := 0 })],
    queues := crew0.queues.set 1 { Queue.reset with
      slots := Queue.reset.slots.set 0 { val := 9, filled := true, fault := false, ldq := false, fmt := 8 }, count := 1 } }
/-- A launch record at address 0 (Table 21.1): version 1, one node at 0x200, no edges; the node (Table 21.2): entry 0x1000, one
instance of one thread. -/
def launchMem : Memory :=
  Memory.writeBytes (Memory.writeBytes [] 0 ([1, 0x200, 1].flatMap (natBytes 8))) 0x200
    ([0x1000, 2 ^ 24 + 1].flatMap (natBytes 8))

/-- The same, with memory holding that table. -/
def vec : State :=
  let s := { stateOf lineV crewV tileV with threads := [(0, lineV), (1, { line0 with st := .parked, tidx := 1 })] }
  { s with
    work := { s.work with pend := [(0, { launch := 0, crew := 0, ended := true, et := 9, result := 4, joined := false,
                                         crewGone := false })] },
    mem := { s.mem with mem := Memory.writeBytes launchMem (spadPa 0 1024) ([0, 0x3F800000, 1].flatMap (natBytes 4)) } }

/-- What an access takes from its leaf: cached, not metered, owner 0. -/
def attr0 : PageAttr := { cached := true, metered := false, mreg := 0, owner := 0, perm := false }

/-- An access to 8 bytes of global memory at address 64. -/
def access (k : AccKind) (pa : Nat := 64) : Access :=
  { kind := k, va := pa, bit := 0, width := 64,
    parts := [{ target := .phys pa, attr := attr0, bytes := 8 }],
    scope := .device, evp := 0, tile := 0, pc := 0, data := 7, remote := false }

/-- The line changed, no line selected. -/
def line (f : Thread → Thread) : State := { demo with issuer := none, threads := [(0, f line0)] }

/-- A copy of 64 bytes of global memory. -/
def copy0 : CopyOp :=
  { crew := 0, tl := 1, num := 1, core := 0, time := 5, pc := 0, kind := .linear, dst := 1024, src := 0, rows := 1,
    rowBytes := 64, spitch := 0, dpitch := 0, count := 0, bar := none, cursor := 0, blocked := none, held := [],
    failed := none, entries := [], gone := [], filled := 0, refused := [], bound := 0, landed := [], stepped := false,
    follow := none }

/-- The copy's slot holds this operation. -/
def copying (x : CopyOp) : State := stateOf line0 crew0 { Tile.reset with copies := [(0, x)] }

/-- An operation accepted by the conversion engine or the mangle. -/
def engineOp (x : Instr) (hs : List (BitVec 128)) (b : Word) : EngineOp :=
  { crew := 0, tl := 1, num := 1, time := 5, pc := 0, instr := x, handles := hs, a := 0, b := b, ctl := 0, next := 0,
    ptrs := [], flags := 0, held := none, told := false }

/-- An array operation on the crew's tiles. -/
def arrayOp : ArrayOp :=
  { id := 0, crew := 0, instr := .tmma p0 true 4 0 1 0, acfg := 0, mctl := 0, shapes := crew0.shapes, follow := none,
    dispatched := true, result := none }

/-- The hamper context in use. -/
def hamper (f : HamperCtx → HamperCtx) : State :=
  { vec with sites := [(0, { Site.reset with hamper := Site.reset.hamper.set 0 (f { HamperCtx.reset with crew := some 0, state := .configured, desc :=
       [0x41000000, 0x41000000, 0x41000000, 0x3F800000, 0x040404, 0, 16, 0] }) })] }

def heldSeg : HeldSeg := { off := 0, len := 64, code := 0x22, addr := 0, told := false, again := false }

def migration : Migration :=
  { crew := 0, tl := 1, num := 1, time := 5, va := 0, leafAt := 256, leaf := 0x37#64, size := 128, src := 0, dst := 0,
    moved := 0, failed := none }

/-- A launch whose one instance is not yet bound. -/
def waitingLaunch (cores : Bool) (st : IState) : State :=
  let x : Inst := { state := st, site := 0, tile := 0, prio := 3, et := 0, crew := none }
  let n : Node :=
    { entry := 0, inst := 1, decl := Decl.none, mbox := 0, handles := 0, prio := 3,
      insts := if st = .pending then [] else [(0, x)] }
  { demo with
    issuer := none, crews := [], threads := [],
    work := { Work.reset with launches := [(0, { launch0 with cores := cores, nodes := [n] })], nextLaunch := 1 } }

/-- A host queue with one entry at 0x800, which names the record at address 0x400. -/
def hostQueued : State :=
  let m := Memory.writeBytes (Memory.writeBytes [] 0x400 ([1, 0x200, 1].flatMap (natBytes 8))) 0x800 (natBytes 8 0x400)
  let q : HostQueue := { HostQueue.reset with base := 0x800, en := true, tail := 1, log2n := 1 }
  { vec with mem := { vec.mem with mem := m }, work := { vec.work with hqs := [(0, q)] } }

/-- A crew that declares only its line, and has been displaced. -/
def smallCrew : Crew := { Crew.reset 0 { Task.zero with gtid := 1 } Decl.none with displaced := true }

/-- A buffered block, a timeline with an operation that has ended, an access on its way to crew 1's tile. -/
def wcEntry : WcEntry :=
  { thread := 0, target := .phys 64, attr := attr0, path := [256], bits := 7, mask := 255, pts := 5, evp := 0, scope := .device, va := 64, pc := 0,
    size := 3, data := 7, draining := true }
def ended : Timeline := { Timeline.reset with issued := 1, finished := [(1, 0, 4)] }
def sent : Access := { access .store with remote := true, parts := [{ target := .spad 1 0, attr := attr0, bytes := 8 }] }
def traceEv : TraceEv := { kind := 0, sub := 0, code := 0, crew := 0, tidx := 0, lt := 0, gtid := 0, payload := 0 }

/-- A line that waits, a tile, a debug unit and a memory system that differ from the demo's. -/
def waiting (k : BitVec 4) (a : Await) (f : Thread → Thread := id) : State :=
  line fun t => f { t with st := .waiting, wkind := k, await := a, finish := some { dest := none, len := 8 } }
def tiled (x : Tile) : State := { demo with tiles := [(0, x)] }
def mems (m : MemSys) : State := { demo with mem := m }

/-! ### Statements about the step and about one instruction: their hypotheses hold, and so do their conclusions, on these -/

/-- A block of an instruction cache that begins with these words. -/
def fetched (ws : List (BitVec 32)) : IBlock :=
  { block := 128, bytes := wordBytes ws ++ List.replicate (32 - 4 * ws.length) 0, stamp := 0 }

theorem noneAway_of_one {s : State} {k : Nat} {c : Crew} (hs : s.crews = [(k, c)]) (hc : c.displaced = false) : noneAway s := by
  intro n x h
  simp only [State.crew?, hs, Machine.Map.get?] at h
  split at h
  · exact Option.some.inj h ▸ hc
  · cases h

/-- The line fetches these words at 0x1000, on a page that may be executed and not written. -/
def fetch (f : Thread → Thread) (ws : List (BitVec 32)) : State :=
  { line f with
    issuer := some 0
    tiles := [(0, { Tile.reset with tlb := [{ page0 with leaf := 0x3B#64 }] })]
    cores := [(0, { Core.reset with icache := [fetched ws] })] }

/-- One step of a line whose fetch finds an instruction: its conclusion. -/
noncomputable def stepMeets (s : State) (f : Issue → List Byte → State → Instr → Nat → Bool) : Bool :=
  match fetches s with
  | none => false
  | some (i, bs, s') =>
    match decode bs with
    | .ok (x, rest) => let n := bs.length - rest.length; decide (i.t.pc.toNat % 32 + n ≤ 32) && f i bs s' x n
    | .error _ => false

theorem witness_stepRunsDecoded :
    stepMeets (fetch id [0x00004540#32, 4#32]) (fun i _ s' x n =>
      x == .movi p0 1 4#32 && !i.t.pastBody n && outState (step (fetch id [0x00004540#32, 4#32])) == outState (exec x s')) =
      true := by decide +kernel

theorem witness_stepRunsAgenda :
    outState (step { demo with issuer := none, agenda := [.freeze] }) = outState (exec .freeze { demo with issuer := none }) ∧
      outState (step { demo with issuer := none, agenda := [.coreCycle 0], dbg := { demo.dbg with frozen := true } }) =
        some { demo with issuer := none, dbg := { demo.dbg with frozen := true } } := by decide +kernel

/-- The crew's own cycle has begun: its core has still to take its turn. -/
theorem witness_stepRunsAgenda_cycle :
    (let s : State := { demo with issuer := none, agenda := [.freeze], cores := [(0, { Core.reset with sel := some (0, 0) })] }
     s.cycleOpen && (outState (step s)).any fun t => t.agenda == [.freeze]) = true := by decide +kernel

/-- The fetched line traps with ILLOP (R53, R54, R101). -/
noncomputable def illopStep (s : State) (n : Nat) (ok : Issue → List Byte → Bool) : Bool :=
  match fetches s with
  | none => false
  | some (i, bs, s') => inBlock i bs n && ok i bs && outState (step s) == outState (traps s' i 1)

theorem witness_unassignedWordsTrap :
    illopStep (fetch id [0x3FC0#32, 0#32]) 8 (fun _ bs => leNat (bs.take 8) == 0x3FC0) = true ∧
      illopStep (fetch id [0#32, 0#32]) 8 (fun _ bs => leNat (bs.take 8) == 0) = true := by decide +kernel

/-- A loop level whose body is the word at 0x1000. -/
def shortBody : LoopLevel := { count := 2, blen := 1, bstart := 0x400 }
def longBody : LoopLevel := { count := 2, blen := 16, bstart := 0x400 }

theorem witness_pastBodyTraps :
    illopStep (fetch (fun t => { t with lact0 := true, loop0 := shortBody }) [0x00004540#32, 4#32]) 8 (fun i _ =>
        decide (i.t.loop0.start 0x1000 ≤ 0x1000 ∧ i.t.loop0.stop 0x1000 < 0x1008)) = true ∧
      illopStep (fetch (fun t => { t with lact0 := true, lact1 := true, loop1 := shortBody, loop0 := longBody }) [0x00004540#32, 4#32]) 8 (fun i _ =>
        decide (0x1000 < i.t.loop1.stop 0x1000 ∧ i.t.loop1.stop 0x1000 < 0x1008)) = true := by decide +kernel

/-- What a step leaves of line 0. -/
def leavesB (o : Out) (f : State → Thread → Bool) : Bool :=
  match o with
  | .next t => (t.thread? 0).any (f t)
  | _ => false

theorem witness_padWordRetires :
    (match fetches (fetch id [0xFFFFFFFF#32]) with
     | some (i, bs, _) => inBlock i bs 4 && leNat (bs.take 4) == 0xFFFFFFFF && !i.t.pastBody 4
     | none => false) = true ∧
      leavesB (step (fetch id [0xFFFFFFFF#32])) (fun _ w => w.pc == 0x1004 && w.g == line0.g && w.flags == line0.flags) =
        true := by decide +kernel

theorem witness_padWordRetires_home : noneAway (fetch id [0xFFFFFFFF#32]) := noneAway_of_one rfl rfl

def never : Pred := ⟨true, 0⟩

theorem witness_falsePredicateRetires :
    (match issuing demo with
     | some i => !predTrue never false i.t i.c && !predTrue never true i.t i.c
     | none => false) = true ∧
      leavesB (exec (.add never 4 1 (.reg 2)) demo) (fun _ w => w.pc == 0x1008 && w.g == line0.g) = true ∧
      leavesB (exec (.lbrk never) vec) (fun _ w => w.pc == 0x1008 && w.lact0) = true ∧
      leavesB (exec (.tzero never 4) demo) (fun _ w => w.pc == 0x1008) = true := by decide +kernel

/-- g4 and g5 are pending. -/
def pendingPair : State := line fun t => { t with pend := some { reg := 4, pair := true } }

theorem witness_pendingRegisterWaits :
    [Instr.ld p0 .z64 .plain false 2 ⟨1, .off 0#17, .system, 0⟩, .add p0 1 4 (.reg 2), .mov p0 5 1].all (fun x =>
      leavesB (exec x { pendingPair with issuer := some 0 }) fun _ w =>
        w.st == .waiting && w.wkind == 1 && w.wobj == 4 && w.pc == 0x1000 && w.g == line0.g) = true := by decide +kernel

/-- The line has no privilege. -/
def user : State := { line (fun t => { t with privl := false }) with issuer := some 0 }

theorem witness_privilegedInUserMode :
    [Instr.xlinvAll p0, .sysr p0 4 0x0B0#12, .sysw p0 0x080#12 1, .mapout p0 4 1, .trigsetSt p0 4, .ctxrd p0 4 1 3].all (fun x =>
      privileged x && leavesB (exec x user) fun _ w => w.st == .faulted && w.pc == 0x1000 && w.g == line0.g) = true := by
  decide +kernel

/-- The line with these registers. -/
def regs (g : Vector Word 8) : State := { line (fun t => { t with g := g }) with issuer := some 0 }

theorem witness_longCompletes_lands :
    leavesB (exec (.longOpResult 0) (waiting 0 .nothing fun t => { t with
      pend := some { reg := 4, pair := false }, longop := some 9 })) (fun _ w => w.reg 4 == 9 && w.pend.isNone) = true := by
  decide +kernel

/-- DIV, or REM, of g1 by g2 leaves this result to land. -/
def divides (u : Bool) (x y q r : Word) : Bool :=
  let s := regs #v[0, x, y, 0, 0, 0, 0, 0]
  (begins p0 { src := [1, 2], dst := [4], pend := true } s).isSome &&
    leavesB (exec (.div p0 u 4 1 (.reg 2)) s) (fun _ w => w.longop == some q) &&
    leavesB (exec (.rem p0 u 4 1 (.reg 2)) s) (fun _ w => w.longop == some r)

theorem witness_divisionResults :
    divides true 7 2 3 1 = true ∧ divides false (-7) 2 (-3) (-1) = true ∧ divides false 7 (-2) (-3) 1 = true ∧
      divides false (2 ^ 63) (-1) (2 ^ 63) 0 = true ∧
      leavesB (exec (.div p0 false 4 1 (.reg 0)) demo) (fun _ w => w.st == .waiting || w.st == .trapped) = true := by
  decide +kernel

/-- g3 after an instruction on g4 = 0xA000_0000_0000_0001 (the worked example of BFX). -/
def field4 (x : Instr) (v : Word) : Bool :=
  leavesB (exec x (regs #v[0, 0x83C, 0x140, 0x1F0, 0xA000000000000001, 0, 0, 0])) fun _ w => w.reg 3 == v

theorem witness_bitFields :
    field4 (.bfx p0 true 3 4 (.imm 0x83C#28)) 0xFFFFFFFFFFFFFFFA = true ∧
      field4 (.bfx p0 false 3 4 (.reg 1)) 0xA = true ∧ field4 (.bfx p0 true 3 4 (.imm 0x40#28)) 0 = true ∧
      field4 (.bfx p0 true 3 4 (.reg 2)) 0 = true ∧
      field4 (.bfi p0 3 4 (.imm 0x404#28)) 0x110 = true ∧ field4 (.bfi p0 3 4 (.imm 0x40#28)) 0x1F0 = true := by
  decide +kernel

theorem witness_flagWrites :
    leavesB (exec (.fop p0 .andn 2 1 0) demo) (fun _ w => w.flags == 3) = true ∧
      leavesB (exec (.fset p0 0 false) demo) (fun _ w => w.flags == 3) = true ∧
      leavesB (exec (.fset p0 2 true) demo) (fun _ w => w.flags == 7) = true ∧
      leavesB (exec (.fsetM p0 1 0xFE#8) demo) (fun _ w => w.flags == 0x41) = true ∧
      leavesB (exec (.fget p0 false 4) demo) (fun _ w => w.reg 4 == 3) = true ∧
      leavesB (exec (.fget p0 true 4) demo) (fun _ w => w.reg 4 == 0x1000003) = true := by decide +kernel

/-- Both levels are active: level 0 from 0x1000 to 0x1040, level 1 from 0x1000 to 0x1020. -/
def looping (a b : Bool) : State :=
  { line (fun t => { t with lact0 := a, lact1 := b, loop0 := { count := 2, blen := 16, bstart := 0x400 },
                            loop1 := { count := 2, blen := 8, bstart := 0x400 } }) with issuer := some 0 }

theorem witness_loopBreak :
    leavesB (exec (.lbrk p0) (looping true true)) (fun _ w => w.pc == 0x1020 && w.lact0 && !w.lact1) = true ∧
      leavesB (exec (.lbrk p0) (looping true false)) (fun _ w => w.pc == 0x1040 && !w.lact0) = true ∧
      leavesB (exec (.lbrkAll p0) (looping true true)) (fun _ w => w.pc == 0x1040 && !w.lact0 && !w.lact1) = true ∧
      leavesB (exec (.lbrk p0) (looping false false)) (fun _ w => w.st == .trapped) = true ∧
      leavesB (exec (.lbrkAll never) (looping true true)) (fun _ w => w.pc == 0x1008 && w.lact0 && w.lact1) = true := by
  decide +kernel

theorem witness_callsAndReturns :
    leavesB (exec (.call p0 (some 4) 2#32) demo) (fun _ w => w.pc == 0x1008 && w.link == 0x1008 && w.reg 4 == 0) = true ∧
      leavesB (exec (.callx p0 none 1) demo) (fun _ w => w.pc == 64 && w.link == 0x1008) = true ∧
      leavesB (exec (.callx p0 none 2) demo) (fun _ w => w.st == .trapped && w.link == 0) = true ∧
      leavesB (exec (.ret p0 (some 1)) demo) (fun _ w => w.pc == 64 && w.link == 64) = true ∧
      leavesB (exec (.ret p0 none) demo) (fun _ w => w.pc == 0) = true ∧
      leavesB (exec (.ret p0 (some 2)) demo) (fun _ w => w.st == .trapped) = true := by decide +kernel

/-! ### Traps -/

/-- The crew has a handler at 0x2000 and its trap records from 0x8000; record 0 holds these words. -/
def handled (tvec : Word) (ws : List Nat) : State :=
  { stateOf { line0 with g := #v[0, 0xD, 0x8000, 3, 4, 5, 6, 7], link := 0x500 } { crew0 with tvec := tvec, tarea := 0x8000 }
      Tile.reset with mem := { MemSys.reset with mem := Memory.writeBytes [] 0x8000 (ws.flatMap (natBytes 8)) } }

/-- Nothing is pending, unbound, owed or over the record of the line that begins here. -/
def trapReady (s : State) (u : Uses) (f : Issue → State → Bool) : Bool :=
  match begins p0 u s with
  | none => false
  | some (i, s1) => i.t.pend.isNone && i.t.unbound.isEmpty && i.t.deferred.isEmpty && !s1.recordHeld i.k i.t && f i s1

theorem witness_trapEntryTakes :
    trapReady (handled 0x2000 []) {} (fun i s1 =>
      i.c.tvec != 0 && match s1.peekNow i.k (recordVa i.c i.t) 8 8 with
        | (.ok bs, s2) => !bitAt (leNat bs) 8 &&
            match State.writeWords i.k (recordVa i.c i.t) (trapRecord i.t s2 { code := 0x0D, info := 5 }) s2 with
            | (ok, s3) => ok && leavesB (exec (.trap p0 5#16) (handled 0x2000 [])) fun t w =>
                w.pc == 0x2000 && w.reg 1 == 0xD && w.reg 2 == 0x8000 && w.reg 3 == 3 && w.link == 0x500 &&
                  t.mem.mem == s3.mem.mem && Memory.readNat t.mem.mem 0x8000 8 == 0x5010D &&
                  Memory.readNat t.mem.mem 0x8008 8 == 0x1000
        | _ => false) = true := by decide +kernel

theorem witness_doubleTrapEscalates :
    trapReady (handled 0 []) {} (fun i _ => i.c.tvec == 0) = true ∧
      leavesB (exec (.trap p0 5#16) (handled 0 [])) (fun _ w => w.st == .trapped && w.pc == 0x1000 && w.reg 1 == 0xD) = true ∧
      trapReady (handled 0x2000 [0x104]) {} (fun i s1 =>
        match s1.peekNow i.k (recordVa i.c i.t) 8 8 with
        | (.ok bs, _) => bitAt (leNat bs) 8
        | _ => false) = true ∧
      leavesB (exec (.trap p0 5#16) (handled 0x2000 [0x104])) (fun _ w => w.st == .trapped && w.pc == 0x1000) = true := by
  decide +kernel

/-- TRET from a record of these words: whether it can be read and its first word written. -/
def returns (ws : List Nat) (f : State → Thread → Bool) : Bool :=
  let s := handled 0x2000 ws
  (match begins p0 { src := [1, 2], dst := [1, 2], seq := true } s with
   | none => false
   | some (i, s1) =>
     match s1.readNow i.k (recordVa i.c i.t) 64 8 with
     | (.ok bs, s2) =>
       match s2.writeNow i.k (recordVa i.c i.t) 8 (natBytes 8 (leNat (bs.take 8) - 2 ^ 8)) with
       | (.ok (), s3) => (s3.thread? i.k).isSome
       | _ => false
     | _ => false) && leavesB (exec (.tret p0) s) f

theorem witness_trapReturnRestores :
    returns [0x104, 0x3000, 0, 0, 0, 11, 12, 0x80] (fun t w =>
      w.pc == 0x3000 && w.reg 1 == 11 && w.reg 2 == 12 && w.reg 3 == 3 && Memory.readNat t.mem.mem 0x8000 8 == 4) = true ∧
      returns [0x104, 0x3002, 0, 0, 0, 11, 12, 0] (fun _ w => w.pc != 0x3002 && w.reg 1 != 11) = true ∧
      returns [0x004, 0x3000, 0, 0, 0, 11, 12, 0] (fun _ w => w.pc != 0x3000 && w.reg 1 != 11) = true := by
  decide +kernel

/-! ### Memory, homes and frames -/

theorem witness_memoryCanonicalKept :
    Memory.wf vec.mem.mem = true ∧
      (match step { vec with issuer := none, agenda := [.hostWrite (4 * 2 ^ 48) [0] false] } with
       | .next t => Memory.wf t.mem.mem
       | _ => false) = true := by decide +kernel

/-- A store of g2 = 1 to address 64 has issued; it binds, and the bytes around it stay. -/
def storing : State := line fun t => { t with unbound := [access .store] }

theorem witness_storeBindsAtHome :
    storing.homeBusy (.phys 64) = false ∧ storing.homeFault (.phys 64) 0 = 0 ∧ Memory.wf storing.mem.mem = true ∧
      leavesB (exec (.storeBind 0) storing) (fun t w =>
        t.lineLease 0 == { wts := 5, rts := 5 } && w.pts == 5 && Memory.readNat t.mem.mem 64 8 == 7 &&
          byteAt t 63 == 0 && byteAt t 72 == 0) = true := by decide +kernel

/-- A load of address 64 has issued; the tile's L1 holds the line, or it does not. -/
def loading (l1 : List L1Line) : State :=
  { line (fun t => { t with unbound := [access (.load 4 .z64 false .plain)], pend := some { reg := 4, pair := false } }) with
    tiles := [(0, { Tile.reset with l1 := l1, tlb := [page0] })],
    mem := { MemSys.reset with mem := Memory.writeBytes [] 64 [9], leases := [(0, { wts := 7, rts := 8 })] } }

/-- A copy of line 0 in an L1, with this lease. -/
def copyOf0 (rts : LTime) : L1Line :=
  { line := 0, data := List.replicate 64 0 ++ 3 :: List.replicate 63 0, wts := 4, rts := rts, perm := false, owner := 0, evp := 0,
    stamp := 0 }

theorem witness_loadBindsAtHome :
    (loading []).homeBusy (.phys 64) = false ∧ (loading []).homeFault (.phys 64) 0 = 0 ∧
      leavesB (exec (.loadFill 0) (loading [copyOf0 6])) (fun t w => w.reg 4 == 3 && w.pts == 5 && t.mem.leases ==
        [(0, { wts := 7, rts := 8 })]) = true ∧
      leavesB (exec (.loadFill 0) (loading [copyOf0 4])) (fun t w => w.reg 4 == 9 && w.pts == 7 && t.lineLease 0 ==
        { wts := 7, rts := 21 }) = true ∧
      leavesB (exec (.loadFill 0) (loading [])) (fun t w => w.reg 4 == 9 && w.pts == 7 && t.lineLease 0 ==
        { wts := 7, rts := 21 }) = true := by decide +kernel

/-- The instruction completes and answers a next state. -/
def reachesNext (s : State) (x : Instr) (f : State → Bool) : Bool :=
  completes s x && match exec x s with
    | .next t => f t
    | _ => false

theorem witness_plainFrame :
    [Instr.add p0 4 1 (.reg 2), .nop p0, .fadd p0 true 4 3 2, .div p0 true 4 1 (.reg 2), .pabs p0 true 4 2, .bra p0 2#32,
      .lbrk p0, .fset p0 1 true].all (fun x => reachesNext vec x fun t => t.mem == vec.mem && t.tiles == vec.tiles) = true := by
  decide +kernel

theorem witness_registerFrame :
    leavesB (exec (.trap p0 5#16) (handled 0x2000 [])) (fun _ w =>
      enteredHandler { k := 0, t := line0, c := { crew0 with tvec := 0x2000, tarea := 0x8000 }, crew := 0 } w && w.reg 1 == 0xD) = true ∧
      leavesB (exec (.cmp p0 .eq 2 0 (.reg 0)) demo) (fun _ w => w.g == line0.g && w.flags == 7) = true := by decide +kernel

theorem witness_specialRegisterFrame :
    [Instr.mov p0 4 1, .cvt p0 .rne false 0x11#8 0x05#8 4 2, .winsetCl p0 1, .hset p0 2 3, .tzero p0 4,
      .sysw p0 0x020#12 2].all (fun x => reachesNext vec x fun t => (vec.crew? 0).isSome && (t.crew? 0).isSome) = true := by
  decide +kernel

theorem witness_storelessFrame :
    [Instr.ld p0 .z64 .plain false 4 ⟨0, .off 64#17, .system, 0⟩, .st p0 .z64 false 4 ⟨0, .off 64#17, .system, 0⟩,
      .cpy p0 4 0 0 1 5 none, .vred p0 .add true 4 0 1, .mscl p0 4 0 3 1 2].all (fun x =>
        !storesAtIssue x && reachesNext vec x fun t => t.mem.mem == vec.mem.mem) = true := by decide +kernel

theorem witness_vectorStoreFrame :
    reachesNext vec (.vbcast p0 4 0 3 0) (fun t =>
      Memory.readNat t.mem.mem (spadPa 0 0) 8 == 0x3F8000003F800000 && Memory.readNat t.mem.mem (spadPa 0 32) 4 == 0) = true ∧
      [Instr.vadd p0 4 0 0 1 2, .vcvt p0 .rne false 4 0 0 10, .ard p0 .rne false false 4 2 5 10].all (fun x =>
        (batchDest x).isSome && reachesNext vec x fun _ => true) = true := by decide +kernel

theorem witness_systemStoreFrame :
    reachesNext vec (.xlpubNs p0 4 2 3) (fun t => Memory.readNat t.mem.mem 64 8 == 0x3F800000 && byteAt t 72 == 0) = true := by
  decide +kernel

theorem witness_systemStoreFrame_ring :
    reachesNext vec (.svcsend p0 1 2 3) (fun t => byteAt t (64 * Config.ringSize) == 0) = true := by decide +kernel

theorem witness_systemStoreFrame_weights :
    reachesNext (regs #v[0, 0, 128, 0, 0, 0, 0, 0]) (.wsld p0 4 0 0 2) (fun t => byteAt t (wsBase + 1024) == 0) = true := by
  decide +kernel

theorem test_launch_accepts :
    leavesB (exec (.launch p0 4 0) vec) (fun t w => (w.finish.bind (·.dest)) == some (4, 1) && t.work.launches.length == 2) = true := by
  decide +kernel

/-! ### Every instruction completes on one of these states, and every event takes place -/

theorem completes_idle :
    [Instr.pad, .nop p0].all (agrees demo) = true := by
  decide +kernel

theorem completes_integer :
    [Instr.clz p0 4 1, .ctz p0 4 1, .popc p0 4 1, .brev p0 4 1, .add p0 4 1 (.reg 2), .sub p0 4 1 (.reg 2),
      .mul p0 4 1 (.reg 2), .mulh p0 false 4 1 (.reg 2), .and p0 4 1 (.reg 2), .or p0 4 1 (.reg 2),
      .xor p0 4 1 (.reg 2), .andn p0 4 1 (.reg 2), .shl p0 4 1 (.reg 2), .shr p0 4 1 (.reg 2),
      .sar p0 4 1 (.reg 2), .rot p0 4 1 (.reg 2), .min p0 true 4 1 (.reg 2), .max p0 false 4 1 (.reg 2),
      .abs p0 4 1, .bfx p0 true 4 1 (.imm 0x83C#28), .bfi p0 4 1 (.imm 0x83C#28), .lea p0 3 4 1 (.reg 2),
      .leaPc p0 4 8#32, .movi p0 4 8#32, .movi128 p0 4 8#32 1#32, .movhi p0 4 8#32, .mov p0 4 1,
      .sel p0 4 1 1 (.reg 2)].all (agrees demo) = true := by
  decide +kernel

theorem completes_float :
    [Instr.fadd p0 true 4 3 2, .fsub p0 true 4 3 2, .fmul p0 false 4 3 2, .ffma p0 true 4 3 2 1,
      .fmin p0 true 4 3 2, .fmax p0 true 4 3 2].all (agrees demo) = true := by
  decide +kernel

theorem completes_long :
    [Instr.div p0 true 4 1 (.reg 2), .rem p0 false 4 1 (.reg 2), .fdiv p0 true 4 3 3, .fsqrt p0 true 4 3].all (agrees demo) = true := by
  decide +kernel

theorem completes_branch :
    [Instr.bra p0 2#32, .brx p0 1, .call p0 (some 4) 2#32, .callx p0 none 1, .ret p0 none, .ret p0 (some 1)].all (agrees demo) = true := by
  decide +kernel

theorem completes_loop_1 :
    [Instr.loop p0 2#16 3#16, .loopg p0 1 2#16].all (agrees demo) = true := by
  decide +kernel

theorem completes_loop_2 :
    [Instr.lbrk p0, .lbrkAll p0].all (agrees vec) = true := by
  decide +kernel

theorem completes_flag :
    [Instr.cmp p0 .lt 1 1 (.reg 2), .fcmp p0 .lt true 1 3 2, .fop p0 .xor 1 1 2, .fset p0 1 true,
      .fsetM p0 1 0x6#8, .fget p0 true 4].all (agrees demo) = true := by
  decide +kernel

theorem completes_memory :
    [Instr.ld p0 .z64 .plain false 4 ⟨1, .off 0#17, .system, 0⟩,
      .ld p0 .z64 .plain true 4 ⟨0, .index 1, .crew, 2⟩,
      .ldp p0 .z64 .plain false 4 ⟨1, .off 0#17, .system, 0⟩, .ldb p0 .z4 false 4 ⟨1, .off 3#17, .system, 0⟩,
      .st p0 .z64 false 4 ⟨1, .off 0#17, .system, 0⟩, .st p0 .z64 true 4 ⟨1, .off 0#17, .system, 0⟩,
      .stp p0 .z64 false 4 ⟨1, .off 0#17, .system, 0⟩, .stb p0 .z4 false 4 ⟨1, .off 3#17, .system, 0⟩,
      .ldq p0 .z32 2 ⟨1, .off 0#17, .system, 0⟩, .amoSwap p0 .z64 4 2 ⟨1, .off 0#17, .system, 0⟩,
      .amoAdd p0 .z64 4 2 ⟨1, .off 0#17, .system, 0⟩, .amoAnd p0 .z64 4 2 ⟨1, .off 0#17, .system, 0⟩,
      .amoOr p0 .z64 4 2 ⟨1, .off 0#17, .system, 0⟩, .amoXor p0 .z64 4 2 ⟨1, .off 0#17, .system, 0⟩,
      .amoMin p0 .z64 4 2 ⟨1, .off 0#17, .system, 0⟩, .amoMax p0 .z64 4 2 ⟨1, .off 0#17, .system, 0⟩,
      .amoFadd p0 .f32 4 2 ⟨1, .off 0#17, .system, 0⟩, .cas p0 .z64 4 2 ⟨1, .off 0#17, .system, 0⟩,
      .casp p0 4 2 ⟨1, .off 0#17, .system, 0⟩].all (agrees demo) = true := by
  decide +kernel

theorem completes_order_1 :
    [Instr.pf p0 1 1 8#17, .fence p0 .device].all (agrees demo) = true := by
  decide +kernel

theorem completes_order_2 :
    [Instr.few p0 1 0#17, .fewE p0 1 16#17, .feset p0 .crew 1 0#17, .feclr p0 .crew 1 0#17].all (agrees vec) = true := by
  decide +kernel

theorem completes_barrier :
    [Instr.bara p0 4 1, .barw p0 1 1, .barx p0 1 (.reg 2), .barcfg p0 1 (.imm 4#28), .barcfgRd p0 4 1,
      .barcfgPb p0 4 1, .tlwait p0 4 1 (.imm 0#28), .tlget p0 4 1, .tlgetI p0 4 1].all (agrees demo) = true := by
  decide +kernel

theorem completes_message_1 :
    [Instr.chstat p0 4, .chstatD p0 4 2, .sendT p0 1 0 1, .send p0 0 1, .recv p0 (some 1) false 4].all (agrees demo) = true := by
  decide +kernel

theorem completes_message_2 :
    [Instr.recv p0 (some 1) true 4].all (agrees ({ vec with threads := [(0, { lineV with inbox := [{ payload := 9, crew := 0, tidx := 1, time := 8, launch := none }] })] })) = true := by
  decide +kernel

theorem completes_thread_1 :
    [Instr.spawn p0 4 1 2, .exit p0, .yield p0, .wait p0, .park p0, .wake p0 none 0, .self p0 .size 4,
      .mbxr p0 4 (.imm 3#28), .evict p0, .evictMem p0, .pin p0 1, .pinU p0, .ctxrd p0 4 0 3].all (agrees demo) = true := by
  decide +kernel

theorem completes_thread_2 :
    [Instr.ctxwr p0 7 2 3].all (agrees vec) = true := by
  decide +kernel

theorem completes_queue_1 :
    [Instr.qcfg p0 1 (.imm 4#28), .qbindPop p0 1, .qbindPush p0 1, .qbindUpop p0, .qbindUpush p0,
      .qstat p0 4 1, .qdrain p0 1].all (agrees demo) = true := by
  decide +kernel

theorem completes_queue_2 :
    [Instr.qpeek p0 4 1 (.imm 0#28)].all (agrees vec) = true := by
  decide +kernel

theorem completes_packed_1 :
    [Instr.padd p0 true 4 2 3, .psub p0 true 4 2 3, .pmul p0 true 4 2 3, .pdot p0 4 2 3, .pmin p0 4 2 3,
      .pmax p0 4 2 3, .pabs p0 true 4 2, .pshf p0 4 2 3, .pcmp p0 .lt 4 2 3].all (agrees vec) = true := by
  decide +kernel

theorem completes_packed_2 :
    [Instr.efset p0 (.imm 0x15#28)].all (agrees demo) = true := by
  decide +kernel

theorem completes_element :
    [Instr.vadd p0 4 0 0 1 2, .vsub p0 4 0 0 1 2, .vmul p0 4 0 0 1 2, .vfma p0 4 0 0 1 2 3,
      .vdiv p0 4 0 0 1 2, .vmin p0 4 0 0 1 2, .vmax p0 4 0 4 4 4, .vabs p0 4 0 0 1, .vneg p0 4 0 0 1,
      .vcmp p0 .lt 4 0 4 1 2, .vsel p0 4 0 0 4 1 2, .vrcp p0 4 0 0 1, .vrsq p0 4 0 0 1, .vexp2 p0 4 0 0 1,
      .vlog2 p0 4 0 0 1, .vsin p0 4 0 0 1, .vcos p0 4 0 0 1].all (completes vec) = true := by
  decide +kernel

theorem completes_vector :
    [Instr.vred p0 .add true 4 0 1, .vscan p0 .add 4 0 2 0 1, .vperm p0 4 0 0 1 4, .vbcast p0 4 0 3 0,
      .vextr p0 4 5 1, .vtbl p0 4 0 0 1 11, .vtblcfg p0 4 11].all (agrees vec) = true := by
  decide +kernel

theorem completes_lane :
    [Instr.vclaim p0 4 (.imm 16#28), .vclaimW p0 4 (.imm 16#28), .vrel p0, .hset p0 2 3, .hget p0 2 3].all (agrees vec) = true := by
  decide +kernel

theorem completes_convert :
    [Instr.cvt p0 .rne false 0x11#8 0x05#8 4 2, .vcvt p0 .rne false 4 0 0 10, .cvstat p0 4, .cvstatClr p0 4].all (agrees vec) = true := by
  decide +kernel

theorem completes_engine :
    [Instr.qntk p0 false 4 0 0 1 6 13 7 8, .dqnk p0 .rne false 4 0 0 1 13 6 7 8,
      .qscl p0 false 4 0 2 1 13 7 8, .csrx p0 4 6 5 1 0 1 4 12, .csrd p0 4 6 5 1 0 1 4 12].all (completes vec) = true := by
  decide +kernel

theorem completes_mangle :
    [Instr.mgcfg p0 4, .mgcfgRel p0 4, .mgstat p0 4, .mgadd p0 4 0 6 1 4 10, .mgdrain p0 4 0 1 4 10].all (agrees vec) = true := by
  decide +kernel

theorem completes_tile :
    [Instr.tset p0 4 (.imm 0x4308#28), .tget p0 4 1, .tld p0 .device 0 0 2 4, .tst p0 .device 0 0 2 4,
      .tzero p0 4, .ttrn p0 4 0, .tpred p0 false 1 0, .kop p0 .and 1 1 2].all (agrees vec) = true := by
  decide +kernel

theorem completes_array :
    [Instr.tmma p0 true 4 0 1 0, .aclr p0 4, .ard p0 .rne false false 4 2 5 10, .awr p0 false 4 2 5 10].all (agrees vec) = true := by
  decide +kernel

/-- The array has read what the line's instruction checks (R327, R329). -/
def scannedVec : State :=
  { vec with threads := (0, { lineV with await := .scanned 0x1000 }) :: vec.threads.drop 1 }

theorem completes_array_scanned :
    [Instr.tmms p0 true false false false 4 5 6 2, .tmmm p0 true 0 3 4].all (fun x =>
      agrees scannedVec x && leavesB (exec x vec) fun _ w => w.st == .waiting && w.wkind == 0) = true := by
  decide +kernel

theorem completes_moment :
    [Instr.mld p0 4 0 1 9, .mst p0 4 0 9 1, .mset p0 4 0 3 1, .madd p0 4 0 3 1 2 3, .msub p0 4 0 3 1 2 3,
      .mmul p0 4 0 3 1 2 3, .mfma p0 4 0 3 1 2 3 4, .mscl p0 4 0 3 1 2, .msqr p0 4 0 1 2,
      .mnl p0 .relu 4 0 1 2, .mcol p0 .mean 4 0 3 1, .mcolH p0 .mean 4 0 3 0 1, .mchk p0 4 0 1].all (agrees vec) = true := by
  decide +kernel

theorem completes_carrier :
    [Instr.cpy p0 4 1 1 1 2 none, .cpy2d p0 4 1 1 1 0 0 none, .cpyT p0 4 2 1 0 0 none,
      .cpym p0 4 2 1 0 0 none 0 0x81129c0#32, .gath p0 .e16 4 1 1 1 5 none, .scat p0 .e16 4 1 1 1 5 (some 2),
      .cpstQ p0 4 1 5, .cpstRes p0 4 5, .cpstEnd p0 4 5 4, .winset p0 .rw 1 5 0, .winsetCl p0 1].all (agrees vec) = true := by
  decide +kernel

theorem completes_hamper_1 :
    [Instr.nlcfg p0 4 1, .nlstat p0 4, .nlrel p0].all (agrees vec) = true := by
  decide +kernel

theorem completes_hamper_2 :
    [Instr.nlbin p0 4 0 5 1, .nlpair p0 4 1 14 15, .nlnext p0 4, .nlcfg p0 4 0].all (agrees (hamper id)) = true := by
  decide +kernel

theorem completes_system :
    [Instr.sysr p0 4 0x010#12, .sysr p0 4 0x070#12, .sysr p0 4 0x0B0#12, .sysw p0 0x020#12 2,
      .sysw p0 0x080#12 2, .xlpub p0 4 2 3, .xlpubNs p0 4 2 3, .xlinvAll p0, .xlinvOwn p0 5,
      .svcsend p0 1 2 3, .corectlOut p0 4 5, .corectlIn p0 4 5, .corectlTout p0 4 5, .corectlDisp p0 4 0,
      .corectlStat p0 4 5].all (agrees vec) = true := by
  decide +kernel

theorem completes_work :
    [Instr.launch p0 4 0, .join p0 4 0, .joinT p0 4 0, .done p0, .prio p0 4 0 (.imm 3#28),
      .prioSelf p0 4 (.imm 3#28), .wladd p0 4 1, .wltake p0 4 1, .wlcfg p0 4, .wlcfgRel p0 4, .wlcfgSt p0 4,
      .lvcfg p0 (.imm 5#28)].all (agrees vec) = true := by
  decide +kernel

theorem completes_tier_1 :
    [Instr.mapout p0 4 0, .metsign p0 4 0 2, .metsignFinal p0 4 0 2].all (completes vec) = true := by
  decide +kernel

theorem completes_tier_2 :
    [Instr.migr p0 4 0 0 1, .wsld p0 4 0 0 0, .keyset p0 4 0 2, .keyset p0 4 5 2, .keysetDel p0 4 5,
      .metrd p0 4 (.imm 5#28), .metrdN p0 4 (.imm 5#28), .attest p0 4 0 4, .attestRev p0 4 0].all (agrees vec) = true := by
  decide +kernel

theorem completes_trace :
    [Instr.trace p0 5#16 1, .lclk p0 4, .lclkAcq p0 4, .sample p0 4 0, .trigsetBuf p0 4 0 0,
      .trigsetStart p0 4 0, .trigsetStop p0 4 0, .trigsetBp p0 4 0 0 1, .trigsetMask p0 4 0, .trigsetSt p0 4,
      .slotrd p0 4 0 0#6, .slotrdClr p0 4 0 0#6].all (agrees vec) = true := by
  decide +kernel

theorem completes_trap :
    [Instr.illegal, .trap p0 5#16, .bkpt p0 5#16].all (agrees vec) = true := by
  decide +kernel

theorem completes_return :
    [Instr.tret p0].all (agrees (handled 0x2000 [0x104, 0x3000])) = true := by
  decide +kernel

/-- A moment instruction that has joined the steps of its tile. -/
def momentOp (x : Instr) (writes : Option (List Nat × Word × Nat) := none) : MomentOp :=
  { thread := 0, instr := x, mctl := 0, g := lineV.g, popped := none, push := none, handles := handles, reads := some [],
    writes := writes }

/-- The step of each moment instruction, the first of its tile's. -/
def stepping (x : Instr) (writes : Option (List Nat × Word × Nat) := none) : State :=
  let t : Tile := { tileV with tlb := [page0], momentQ := [momentOp x writes] }
  let l : Thread := { lineV with st := .waiting, await := .momentStep }
  { vec with issuer := none, threads := [(0, l)], tiles := [(0, t)] }

theorem witness_momentSteps :
    [Instr.mld p0 4 0 1 9, .mst p0 4 0 9 1, .mset p0 4 0 3 1, .madd p0 4 0 3 1 2 3, .msub p0 4 0 3 1 2 3,
      .mmul p0 4 0 3 1 2 3, .mfma p0 4 0 3 1 2 3 4, .mscl p0 4 0 3 1 2, .msqr p0 4 0 1 2, .mnl p0 .relu 4 0 1 2,
      .mcol p0 .mean 4 0 3 1, .mcolH p0 .mean 4 0 3 0 1, .mchk p0 4 0 1].all (fun x =>
        (nextStep 0 (stepping x)).isSome && (engineEvent (.momentStep 0) (stepping x)).isSome) = true := by
  decide +kernel

/-- Two moment instructions of a tile: one has elements to store, the step of the other has not been taken. -/
def twoSteps : State :=
  let s := stepping (.mst p0 4 0 9 1) (some ([5], 1, 0))
  let s : State := { s with threads := (s.threads ++ [(1, { lineV with st := .waiting, await := .momentStep, tidx := 1 })]) }
  s.modTile 0 fun x => { x with momentQ := x.momentQ ++ [{ momentOp (.mscl p0 4 0 3 1 2) with thread := 1 }] }

theorem witness_momentChoices :
    (nextStep 0 twoSteps).isNone = true ∧ (stepChoices 0 twoSteps).length = 2 ∧
      (stepChoices 0 twoSteps).all (fun m => (stepOf 0 twoSteps m).isSome) = true := by decide +kernel

/-- The event takes place in the state, and the step is the one the statements give. -/
def happens (ev : Instr → State → Option State) (e : State × Instr) : Bool :=
  (ev e.2 e.1).any fun t => outState (exec e.2 e.1) == some t

/-- The event takes place: what it leaves holds free values, or is too large to compare. -/
def occurs (ev : Instr → State → Option State) (e : State × Instr) : Bool := (ev e.2 e.1).isSome

theorem witness_outsideEvents :
    [(demo, Instr.deviceReset),
      (demo, Instr.clockStepSelect .ghz15),
      (demo, Instr.systemSpaceWrite 8 8 0x200#64),
      (mems { MemSys.reset with wsActive := false }, Instr.wsRefreshStart 1),
      (demo, Instr.wsRefreshEnd),
      (demo, Instr.parlimWrite 0 8#64),
      (demo, Instr.corefail 3),
      (demo, Instr.predecessorCommission 5#64 7),
      (demo, Instr.hostWrite (4 * 2 ^ 48) [1] true),
      (mems { MemSys.reset with hostHeld := [2 ^ 43] }, Instr.hostWriteBack (2 ^ 43) (List.replicate 128 1)),
      (mems { MemSys.reset with snooped := [5] }, Instr.backInvalidateAnswer 5),
      (demo, Instr.cvstatW1cWrite 0 8#64),
      (demo, Instr.mstatW1cWrite 0 1#64),
      (demo, Instr.hqtailDoorbell 0 1#32),
      (demo, Instr.hqEnableWrite 0 0x200#64),
      (demo, Instr.fabricAccessArrival 64 8 .load 5),
      (demo, Instr.speculativeFetch (.l2Line 128))].all (happens outsideEvent) = true := by
  decide +kernel

theorem witness_outsideEvents_free :
    [(demo, Instr.linkfail 3),
      (demo, Instr.faultRingPointerWrite 0 0 none)].all (occurs outsideEvent) = true := by
  decide +kernel

theorem witness_accessEvents :
    [(demo, Instr.coreCycle 0),
      (line (fun t => { t with fetchStall := some 128 }), Instr.icacheFill 0),
      (line (fun t => { t with pend := some { reg := 4, pair := false }, longop := some 9 }), Instr.longOpResult 0),
      (line (fun t => { t with unbound := [access (.load 4 .z64 false .plain)], pend := some { reg := 4, pair := false } }), Instr.loadFill 0),
      (line (fun t => { t with unbound := [access .store] }), Instr.storeBind 0),
      ({ demo with cores := [(0, { Core.reset with wc := [wcEntry] })] }, Instr.wcEntryDrain 0 1 0),
      ({ line (fun t => { t with unbound := [access .store] }) with mem := { MemSys.reset with poison := [0] } }, Instr.deferredFault 0),
      (line (fun t => { t with unbound := [access (.ldq 1 0 .z32)] }), Instr.queueFill 0),
      (waiting 0 .remote (fun t => { t with unbound := [sent] }), Instr.remoteAccessArrival 0)].all (happens accessEvent) = true := by
  decide +kernel

theorem witness_lineEvents :
    [({ demo with crews := [(0, { crew0 with timelines := crew0.timelines.set 1 ended })] }, Instr.timelineRetire 0 1),
      (waiting 15 .nothing, Instr.yieldTimeout 0),
      (line (fun t => { t with loc := .inn 0 }), Instr.lineCheckInStart 0),
      (line (fun t => { t with loc := .arriving 0 true }), Instr.lineCheckInDone 0),
      (line (fun t => { t with loc := .toInn 0 }), Instr.innMoveDone 0),
      (line (fun t => { t with loc := .inn 0 }), Instr.ageTick 0),
      (waiting 0 .nothing (fun t => { t with trapq := some { code := 13 } }), Instr.trapEntry 0),
      (waiting 0 .shootdown (fun t => { t with target := 1#64 <<< 63 }), Instr.shootdownComplete 0),
      (demo, Instr.systemFault 0 0x24 0),
      (demo, Instr.watch 0),
      (demo, Instr.laneGrantServe 0),
      (demo, Instr.threadTermination 0 false),
      (waiting 0 .wsld, Instr.wsldComplete 0)].all (happens lineEvent) = true := by
  decide +kernel

theorem witness_moveEvents :
    [({ demo with tier := { Tier.reset with migrations := [migration] } }, Instr.porterLineMove),
      ({ demo with tier := { Tier.reset with migrations := [{ migration with moved := 1 }] } }, Instr.migrationComplete)].all (happens moveEvent) = true := by
  decide +kernel

theorem witness_moveEvents_free :
    [({ demo with crews := [(0, { smallCrew with displaced := false })] }, Instr.crewSave 0),
      ({ demo with crews := [(0, smallCrew)] }, Instr.crewRestore 0 0)].all (occurs moveEvent) = true := by
  decide +kernel

theorem witness_engineEvents :
    [(tiled { Tile.reset with convQ := [engineOp (.qscl p0 false 4 0 2 1 13 7 8) [handles[13], handles[13], handles[7], handles[8]] 64] }, Instr.convEngineRun 0),
      ({ waiting 0 .momentStep with tiles := [(0, { Tile.reset with momentQ := [momentOp (.mscl p0 4 0 3 1 2)] })] }, Instr.momentStep 0),
      (tiled { Tile.reset with arrayQ := [arrayOp] }, Instr.arrayOpStart 0),
      (tiled { Tile.reset with arrayQ := [{ arrayOp with result := some ([], 0) }] }, Instr.arrayOpComplete 0),
      (copying { copy0 with kind := .tile 0, stepped := true, follow := some 0 }, Instr.followOnDispatch 0 0),
      (tiled { Tile.reset with mangleQ := [engineOp (.mgadd p0 4 0 2 1 4 10) [handles[4], handles[10]] 1], mgHolder := some 0 }, Instr.mangleOpRun 0),
      (copying copy0, Instr.copySegmentBind 0 0),
      (copying { copy0 with kind := .tile 0, cursor := 64 }, Instr.tileStep 0 0),
      (copying { copy0 with kind := .gather 16, count := 1, entries := [0] }, Instr.gatherReply 0 0 0),
      (copying { copy0 with blocked := some heldSeg }, Instr.engineFault 0 0),
      (copying { copy0 with cursor := 64 }, Instr.copyRetire 0 0),
      (hamper (fun h => { h with ops := [.bin 0 1 1 1 0 5] }), Instr.hamperBinRun 0 0)].all (happens engineEvent) = true := by
  decide +kernel

theorem witness_engineEvents_free :
    [(hamper (fun h => { h with ops := [.pair (16384, 24576) (8192, 8192) 1 1 0 5], opened := true }), Instr.hamperBatchWrite 0 0)].all (occurs engineEvent) = true := by
  decide +kernel

theorem witness_launchEvents :
    [({ vec with tiles := [(0, { Tile.reset with wlHolder := some (0, 0), wl := [(1, 0), (2, 0), (3, 0), (4, 0)], wlEn := true }), (1, { Tile.reset with wlHolder := some (0, 0) })] }, Instr.coachInterval 0),
      (hostQueued, Instr.hostLaunchAccept 0),
      (waitingLaunch false .pending, Instr.deskSelect 0),
      (waitingLaunch false .selected, Instr.instanceBind 0),
      (waitingLaunch true .pending, Instr.coResidentBind 0),
      (line (fun t => { t with st := .exited }), Instr.instanceEnd 0),
      (demo, Instr.reductionSweep)].all (happens launchEvent) = true := by
  decide +kernel

theorem witness_debugEvents :
    [({ State.reset with dbg := { Debug.reset with offered := [traceEv] } }, Instr.triggerCycle),
      ({ demo with dbg := { Debug.reset with awaiting := [traceEv], size := 8 } }, Instr.traceRecordWrite),
      (demo, Instr.freeze),
      (demo, Instr.thaw),
      (demo, Instr.extest),
      (demo, Instr.bypass 0xFF#8)].all (happens debugEvent) = true := by
  decide +kernel

theorem witness_debugEvents_free :
    [(demo, Instr.arrayrd 3#64),
      (demo, Instr.samplePreload),
      (demo, Instr.idcode)].all (occurs debugEvent) = true := by
  decide +kernel

/-- A displaced crew whose copy still has 4 bytes to bring to its scratchpad. -/
def late0 : CopyOp := { copy0 with dst := 9 * 2 ^ 52, rowBytes := 4 }
def lateState : State := { copying late0 with crews := [(0, smallCrew)] }

theorem lateWrite_of {s : State} {c : Crew} {x : CopyOp} {y : Tile} (hc : s.crew? 0 = some c) (hd : c.displaced = true)
    (ht : s.tiles = [(0, y)]) (hy : y.copies = [(0, x)]) (hx : x.crew = 0) (hs : s.lateSegment x c = some (0, 4)) :
    ∃ bs, (moveEvent (.remapLateWrite 0 0 bs) s).isSome = true := by
  generalize h : Memory.readBytes (s.copyStep 0 0 x c).mem.mem (spadPa 0 0) 4 = bs
  have hl : bs.length = 4 := by rw [← h]; simp [Memory.readBytes]
  exact ⟨bs, by simp [moveEvent, hc, hd, ht, hy, hs, hx, hl, h]⟩

theorem witness_lateWrite : ∃ bs, (moveEvent (.remapLateWrite 0 0 bs) lateState).isSome = true :=
  lateWrite_of (c := smallCrew) (x := late0) rfl rfl rfl rfl rfl (by decide +kernel)

/-! ### Homes, frames and traps: more hypotheses that are met -/

/-- A check that a store by `o` to these pieces leaves byte `a` alone. -/
def spares (s : State) (ps : List Part) (o a : Nat) : Bool :=
  ps.all fun p => p.attr.owner == o &&
    match p.target with
    | .phys pa => ((Map.get? s.mem.tags (a / 512)).all (· == o) || pa / 512 != a / 512) && !(decide (pa ≤ a) && decide (a < pa + p.bytes))
    | .spad c off => ((s.crew? c).all (fun x => x.spadOwner off == o) || spadPa c off / 512 != a / 512) &&
        !(decide (spadPa c off ≤ a) && decide (a < spadPa c off + p.bytes))
    | .ws _ | .ctx _ _ => true

theorem untouched_of_spares {s : State} {ps : List Part} {o a : Nat} (h : spares s ps o a = true) : untouched s ps o a := by
  intro p hp
  have hq := List.all_eq_true.mp h p hp
  unfold spanKept bytesOf
  cases ht : p.target <;> simp [ht, Option.all_eq_true] at hq ⊢
  · exact ⟨hq.1, hq.2.1, by omega⟩
  · exact hq
  · exact ⟨hq.1, hq.2.1, by omega⟩
  · exact hq

/-- The same for the words of a trap record, one after another. -/
def sparesWords (k : Nat) : (va : Nat) → List Nat → State → (owner a : Nat) → Bool
  | _, [], _, _, _ => true
  | va, w :: ws, s, o, a =>
    ((s.thread? k).all fun t =>
      match (s.resolveAll (s.agent t) (va % 2 ^ 56) .write (pieces 8 (va % 2 ^ 56) 3 8)).1 with
      | .ok ps => spares s ps o a
      | .error _ => true) && sparesWords k (va + 8) ws (s.writeNow k va 8 (natBytes 8 w)).2 o a

theorem offWords_of_spares (k o a : Nat) : ∀ (ws : List Nat) (va : Nat) (s : State), sparesWords k va ws s o a = true →
    offWords k va ws s o a
  | [], _, _, _ => trivial
  | w :: ws, va, s, h => by
    simp only [sparesWords, Bool.and_eq_true, Option.all_eq_true] at h
    refine ⟨fun t ps ht hr => untouched_of_spares ?_, offWords_of_spares k o a ws _ _ h.2⟩
    have h1 := h.1 t ht
    rwa [hr] at h1

theorem witness_storeFrame_bind :
    (∀ acc, nextOf storing 0 storesOnly = some acc → untouched storing (acc.left.take 1) 0 72) ∧
      leavesB (exec (.storeBind 0) storing) (fun t _ => byteAt t 72 == byteAt storing 72) = true :=
  ⟨fun acc h => untouched_of_spares ((Option.all_eq_true _ _).mp
    (show (nextOf storing 0 storesOnly).all (fun acc => spares storing (acc.left.take 1) 0 72) = true by decide +kernel) acc h),
    by decide +kernel⟩

/-- An atomic of g2 = 7 at address 64 has issued; memory holds `old` there, under a lease of 7 to 8. -/
def atomic (k : AccKind) (old : Nat) (data : Nat := 7) (bytes : Nat := 8) : State :=
  { line (fun t => { t with unbound := [{ access k with width := 8 * bytes, data := data,
                                                        parts := [{ target := .phys 64, attr := attr0, bytes := bytes }] }] }) with
    mem := { MemSys.reset with mem := Memory.writeBytes [] 64 (natBytes bytes old), leases := [(0, { wts := 7, rts := 8 })] } }

/-- What an atomic leaves: the bytes at address 64, the home's lease, g4 and the line's pts. -/
noncomputable def binds (s : State) (new bytes : Nat) (h : Lease) (old : Word) (pts : LTime) : Bool :=
  !(s.nextBusy (access .store)) && s.homeFault (.phys 64) 0 == 0 &&
    leavesB (exec (.loadFill 0) s) fun t w =>
      Memory.readNat t.mem.mem 64 bytes == new && t.lineLease 0 == h && w.reg 4 == old && w.pts == pts && w.acq == pts &&
        byteAt t 63 == byteAt s 63 && byteAt t (64 + bytes) == byteAt s (64 + bytes)

theorem witness_atomicBindsAtHome :
    binds (atomic (.amo .add 4 .z64) 9) 16 8 { wts := 9, rts := 9 } 9 9 = true ∧
      binds (atomic (.amo .swap 4 .z64) 9) 7 8 { wts := 9, rts := 9 } 9 9 = true ∧
      binds (atomic (.amo .xor 4 .z64) 9) 14 8 { wts := 9, rts := 9 } 9 9 = true ∧
      binds (atomic (.amo .min 4 .s32) 0x80000000 7 4) 0x80000000 4 { wts := 9, rts := 9 } 0xFFFFFFFF80000000 9 = true ∧
      binds (atomic (.amo .min 4 .z32) 0x80000000 7 4) 7 4 { wts := 9, rts := 9 } 0x80000000 9 = true ∧
      binds (atomic (.amo .max 4 .s32) 0xFFFFFFFE 7 4) 7 4 { wts := 9, rts := 9 } 0xFFFFFFFFFFFFFFFE 9 = true ∧
      binds (atomic (.amo .fadd 4 .f32) 0x3F800000 0x40000000 4) 0x40400000 4 { wts := 9, rts := 9 } 0x3F800000 9 = true ∧
      binds (atomic (.cas 4 .z64 9) 9) 7 8 { wts := 9, rts := 9 } 9 9 = true ∧
      binds (atomic (.cas 4 .z64 8) 9) 9 8 { wts := 7, rts := 8 } 9 7 = true ∧
      binds (atomic (.casp 4 (9 + 2 ^ 64)) (9 + 2 ^ 64) 7 16) 7 16 { wts := 9, rts := 9 } 9 9 = true ∧
      binds (atomic (.casp 4 9) (9 + 2 ^ 64) 7 16) (9 + 2 ^ 64) 16 { wts := 7, rts := 8 } 9 7 = true := by
  decide +kernel

theorem witness_storeFrame_atomic :
    ∀ acc, nextOf (atomic (.amo .add 4 .z64) 9) 0 fills = some acc →
      untouched (atomic (.amo .add 4 .z64) 9) (acc.parts.take 1) 0 72 :=
  fun acc h => untouched_of_spares ((Option.all_eq_true _ _).mp
    (show (nextOf (atomic (.amo .add 4 .z64) 9) 0 fills).all
      (fun acc => spares (atomic (.amo .add 4 .z64) 9) (acc.parts.take 1) 0 72) = true by decide +kernel) acc h)

/-- A buffered block of the line drains. -/
def draining : State := { demo with cores := [(0, { Core.reset with wc := [wcEntry] })] }

theorem witness_storeFrame_drain :
    (∀ w, ((draining.core 0).wc.find? fun w => w.thread == 0 && w.target.block == 1) = some w →
      untouched draining [{ target := w.target, attr := w.attr, bytes := 64 }] w.attr.owner 128) ∧
      leavesB (exec (.wcEntryDrain 0 1 0) draining) (fun t _ => byteAt t 64 == 7 && byteAt t 128 == 0) = true :=
  ⟨fun w h => untouched_of_spares ((Option.all_eq_true _ _).mp
    (show ((draining.core 0).wc.find? fun w => w.thread == 0 && w.target.block == 1).all (fun w =>
      spares draining [{ target := w.target, attr := w.attr, bytes := 64 }] w.attr.owner 128) = true by decide +kernel) w h),
    by decide +kernel⟩

/-- The store of address 64, with a copy of its line in the issuing tile's L1; and a store, a pair and a row of 8 bytes of the
crew's own scratchpad. -/
def storingL1 : State := { storing with tiles := [(0, { Tile.reset with l1 := [copyOf0 6], tlb := [page0] })] }
def spadAccess (k : AccKind) (n : Nat) : Access :=
  { access k with width := 8 * n, parts := [{ target := .spad 0 64, attr := attr0, bytes := n }] }
def storingSpad (k : AccKind) (n : Nat) : State :=
  { line (fun t => { t with unbound := [spadAccess k n] }) with crews := [(0, { crew0 with span := [(0, { wts := 7, rts := 8 })] })] }

theorem witness_storeBindsAtHome_copy :
    leavesB (exec (.storeBind 0) storingL1) (fun t w => w.pts == 5 && ((t.tile 0).l1find 0).any fun l => l.wts == 5 && l.rts == 5) =
        true ∧
      [storingSpad .store 8, storingSpad .storePair 16, storingSpad (.row true) 8].all (fun s =>
        homeIs s (.spad 0 64) && s.homeFault (.spad 0 64) 0 == 0 && leavesB (exec (.storeBind 0) s) fun t w =>
          leaseAt t (.spad 0 64) == { wts := 9, rts := 9 } && w.pts == 9 && Memory.readNat t.mem.mem (spadPa 0 64) 8 == 7) =
        true := by decide +kernel

/-- A copy that a permanent lease keeps, one under lease MAXT, one of another owner. -/
def permCopy : L1Line := { copyOf0 4 with perm := true }
def maxCopy : L1Line := copyOf0 maxTime
def foreignCopy : L1Line := { copyOf0 6 with owner := 3 }

/-- The load of address 64 with this scope, on a page cached or not, of an owner. -/
def loads (l1 : List L1Line) (sc : Scope := .device) (cached : Bool := true) : State :=
  { loading l1 with threads := [(0, { line0 with
      unbound := [{ access (.load 4 .z64 false .plain) with
                    scope := sc, parts := [{ target := .phys 64, attr := { attr0 with cached := cached }, bytes := 8 }] }],
      pend := some { reg := 4, pair := false } })] }

/-- What a load leaves: g4, pts, and the lease of line 0. -/
noncomputable def gives (s : State) (v : Word) (pts : LTime) (h : Lease) : Bool :=
  leavesB (exec (.loadFill 0) s) fun t w => w.reg 4 == v && w.pts == pts && t.lineLease 0 == h

/-- The span of line 0 is this owner's. -/
def tagged (o : Nat) (s : State) : State := { s with mem := { s.mem with tags := [(0, o)] } }
/-- Another crew's thread has stored to line 0 at time 9, for its own crew alone. -/
def others (s : State) (sc : Scope := .crew) : State :=
  { s with mem := { s.mem with writers := [(0, [({ thread := some 4096, crew := some 1, place := .package, scope := sc }, 9)])] } }

theorem witness_loadBindsAtHome_leases :
    gives (loads [copyOf0 5]) 3 5 { wts := 7, rts := 8 } = true ∧ gives (loads [permCopy]) 3 5 { wts := 7, rts := 8 } = true ∧
      gives (loads [maxCopy]) 9 7 { wts := 7, rts := 21 } = true ∧
      gives (tagged 0 (loads [foreignCopy])) 0 5 { wts := 7, rts := 8 } = true ∧
      gives (loads [foreignCopy]) 3 5 { wts := 7, rts := 8 } = true ∧
      gives (loads [copyOf0 6] .device false) 9 7 { wts := 7, rts := 21 } = true := by decide +kernel

/-- The agent of the load of address 64, and the copy that may answer it whatever its lease. -/
def reader (s : State) : Option (Writer × Option L1Line) :=
  (s.thread? 0).bind fun t => t.unbound.head?.map fun a => (s.writerOf t a, (a.parts.head?).bind (s.scopedCopy t a))

/-- Whether it is ordered with every agent that has written the line, and whether an expired copy may answer it. -/
def mayRead (s : State) (ordered copy : Bool) : Bool :=
  (reader s).any fun r =>
    ((Map.getD s.mem.writers 0 []).all fun y => s.mutual r.1 y.1) == ordered && r.2.isSome == copy

theorem witness_loadBindsAtHome_scopes :
    mayRead (loads [copyOf0 4] .thread) true true = true ∧ mayRead (loads [copyOf0 4] .crew) true true = true ∧
      mayRead (loads [copyOf0 4]) true false = true ∧ mayRead (others (loads [copyOf0 4])) false true = true ∧
      mayRead (others (loads [copyOf0 4]) .device) true false = true ∧
      mayRead (others (loads [maxCopy] .crew)) false false = true := by decide +kernel

theorem witness_stepRunsAgenda_link :
    outState (step { demo with issuer := none, agenda := [.hostWrite 0 [0] false], dbg := { demo.dbg with frozen := true } }) =
      some { demo with issuer := none, dbg := { demo.dbg with frozen := true, link := [.hostWrite 0 [0] false] } } := by
  decide +kernel

/-- The ring of the crew's mender, with this many records to be taken. -/
def ringed (n : Nat) (s : State) : State := { s with rings := [(0, { Ring.reset with base := 0x10000, tail := n })] }

/-- The issue of line 0 in a state, for the fault record it escalates with. -/
def issueOf (s : State) : Issue := (issuing s).getD { k := 0, t := line0, c := crew0, crew := 0 }

theorem witness_doubleTrapEscalates_record :
    leavesB (exec (.trap p0 5#16) (ringed 3 (handled 0x2000 [0x104]))) (fun t _ =>
      (t.ring 0).tail == 4 && (Memory.readBytes t.mem.mem (0x10000 + 3 * 64) 64 ==
        (escalation (issueOf (handled 0x2000 [0x104])) true).flatMap (natBytes 8)) &&
        Memory.readNat t.mem.mem (0x10000 + 3 * 64) 8 == 0xD010D && Memory.readNat t.mem.mem 0x8000 8 == 0x104) = true ∧
      leavesB (exec (.trap p0 5#16) (ringed 0 (handled 0 []))) (fun t _ => Memory.readNat t.mem.mem 0x10000 8 == 0xD000D) = true ∧
      leavesB (exec (.trap p0 5#16) (ringed 1024 (handled 0x2000 [0x104]))) (fun t _ =>
        (t.ring 0).waiting.length == 1 && t.mem.mem == (handled 0x2000 [0x104]).mem.mem) = true := by decide +kernel

theorem witness_doubleTrapEscalates_offRing : offRing (ringed 3 (handled 0x2000 [0x104])) 0 0x8000 := by
  dsimp only [offRing]
  decide +kernel

/-- The line has a buffered store to the block of its trap record. -/
def recordHeld0 : State :=
  { handled 0x2000 [0x104, 0x3000] with
    cores := [(0, { Core.reset with wc := [{ wcEntry with target := .phys 0x8000, va := 0x8000, draining := false }] })] }

theorem witness_trapReturnRestores_held :
    (match begins p0 { src := [1, 2], dst := [1, 2], seq := true } recordHeld0 with
     | some (i, s1) => s1.recordHeld i.k i.t
     | none => false) = true ∧
      leavesB (exec (.tret p0) recordHeld0) (fun _ w => w.st == .waiting && w.wkind == 0 && w.pc == 0x1000 && w.reg 1 == 0xD) =
        true := by decide +kernel

/-- The line waits to take a trap, with its ring elsewhere. -/
def trapped : State :=
  let s := ringed 3 (handled 0x2000 [])
  { s with issuer := none, threads := s.threads.map fun e => (e.1, { e.2 with st := .waiting, trapq := some { code := 0x0D, info := 5 } }) }

/-- What TRAP 5 of line 0 stores leaves byte `a` alone. -/
def sparesTrap (s : State) (t : Thread) (c : Crew) (a : Nat) : Bool :=
  let s2 := (s.peekNow 0 (recordVa c t) 8 8).2
  sparesWords 0 (recordVa c t) (trapRecord t s2 { code := 0x0D, info := 5 }) s2 0 a

theorem witness_trapStoreFrame :
    offRing (ringed 3 (handled 0x2000 [])) 0 0x9000 ∧ offRing trapped 0 0x9000 := by
  dsimp only [offRing]
  decide +kernel

theorem witness_trapStoreFrame_words :
    ((begins p0 {} (ringed 3 (handled 0x2000 []))).any fun r => sparesTrap r.2 r.1.t r.1.c 0x8040) = true ∧
      leavesB (exec (.trap p0 5#16) (ringed 3 (handled 0x2000 []))) (fun t _ => byteAt t 0x8040 == 0 && byteAt t 0x8000 == 0xD) =
        true ∧
      ((trapped.thread? 0).any fun t => (trapped.crew? 0).any fun c => t.trapq.isSome && sparesTrap trapped t c 0x8040) = true ∧
      leavesB (exec (.trapEntry 0) trapped) (fun t w => w.pc == 0x2000 && byteAt t 0x8040 == 0 && byteAt t 0x8000 == 0xD) =
        true := by decide +kernel
/-! ### Engines, launches and displacement -/

/-- Byte `a` lies outside what the copy at the slot writes next. -/
def sparesSegment (s : State) (op : CopyOp) (c : Crew) (a : Nat) : Bool :=
  op.nextSegment.all fun g =>
    let x := s.segmentAt (c.agent op.crew) op g.1
    match ((x.2.2.2.segmentRights (c.agent op.crew) x.1 (min x.2.2.1 g.2.1) false).2.segmentRights (c.agent op.crew) x.2.1
        (min x.2.2.1 g.2.1) true).1 with
    | .ok d => spares s (linesOf d) d.attr.owner a
    | .error _ => true

theorem witness_engineStoreFrame_copy :
    noneAway (copying copy0) ∧ copyAt (copying copy0) 0 0 = some (copy0, crew0) ∧
      sparesSegment (copying copy0) copy0 crew0 1088 = true ∧
      ((outState (exec (.copySegmentBind 0 0) (copying copy0))).any fun t => byteAt t 1088 == 0) = true :=
  ⟨noneAway_of_one rfl rfl, rfl, by decide +kernel, by decide +kernel⟩
theorem offElements_below {c a : Nat} {h : Handle} (ha : a < spadPa c (h.base / 8)) : offElements c h a := by
  intro n hn
  have : h.base / 8 ≤ h.bitOf n / 8 := Nat.div_le_div_right (by simp [Handle.bitOf])
  simp only [spadPa, Handle.bytesOf] at *
  omega

/-- The byte lies in a span the crew itself owns. -/
theorem ownSpan_of {s : State} {k a : Nat} (h : (s.crew? k).all (fun x => x.spadOwner (a - spadPa k 0) == x.task.owner) = true) :
    ownSpan s k a := fun x hx _ => by simpa using (Option.all_eq_true _ _).mp h x hx

/-- The elements a gather, or a scatter, writes spare byte `a`. -/
def sparesElement (s : State) (op : CopyOp) (c : Crew) (e a : Nat) : Bool :=
  match op.kind with
  | .gather z => spares s (linesOf { target := .spad op.crew (op.dst % 2 ^ 20 + z * e), attr := bareAttr c.task.owner, bytes := z })
      c.task.owner a
  | .scatter z => (entryOf op.crew (op.entries.getD e 0) z).all fun d =>
      spares s (linesOf { target := .spad d.1 d.2, attr := bareAttr c.task.owner, bytes := z }) c.task.owner a
  | _ => true

def gather0 : CopyOp := { copy0 with kind := .gather 16, count := 1, entries := [0] }
def scatter0 : CopyOp := { copy0 with kind := .scatter 16, count := 1, entries := [0xFFFFF * 2 ^ 32 + 256] }

theorem witness_engineStoreFrame_elements :
    sparesElement (copying gather0) gather0 crew0 0 (spadPa 0 1040) = true ∧
      sparesElement (copying scatter0) scatter0 crew0 0 (spadPa 0 272) = true ∧
      ((outState (exec (.gatherReply 0 0 0) (copying gather0))).any fun t => byteAt t (spadPa 0 1040) == 0) = true ∧
      ((outState (exec (.gatherReply 0 0 0) (copying scatter0))).any fun t => byteAt t (spadPa 0 272) == 0) = true := by
  decide +kernel

/-- A QSCL of the crew, at the engine. -/
def scaling : State :=
  tiled { Tile.reset with convQ := [engineOp (.qscl p0 false 4 0 2 1 13 7 8) [handles[13], handles[13], handles[7], handles[8]] 64] }

theorem witness_engineStoreFrame_conversion :
    ownSpan scaling 0 (spadPa 0 64) ∧
      (∀ j ∈ convWrites (.qscl p0 false 4 0 2 1 13 7 8),
        offElements 0 (Handle.ofBits ([handles[13], handles[13], handles[7], handles[8]].getD j 0)) (spadPa 0 64)) ∧
      ((outState (exec (.convEngineRun 0) scaling)).any fun t => byteAt t (spadPa 0 64) == 0) = true := by
  refine ⟨ownSpan_of (by decide +kernel), ?_, by decide +kernel⟩
  intro j hj
  simp only [convWrites, List.mem_cons, List.not_mem_nil, or_false] at hj
  rcases hj with rfl | rfl
  · exact offElements_below (by decide +kernel)
  · exact offElements_below (by decide +kernel)

/-- An MGADD of the crew that runs, its spill area at scratchpad byte 4096 with room for one entry; and an MGDRAIN. -/
def mangling (x : Instr) (hs : List (BitVec 128)) : State :=
  tiled { Tile.reset with mgHolder := some 0, mangleQ := [{ engineOp x hs 1 with ctl := BitVec.ofNat 64 (256 * 16 + 2 ^ 20) }] }

theorem witness_engineStoreFrame_mangle :
    ownSpan (mangling (.mgadd p0 4 0 2 1 4 10) [handles[4], handles[10]]) 0 (spadPa 0 64) ∧
      spillBase (BitVec.ofNat 64 (256 * 16 + 2 ^ 20)) = 4096 ∧ spillCap (BitVec.ofNat 64 (256 * 16 + 2 ^ 20)) = 1 ∧
      (∀ j, j < 2 → offElements 0 (Handle.ofBits ([handles[4], handles[10]].getD j 0)) (spadPa 0 64)) ∧
      ((outState (exec (.mangleOpRun 0) (mangling (.mgadd p0 4 0 2 1 4 10) [handles[4], handles[10]]))).any fun t =>
        byteAt t (spadPa 0 64) == 0) = true ∧
      ((outState (exec (.mangleOpRun 0) (mangling (.mgdrain p0 4 0 1 4 10) [handles[4], handles[10]]))).any fun t =>
        byteAt t (spadPa 0 64) == 0) = true := by
  refine ⟨ownSpan_of (by decide +kernel), by decide +kernel, by decide +kernel, fun j hj => offElements_below ?_, by decide +kernel,
    by decide +kernel⟩
  match j, hj with
  | 0, _ => decide +kernel
  | 1, _ => decide +kernel

/-- A pair stream about to write records to scratchpad bytes 16384 and 24576 by turns. -/
def pairing : State := hamper fun h => { h with ops := [.pair (16384, 24576) (8192, 8192) 1 1 0 5], opened := true }

theorem witness_engineStoreFrame_hamper :
    ((pairing.hamperAt 0 0).any fun x => x.2.1.stream.isNone && x.2.2.1 == 0) = true ∧ ownSpan pairing 0 (spadPa 0 64) ∧
      ((pairing.hamperAt 0 0).any fun x => (x.2.1.openStream (16384, 24576) (8192, 8192) 1 1 0 5).stream.any fun y =>
        y.buf == (16384, 24576)) = true ∧ (outState (exec (.hamperBatchWrite 0 0) pairing)).isSome = true :=
  ⟨by decide +kernel, ownSpan_of (by decide +kernel), by decide +kernel, by decide +kernel⟩

theorem witness_engineStoreFrame_moment :
    ownSpan (stepping (.mst p0 4 0 9 1) (some ([5], 1, 0))) 0 (spadPa 0 64) ∧ offElements 0 (crewV.handle 9) (spadPa 0 64) ∧
      ((outState (exec (.momentStep 0) (stepping (.mst p0 4 0 9 1) (some ([5], 1, 0))))).any fun t =>
        Memory.readNat t.mem.mem (spadPa 0 768) 8 == 5 && byteAt t (spadPa 0 64) == 0) = true ∧
      ((outState (exec (.momentStep 0) (stepping (.mst p0 4 0 9 1)))).any fun t =>
        ((t.tile 0).momentQ.all fun m => m.writes.isSome) && t.mem.mem == (stepping (.mst p0 4 0 9 1)).mem.mem) = true :=
  ⟨ownSpan_of (by decide +kernel), offElements_below (by decide +kernel), by decide +kernel, by decide +kernel⟩

theorem witness_momentSteps_store :
    [(Instr.mst p0 4 0 9 1), .mcolH p0 .mean 4 0 3 0 1].all (fun x =>
      (engineEvent (.momentStep 0) (stepping x (some ([5], 1, 0)))).isSome &&
        ((outState (exec (.momentStep 0) (stepping x (some ([5], 1, 0))))).bind (·.thread? 0)).any fun w =>
          w.st == .ready && w.reg 4 == 1) = true := by decide +kernel

/-- A copy of 64 bytes of global memory at 0, whose first byte is 1, to the crew's scratchpad at 256, counted by barrier 2. -/
def toSpad : State :=
  let c : Crew := { crew0 with barriers := crew0.barriers.set 2 { Barrier.reset 1 with pending := 100 } }
  let s := stateOf line0 c { Tile.reset with copies := [(0, { copy0 with dst := 9 * 2 ^ 52 + 256, bar := some 2 })] }
  { s with mem := { s.mem with mem := Memory.writeBytes [] 0 [1] } }

/-- The hypotheses of CopyMovesBytes: one segment, its ends resolved, no fault and no copy of its source line. -/
def movable (s : State) : Bool :=
  (copyAt s 0 0).any fun r =>
    let op := r.1
    let a := r.2.agent op.crew
    let x := s.segmentAt a op 0
    op.kind == .linear && op.held.isEmpty && op.nextSegment == some (0, op.total, none) && x.2.2.1 == op.total &&
      match x.2.2.2.segmentRights a x.1 op.total false with
      | (.ok p, s2) =>
        match s2.segmentRights a x.2.1 op.total true with
        | (.ok d, s3) =>
          (s3.segmentHome x.1 p).isNone && (s3.segmentHome x.2.1 d).isNone && p.target == .phys 0 &&
            ((s3.tile r.2.tile).l1find 0).isNone && bytesOf d == some (spadPa 0 256, spadPa 0 320)
        | _ => false
      | _ => false

theorem witness_copyMovesBytes :
    noneAway toSpad ∧ movable toSpad = true ∧ Memory.wf toSpad.mem.mem = true ∧
      ((outState (exec (.copySegmentBind 0 0) toSpad)).any fun t =>
        byteAt t (spadPa 0 256) == 1 && byteAt t (spadPa 0 320) == 0 &&
          (t.crew? 0).any fun c => (c.granule 16).full && (c.granule 19).full && (c.barrier 2).pending == 36) = true := by
  refine ⟨?_, by decide +kernel, by decide +kernel, by decide +kernel⟩
  exact noneAway_of_one (k := 0) (c := { crew0 with barriers := crew0.barriers.set 2 { Barrier.reset 1 with pending := 100 } }) rfl rfl

/-- The launch pool is full. -/
def fullPool : State :=
  { vec with work := { vec.work with pend := (List.range 4096).map fun n =>
      (n, { launch := 0, crew := 0, ended := true, et := 9, result := 4, joined := false, crewGone := false }) } }

theorem witness_launchTakesEntry :
    leavesB (exec (.launch p0 4 0) vec) (fun t w =>
      (w.finish.bind (·.dest)) == some (4, 1) && (Map.get? t.work.pend 1).any fun y =>
        (Map.get? t.work.launches y.launch).any fun l => l.recordVa == 0 && l.entry == some 1 && l.parent == some 0) = true ∧
      reachesNext { vec with mem := { vec.mem with mem := [] } } (.launch p0 4 0) (fun t =>
        ((t.thread? 0).bind fun w => w.finish.bind (·.dest)).any fun d => d.2.getLsbD 63) = true := by decide +kernel

theorem witness_launchTakesEntry_bind :
    ((waitingLaunch false .selected).selectedAt 0 == some (0, 0, 0)) = true ∧
      ((dieTiles 0).find? ((waitingLaunch false .selected).offers (waitingLaunch false .selected).room Decl.none) == some 0) =
        true ∧
      ((waitingLaunch false .selected).freeNumbers 1 == some 0) = true ∧
      ((outState (exec (.instanceBind 0) (waitingLaunch false .selected))).any fun t =>
        (t.crew? 0).any fun c => c.tile == 0 && !c.displaced && (t.thread? (threadKey 0 0)).any fun w =>
          w.pc == 0 && w.flags == 1 && w.st == .ready) = true := by decide +kernel

/-- A crew of one line, bound to tile 0. -/
def homeCrew : State := { demo with crews := [(0, { smallCrew with displaced := false })] }
/-- It has been saved. -/
def awayCrew : State := { demo with crews := [(0, smallCrew)] }

theorem witness_saveDisplaces :
    ((homeCrew.beginSave 0).crew? 0).any (fun c => (homeCrew.beginSave 0).saveReady 0 c &&
      ((homeCrew.beginSave 0).linesOf 0).all (fun e => ((homeCrew.beginSave 0).wcOf e.1).isEmpty) &&
        ((homeCrew.beginSave 0).savesHeld 0 c 4096 c.saveUnits).isEmpty) = true ∧
      ((outState (exec (.crewSave 0) homeCrew)).any fun t => (t.crew? 0).any fun x =>
        x.displaced && x.saves == smallCrew.saves + 1 && x.lastSaved.isSome && (t.thread? 0).any fun w => w.loc == .memory) = true := by
  decide +kernel

theorem witness_saveDisplaces_mayRestore : awayCrew.mayRestore 0 smallCrew 0 = true := by decide +kernel

theorem witness_saveDisplaces_readArea : ((awayCrew.readArea 0 smallCrew smallCrew.saveUnits []).1.isSome) = true := by
  decide +kernel

theorem witness_saveDisplaces_restore :
    ((outState (exec (.crewRestore 0 0) awayCrew)).any fun t => (t.crew? 0).any fun x =>
      !x.displaced && x.tile == 0) = true := by decide +kernel

/-- METSIGN of an 8 KiB buffer at 0 leaves a byte above it alone. -/
theorem witness_systemStoreFrame_report :
    ((tierForm (.metsign p0 4 0 2)).bind fun f => (begins f.pred f.uses vec).map fun r =>
      let va := vaOf (r.1.reg 0)
      let s2 := (r.2.resolve (r.2.agent r.1.t) va 8192 .write).2
      match (s2.resolveAll (s2.agent r.1.t) (va % 2 ^ 56) .write (pieces 128 (va % 2 ^ 56) 66 8192)).1 with
      | .ok ps => spares s2 ps 0 8256 && spares vec ps 0 8256
      | .error _ => false) = some true := by decide +kernel

/-- The premises of RegisterFrame: a line whose trap records and save areas lie in global memory. -/
theorem witness_registerFrame_premises :
    demo.crews.all (fun e => !e.2.displaced) = true ∧ line0.st = .ready ∧ ownLine 0 (0xA * 2 ^ 52) = true ∧
      (∀ n, n < 64 → ownLine 0 (recordVa crew0 line0 + n) = false) :=
  ⟨by decide +kernel, rfl, by decide +kernel, by decide +kernel⟩

theorem witness_vectorStoreFrame_span : ownSpan vec 0 (spadPa 0 32) := ownSpan_of (by decide +kernel)

end Sys2Proof.Tests
end

/-! How the machine stands after device reset (O44), and what the scalar, packed, branch, loop and flag instructions leave
alone (O46). -/

namespace Sys2Proof.Plain

open Sys2Proof Sys2Proof.Machine Sys2Proof.Machine.Claim Sys2Proof.Laws

/-! ### Device reset -/

/-- After device reset the device key, owner 0's, is the only one present (R204). -/
theorem reset_keyPresent (o : Nat) : State.reset.keyPresent o = true ↔ o = 0 := by
  have hkeys : Machine.Map.get? State.reset.mem.keys o = none := rfl
  simp [State.keyPresent, hkeys]

/-- After device reset every breakpoint slot is disabled (R408). -/
theorem reset_breakpoint (n : Fin 8) : (State.reset.dbg.bps[n]).en = false := by
  have hbps : State.reset.dbg.bps = Vector.replicate 8 Bp.reset := rfl
  simp [hbps, Bp.reset]

/-- Settles O44: each clause is a field of a reset record, but for the keys and the breakpoints, which the two lemmas above give. -/
theorem resetState : Obligations.ResetState :=
  ⟨rfl, rfl, rfl, rfl, rfl, rfl, reset_keyPresent, rfl, rfl, rfl, reset_breakpoint, fun _ => ⟨rfl, rfl⟩, rfl, rfl, rfl⟩

/-! ### What a plain instruction may change

`PlainChange k s t` is the frame as a relation between states: it is reflexive and transitive, so an instruction keeps it when
each of the updates it is made of does. -/

/-- What no plain instruction changes of any line. -/
def standing (t : Thread) :=
  (t.pts, t.acq, t.privl, t.gtid, t.owner, t.unbound, t.deferred, t.inbox, t.popv, t.pushv, t.lgrant)

/-- What a plain instruction of another line leaves of a line besides. -/
def words (t : Thread) := (t.g, t.flags, t.pc, t.link)

/-- The parts of the state that no plain instruction changes. -/
def surroundings (s : State) := (s.mem, s.tiles, s.sites, s.rings, s.tier, s.work, s.agenda)

/-- Line `k` may have changed what `standing` does not name, every other line what neither `standing` nor `words` names, and a
crew its queues and its watchdog mark. -/
structure PlainChange (k : Nat) (s t : State) : Prop where
  surroundings : surroundings t = surroundings s
  crews : ∀ n c, s.crew? n = some c → ∃ qs b, t.crew? n = some { c with queues := qs, watchArmed := b }
  lines : ∀ n v, s.thread? n = some v → ∃ w, t.thread? n = some w ∧ standing w = standing v ∧ (n ≠ k → words w = words v)

namespace PlainChange

variable {k : Nat} {s t u : State}

/-- A state whose lines, crews and surroundings are the same. -/
theorem of_eq (hsur : Plain.surroundings t = Plain.surroundings s) (hcrews : t.crews = s.crews)
    (hthreads : t.threads = s.threads) : PlainChange k s t where
  surroundings := hsur
  crews n c hc := ⟨c.queues, c.watchArmed, by simpa [State.crew?, hcrews] using hc⟩
  lines n v hv := ⟨v, by simpa [State.thread?, hthreads] using hv, rfl, fun _ => rfl⟩

theorem refl (k : Nat) (s : State) : PlainChange k s s := of_eq rfl rfl rfl

theorem trans (h : PlainChange k s t) (h' : PlainChange k t u) : PlainChange k s u where
  surroundings := h'.surroundings.trans h.surroundings
  crews n c hc := by
    obtain ⟨qs, b, hc'⟩ := h.crews n c hc
    obtain ⟨qs', b', hc''⟩ := h'.crews n _ hc'
    exact ⟨qs', b', hc''⟩
  lines n v hv := by
    obtain ⟨w, hw, hst, hwd⟩ := h.lines n v hv
    obtain ⟨x, hx, hst', hwd'⟩ := h'.lines n w hw
    exact ⟨x, hx, hst'.trans hst, fun hn => (hwd' hn).trans (hwd hn)⟩

/-! The updates a plain instruction is made of. -/

theorem setThread {v w : Thread} (hv : s.thread? k = some v) (hw : standing w = standing v) :
    PlainChange k s (s.setThread k w) where
  surroundings := rfl
  crews n c hc := ⟨c.queues, c.watchArmed, hc⟩
  lines n x hx := by
    by_cases hn : k = n
    · subst hn
      obtain rfl : v = x := Option.some.inj (hv.symm.trans hx)
      exact ⟨w, setThread_same .., hw, fun hne => absurd rfl hne⟩
    · exact ⟨x, (setThread_ne s w hn).trans hx, rfl, fun _ => rfl⟩

theorem modThread {f : Thread → Thread} (hf : ∀ v, standing (f v) = standing v) : PlainChange k s (s.modThread k f) := by
  unfold State.modThread
  split
  case h_1 v hv => exact setThread hv (hf v)
  case h_2 => exact refl k s

theorem modCrew {m : Nat} {f : Crew → Crew} (hf : ∀ c, ∃ qs b, f c = { c with queues := qs, watchArmed := b }) :
    PlainChange k s (s.modCrew m f) where
  surroundings := by simp [Plain.surroundings]
  crews n c hc := by
    by_cases hn : m = n
    · subst hn
      obtain ⟨qs, b, hq⟩ := hf c
      exact ⟨qs, b, by rw [modCrew_same hc, hq]⟩
    · exact ⟨c.queues, c.watchArmed, (modCrew_ne s f hn).trans hc⟩
  lines n v hv := ⟨v, by simpa [State.thread?] using hv, rfl, fun _ => rfl⟩

/-- Waking changes a line's state and its wait alone. -/
theorem standing_wake (v : Thread) : standing v.wake = standing v := by
  unfold Thread.wake; split <;> rfl

theorem words_wake (v : Thread) : words v.wake = words v := by
  unfold Thread.wake; split <;> rfl

theorem wakeWhere_thread? (s : State) (p : Thread → Bool) (n : Nat) :
    (s.wakeWhere p).thread? n = (s.thread? n).map fun v => if p v then v.wake else v := by
  simp only [State.thread?, State.wakeWhere]
  induction s.threads with
  | nil => rfl
  | cons e m ih =>
    obtain ⟨j, v⟩ := e
    by_cases hj : j = n <;> cases hp : p v <;> simp [Machine.Map.get?, hj, hp, ih]

theorem wakeWhere (p : Thread → Bool) : PlainChange k s (s.wakeWhere p) where
  surroundings := rfl
  crews n c hc := ⟨c.queues, c.watchArmed, hc⟩
  lines n v hv := by
    refine ⟨if p v then v.wake else v, by rw [wakeWhere_thread?, hv]; rfl, ?_, fun _ => ?_⟩
    · split
      · exact standing_wake v
      · rfl
    · split
      · exact words_wake v
      · rfl

theorem modQueue (m : Nat) (q : Reg) (f : Queue → Queue) : PlainChange k s (s.modQueue m q f) := by
  have hset : PlainChange k s (s.modCrew m fun c => c.setQueue q (f (c.queue q))) := modCrew fun c => ⟨_, _, rfl⟩
  unfold State.modQueue State.wakeQueue
  split
  · exact hset
  · exact hset.trans (wakeWhere _)

/-- A destination is written, or a bound g7 pushed (R226). -/
theorem wr (d : Reg) (v : Word) : PlainChange k s (s.wr k d v) := by
  unfold State.wr
  split
  case h_1 => exact refl k s
  case h_2 w hw =>
    split
    · exact modQueue ..
    · exact setThread hw rfl

theorem offer (e : TraceEv) : PlainChange k s (s.offer e) := of_eq rfl rfl rfl

/-! How an instruction ends. -/

theorem noteRetired (m : Nat) : PlainChange k s (s.noteRetired m) := by
  unfold State.noteRetired
  split
  case h_1 c hc =>
    split
    · exact refl k s
    · have hmod : s.setCrew m { c with watchArmed := true } = s.modCrew m fun c => { c with watchArmed := true } := by
        simp [State.modCrew, hc]
      rw [hmod]
      exact modCrew fun c => ⟨c.queues, true, rfl⟩
  case h_2 => exact refl k s

theorem stepStop : PlainChange k s (s.stepStop k) := by
  unfold State.stepStop
  split
  case h_1 v hv =>
    split
    · refine trans ?_ (offer _)
      exact setThread hv rfl
    · exact refl k s
  case h_2 => exact refl k s

/-- A loop-end step changes the loop levels and the PC alone (R100). -/
theorem standing_loopEnd (v : Thread) (a len : Nat) : standing (v.loopEnd a len) = standing v := by
  unfold Thread.loopEnd
  dsimp only
  split_ifs <;> rfl

theorem standing_fallThrough (v : Thread) (len : Nat) : standing (v.fallThrough len) = standing v :=
  standing_loopEnd _ _ len

theorem retireAt (len : Nat) : PlainChange k s (s.retireAt k len) := by
  refine trans (trans ?_ (noteRetired _)) stepStop
  exact modThread fun v => standing_fallThrough v len

theorem jumpTo (pc : BitVec 56) : PlainChange k s (s.jumpTo k pc) := by
  refine trans (trans ?_ (noteRetired _)) stepStop
  exact modThread fun _ => rfl

theorem issued (pre : State) (core : Option Nat) : PlainChange k s (s.issued pre k core) := by
  cases core with
  | none => exact refl k s
  | some n =>
    have hstamp : PlainChange k s s.stamp.2 := of_eq rfl rfl rfl
    have hspaced : PlainChange k s.stamp.2 (s.stamp.2.modThread k fun v =>
        { v with eligible := pre.clock + 4, issueStamp := s.stamp.1 }) := modThread fun _ => rfl
    exact (hstamp.trans hspaced).trans (of_eq rfl rfl rfl)

end PlainChange

/-! ### How a plain instruction begins and ends -/

/-- The effect retires the instruction or jumps, having changed only what a plain instruction may. -/
def PlainEffect (i : Issue) (s : State) : Effect → Prop
  | .retire t | .jump _ t => PlainChange i.k s t
  | _ => False

theorem PlainEffect.completes {i : Issue} {s : State} {e : Effect} (h : PlainEffect i s e) : completes e = true := by
  cases e with
  | retire | jump => rfl
  | _ => exact h.elim

theorem PlainEffect.apply {i : Issue} {s pre : State} {e : Effect} (h : PlainEffect i s e) (len : Nat) :
    PlainChange i.k s (e.apply i len pre) := by
  cases e with
  | retire t => exact (PlainChange.trans h (.retireAt len)).trans (.issued ..)
  | jump pc t => exact (PlainChange.trans h (.jumpTo pc)).trans (.issued ..)
  | _ => exact h.elim

/-- Taking what the queue bindings give is a plain change, and leaves how the line stands. -/
theorem takes_plain {u : Uses} {s s1 : State} {j i : Issue} (h : takes j u s = some (i, s1)) :
    PlainChange j.k s s1 ∧ i.k = j.k ∧ standing i.t = standing j.t := by
  unfold takes at h
  dsimp only at h
  split_ifs at h
  · cases h
    exact ⟨.modQueue .., rfl, rfl⟩
  · cases h
    exact ⟨.refl .., rfl, rfl⟩

/-- Up to its own effect an instruction makes a plain change only. -/
theorem begins_plain {p : Pred} {u : Uses} {s s1 : State} {i : Issue} (h : begins p u s = some (i, s1)) :
    PlainChange i.k s s1 ∧ ∃ v, s.thread? i.k = some v ∧ standing v = standing i.t := by
  unfold begins at h
  split at h
  case h_1 => cases h
  case h_2 j hj =>
    obtain ⟨-, hline, -, -, -⟩ := issuing_some hj
    split_ifs at h
    obtain ⟨htakes, hk, ht⟩ := takes_plain h
    have hnone : PlainChange j.k s { s with issuer := none } := .of_eq rfl rfl rfl
    rw [hk]
    exact ⟨hnone.trans htakes, j.t, hline, ht.symm⟩

/-- The instruction is issued under the form, and where the form has an effect, the instruction's own is plain. -/
def IssuesPlain (x : Instr) (f : Form) : Prop :=
  ∃ body, (∀ s, exec x s = issue f.pred f.len f.uses body s) ∧
    ∀ i s e, f.eff i s = some e → PlainEffect i s (body i s)

/-- What an instruction that is issued plainly changes when it completes. -/
theorem IssuesPlain.change {x : Instr} {f : Form} {s s1 t : State} {i : Issue} {e : Effect} (h : IssuesPlain x f)
    (hbeg : begins f.pred f.uses s = some (i, s1)) (he : f.eff i s1 = some e) (hx : exec x s = .next t) :
    PlainChange i.k s t := by
  obtain ⟨body, hexec, hbody⟩ := h
  have hplain := hbody i s1 e he
  rw [hexec, issue_of_begins hbeg f.len body hplain.completes] at hx
  obtain rfl := Host.Outcome.next.inj hx
  exact (begins_plain hbeg).1.trans (hplain.apply f.len)

/-! ### The families -/

section
variable {x : Instr} {f : Form}

/-- An instruction that writes one register. -/
theorem issuesPlain_put {d : Reg} {v : Issue → Word}
    (hx : ∀ s, exec x s = issue f.pred f.len f.uses (fun i s => i.put s d (v i)) s) : IssuesPlain x f :=
  ⟨_, hx, fun _ _ _ _ => .wr d _⟩

/-- An instruction that changes nothing but its own line, and of it nothing of how it stands. -/
theorem issuesPlain_modThread {g : Issue → Thread → Thread}
    (hx : ∀ s, exec x s = issue f.pred f.len f.uses (fun i s => .retire (s.modThread i.k (g i))) s)
    (hg : ∀ i v, standing (g i v) = standing v) : IssuesPlain x f :=
  ⟨_, hx, fun i _ _ _ => .modThread (hg i)⟩

theorem integerForm_plain (h : integerForm x = some f) : IssuesPlain x f := by
  unfold integerForm at h
  split at h <;> cases h
  all_goals exact issuesPlain_put fun _ => rfl

theorem idleForm_plain (h : idleForm x = some f) : IssuesPlain x f := by
  unfold idleForm at h
  split at h <;> cases h
  all_goals exact ⟨fun _ s => .retire s, fun _ => rfl, fun _ _ _ _ => .refl ..⟩

theorem floatForm_plain (h : floatForm x = some f) : IssuesPlain x f := by
  unfold floatForm at h
  split at h <;> cases h
  all_goals exact issuesPlain_put fun _ => rfl

/-- A long operation starts: its destination is pending. -/
theorem putLong_plain (i : Issue) (s : State) (d : Reg) (v : Word) : PlainEffect i s (i.putLong s d v) :=
  .modThread fun _ => rfl

/-- DIV and REM: where the form has an effect, the divisor is not zero (R78). -/
theorem divide_plain {p : Pred} {u : Bool} {d a : Reg} {b : Src} {g : Issue → Word} {pick : Word × Word → Word}
    (hx : ∀ s, exec x s = divide p u d a b pick s) :
    IssuesPlain x (startsLong p { src := a :: srcRegs b } d fun i => if i.src b = 0 then none else some (g i)) := by
  refine ⟨_, hx, fun i s e he => ?_⟩
  have hb : i.src b ≠ 0 := by
    intro hb
    simp [startsLong, hb] at he
  rw [if_neg hb]
  exact putLong_plain ..

theorem longForm_plain (h : longForm x = some f) : IssuesPlain x f := by
  unfold longForm at h
  split at h <;> cases h
  · exact divide_plain fun _ => rfl
  · exact divide_plain fun _ => rfl
  · exact ⟨_, fun _ => rfl, fun i s _ _ => putLong_plain i s ..⟩
  · exact ⟨_, fun _ => rfl, fun i s _ _ => putLong_plain i s ..⟩

/-- Where a packed form has an effect, EFMT names an accepted format (R284). -/
theorem packs_format {p : Pred} {u : Uses} {d : Reg} {g : Fmt → Issue → Word} {i : Issue} {s : State} {e : Effect}
    (he : (packs p u d g).eff i s = some e) : ∃ y, Fmt.ofCode i.t.efmt.toNat = some y ∧ packable y = true := by
  cases hy : Fmt.ofCode i.t.efmt.toNat with
  | none => simp [packs, hy] at he
  | some y =>
    by_cases hp : packable y = true
    · exact ⟨y, rfl, hp⟩
    · simp [packs, hy, hp] at he

/-- A packed instruction is what its body gives for the format. -/
theorem packed_plain {p : Pred} {u : Uses} {d : Reg} {g : Fmt → Issue → Word} {body : Fmt → Issue → State → Effect}
    (hbody : ∀ y i s, PlainEffect i s (body y i s)) (hx : ∀ s, exec x s = packed p { u with dst := [d] } body s) :
    IssuesPlain x (packs p u d g) := by
  refine ⟨_, hx, fun i s e he => ?_⟩
  obtain ⟨y, hy, hp⟩ := packs_format he
  simp only [hy, hp, if_true]
  exact hbody y i s

/-- EFSET: where the form has an effect, the code is 0 or an accepted format's (R283). -/
theorem efset_plain {p : Pred} {b : Src} (h : packedForm (.efset p b) = some f) : IssuesPlain (.efset p b) f := by
  cases h
  refine ⟨_, fun _ => rfl, fun i s e he => ?_⟩
  have hset (n : Nat) : PlainEffect i s (.retire (s.modThread i.k fun v => { v with efmt := BitVec.ofNat 8 n })) :=
    .modThread fun _ => rfl
  dsimp only at he ⊢
  split_ifs at he with hn
  obtain ⟨hlt, hcode⟩ := hn
  rw [if_neg (by omega)]
  by_cases hzero : (i.src b).toNat = 0
  · rw [if_pos hzero]
    exact hset _
  · rw [if_neg hzero]
    obtain ⟨y, hy, hp⟩ := (Option.any_eq_true ..).mp (hcode.resolve_left hzero)
    simp only [hy, hp, if_true]
    exact hset _

theorem packedForm_plain (h : packedForm x = some f) : IssuesPlain x f := by
  have hput (i : Issue) (s : State) (d : Reg) (v : Word) : PlainEffect i s (i.put s d v) := .wr d v
  unfold packedForm at h
  split at h
  case h_1 => exact efset_plain h
  case h_10 =>
    -- PDOT, whose sum is an integer's or a float's (R287).
    cases h
    refine packed_plain (fun y i s => ?_) fun _ => rfl
    dsimp only
    split <;> exact hput ..
  case h_11 => cases h
  all_goals
    cases h
    exact packed_plain (fun y i s => hput ..) fun _ => rfl

/-- A target that is a multiple of 4 is gone to (R92). -/
theorem goesTo_plain {p : Pred} {u : Uses} {target : Issue → BitVec 56} {g g' : Issue → State → State}
    (hx : ∀ s, exec x s = issue p 8 u (fun i s => goTo (target i) (g' i s)) s) (hg : ∀ i s, PlainChange i.k s (g' i s)) :
    IssuesPlain x (goesTo p u target g) := by
  refine ⟨_, hx, fun i s e he => ?_⟩
  dsimp only [goesTo] at he
  split_ifs at he with ht
  simp only [goTo, ht, ne_eq, not_true_eq_false, if_false]
  exact hg i s

/-- A call writes the old link to a register with .SV, then the link (R95). -/
theorem call_plain {p : Pred} {u : Uses} {sv : Option Reg} {target : Issue → BitVec 56}
    (hx : ∀ s, exec x s = issue p 8 { u with dst := sv.toList } (fun i s => i.callTo s sv (target i)) s) :
    IssuesPlain x (calls p u sv target) := by
  refine goesTo_plain hx fun i s => ?_
  refine PlainChange.trans ?_ (.modThread fun _ => rfl)
  cases sv with
  | none => exact .refl ..
  | some d => exact .wr ..

theorem branchForm_plain (h : branchForm x = some f) : IssuesPlain x f := by
  unfold branchForm at h
  split at h <;> cases h
  · exact goesTo_plain (g' := fun _ s => s) (fun _ => rfl) fun _ _ => .refl ..
  · exact goesTo_plain (g' := fun _ s => s) (fun _ => rfl) fun _ _ => .refl ..
  · exact call_plain fun _ => rfl
  · exact call_plain fun _ => rfl
  · exact goesTo_plain (fun _ => rfl) fun _ _ => .modThread fun _ => rfl
  · exact goesTo_plain (fun _ => rfl) fun _ _ => .modThread fun _ => rfl

/-- Where a loop may be opened, it is opened or gone past (R99). -/
theorem openLoop_plain {i : Issue} {s : State} {len count : Nat} {e : Effect} (h : opens i s len count = some e) (n : Nat) :
    PlainEffect i s (i.openLoop s len n) := by
  unfold opens at h
  dsimp only at h
  rw [Option.ite_none_left_eq_some] at h
  obtain ⟨hfits, -⟩ := h
  simp only [not_or] at hfits
  obtain ⟨hlen, hstart, hstop, hdepth, hinside⟩ := hfits
  unfold Issue.openLoop
  dsimp only
  rw [if_neg hlen, if_neg (not_or.mpr ⟨hstart, hstop⟩), if_neg hdepth, if_neg hinside]
  split
  · exact PlainChange.refl ..
  · exact PlainChange.modThread fun v => by split <;> rfl

theorem loopForm_plain (h : loopForm x = some f) : IssuesPlain x f := by
  unfold loopForm at h
  split at h <;> cases h
  · exact ⟨_, fun _ => rfl, fun i s e he => openLoop_plain he _⟩
  · exact ⟨_, fun _ => rfl, fun i s e he => openLoop_plain he _⟩
  · refine ⟨_, fun _ => rfl, fun i s e he => ?_⟩
    dsimp only at he ⊢
    split_ifs at he ⊢
    · exact PlainChange.modThread fun _ => rfl
    · exact PlainChange.modThread fun _ => rfl
  · refine ⟨_, fun _ => rfl, fun i s e he => ?_⟩
    dsimp only at he ⊢
    split_ifs at he with hact
    rw [if_pos (by simpa using hact)]
    exact PlainChange.modThread fun _ => rfl

theorem standing_setFlag (v : Thread) (d : Reg) (b : Bool) : standing (v.setFlag d b) = standing v := by
  unfold Thread.setFlag; split <;> rfl

theorem flagForm_plain (h : flagForm x = some f) : IssuesPlain x f := by
  unfold flagForm at h
  split at h <;> cases h
  · exact issuesPlain_modThread (fun _ => rfl) fun _ v => standing_setFlag v _ _
  · exact issuesPlain_modThread (fun _ => rfl) fun _ v => standing_setFlag v _ _
  · exact issuesPlain_modThread (fun _ => rfl) fun _ v => standing_setFlag v _ _
  · exact issuesPlain_modThread (fun _ => rfl) fun _ v => standing_setFlag v _ _
  · exact issuesPlain_modThread (fun _ => rfl) fun _ _ => rfl
  · exact issuesPlain_put fun _ => rfl

end

/-- Settles O46: each family issues plainly, and a plain change leaves what the statement names. -/
theorem plainFrame : Obligations.PlainFrame := by
  intro x f s i s1 e t hform hbeg he _ hx
  have hissue : IssuesPlain x f := by
    rcases hform with h | h | h | h | h | h | h | h
    · exact integerForm_plain h
    · exact idleForm_plain h
    · exact floatForm_plain h
    · exact longForm_plain h
    · exact packedForm_plain h
    · exact branchForm_plain h
    · exact loopForm_plain h
    · exact flagForm_plain h
  obtain ⟨hsur, hcrews, hlines⟩ := hissue.change hbeg he hx
  obtain ⟨-, v, hv, hown⟩ := begins_plain hbeg
  simp only [surroundings, Prod.mk.injEq] at hsur
  obtain ⟨hmem, htiles, hsites, hrings, htier, hwork, hagenda⟩ := hsur
  refine ⟨hmem, htiles, hsites, hrings, htier, hwork, hagenda, hcrews, fun n y hn hy => ?_, ?_⟩
  · obtain ⟨w, hw, hstand, hwords⟩ := hlines n y hy
    simp only [standing, words, Prod.mk.injEq] at hstand hwords
    obtain ⟨hpts, -⟩ := hstand
    obtain ⟨hg, hflags, hpc, hlink⟩ := hwords hn
    exact ⟨w, hw, hg, hflags, hpc, hlink, hpts⟩
  · obtain ⟨w, hw, hstand, -⟩ := hlines i.k v hv
    exact ⟨w, hw, by simpa only [standing, Prod.mk.injEq] using hstand.trans hown⟩

end Sys2Proof.Plain

/-! How an instruction's fields, its word and its bytes determine one another (O25, O26, O27). -/

namespace Sys2Proof.Encoding

open Sys2Proof Sys2Proof.Laws
open Sys2Proof.Machine (natBytes leNat)

/-! ### Little-endian bytes -/

@[simp] theorem length_natBytes (n v : Nat) : (natBytes n v).length = n := by
  induction n generalizing v with
  | zero => rfl
  | succ n ih => simp [natBytes, ih]

theorem leNat_natBytes (n v : Nat) : leNat (natBytes n v) = v % 256 ^ n := by
  induction n generalizing v with
  | zero => simp [natBytes, leNat, Nat.mod_one]
  | succ n ih =>
    have hpow : 256 ^ (n + 1) = 256 * 256 ^ n := Nat.pow_succ'
    rw [natBytes, leNat, ih, BitVec.toNat_ofNat, hpow, Nat.mod_mul]

theorem natBytes_leNat (bs : List Byte) : natBytes bs.length (leNat bs) = bs := by
  induction bs with
  | nil => rfl
  | cons b bs ih =>
    have hb := b.isLt
    have hlow : BitVec.ofNat 8 (b.toNat + 256 * leNat bs) = b := by
      apply BitVec.eq_of_toNat_eq
      rw [BitVec.toNat_ofNat]
      omega
    have hhigh : (b.toNat + 256 * leNat bs) / 256 = leNat bs := by omega
    rw [List.length_cons, natBytes, leNat, hlow, hhigh, ih]

theorem leNat_lt (bs : List Byte) : leNat bs < 256 ^ bs.length := by
  induction bs with
  | nil => simp [leNat]
  | cons b bs ih =>
    have hb := b.isLt
    rw [List.length_cons, Nat.pow_succ', leNat]
    omega

theorem natBytes_mod (n v : Nat) : natBytes n (v % 256 ^ n) = natBytes n v := by
  induction n generalizing v with
  | zero => rfl
  | succ n ih =>
    have hlow : BitVec.ofNat 8 (v % 256 ^ (n + 1)) = BitVec.ofNat 8 v := by
      apply BitVec.eq_of_toNat_eq
      simp only [BitVec.toNat_ofNat]
      exact Nat.mod_mod_of_dvd v (Dvd.intro_left (256 ^ n) (Nat.pow_succ ..).symm)
    have hhigh : v % 256 ^ (n + 1) / 256 = v / 256 % 256 ^ n := by
      rw [Nat.pow_succ', Nat.mod_mul_right_div_self]
    rw [natBytes, natBytes, hlow, hhigh, ih]

theorem natBytes_add (m n v : Nat) : natBytes (m + n) v = natBytes m v ++ natBytes n (v / 256 ^ m) := by
  induction m generalizing v with
  | zero => simp [natBytes]
  | succ m ih =>
    rw [Nat.add_right_comm, natBytes, natBytes, ih, Nat.div_div_eq_div_mul, ← Nat.pow_succ']
    rfl

/-- The low bytes of a number are those of its low bits. -/
theorem leNat_take (bs : List Byte) {m : Nat} (h : m ≤ bs.length) : leNat (bs.take m) = leNat bs % 256 ^ m := by
  have hsplit := natBytes_add m (bs.length - m) (leNat bs)
  rw [Nat.add_sub_cancel' h, natBytes_leNat] at hsplit
  rw [← leNat_natBytes, ← List.take_left' (length_natBytes m (leNat bs)), ← hsplit]

/-- The bytes of the 32-bit words of a number are its bytes. -/
theorem wordBytes_words (m v : Nat) :
    wordBytes ((List.range m).map fun k => BitVec.ofNat 32 (v / 2 ^ (32 * k))) = natBytes (4 * m) v := by
  induction m with
  | zero => rfl
  | succ m ih =>
    have hpow : 2 ^ (32 * m) = 256 ^ (4 * m) := by
      rw [show (256 : Nat) = 2 ^ 8 from rfl, ← Nat.pow_mul]
      congr 1
      omega
    rw [wordBytes] at ih ⊢
    rw [List.range_succ, List.map_append, List.flatMap_append, ih, Nat.mul_succ, natBytes_add]
    simp [hpow, ← natBytes_mod 4 (v / 256 ^ (4 * m))]

/-! ### Fields and word -/

/-- LEN is that of a whole instruction, and the extension words past it are zero (R31, R41). -/
def fits (r : Raw) : Bool :=
  match r.len with
  | 0 => r.e1 == 0 && r.e2 == 0
  | 1 => r.e2 == 0
  | 2 => true
  | 3 => false

theorem fits_iff (r : Raw) :
    fits r = true ↔ r.len.val ≠ 3 ∧ (r.len.val = 0 → r.e1 = 0) ∧ (r.len.val ≤ 1 → r.e2 = 0) := by
  obtain ⟨len, p, opc, d, a, b, min, q, hi, e1, e2⟩ := r
  fin_cases len <;> simp [fits]

/-- The extension words of an instruction's word are those of its length. -/
theorem rawOf_fits (i : Instr) : (rawOf i).all fits = true := by
  cases i
  case call _ d _ => cases d <;> rfl
  case callx _ d _ => cases d <;> rfl
  case ret _ d => cases d <;> rfl
  case wake _ d _ => cases d <;> rfl
  case recv _ c _ _ => cases c <;> rfl
  all_goals rfl

theorem fits_of_rawOf {i : Instr} {r : Raw} (h : rawOf i = some r) : fits r = true := by
  simpa [h] using rawOf_fits i

theorem qb_le (b : Bool) : qb b ≤ 1 := by cases b <;> decide

theorem pack_mod_four (r : Raw) : r.pack % 4 = r.len.val := by
  have := r.len.isLt
  rw [Raw.pack, Raw.word0]
  omega

theorem lengthOf_mod (w m : Nat) (h : 4 ∣ m) : lengthOf (w % m) = lengthOf w := by
  simp only [lengthOf, Nat.mod_mod_of_dvd w h]

theorem lengthOf_pack (r : Raw) : lengthOf r.pack = lengthOf r.len.val := by
  simp only [lengthOf, pack_mod_four, Nat.mod_eq_of_lt r.len.isLt]

/-- An instruction's length is a whole number of words (R31). -/
theorem lengthOf_div_mul (w : Nat) : 4 * (lengthOf w / 4) = lengthOf w := by
  unfold lengthOf
  split <;> rfl

theorem four_le_lengthOf (w : Nat) : 4 ≤ lengthOf w := by
  unfold lengthOf
  split <;> decide

theorem pack_lt {r : Raw} (h : fits r = true) : r.pack < 256 ^ lengthOf r.pack := by
  obtain ⟨h3, hz1, hz2⟩ := (fits_iff r).mp h
  have hneg := qb_le r.p.neg
  have hlow : r.word0 < 2 ^ 32 := by
    rw [Raw.word0]
    omega
  have hhi := r.hi.isLt
  have he1 := r.e1.isLt
  have he2 := r.e2.isLt
  rw [lengthOf_pack, Raw.pack]
  have hcase : r.len.val = 0 ∨ r.len.val = 1 ∨ r.len.val = 2 := by omega
  rcases hcase with hl | hl | hl
  · simp only [hl, hz1 hl, hz2 (by omega), lengthOf, BitVec.ofNat_eq_ofNat, BitVec.toNat_zero]
    omega
  · simp only [hl, hz2 (by omega), lengthOf, BitVec.ofNat_eq_ofNat, BitVec.toNat_zero]
    omega
  · simp only [hl, lengthOf]
    omega

/-- The bits of a number, as the fields that stand there by Tables 2.2 to 2.4. -/
structure Reads (w : Nat) (r : Raw) : Prop where
  len : w % 4 = r.len.val
  idx : w / 4 % 8 = r.p.idx.val
  neg : w / 32 % 2 = qb r.p.neg
  opc : w / 64 % 256 = r.opc.val
  d : w / 2 ^ 14 % 8 = r.d.val
  a : w / 2 ^ 17 % 8 = r.a.val
  b : w / 2 ^ 20 % 8 = r.b.val
  min : w / 2 ^ 23 % 16 = r.min.val
  q : w / 2 ^ 27 % 32 = r.q.val
  hi : w / 2 ^ 32 % 2 ^ 32 = r.hi.toNat
  e1 : w / 2 ^ 64 % 2 ^ 32 = r.e1.toNat
  e2 : w / 2 ^ 96 % 2 ^ 32 = r.e2.toNat

theorem reads_pack (r : Raw) : Reads r.pack r := by
  have hneg := qb_le r.p.neg
  constructor
  all_goals
    rw [Raw.pack, Raw.word0]
    omega

theorem reads_unpack {w : Nat} (hw : w < 256 ^ lengthOf w) : Reads w (unpack w) := by
  have hneg : w / 32 % 2 = qb (unpack w).p.neg := by
    rcases Nat.mod_two_eq_zero_or_one (w / 32) with h | h <;> simp [unpack, h, qb]
  refine ⟨rfl, rfl, hneg, rfl, rfl, rfl, rfl, rfl, rfl, (BitVec.toNat_ofNat ..).symm, ?_, ?_⟩
  · rw [unpack]
    dsimp only
    split
    case isTrue h =>
      have hsize : w < 2 ^ 64 := by simpa [lengthOf, h] using hw
      rw [Nat.div_eq_of_lt hsize]
      rfl
    case isFalse => exact (BitVec.toNat_ofNat ..).symm
  · rw [unpack]
    dsimp only
    split
    case isTrue h =>
      have hcase : w % 4 = 0 ∨ w % 4 = 1 := by omega
      have hsize : w < 2 ^ 96 := by
        rcases hcase with h | h <;> simp only [lengthOf, h] at hw <;> omega
      rw [Nat.div_eq_of_lt hsize]
      rfl
    case isFalse => exact (BitVec.toNat_ofNat ..).symm

/-- The fields of a number are those read from it. -/
theorem unpack_of_reads {w : Nat} {r : Raw} (h : Reads w r) (hfits : fits r = true) : unpack w = r := by
  obtain ⟨-, hz1, hz2⟩ := (fits_iff r).mp hfits
  obtain ⟨hlen, hidx, hneg, hopc, hd, ha, hb, hmin, hq, hhi, he1, he2⟩ := h
  obtain ⟨len, ⟨neg, idx⟩, opc, d, a, b, min, q, hi, e1, e2⟩ := r
  have hword {n : Nat} {x : BitVec 32} (h : n % 2 ^ 32 = x.toNat) : BitVec.ofNat 32 n = x :=
    BitVec.eq_of_toNat_eq (by rw [BitVec.toNat_ofNat, h])
  refine Raw.mk.injEq .. ▸ ⟨Fin.ext hlen, ?_, Fin.ext hopc, Fin.ext hd, Fin.ext ha, Fin.ext hb, Fin.ext hmin, Fin.ext hq,
    hword hhi, ?_, ?_⟩
  · refine Pred.mk.injEq .. ▸ ⟨?_, Fin.ext hidx⟩
    rw [hneg]
    cases neg <;> rfl
  · split
    case isTrue h => exact (hz1 (hlen.symm.trans h)).symm
    case isFalse => exact hword he1
  · split
    case isTrue h => exact (hz2 (hlen ▸ h)).symm
    case isFalse => exact hword he2

/-- A number is made of the fields that stand in it. -/
theorem pack_of_reads {w : Nat} {r : Raw} (h : Reads w r) (hw : w < 2 ^ 128) : r.pack = w := by
  have hwidth : (2 : Nat) ^ 32 = 4 * (8 * (2 * (256 * (8 * (8 * (8 * (16 * 32))))))) := by norm_num
  have hlow : r.word0 = w % 2 ^ 32 := by
    rw [hwidth, Raw.word0, ← h.len, ← h.idx, ← h.neg, ← h.opc, ← h.d, ← h.a, ← h.b, ← h.min, ← h.q]
    simp only [Nat.mod_mul, Nat.div_div_eq_div_mul, -Nat.reduceMul]
    norm_num
  rw [Raw.pack, hlow, ← h.hi, ← h.e1, ← h.e2]
  omega

theorem unpack_pack {r : Raw} (h : fits r = true) : unpack r.pack = r := unpack_of_reads (reads_pack r) h

theorem lengthOf_le (w : Nat) : lengthOf w ≤ 16 := by
  unfold lengthOf
  split <;> decide

theorem pack_unpack {w : Nat} (hw : w < 256 ^ lengthOf w) : (unpack w).pack = w := by
  have hlt : w < 256 ^ 16 := lt_of_lt_of_le hw (Nat.pow_le_pow_right (by decide) (lengthOf_le w))
  exact pack_of_reads (reads_unpack hw) (lt_of_lt_of_eq hlt (by norm_num))

/-! ### Instruction and fields -/

/-- The word of every instruction names it. -/
theorem parse_rawOf (i : Instr) : Roundtrip.Statement i :=
  Instr.rec (motive := Roundtrip.Statement) (t := i)
    Roundtrip.pad Roundtrip.illegal Roundtrip.nop Roundtrip.clz Roundtrip.ctz Roundtrip.popc Roundtrip.brev
    Roundtrip.add Roundtrip.sub Roundtrip.mul Roundtrip.mulh Roundtrip.div Roundtrip.rem Roundtrip.and Roundtrip.or
    Roundtrip.xor Roundtrip.andn Roundtrip.shl Roundtrip.shr Roundtrip.sar Roundtrip.rot Roundtrip.min
    Roundtrip.max Roundtrip.abs Roundtrip.bfx Roundtrip.bfi Roundtrip.lea Roundtrip.leaPc Roundtrip.movi
    Roundtrip.movi128 Roundtrip.movhi Roundtrip.mov Roundtrip.sel Roundtrip.cmp Roundtrip.fadd Roundtrip.fsub
    Roundtrip.fmul Roundtrip.ffma Roundtrip.fdiv Roundtrip.fsqrt Roundtrip.fmin Roundtrip.fmax Roundtrip.fcmp
    Roundtrip.bra Roundtrip.brx Roundtrip.call Roundtrip.callx Roundtrip.ret Roundtrip.loop Roundtrip.loopg
    Roundtrip.lbrk Roundtrip.lbrkAll Roundtrip.fop Roundtrip.fset Roundtrip.fsetM Roundtrip.fget Roundtrip.ld
    Roundtrip.st Roundtrip.ldp Roundtrip.stp Roundtrip.ldb Roundtrip.stb Roundtrip.ldq Roundtrip.pf Roundtrip.fence
    Roundtrip.amoSwap Roundtrip.amoAdd Roundtrip.amoAnd Roundtrip.amoOr Roundtrip.amoXor Roundtrip.amoMin
    Roundtrip.amoMax Roundtrip.amoFadd Roundtrip.cas Roundtrip.casp Roundtrip.bara Roundtrip.barw Roundtrip.barx
    Roundtrip.barcfg Roundtrip.barcfgRd Roundtrip.barcfgPb Roundtrip.tlwait Roundtrip.tlget Roundtrip.tlgetI
    Roundtrip.few Roundtrip.fewE Roundtrip.feset Roundtrip.feclr Roundtrip.send Roundtrip.sendT Roundtrip.recv
    Roundtrip.chstat Roundtrip.chstatD Roundtrip.spawn Roundtrip.exit Roundtrip.yield Roundtrip.wait Roundtrip.park
    Roundtrip.wake Roundtrip.self Roundtrip.mbxr Roundtrip.evict Roundtrip.evictMem Roundtrip.pin Roundtrip.pinU
    Roundtrip.ctxrd Roundtrip.ctxwr Roundtrip.qcfg Roundtrip.qbindPop Roundtrip.qbindPush Roundtrip.qbindUpop
    Roundtrip.qbindUpush Roundtrip.qstat Roundtrip.qdrain Roundtrip.qpeek Roundtrip.cvt Roundtrip.vcvt
    Roundtrip.qntk Roundtrip.dqnk Roundtrip.qscl Roundtrip.csrx Roundtrip.csrd Roundtrip.cvstat Roundtrip.cvstatClr
    Roundtrip.vclaim Roundtrip.vclaimW Roundtrip.vrel Roundtrip.hset Roundtrip.hget Roundtrip.vadd Roundtrip.vsub
    Roundtrip.vmul Roundtrip.vfma Roundtrip.vdiv Roundtrip.vmin Roundtrip.vmax Roundtrip.vabs Roundtrip.vneg
    Roundtrip.vcmp Roundtrip.vsel Roundtrip.vred Roundtrip.vscan Roundtrip.vperm Roundtrip.vbcast Roundtrip.vextr
    Roundtrip.vrcp Roundtrip.vrsq Roundtrip.vexp2 Roundtrip.vlog2 Roundtrip.vsin Roundtrip.vcos Roundtrip.vtbl
    Roundtrip.vtblcfg Roundtrip.efset Roundtrip.padd Roundtrip.psub Roundtrip.pmul Roundtrip.pdot Roundtrip.pmin
    Roundtrip.pmax Roundtrip.pabs Roundtrip.pshf Roundtrip.pcmp Roundtrip.mld Roundtrip.mst Roundtrip.mset
    Roundtrip.madd Roundtrip.msub Roundtrip.mmul Roundtrip.mfma Roundtrip.mscl Roundtrip.msqr Roundtrip.mnl
    Roundtrip.mcol Roundtrip.mcolH Roundtrip.mchk Roundtrip.tset Roundtrip.tget Roundtrip.tld Roundtrip.tst
    Roundtrip.tzero Roundtrip.ttrn Roundtrip.tpred Roundtrip.kop Roundtrip.tmma Roundtrip.tmms Roundtrip.tmmm
    Roundtrip.aclr Roundtrip.ard Roundtrip.awr Roundtrip.mgcfg Roundtrip.mgcfgRel Roundtrip.mgstat Roundtrip.mgadd
    Roundtrip.mgdrain Roundtrip.cpy Roundtrip.cpy2d Roundtrip.cpyT Roundtrip.cpym Roundtrip.gath Roundtrip.scat
    Roundtrip.cpstQ Roundtrip.cpstRes Roundtrip.cpstEnd Roundtrip.winset Roundtrip.winsetCl Roundtrip.nlcfg
    Roundtrip.nlbin Roundtrip.nlpair Roundtrip.nlnext Roundtrip.nlstat Roundtrip.nlrel Roundtrip.launch
    Roundtrip.join Roundtrip.joinT Roundtrip.done Roundtrip.prio Roundtrip.prioSelf Roundtrip.wladd
    Roundtrip.wltake Roundtrip.wlcfg Roundtrip.wlcfgRel Roundtrip.wlcfgSt Roundtrip.lvcfg Roundtrip.trap
    Roundtrip.tret Roundtrip.sysr Roundtrip.sysw Roundtrip.xlpub Roundtrip.xlpubNs Roundtrip.xlinvAll
    Roundtrip.xlinvOwn Roundtrip.svcsend Roundtrip.corectlOut Roundtrip.corectlIn Roundtrip.corectlTout
    Roundtrip.corectlDisp Roundtrip.corectlStat Roundtrip.mapout Roundtrip.migr Roundtrip.wsld Roundtrip.keyset
    Roundtrip.keysetDel Roundtrip.metrd Roundtrip.metrdN Roundtrip.metsign Roundtrip.metsignFinal Roundtrip.attest
    Roundtrip.attestRev Roundtrip.trace Roundtrip.lclk Roundtrip.lclkAcq Roundtrip.bkpt Roundtrip.sample
    Roundtrip.trigsetBuf Roundtrip.trigsetStart Roundtrip.trigsetStop Roundtrip.trigsetBp Roundtrip.trigsetMask
    Roundtrip.trigsetSt Roundtrip.slotrd Roundtrip.slotrdClr Roundtrip.deviceReset Roundtrip.clockStepSelect
    Roundtrip.systemSpaceWrite Roundtrip.coreCycle Roundtrip.icacheFill Roundtrip.longOpResult Roundtrip.loadFill
    Roundtrip.storeBind Roundtrip.wcEntryDrain Roundtrip.deferredFault Roundtrip.wsRefreshStart
    Roundtrip.wsRefreshEnd Roundtrip.timelineRetire Roundtrip.yieldTimeout Roundtrip.lineCheckInStart
    Roundtrip.lineCheckInDone Roundtrip.innMoveDone Roundtrip.ageTick Roundtrip.parlimWrite Roundtrip.trapEntry
    Roundtrip.shootdownComplete Roundtrip.systemFault Roundtrip.corefail Roundtrip.linkfail Roundtrip.watch
    Roundtrip.crewSave Roundtrip.crewRestore Roundtrip.remapLateWrite Roundtrip.porterLineMove
    Roundtrip.migrationComplete Roundtrip.predecessorCommission Roundtrip.hostWrite Roundtrip.hostWriteBack
    Roundtrip.backInvalidateAnswer Roundtrip.queueFill Roundtrip.convEngineRun Roundtrip.cvstatW1cWrite
    Roundtrip.mstatW1cWrite Roundtrip.laneGrantServe Roundtrip.momentStep Roundtrip.arrayOpStart
    Roundtrip.arrayOpComplete Roundtrip.followOnDispatch Roundtrip.mangleOpRun Roundtrip.copySegmentBind
    Roundtrip.tileStep Roundtrip.gatherReply Roundtrip.engineFault Roundtrip.copyRetire
    Roundtrip.remoteAccessArrival Roundtrip.hamperBinRun Roundtrip.hamperBatchWrite Roundtrip.coachInterval
    Roundtrip.hqtailDoorbell Roundtrip.hqEnableWrite Roundtrip.hostLaunchAccept Roundtrip.deskSelect
    Roundtrip.instanceBind Roundtrip.coResidentBind Roundtrip.instanceEnd Roundtrip.reductionSweep
    Roundtrip.triggerCycle Roundtrip.traceRecordWrite Roundtrip.freeze Roundtrip.thaw Roundtrip.arrayrd
    Roundtrip.extest Roundtrip.samplePreload Roundtrip.idcode Roundtrip.bypass Roundtrip.threadTermination
    Roundtrip.faultRingPointerWrite Roundtrip.fabricAccessArrival Roundtrip.speculativeFetch Roundtrip.wsldComplete

theorem accept_rawOf {i : Instr} {r : Raw} (hwf : wellFormed i = true) (h : rawOf i = some r) : accept r = some i := by
  simp [accept, parse_rawOf i r h, hwf, h]

theorem of_accept {i : Instr} {r : Raw} (h : accept r = some i) : wellFormed i = true ∧ rawOf i = some r := by
  unfold accept at h
  split at h
  · split at h
    · cases h
      assumption
    · cases h
  · cases h

theorem decodeRaw_eq_ok {r : Raw} {i : Instr} : decodeRaw r = .ok i ↔ accept r = some i := by
  unfold decodeRaw
  cases accept r with
  | some x => simp
  | none =>
    dsimp only
    split
    · split <;> simp
    · simp

/-! ### Instruction and bytes -/

theorem encode_pad : wordBytes (encode .pad) = natBytes (lengthOf 0xFFFFFFFF) 0xFFFFFFFF := rfl

/-- The bytes of an instruction other than the pad word are those of its fields' word. -/
theorem encode_of_rawOf {i : Instr} {r : Raw} (h : rawOf i = some r) :
    wordBytes (encode i) = natBytes (lengthOf r.pack) r.pack := by
  have hwords : encode i =
      (List.range (lengthOf r.len.val / 4)).map fun k => BitVec.ofNat 32 (r.pack / 2 ^ (32 * k)) := by
    cases i
    case pad => cases h
    all_goals simp only [encode, h]
  rw [hwords, wordBytes_words, lengthOf_div_mul, lengthOf_pack]

theorem rawOf_of_encode {i : Instr} (hpad : i ≠ .pad) (h : encode i ≠ []) : ∃ r, rawOf i = some r := by
  cases hr : rawOf i with
  | some r => exact ⟨r, rfl⟩
  | none =>
    refine absurd ?_ h
    cases i
    case pad => exact absurd rfl hpad
    all_goals simp only [encode, hr]

theorem decodeNat_pad : decodeNat 0xFFFFFFFF = .ok .pad := by
  simp [decodeNat]

theorem decodeNat_pack {i : Instr} {r : Raw} (hwf : wellFormed i = true) (h : rawOf i = some r) :
    decodeNat r.pack = .ok i := by
  have hfits := fits_of_rawOf h
  have hlen : ¬ r.pack % 4 = 3 := by
    rw [pack_mod_four]
    exact ((fits_iff r).mp hfits).1
  rw [decodeNat, if_neg hlen, unpack_pack hfits, decodeRaw_eq_ok]
  exact accept_rawOf hwf h

theorem of_decodeNat {w : Nat} {i : Instr} (hw : w < 256 ^ lengthOf w) (h : decodeNat w = .ok i) :
    wellFormed i = true ∧ wordBytes (encode i) = natBytes (lengthOf w) w := by
  unfold decodeNat at h
  split at h
  case isTrue hlen =>
    have hsize : lengthOf w = 4 := by simp [lengthOf, hlen]
    rw [hsize] at hw
    split at h
    case isTrue hpad =>
      rw [Nat.mod_eq_of_lt (by simpa using hw)] at hpad
      cases h
      exact ⟨rfl, hpad ▸ encode_pad⟩
    case isFalse => cases h
  case isFalse hlen =>
    obtain ⟨hwf, hraw⟩ := of_accept (decodeRaw_eq_ok.mp h)
    rw [encode_of_rawOf hraw, pack_unpack hw]
    exact ⟨hwf, rfl⟩

/-- The length of an instruction is read from its first word alone. -/
theorem lengthOf_leNat_take {bs : List Byte} {m : Nat} (h4 : 4 ≤ m) (hm : m ≤ bs.length) :
    lengthOf (leNat (bs.take m)) = lengthOf (leNat bs) := by
  rw [leNat_take bs hm, lengthOf_mod _ _ (dvd_pow (by decide) (by omega))]

theorem lengthOf_leNat_natBytes {w : Nat} (hw : w < 256 ^ lengthOf w) (rest : List Byte) :
    lengthOf (leNat (natBytes (lengthOf w) w ++ rest)) = lengthOf w := by
  have htake := lengthOf_leNat_take (bs := natBytes (lengthOf w) w ++ rest) (four_le_lengthOf w) (by simp)
  rw [← htake, List.take_left' (length_natBytes ..), leNat_natBytes, Nat.mod_eq_of_lt hw]

/-- The decoder by the length that the first word gives (R31). -/
theorem decode_eq (bs : List Byte) : decode bs =
    if bs.length < lengthOf (leNat bs) then .error .short
    else (decodeNat (leNat (bs.take (lengthOf (leNat bs))))).map fun i => (i, bs.drop (lengthOf (leNat bs))) := by
  have hfour := four_le_lengthOf (leNat bs)
  by_cases h : bs.length < 4
  · rw [decode, if_pos h, if_pos (by omega)]
  · rw [decode, if_neg h]
    simp only [lengthOf_leNat_take (Nat.le_refl 4) (Nat.le_of_not_lt h)]

/-- What decodes is a whole instruction at the head of the bytes, whose first word gives its length. -/
theorem decode_eq_ok {bs rest : List Byte} {i : Instr} : decode bs = .ok (i, rest) ↔
    ∃ w, w < 256 ^ lengthOf w ∧ decodeNat w = .ok i ∧ bs = natBytes (lengthOf w) w ++ rest := by
  constructor
  · intro h
    rw [decode_eq] at h
    split at h
    case isTrue => cases h
    case isFalse hlong =>
      have hle := Nat.le_of_not_lt hlong
      have hw := lengthOf_leNat_take (four_le_lengthOf _) hle
      have htake := List.length_take_of_le hle
      generalize lengthOf (leNat bs) = n at *
      cases hd : decodeNat (leNat (bs.take n)) with
      | error e =>
        rw [hd] at h
        cases h
      | ok x =>
        rw [hd] at h
        cases h
        refine ⟨leNat (bs.take n), ?_, hd, ?_⟩
        · have hlt := leNat_lt (bs.take n)
          rw [htake] at hlt
          rwa [hw]
        · have hbytes := natBytes_leNat (bs.take n)
          rw [htake] at hbytes
          rw [hw, hbytes, List.take_append_drop]
  · rintro ⟨w, hw, hi, rfl⟩
    rw [decode_eq, lengthOf_leNat_natBytes hw, if_neg (by simp), List.take_left' (length_natBytes ..),
      List.drop_left' (length_natBytes ..), leNat_natBytes, Nat.mod_eq_of_lt hw, hi]
    rfl

/-- The bytes past an instruction do not matter to its decoding. -/
theorem decode_take {bs rest : List Byte} {i : Instr} (h : decode bs = .ok (i, rest)) :
    decode (bs.take (bs.length - rest.length)) = .ok (i, []) := by
  obtain ⟨w, hw, hi, rfl⟩ := decode_eq_ok.mp h
  rw [List.length_append, Nat.add_sub_cancel, List.take_left]
  exact decode_eq_ok.mpr ⟨w, hw, hi, (List.append_nil _).symm⟩

/-- Settles O25: the fields of a well-formed instruction come back from its word, and they name it. -/
theorem decodeEncodeAgree : Obligations.DecodeEncodeAgree := by
  intro i bs hwf hne
  rw [decode_eq_ok]
  by_cases hpad : i = .pad
  · subst hpad
    exact ⟨0xFFFFFFFF, by decide, decodeNat_pad, rfl⟩
  · obtain ⟨r, hr⟩ := rawOf_of_encode hpad hne
    exact ⟨r.pack, pack_lt (fits_of_rawOf hr), decodeNat_pack hwf hr, by rw [encode_of_rawOf hr]⟩

/-- Settles O26: a word is made of the fields read from it, and the decoder takes it only as the word of those fields. -/
theorem encodeDecodeAgree : Obligations.EncodeDecodeAgree := by
  intro bs i rest h
  obtain ⟨w, hw, hi, rfl⟩ := decode_eq_ok.mp h
  obtain ⟨hwf, hbytes⟩ := of_decodeNat hw hi
  exact ⟨hwf, by rw [hbytes]⟩

theorem decode_words {i : Instr} {ws : List (BitVec 32)} (h : encode i = ws) (hne : ws ≠ [])
    (hwf : wellFormed i = true) : decode (wordBytes ws) = .ok (i, []) := by
  simpa [h] using decodeEncodeAgree i [] hwf (h ▸ hne)

/-- Settles O27: each word is the encoding of its instruction. -/
theorem specWordsDecode : Obligations.SpecWordsDecode :=
  ⟨decode_words rfl nofun rfl, decode_words rfl nofun rfl, decode_words rfl nofun rfl, decode_words rfl nofun rfl,
    decode_words rfl nofun rfl⟩

end Sys2Proof.Encoding

/-! Completion of the integer, idle and trap instructions (O1, O20). -/

namespace Sys2Proof.Integer

open Sys2Proof Sys2Proof.Machine Sys2Proof.Machine.Claim Sys2Proof.Laws

/-! ### Counts of bits and their order (Table 3.5) -/

theorem popCount_eq (w x : Nat) : popCount w x = ((List.range w).filter fun n => x.testBit n).length := by
  induction w generalizing x with
  | zero => rfl
  | succ w ih =>
    have hshift : (fun n => x.testBit n) ∘ Nat.succ = fun n => (x / 2).testBit n := by
      funext n
      exact Nat.testBit_succ x n
    rw [popCount, ih, List.range_succ_eq_map, List.filter_cons, List.filter_map, hshift, Nat.testBit_zero]
    rcases Nat.mod_two_eq_zero_or_one x with h | h <;> simp [h, Nat.add_comm]

theorem leadZeros_zero (w : Nat) : leadZeros w 0 = w := by
  induction w with
  | zero => rfl
  | succ w ih => simp [leadZeros, ih, Nat.add_comm]

theorem leadZeros_eq {w x : Nat} (hx : x ≠ 0) (h : x < 2 ^ w) : leadZeros w x = w - 1 - Nat.log2 x := by
  induction w with
  | zero => omega
  | succ w ih =>
    rw [leadZeros]
    by_cases hw : x < 2 ^ w
    · have hlog := (Nat.log2_lt hx).mpr hw
      rw [Nat.div_eq_of_lt hw, if_neg (by decide), ih hw]
      omega
    · have hlog := (Nat.log2_eq_iff hx).mpr ⟨Nat.le_of_not_lt hw, h⟩
      have htop : x / 2 ^ w = 1 := Nat.div_eq_of_lt_le (by omega) (by rw [Nat.pow_succ] at h; omega)
      rw [htop, if_pos rfl, hlog]
      omega

theorem revBits_lt (w x : Nat) : revBits w x < 2 ^ w := by
  induction w generalizing x with
  | zero => exact Nat.one_pos
  | succ w ih =>
    have := ih (x / 2)
    rw [revBits, Nat.pow_succ]
    rcases Nat.mod_two_eq_zero_or_one x with h | h <;> rw [h] <;> omega

theorem testBit_revBits (w x n : Nat) : (revBits w x).testBit n = (decide (n < w) && x.testBit (w - 1 - n)) := by
  induction w generalizing x with
  | zero => simp [revBits]
  | succ w ih =>
    rw [revBits, Nat.mul_comm, Nat.testBit_two_pow_mul_add _ (revBits_lt w _), ih]
    split
    case isTrue h =>
      obtain ⟨m, hm⟩ : ∃ m, w - n = m + 1 := ⟨w - n - 1, by omega⟩
      rw [decide_eq_true h, decide_eq_true (by omega), ← Nat.testBit_succ]
      congr 2
      omega
    case isFalse h =>
      rcases Nat.lt_or_eq_of_le (Nat.le_of_not_lt h) with hlt | rfl
      · obtain ⟨m, rfl⟩ := Nat.exists_eq_add_of_lt hlt
        have htop : x % 2 < 2 ^ (w + m + 1 - w) := by
          rw [Nat.add_assoc, Nat.add_sub_cancel_left, Nat.pow_succ]
          have := Nat.one_le_two_pow (n := m)
          omega
        rw [Nat.testBit_lt_two_pow htop, decide_eq_false (by omega), Bool.false_and]
      · simp [Nat.testBit_zero]

theorem natWord_popCount (x : Word) :
    natWord (popCount 64 x.toNat) = natWord ((List.range 64).filter fun n => x.getLsbD n).length := by
  rw [popCount_eq]
  rfl

theorem natWord_leadZeros (x : Word) :
    natWord (leadZeros 64 x.toNat) = if x = 0 then 64 else natWord (63 - Nat.log2 x.toNat) := by
  split
  case isTrue h => rw [h]; exact congrArg natWord (leadZeros_zero 64)
  case isFalse h => rw [leadZeros_eq (fun h0 => h (BitVec.eq_of_toNat_eq h0)) x.isLt]

theorem natWord_revBits (x : Word) : natWord (revBits 64 x.toNat) = x.reverse := by
  apply BitVec.eq_of_getLsbD_eq
  intro n hn
  rw [BitVec.getLsbD_reverse, natWord, BitVec.getLsbD_ofNat, testBit_revBits]
  simp [BitVec.getMsbD, hn, BitVec.getLsbD]

/-! ### Words as integers -/

theorem abs_eq (x : Word) : (if x.slt 0 then -x else x) = toWord x.toInt.natAbs := by
  split
  case isTrue h =>
    have hneg : x.toInt < 0 := BitVec.slt_iff_toInt_lt.mp h
    rw [toWord, Int.ofNat_natAbs_of_nonpos hneg.le, BitVec.ofInt_neg, BitVec.ofInt_toInt]
  case isFalse h =>
    have hpos : ¬ x.toInt < 0 := fun hlt => h (BitVec.slt_iff_toInt_lt.mpr hlt)
    rw [toWord, Int.natAbs_of_nonneg (by omega), BitVec.ofInt_toInt]

theorem mulHigh_eq (u : Bool) (x y : Word) : mulHigh u x y =
    if u then (x.setWidth 128 * y.setWidth 128).extractLsb' 64 64
    else (x.signExtend 128 * y.signExtend 128).extractLsb' 64 64 := by
  cases u
  · rw [mulHigh, if_neg Bool.false_ne_true, if_neg Bool.false_ne_true, BitVec.signExtend, BitVec.signExtend,
      ← BitVec.ofInt_mul]
    generalize x.toInt * y.toInt = v
    apply BitVec.eq_of_toNat_eq
    rw [toWord, BitVec.extractLsb'_toNat, BitVec.toNat_ofInt, BitVec.toNat_ofInt, Nat.shiftRight_eq_div_pow]
    omega
  · have hx := x.isLt
    have hy := y.isLt
    have hxy : x.toNat * y.toNat < 2 ^ 128 := lt_of_lt_of_eq (Nat.mul_lt_mul'' hx hy) (by norm_num)
    apply BitVec.eq_of_toNat_eq
    rw [mulHigh, if_pos rfl, if_pos rfl, natWord, BitVec.extractLsb'_toNat, BitVec.toNat_mul, BitVec.toNat_setWidth,
      BitVec.toNat_setWidth, BitVec.toNat_ofNat, Nat.shiftRight_eq_div_pow, Nat.mod_eq_of_lt (a := x.toNat) (by omega),
      Nat.mod_eq_of_lt (a := y.toNat) (by omega), Nat.mod_eq_of_lt hxy]

theorem smaller_eq (u : Bool) (x y : Word) : smaller u x y =
    if u then (if x.toNat ≤ y.toNat then x else y) else if x.toInt ≤ y.toInt then x else y := by
  cases u <;> simp only [smaller, BitVec.ult, BitVec.slt, decide_eq_true_eq, if_true, Bool.false_eq_true, if_false,
    ← not_le, ite_not]

theorem larger_eq (u : Bool) (x y : Word) : larger u x y =
    if u then (if y.toNat ≤ x.toNat then x else y) else if y.toInt ≤ x.toInt then x else y := by
  cases u <;> simp only [larger, BitVec.ult, BitVec.slt, decide_eq_true_eq, if_true, Bool.false_eq_true, if_false,
    ← not_le, ite_not]

theorem shiftLeft_eq_mul (y : Word) (n : Nat) : y <<< n = y * BitVec.ofNat 64 (2 ^ n) := by
  rw [BitVec.shiftLeft_eq_mul_twoPow]
  congr 1
  apply BitVec.eq_of_toNat_eq
  rw [BitVec.toNat_twoPow, BitVec.toNat_ofNat]

/-! ### Integer and idle instructions -/

/-- An instruction that puts a value in a register has the form that writes it. -/
theorem writes_describes {p : Pred} {u : Uses} {d : Reg} {f g : Issue → Word} {len : Nat} {x : Instr}
    (hx : ∀ s, exec x s = issue p len { u with dst := [d] } (fun i s => i.put s d (g i)) s) (hfg : ∀ i, g i = f i) :
    (writes p u d f len).describes x := by
  refine describes_of_body (fun i s => i.put s d (g i)) hx fun i s e he => ?_
  rw [← Option.some.inj he, Issue.put, hfg]

theorem integerForm_describes {x : Instr} {f : Form} (h : integerForm x = some f) : f.describes x := by
  cases x
  case clz => cases h; exact writes_describes (fun _ => rfl) fun _ => natWord_leadZeros _
  case popc => cases h; exact writes_describes (fun _ => rfl) fun _ => natWord_popCount _
  case brev => cases h; exact writes_describes (fun _ => rfl) fun _ => natWord_revBits _
  case abs => cases h; exact writes_describes (fun _ => rfl) fun _ => abs_eq _
  case mulh => cases h; exact writes_describes (fun _ => rfl) fun _ => mulHigh_eq ..
  case min => cases h; exact writes_describes (fun _ => rfl) fun _ => smaller_eq ..
  case max => cases h; exact writes_describes (fun _ => rfl) fun _ => larger_eq ..
  case lea => cases h; exact writes_describes (fun _ => rfl) fun _ => congrArg _ (shiftLeft_eq_mul ..)
  case movhi =>
    cases h
    exact writes_describes (fun _ => rfl) fun _ => congrArg _ (BitVec.setWidth_eq_extractLsb' (by decide))
  case ctz | mov | add | sub | mul | and | or | xor | andn | shl | shr | sar | rot | bfx | bfi | leaPc | movi | movi128
      | sel =>
    cases h; exact writes_describes (fun _ => rfl) fun _ => rfl
  all_goals cases h

theorem idleForm_describes {x : Instr} {f : Form} (h : idleForm x = some f) : f.describes x := by
  cases x
  case pad | nop => cases h; exact describes_of_body _ (fun _ => rfl) fun _ _ _ he => Option.some.inj he
  all_goals cases h

/-- Settles O1, by the value that each instruction puts in its register. -/
theorem integerCompletes : Obligations.IntegerCompletes := by
  intro x f h
  exact h.elim integerForm_describes idleForm_describes

/-! ### Traps -/

theorem trapForm_describes {x : Instr} {f : Form} (h : trapForm x = some f) : f.describes x := by
  cases x
  case illegal | trap | bkpt => cases h; exact describes_of_body _ (fun _ => rfl) fun _ _ _ he => Option.some.inj he
  all_goals cases h

theorem readsNow_some {i : Issue} {s s1 : State} {va n unit : Nat} {bs : List Byte}
    (h : readsNow i s va n unit = some (bs, s1)) : s.readNow i.k va n unit = (.ok bs, s1) := by
  unfold readsNow at h
  split at h
  case h_1 hread =>
    cases h
    exact hread
  case h_2 => cases h

theorem returnForm_describes {x : Instr} {f : Form} (h : returnForm x = some f) : f.describes x := by
  cases x
  case tret =>
    cases h
    refine describes_of_body (fun i s => i.trapReturn s) (fun _ => rfl) fun i s e he => ?_
    dsimp only at he
    rw [Option.ite_none_left_eq_some] at he
    obtain ⟨hheld, he⟩ := he
    obtain ⟨⟨bs, s1⟩, hread, he⟩ := Option.bind_eq_some_iff.mp he
    dsimp only at he
    rw [Option.ite_none_left_eq_some, not_or, not_not] at he
    obtain ⟨⟨hvalid, halign⟩, he⟩ := he
    have haddr : leNat (slice bs (8 * 1) 8) % 2 ^ 56 % 4 = 0 := by omega
    have hpc : BitVec.ofNat 56 (leNat (slice bs (8 * 1) 8) % 2 ^ 56) = BitVec.ofNat 56 (leNat (slice bs (8 * 1) 8)) := by
      apply BitVec.eq_of_toNat_eq
      simp
    rw [Issue.trapReturn, if_neg hheld, readsNow_some hread]
    dsimp only
    rw [if_neg hvalid, if_neg (not_not.mpr haddr), hpc]
    generalize s1.writeNow i.k (recordVa i.c i.t) 8 _ = stored at he ⊢
    rcases stored with ⟨b | done, s2⟩
    · cases he
    · exact Option.some.inj he
  all_goals cases h

/-- Settles O20: the body of each is its trap, or the return from one. -/
theorem trapCompletes : Obligations.TrapCompletes := by
  intro x f h
  exact h.elim trapForm_describes returnForm_describes

end Sys2Proof.Integer

/-! The predicate, the privilege and the issue of every instruction that has a form (O33, O35). -/

namespace Sys2Proof.Forms

open Sys2Proof Sys2Proof.Machine Sys2Proof.Machine.Claim Sys2Proof.Laws

/-! ### Forms and words -/

/-- A form takes its predicate from its word's PRED field, and reads a tile predicate by its major opcode (R45). -/
theorem pred_of_formOf {mctl : Word} {x : Instr} {f : Form} {r : Raw} (h : formOf mctl x = some f)
    (hr : rawOf x = some r) :
    f.pred = r.p ∧ f.uses.tile = decide (0xA0 ≤ r.opc.val ∧ r.opc.val ≤ 0xAF) := by
  cases x
  case call _ d _ => cases d <;> (cases hr; cases h; exact ⟨rfl, rfl⟩)
  case callx _ d _ => cases d <;> (cases hr; cases h; exact ⟨rfl, rfl⟩)
  case ret _ d => cases d <;> (cases hr; cases h; exact ⟨rfl, rfl⟩)
  case wake _ d _ => cases d <;> (cases hr; cases h; exact ⟨rfl, rfl⟩)
  case recv _ c id _ => cases c <;> cases id <;> (cases hr; cases h; exact ⟨rfl, rfl⟩)
  all_goals cases hr <;> cases h <;> exact ⟨rfl, rfl⟩

/-- A form needs privilege exactly where its instruction is a privileged one (R181). -/
theorem priv_of_formOf {mctl : Word} {x : Instr} {f : Form} (h : formOf mctl x = some f) :
    f.uses.priv = privileged x := by
  cases x
  case call _ d _ => cases d <;> (cases h; rfl)
  case callx _ d _ => cases d <;> (cases h; rfl)
  case ret _ d => cases d <;> (cases h; rfl)
  case wake _ d _ => cases d <;> (cases h; rfl)
  case recv _ c id _ => cases c <;> cases id <;> (cases h; rfl)
  all_goals cases h <;> rfl

/-! ### Forms and issue -/

/-- A form is that of a moment instruction, or one of the tables of the other families. -/
theorem formOf_mem {mctl : Word} {x : Instr} {f : Form} (h : formOf mctl x = some f) :
    momentForm mctl x = some f ∨ f ∈ formsOf x := by
  have hmem := List.mem_of_mem_head? h
  rw [List.mem_append, Option.mem_toList] at hmem
  exact hmem

/-- The tables of the families that `formsOf` goes through. -/
def familiesOf (x : Instr) : List (Option Form) :=
  [integerForm x, idleForm x, floatForm x, longForm x, packedForm x, branchForm x, loopForm x, flagForm x, memoryForm x,
    orderForm x, barrierForm x, messageForm x, threadForm x, queueForm x, elementForm x, vectorForm x, laneForm x,
    convertForm x, engineForm x, mangleForm x, tileForm x, arrayForm x, carrierForm x, hamperForm x, systemForm x,
    workForm x, tierForm x, traceForm x, trapForm x, returnForm x]

theorem formsOf_issues {x : Instr} {f : Form} (h : f ∈ formsOf x) : Issues x f := by
  have hall : ∀ o ∈ familiesOf x, ∀ f, o = some f → Issues x f := by
    simp only [familiesOf, List.forall_mem_cons]
    exact
      ⟨fun _ => integerForm_issues, fun _ => idleForm_issues, fun _ => floatForm_issues, fun _ => longForm_issues,
      fun _ => packedForm_issues, fun _ => branchForm_issues, fun _ => loopForm_issues, fun _ => flagForm_issues,
      fun _ => memoryForm_issues, fun _ => orderForm_issues, fun _ => barrierForm_issues, fun _ => messageForm_issues,
      fun _ => threadForm_issues, fun _ => queueForm_issues, fun _ => elementForm_issues, fun _ => vectorForm_issues,
      fun _ => laneForm_issues, fun _ => convertForm_issues, fun _ => engineForm_issues, fun _ => mangleForm_issues,
      fun _ => tileForm_issues, fun _ => arrayForm_issues, fun _ => carrierForm_issues, fun _ => hamperForm_issues,
      fun _ => systemForm_issues, fun _ => workForm_issues, fun _ => tierForm_issues, fun _ => traceForm_issues,
      fun _ => trapForm_issues, fun _ => returnForm_issues, nofun⟩
  obtain ⟨o, ho, hf⟩ := List.mem_filterMap.mp h
  exact hall o ho f hf

theorem exec_of_formOf {s : State} {i : Issue} {x : Instr} {f : Form} (hi : issuing s = some i)
    (h : formOf i.c.mctl x = some f) : ∃ body, exec x s = issue f.pred f.len f.uses body s := by
  rcases formOf_mem h with hm | hf
  · exact momentForm_issues hm hi rfl
  · obtain ⟨body, hx⟩ := formsOf_issues hf
    exact ⟨body, hx s⟩

/-- An instruction with a form ends with the effect of R51 on the line that issues. -/
theorem exec_ends {s : State} {i : Issue} {x : Instr} {f : Form} (hi : issuing s = some i)
    (h : formOf i.c.mctl x = some f) :
    ∃ body, exec x s = ends s i f.len (i.effect f.pred f.uses body { s with issuer := none }) := by
  obtain ⟨body, hx⟩ := exec_of_formOf hi h
  exact ⟨body, by rw [hx, issue_of_issuing hi]; rfl⟩

/-! ### A false predicate -/

theorem effect_of_not_predTrue {i : Issue} {p : Pred} {u : Uses} (body : Issue → State → Effect) (s : State)
    (h : predTrue p u.tile i.t i.c = false) :
    i.effect p u body s = if u.lbrk then .jump (i.t.pc + 8) s else .retire s := by
  rw [Issue.effect, h]
  rfl

/-- Predicate 0 reads true, of flags and of tile predicates (R45). -/
theorem predTrue_zero (neg tile : Bool) (t : Thread) (c : Crew) : predTrue ⟨neg, 0⟩ tile t c = !neg := by
  cases tile <;> simp [predTrue, Thread.flag, Crew.tilePred]

/-- Settles O33, by the order of R51, in which the predicate comes first. -/
theorem falsePredicateRetires : Obligations.FalsePredicateRetires := by
  refine ⟨fun x f r mctl h hr => ?_, fun t c neg => ⟨predTrue_zero .., predTrue_zero ..⟩, fun x f s i hi h hp => ?_⟩
  · obtain ⟨hpred, htile⟩ := pred_of_formOf h hr
    exact ⟨hpred, by rw [htile, decide_eq_true_iff]⟩
  · obtain ⟨body, hx⟩ := exec_ends hi h
    rw [hx, effect_of_not_predTrue body _ hp]

end Sys2Proof.Forms

/-! What the end of an instruction and the sending of a fault record leave of the lines and the crews. -/

namespace Sys2Proof.Lines

open Sys2Proof Sys2Proof.Machine Sys2Proof.Machine.Claim Sys2Proof.Laws

theorem thread?_of_threads {s s' : State} (h : s'.threads = s.threads) (k : Nat) : s'.thread? k = s.thread? k := by
  rw [State.thread?, State.thread?, h]

/-! ### Stores to global memory, and records sent to menders -/

theorem evictL2_threads (s : State) (line : Nat) : (s.evictL2 line).threads = s.threads := by
  unfold State.evictL2
  split <;> rfl

theorem touchL2_threads (s : State) (line evp : Nat) : (s.touchL2 line evp).threads = s.threads := by
  unfold State.touchL2
  dsimp only
  split
  · rfl
  · split
    · rfl
    · split
      · rfl
      · cases l2victim _ <;> simp [evictL2_threads]

theorem keepLine_threads (s : State) (line evp : Nat) (l : Lease) : (s.keepLine line evp l).threads = s.threads :=
  touchL2_threads ..

theorem l1Copies_threads (s : State) (tiles : List Nat) (line owner : Nat) (h : Lease) (f : L1Line → List Byte) :
    (s.l1Copies tiles line owner h f).threads = s.threads :=
  foldl_keeps (P := fun x : State => x.threads = s.threads)
    (fun x k hx => by
      split
      · rw [modTile_threads]; exact hx
      · exact hx) rfl _

/-- A store to global memory changes no line. -/
theorem storeAt_phys_threads (s : State) (v : Via) (pa n data mask owner : Nat) (t : LTime) :
    (s.storeAt v (.phys pa) n data mask owner t).2.threads = s.threads := by
  unfold State.storeAt
  dsimp only [State.staleSet]
  rw [l1Copies_threads, keepLine_threads]

theorem storeRange_phys_threads (s : State) (v : Via) (pa unit : Nat) (bs : List Byte) (owner : Nat) (t : LTime) :
    (s.storeRange v (.phys pa) unit bs owner t).2.threads = s.threads := by
  unfold State.storeRange
  exact foldl_keeps (P := fun x : LTime × State => x.2.threads = s.threads)
    (fun b p hb => (storeAt_phys_threads ..).trans hb) rfl _

theorem snoop_threads (s : State) (ls : List Nat) : (s.snoop ls).threads = s.threads :=
  foldl_keeps (P := fun x : State => x.threads = s.threads)
    (fun x l hx => by
      split
      · exact hx
      · exact hx) rfl _

/-- A record sent to a mender changes no line (R189). -/
theorem ringSend_threads (s : State) (m : Nat) (ws : List Nat) (t : LTime) : (s.ringSend m ws t).threads = s.threads := by
  unfold State.ringSend State.ringPlace
  dsimp only
  split
  · rw [modRing_threads, storeRange_phys_threads]
  · split
    · rw [snoop_threads, modRing_threads]
    · rw [modRing_threads]

/-- A system fault stops its line with its PC, registers and flags as they were (R190). -/
theorem sysFault_thread? {s : State} {k : Nat} {t : Thread} (h : s.thread? k = some t) (f : FaultInfo) :
    (s.sysFault k f).thread? k = some
      { t.clearWait with st := .faulted, trapq := none, fetchStall := none, finish := none, pin := false } := by
  unfold State.sysFault
  rw [h]
  dsimp only
  rw [thread?_of_threads (ringSend_threads ..), thread?_of_threads (offer_threads ..), setThread_same]

/-! ### The end of an instruction -/

theorem issued_crews (s pre : State) (k : Nat) (core : Option Nat) : (s.issued pre k core).crews = s.crews := by
  cases core <;> simp [State.issued]

/-- A line that issued is noted with the time it may issue again and its place in the order of issues. -/
theorem issued_thread? {s : State} {k : Nat} {t : Thread} (h : s.thread? k = some t) (pre : State) (core : Option Nat) :
    ∃ a b, (s.issued pre k core).thread? k = some { t with eligible := a, issueStamp := b } := by
  cases core with
  | none => exact ⟨t.eligible, t.issueStamp, h⟩
  | some n =>
    refine ⟨pre.clock + 4, s.stamp.1, ?_⟩
    have hstamp : s.stamp.2.thread? k = some t := h
    exact (thread?_of_threads (modCore_threads ..) k).trans (modThread_same hstamp _)

end Sys2Proof.Lines

/-! Privileged instructions in a thread without privilege (O35). -/

namespace Sys2Proof.Privilege

open Sys2Proof Sys2Proof.Machine Sys2Proof.Machine.Claim Sys2Proof.Laws Sys2Proof.Forms Sys2Proof.Lines

theorem mustWait_of_goesOn {t : Thread} {u : Uses} (h : goesOn t u = true) : t.mustWait u = .no := by
  unfold goesOn at h
  split at h
  · assumption
  · cases h

/-- An instruction that needs privilege stops a thread without it, once nothing before that place of R51 does. -/
theorem effect_of_not_privl {i : Issue} {p : Pred} {u : Uses} (body : Issue → State → Effect) (s : State)
    (hp : predTrue p u.tile i.t i.c = true) (hgo : goesOn i.t u = true) (hpriv : u.priv = true)
    (hu : i.t.privl = false) : i.effect p u body s = .sys codePriv 0 := by
  simp [Issue.effect, hp, mustWait_of_goesOn hgo, hpriv, hu]

theorem faults_leaves {s : State} {i : Issue} (hi : issuing s = some i) (code addr : Nat) :
    leaves (faults s i code addr) i.k fun _ w =>
      w.st = .faulted ∧ w.pc = i.t.pc ∧ w.g = i.t.g ∧ w.flags = i.t.flags := by
  obtain ⟨-, hthread, -⟩ := issuing_some hi
  have hstop := sysFault_thread? (s := { s with issuer := none }) hthread { code := code, addr := addr }
  obtain ⟨a, b, hw⟩ := issued_thread? hstop { s with issuer := none } i.t.entryCore
  exact ⟨_, _, rfl, hw, rfl, rfl, rfl, rfl⟩

/-- Settles O35, by the place of the privilege check in the order of R51. -/
theorem privilegedInUserMode : Obligations.PrivilegedInUserMode := by
  refine ⟨fun x f mctl h => priv_of_formOf h, fun x f s i hi h hx hu hp hgo => ?_⟩
  obtain ⟨body, hexec⟩ := exec_ends hi h
  have heffect := effect_of_not_privl body { s with issuer := none } hp hgo ((priv_of_formOf h).trans hx) hu
  have hout : exec x s = faults s i 0x25 0 := by
    rw [hexec, heffect]
    rfl
  exact ⟨hout, hout ▸ faults_leaves hi ..⟩

end Sys2Proof.Privilege

/-! The fetch of a line, what a step makes of the bytes it fetches, and the pad word (O28, O30, O32). -/

namespace Sys2Proof.Fetch

open Sys2Proof Sys2Proof.Machine Sys2Proof.Machine.Claim Sys2Proof.Laws

/-! ### What a fetch leaves -/

/-- What decides which line issues: the selected line, the lines, the crews and the clock. -/
def lineup (s : State) := (s.issuer, s.threads, s.crews, s.clock)

theorem issuing_of_lineup {s s' : State} (h : lineup s' = lineup s) : issuing s' = issuing s := by
  simp only [lineup, Prod.mk.injEq] at h
  obtain ⟨hissuer, hthreads, hcrews, hclock⟩ := h
  simp only [issuing, State.thread?, State.crew?, hissuer, hthreads, hcrews, hclock]

@[simp] theorem lineup_modTile (s : State) (n : Nat) (f : Tile → Tile) : lineup (s.modTile n f) = lineup s := rfl

@[simp] theorem lineup_modCore (s : State) (n : Nat) (f : Core → Core) : lineup (s.modCore n f) = lineup s := rfl

@[simp] theorem lineup_stamp (s : State) : lineup s.stamp.2 = lineup s := rfl

theorem lineup_translate (s : State) (tile root va : Nat) : lineup (s.translate tile root va).2 = lineup s := by
  unfold State.translate
  split
  · rfl
  · split <;> rfl

theorem lineup_resolve (s : State) (a : Agent) (va n : Nat) (r : Right) : lineup (s.resolve a va n r).2 = lineup s := by
  have ht := lineup_translate s a.tile a.root (va % 2 ^ 56)
  unfold State.resolve
  dsimp only
  generalize s.translate a.tile a.root (va % 2 ^ 56) = x at ht ⊢
  rcases x with ⟨_ | e, s1⟩ <;> dsimp only at ht ⊢ <;> repeat' split
  all_goals first
    | exact ht
    | rfl

theorem lineup_blockBytes (s : State) (core : Option Nat) (p : Part) : lineup (s.blockBytes core p).2 = lineup s := by
  unfold State.blockBytes
  dsimp only
  split
  · rfl
  · split <;> rfl

/-- What a line makes of the block it has fetched (R51). -/
noncomputable def runs (s : State) (k : Nat) (t : Thread) (c : Crew) : Except TrapInfo (Instr × Nat) → Out
  | .error ti => s.frontEffect k t c (.trap ti)
  | .ok (x, len) => if t.pastBody len then s.frontEffect k t c (.user codeIllop) else exec x s

@[simp] theorem seen_decl (c : Crew) (now : Nat) : (c.seen now).decl = c.decl := by
  unfold Crew.seen
  split
  · split <;> rfl
  · rfl

@[simp] theorem unattested_seen (s : State) (t : Thread) (c : Crew) (now n : Nat) :
    s.unattested t (c.seen now) n = s.unattested t c n := by
  rw [State.unattested, seen_decl]
  rfl

@[simp] theorem wordUnattested_seen (s : State) (t : Thread) (c : Crew) (now : Nat) (bs : List Byte) :
    s.wordUnattested t (c.seen now) bs = s.wordUnattested t c bs := by
  simp only [State.wordUnattested, unattested_seen]

theorem step_eq_noted (s : State) : step s = noted s (advance s) := by
  unfold step noted
  cases advance s <;> rfl

/-- What stands behind a fetch. -/
theorem fetches_some {s s' : State} {i : Issue} {bs : List Byte} (h : fetches s = some (i, bs, s')) :
    issuing s = some i ∧ ∃ p s1 block, s.fetchAddr i.t = (.ok p, s1) ∧ s1.unattested i.t i.c 4 = false ∧
      s1.blockBytes i.t.entryCore p = (some block, s') ∧ s'.wordUnattested i.t i.c block = false ∧
      bs = block.drop (i.t.pc.toNat % 32) := by
  unfold fetches at h
  split at h
  case h_1 => cases h
  case h_2 j hj =>
    split at h
    case h_1 => cases h
    case h_2 p s1 hfetch =>
      rw [Option.ite_none_left_eq_some, Bool.not_eq_true] at h
      obtain ⟨hatt, h⟩ := h
      split at h
      case h_1 => cases h
      case h_2 block s2 hbytes =>
        rw [Option.ite_none_left_eq_some, Bool.not_eq_true] at h
        obtain ⟨hword, h⟩ := h
        cases h
        exact ⟨hj, p, s1, block, hfetch, hatt, hbytes, hword, rfl⟩

theorem lineup_of_fetches {s s' : State} {i : Issue} {bs : List Byte} (h : fetches s = some (i, bs, s')) :
    lineup s' = lineup s := by
  obtain ⟨-, p, s1, block, hfetch, -, hbytes, -⟩ := fetches_some h
  have haddr := lineup_resolve s (s.agent i.t) i.t.pc.toNat 4 .fetch
  have hblock := lineup_blockBytes s1 i.t.entryCore p
  rw [← State.fetchAddr, hfetch] at haddr
  rw [hbytes] at hblock
  exact hblock.trans haddr

/-- A line that fetches its block issues what the block holds, in the state that the fetch leaves. -/
theorem issueOne_of_fetches {s s' : State} {i : Issue} {bs : List Byte} (h : fetches s = some (i, bs, s')) :
    ∃ c block, bs = block.drop (i.t.pc.toNat % 32) ∧
      s.issueOne i.k = runs s' i.k i.t c (readInstr i.t.pc.toNat (i.t.pc.toNat % 32) block) := by
  obtain ⟨hi, p, s1, block, hfetch, hatt, hbytes, hword, hbs⟩ := fetches_some h
  obtain ⟨-, hthread, hcrew, -, -⟩ := issuing_some hi
  obtain ⟨c, hc, hseen⟩ := Option.map_eq_some_iff.mp hcrew
  rw [← hseen, unattested_seen] at hatt
  rw [← hseen, wordUnattested_seen] at hword
  refine ⟨c, block, hbs, ?_⟩
  simp only [State.issueOne, hthread, hc, hfetch, hatt, hbytes, hword, Bool.false_eq_true, if_false]
  rfl

/-- A step at a line that fetches its block is what the line makes of it. -/
theorem step_of_fetches {s s' : State} {i : Issue} {bs : List Byte} (h : fetches s = some (i, bs, s')) :
    ∃ c block, bs = block.drop (i.t.pc.toNat % 32) ∧
      step s = noted s (runs s' i.k i.t c (readInstr i.t.pc.toNat (i.t.pc.toNat % 32) block)) := by
  obtain ⟨hi, -⟩ := fetches_some h
  obtain ⟨c, block, hbs, hout⟩ := issueOne_of_fetches h
  obtain ⟨hissuer, -⟩ := issuing_some hi
  refine ⟨c, block, hbs, ?_⟩
  rw [step_eq_noted, advance, hissuer, ← hout]

/-! ### The bytes of a fetch block -/

open Sys2Proof.Encoding

/-- An instruction that decodes within the fetch block is the one that is read. -/
theorem readInstr_of_decode {pc off : Nat} {block rest : List Byte} {x : Instr}
    (h : decode (block.drop off) = .ok (x, rest)) (hin : off + ((block.drop off).length - rest.length) ≤ 32) :
    readInstr pc off block = .ok (x, (block.drop off).length - rest.length) := by
  have htake := decode_take h
  obtain ⟨w, hw, hi, hbytes⟩ := decode_eq_ok.mp h
  have hfour := four_le_lengthOf w
  have hlen : (block.drop off).length - rest.length = lengthOf w := by simp [hbytes]
  have hhead : leNat ((block.drop off).take 4) = w % 2 ^ 32 := by
    have hle : 4 ≤ (natBytes (lengthOf w) w).length := by simpa using hfour
    rw [hbytes, List.take_append_of_le_length hle, leNat_take _ hle, leNat_natBytes, Nat.mod_eq_of_lt hw]
    norm_num
  rw [hlen] at htake hin ⊢
  unfold readInstr
  simp only [hhead]
  by_cases h3 : w % 4 = 3
  · have hn : lengthOf w = 4 := by simp [lengthOf, h3]
    rw [decodeNat, if_pos h3] at hi
    split at hi
    case isTrue hpad =>
      cases hi
      rw [if_pos (by omega), if_pos hpad, hn]
    case isFalse => cases hi
  · have hn : (if w % 2 ^ 32 % 4 = 0 then 8 else if w % 2 ^ 32 % 4 = 1 then 12 else 16) = lengthOf w := by
      have hcase : w % 4 = 0 ∨ w % 4 = 1 ∨ w % 4 = 2 := by omega
      rw [Nat.mod_mod_of_dvd w (by norm_num)]
      rcases hcase with hw | hw | hw <;> simp [lengthOf, hw]
    rw [if_neg (by omega), hn, if_neg (by omega), htake]

/-- Settles O28: what is fetched decodes to the instruction that issues. -/
theorem stepRunsDecoded : Obligations.StepRunsDecoded := by
  intro s i bs s' x rest hfetch hdecode hin hbody
  obtain ⟨c, block, rfl, hstep⟩ := step_of_fetches hfetch
  rw [hstep, readInstr_of_decode hdecode hin, runs, hbody]
  rfl

/-! ### Words that are no instruction, or none but their trap -/

/-- An instruction that uses nothing waits for nothing. -/
theorem goesOn_idle (t : Thread) : goesOn t {} = true := by
  have hstops (d : Deferred) : d.stops {} = false := by simp [Deferred.stops, Uses.reads, Uses.writes]
  have hfind : (t.deferred.find? fun d => d.stops {}) = none := List.find?_eq_none.mpr (by simp [hstops])
  have hwait : t.mustWait {} = .no := by
    rw [Thread.mustWait, hfind]
    cases t.pend <;> simp [Uses.reads, Uses.writes]
  simp [goesOn, hwait]

theorem takes_idle (i : Issue) (s : State) : takes i {} s = some (i, s) := by
  simp [takes, Issue.misuse, pops, pushes, Uses.reads, Uses.writes]

theorem begins_idle {s : State} {i : Issue} (hi : issuing s = some i) :
    begins ⟨false, 0⟩ {} s = some (i, { s with issuer := none }) := by
  have hpred : predTrue ⟨false, 0⟩ false i.t i.c = true := Forms.predTrue_zero ..
  simp only [begins, hi]
  rw [hpred, goesOn_idle, takes_idle]
  rfl

theorem exec_illegal {s : State} {i : Issue} (hi : issuing s = some i) : exec .illegal s = traps s i 0x01 :=
  Integer.trapForm_describes (x := .illegal) rfl s i _ (.trap { code := 0x01 }) (begins_idle hi) rfl rfl

theorem exec_pad {s : State} {i : Issue} (hi : issuing s = some i) :
    exec .pad s = ends s i 4 (.retire { s with issuer := none }) :=
  Integer.idleForm_describes (x := .pad) rfl s i _ (.retire { s with issuer := none }) (begins_idle hi) rfl rfl

/-- A trap in the place of an instruction is the line's, whatever the instruction was. -/
theorem frontEffect_trap {s : State} {i : Issue} (c : Crew) (code : Nat) :
    s.frontEffect i.k i.t c (.trap { code := code }) = traps s i code := by
  rfl

/-- No instruction has the word of zeros (R54). -/
theorem decodeNat_zero : decodeNat 0 = .error .illop := by
  have hparse : parse (unpack 0) = none := rfl
  have haccept : accept (unpack 0) = none := by rw [accept, hparse]
  rw [decodeNat, if_neg (by decide), decodeRaw, haccept]
  rfl

theorem decode_zeros {bs : List Byte} (hlen : bs.length = 8) (h : leNat bs = 0) : decode bs = .error .illop := by
  rw [decode_eq, h, if_neg (by rw [hlen]; decide)]
  have htake : bs.take (lengthOf 0) = bs := List.take_of_length_le (by rw [hlen]; decide)
  rw [htake, h, decodeNat_zero]
  rfl

theorem readInstr_zeros {pc off : Nat} {block : List Byte} (hlen : 8 ≤ (block.drop off).length) (hin : off + 8 ≤ 32)
    (h : leNat ((block.drop off).take 8) = 0) : readInstr pc off block = .error { code := codeIllop } := by
  have hhead : leNat ((block.drop off).take 4) = 0 := by
    have htake := leNat_take ((block.drop off).take 8) (m := 4) (by rw [List.length_take]; omega)
    rwa [List.take_take, h] at htake
  unfold readInstr
  simp only [hhead]
  rw [if_neg (by decide)]
  simp only [Nat.zero_mod, if_true]
  rw [if_neg (by omega), decode_zeros (List.length_take_of_le hlen) h]

/-- Bytes that begin with those of an instruction decode to it. -/
theorem decode_of_head {x : Instr} {bs : List Byte} {n v : Nat} (hwf : wellFormed x = true)
    (hx : wordBytes (encode x) = natBytes n v) (hne : encode x ≠ []) (hlen : n ≤ bs.length)
    (h : leNat (bs.take n) = v) : decode bs = .ok (x, bs.drop n) := by
  have hbytes : wordBytes (encode x) = bs.take n := by
    have htake := natBytes_leNat (bs.take n)
    rwa [List.length_take_of_le hlen, h, ← hx] at htake
  have hdecode := decodeEncodeAgree x (bs.drop n) hwf hne
  rwa [hbytes, List.take_append_drop] at hdecode

/-- A line whose block holds a whole instruction issues it, or traps where it ends past a loop body (R101). -/
theorem step_of_decode {s s' : State} {i : Issue} {bs : List Byte} {x : Instr} {n : Nat}
    (hfetch : fetches s = some (i, bs, s')) (hin : inBlock i bs n = true) (h : decode bs = .ok (x, bs.drop n)) :
    step s = noted s (if i.t.pastBody n then traps s' i 0x01 else exec x s') := by
  obtain ⟨hlen, hoff⟩ := of_decide_eq_true hin
  obtain ⟨c, block, rfl, hstep⟩ := step_of_fetches hfetch
  generalize hbs : block.drop (i.t.pc.toNat % 32) = bs at *
  have hsize : bs.length - (bs.drop n).length = n := by
    rw [List.length_drop]
    omega
  have hread := readInstr_of_decode (pc := i.t.pc.toNat) (hbs ▸ h) (by rwa [hbs, hsize])
  rw [hbs, hsize] at hread
  rw [hstep, hread]
  rfl

theorem step_of_illegal {s s' : State} {i : Issue} {bs : List Byte} (hfetch : fetches s = some (i, bs, s'))
    (hin : inBlock i bs 8 = true) (h : leNat (bs.take 8) = 0x3FC0) : step s = noted s (traps s' i 0x01) := by
  have hdecode := decode_of_head (x := .illegal) rfl rfl nofun (of_decide_eq_true hin).1 h
  obtain ⟨hi, -⟩ := fetches_some hfetch
  rw [step_of_decode hfetch hin hdecode, exec_illegal ((issuing_of_lineup (lineup_of_fetches hfetch)).trans hi), ite_self]

theorem step_of_zeros {s s' : State} {i : Issue} {bs : List Byte} (hfetch : fetches s = some (i, bs, s'))
    (hin : inBlock i bs 8 = true) (h : leNat (bs.take 8) = 0) : step s = noted s (traps s' i 0x01) := by
  obtain ⟨hlen, hoff⟩ := of_decide_eq_true hin
  obtain ⟨c, block, rfl, hstep⟩ := step_of_fetches hfetch
  rw [hstep, readInstr_zeros hlen hoff h]
  rfl

/-- Settles O30: one word is that of ILLEGAL, the other decodes to nothing. -/
theorem unassignedWordsTrap : Obligations.UnassignedWordsTrap :=
  ⟨rfl, decode_words rfl nofun rfl, fun _ _ _ _ hfetch hin h =>
    h.elim (step_of_illegal hfetch hin) (step_of_zeros hfetch hin)⟩

/-! ### The pad word -/

open Sys2Proof.Lines

/-- What falling through leaves of a line. -/
def kept (t : Thread) := (t.g, t.flags, t.efmt, t.link, t.pts, t.acq)

theorem kept_loopEnd (t : Thread) (a len : Nat) : kept (t.loopEnd a len) = kept t := by
  unfold Thread.loopEnd kept
  dsimp only
  split_ifs <;> rfl

theorem kept_fallThrough (t : Thread) (len : Nat) : kept (t.fallThrough len) = kept t := kept_loopEnd ..

/-- Where no loop body ends, a line falls through to the next address (R100). -/
theorem fallThrough_pc {t : Thread} {len : Nat} (h0 : (t.lact0 && t.loop0.endsAt t.pc.toNat len) = false)
    (h1 : (t.lact1 && t.loop1.endsAt t.pc.toNat len) = false) :
    (t.fallThrough len).pc = BitVec.ofNat 56 (t.pc.toNat + len) := by
  unfold Thread.fallThrough Thread.loopEnd
  dsimp only
  rw [h1, h0]
  rfl

theorem noteRetired_threads (s : State) (n : Nat) : (s.noteRetired n).threads = s.threads := by
  unfold State.noteRetired
  split
  · split <;> rfl
  · rfl

theorem noteRetired_crew? (s : State) (m n : Nat) :
    ∃ b : Bool, (s.noteRetired m).crew? n = (s.crew? n).map fun c => { c with watchArmed := b } := by
  have hsame : ∃ b : Bool, s.crew? n = (s.crew? n).map fun c => { c with watchArmed := b } := by
    cases s.crew? n with
    | none => exact ⟨false, rfl⟩
    | some c => exact ⟨c.watchArmed, rfl⟩
  unfold State.noteRetired
  split
  case h_1 x hx =>
    split
    · exact hsame
    · by_cases hn : m = n
      · subst hn
        exact ⟨true, by rw [setCrew_same, hx]; rfl⟩
      · rwa [setCrew_ne _ _ hn]
  case h_2 => exact hsame

theorem stepStop_crews (s : State) (k : Nat) : (s.stepStop k).crews = s.crews := by
  unfold State.stepStop
  split
  · split <;> rfl
  · rfl

theorem stepStop_thread? {s : State} {k : Nat} {t : Thread} (h : s.thread? k = some t) :
    ∃ st, (s.stepStop k).thread? k = some { t with st := st } := by
  unfold State.stepStop
  rw [h]
  dsimp only
  split
  · exact ⟨.debugStopped, setThread_same ..⟩
  · exact ⟨t.st, h⟩

theorem retireAt_thread? {s : State} {k : Nat} {t : Thread} (h : s.thread? k = some t) (len : Nat) :
    ∃ st, (s.retireAt k len).thread? k = some { t.fallThrough len with st := st } := by
  refine stepStop_thread? ?_
  exact (thread?_of_threads (noteRetired_threads ..) k).trans (modThread_same h _)

theorem retireAt_crew? (s : State) (k len n : Nat) :
    ∃ b : Bool, (s.retireAt k len).crew? n = (s.crew? n).map fun c => { c with watchArmed := b } := by
  obtain ⟨b, hb⟩ := noteRetired_crew? (s.modThread k fun t => t.fallThrough len) (crewOf k) n
  refine ⟨b, ?_⟩
  rw [State.retireAt, State.crew?, stepStop_crews, ← State.crew?, hb, State.crew?, modThread_crews]
  rfl

/-! What a step notes of saved crews. -/

theorem get?_map_entries {α : Type} (m : Map α) {f : Nat × α → Nat × α} (hf : ∀ e, (f e).1 = e.1) (n : Nat) :
    Machine.Map.get? (m.map f) n = (Machine.Map.get? m n).map fun a => (f (n, a)).2 := by
  induction m with
  | nil => rfl
  | cons e m ih =>
    obtain ⟨j, a⟩ := e
    have hj := hf (j, a)
    by_cases h : j = n
    · subst h
      simp [Machine.Map.get?, hj]
    · simp [Machine.Map.get?, hj, h, ih]

theorem noteDirty_crew? (pre post : State) (n : Nat) :
    ∃ d : List Nat, (pre.noteDirty post).crew? n = (post.crew? n).map fun c => { c with dirty := d } := by
  rw [State.noteDirty, State.crew?]
  dsimp only
  rw [get?_map_entries, ← State.crew?]
  · cases post.crew? n with
    | none => exact ⟨[], rfl⟩
    | some c =>
      dsimp only [Option.map_some]
      split
      · split
        · exact ⟨c.dirty, rfl⟩
        · exact ⟨_, rfl⟩
      · exact ⟨c.dirty, rfl⟩
  · intro e
    split
    · split <;> rfl
    · rfl

theorem late_of_not_displaced {s : State} {n : Nat} (h : ∀ c, s.crew? n = some c → c.displaced = false) (m : Nat) :
    s.late n m = s := by
  unfold State.late
  split
  · rfl
  · rename_i c hc
    rw [h c hc]
    rfl

/-- Where no crew is displaced, nothing is owed to a save area. -/
theorem foldl_late {s : State} (h : noneAway s) (es : List (Nat × Crew)) :
    es.foldl (init := s) (fun s e => s.late e.1 0) = s :=
  foldl_keeps (P := fun x => x = s) (fun x e hx => by rw [hx, late_of_not_displaced (h e.1)]) rfl es

/-- A step that leaves no crew displaced is noted in the dirty bits of saved crews alone (R196). -/
theorem afterStep_of_noneAway {pre post : State} (h : noneAway post) : pre.afterStep post = pre.noteDirty post := by
  refine foldl_late (fun n c hc => ?_) _
  obtain ⟨d, hd⟩ := noteDirty_crew? pre post n
  obtain ⟨x, hx, rfl⟩ := Option.map_eq_some_iff.mp (hd.symm.trans hc)
  exact h n x hx

/-- The state after an instruction without effect has retired. -/
def retired (s : State) (i : Issue) (len : Nat) : State := (s.retireAt i.k len).issued s i.k i.t.entryCore

theorem retired_crew? (s : State) (i : Issue) (len n : Nat) :
    ∃ b : Bool, (retired s i len).crew? n = (s.crew? n).map fun c => { c with watchArmed := b } := by
  obtain ⟨b, hb⟩ := retireAt_crew? s i.k len n
  exact ⟨b, by rw [retired, State.crew?, issued_crews, ← State.crew?, hb]⟩

theorem retired_thread? {s : State} {i : Issue} (h : s.thread? i.k = some i.t) (len : Nat) :
    ∃ w, (retired s i len).thread? i.k = some w ∧ kept w = kept i.t ∧ w.pc = (i.t.fallThrough len).pc := by
  obtain ⟨st, hst⟩ := retireAt_thread? h len
  obtain ⟨a, b, hw⟩ := issued_thread? hst s i.t.entryCore
  exact ⟨_, hw, kept_fallThrough i.t len, rfl⟩

theorem exec_pad_retired {s : State} {i : Issue} (hi : issuing s = some i) :
    exec .pad s = .next (retired { s with issuer := none } i 4) := exec_pad hi

/-- Settles O32, by what retiring by falling through and the noting of dirty bits leave. -/
theorem padWordRetires : Obligations.PadWordRetires := by
  intro s i bs s' hfetch hin h hbody haway
  have hdecode := decode_of_head (x := .pad) rfl rfl nofun (of_decide_eq_true hin).1 h
  have hlineup := lineup_of_fetches hfetch
  have hi := (issuing_of_lineup hlineup).trans (fetches_some hfetch).1
  obtain ⟨-, hthread, -⟩ := issuing_some hi
  have hcrews : s'.crews = s.crews := congrArg (·.2.2.1) hlineup
  have hpost : noneAway (retired { s' with issuer := none } i 4) := by
    intro n c hc
    obtain ⟨b, hb⟩ := retired_crew? { s' with issuer := none } i 4 n
    obtain ⟨x, hx, rfl⟩ := Option.map_eq_some_iff.mp (hb.symm.trans hc)
    exact haway n x (by rwa [State.crew?, ← hcrews])
  obtain ⟨w, hw, hkept, hpc⟩ := retired_thread? (s := { s' with issuer := none }) hthread 4
  simp only [kept, Prod.mk.injEq] at hkept
  obtain ⟨hg, hflags, hefmt, hlink, hpts, hacq⟩ := hkept
  refine ⟨s.noteDirty (retired { s' with issuer := none } i 4), w, ?_, hw, ?_, fun n c hc => ?_, hg, hflags, hefmt, hlink,
    hpts, hacq, fun h0 h1 => hpc.trans (fallThrough_pc h0 h1)⟩
  · rw [step_of_decode hfetch hin hdecode, hbody, if_neg Bool.false_ne_true, exec_pad_retired hi,
      ← afterStep_of_noneAway hpost, noted]
  · exact (issued_mem ..).trans (retireAt_mem ..)
  · obtain ⟨b, hb⟩ := retired_crew? { s' with issuer := none } i 4 n
    obtain ⟨d, hd⟩ := noteDirty_crew? s (retired { s' with issuer := none } i 4) n
    have hcrew : State.crew? { s' with issuer := none } n = some c := hc
    rw [hb, hcrew] at hd
    exact ⟨b, d, hd⟩

end Sys2Proof.Fetch

/-! Two statements that fail where the state holds a line's number twice (O34, O47). -/

namespace Sys2Proof.Doubled

open Sys2Proof Sys2Proof.Machine Sys2Proof.Machine.Claim Sys2Proof.Laws

/-- A line resident in core 0. -/
def resident : Thread := { Thread.reset with loc := .parlour 0 }

/-- Crew 0 is at tile 0, its line 0 is selected, and the map of lines names line 0 twice: the first entry is the line,
and a walk over the map meets the second as well. -/
def doubled (first second : Thread) : State :=
  { State.reset with
    issuer := some 0, threads := [(0, first), (0, second)], crews := [(0, Crew.reset 0 Task.zero Decl.none)] }

/-- A line after a step. -/
def lineAfter (k : Nat) : Out → Option Thread
  | .next t => t.thread? k
  | _ => none

theorem lineAfter_of_leaves {o : Out} {k : Nat} {P : State → Thread → Prop} (h : leaves o k P) :
    ∃ t w, lineAfter k o = some w ∧ P t w := by
  obtain ⟨t, w, rfl, hw, hP⟩ := h
  exact ⟨t, w, hw, hP⟩

theorem next_of_lineAfter {o : Out} {k : Nat} {w : Thread} (h : lineAfter k o = some w) :
    ∃ t, o = .next t ∧ t.thread? k = some w := by
  cases o with
  | next t => exact ⟨t, rfl, h⟩
  | _ => cases h

/-- What line 0 of the doubled state begins with. -/
def firstIssue (first : Thread) : Issue := { k := 0, t := first, c := Crew.reset 0 Task.zero Decl.none, crew := 0 }

/-! ### A line that waits for its pending register and stops at a breakpoint

The wait leaves the issue slot free, and the core looks for another line (R72). The second entry offers line 0 again; what is
selected then is the first entry, which waits, and a breakpoint at its PC stops it in place of the wait. -/

/-- The line has g3 pending. -/
def pendingLine : Thread := { resident with pend := some { reg := 3, pair := false } }

/-- Breakpoint slot 0 stops line 0 at its PC (R408). -/
def atBreakpoint : State :=
  let s := doubled pendingLine resident
  { s with dbg := { s.dbg with bps := s.dbg.bps.set 0 { s.dbg.bps[0] with en := true, stop := true } } }

/-- MOV g4, g3. -/
def moves : Instr := .mov ⟨false, 0⟩ 4 3

theorem atBreakpoint_stops : (lineAfter 0 (exec moves atBreakpoint)).map (·.st) = some .debugStopped := by
  decide +kernel

/-- Refutes O34: MOV reads g3 while g3 is pending, and its line ends stopped at the breakpoint. -/
theorem not_pendingRegisterWaits : ¬ Obligations.PendingRegisterWaits := by
  intro h
  obtain ⟨t, w, hw, hst, -⟩ := lineAfter_of_leaves (h moves _ atBreakpoint (firstIssue pendingLine)
    { reg := 3, pair := false } rfl rfl rfl rfl rfl (.inr (.inl (by decide))))
  have hline : lineAfter 0 (exec moves atBreakpoint) = some w := hw
  have hstops := atBreakpoint_stops
  rw [hline] at hstops
  cases hst.symm.trans (Option.some.inj hstops)

/-! ### A claim of lanes that writes back another entry of its line

A VCLAIM that asks for more lanes serves the restores that wait first (R263). The second entry waits for one, and is written
back, with its own registers, under the number that both share. -/

/-- The line waits for its lane grant, with 5 in g3. -/
def restoringLine : Thread := { resident.setReg 3 5 with restoring := true }

/-- VCLAIM g4, 8. -/
def claims : Instr := .vclaim ⟨false, 0⟩ 4 (.imm 8)

theorem claims_restores : (lineAfter 0 (exec claims (doubled resident restoringLine))).map (·.reg 3) = some 5 := by
  decide +kernel

theorem doubled_crew? {a b : Thread} {n : Nat} {c : Crew} (h : (doubled a b).crew? n = some c) : c.displaced = false := by
  simp only [State.crew?, doubled, Machine.Map.get?, Option.ite_some_none_eq_some] at h
  obtain ⟨-, rfl⟩ := h
  rfl

/-- Refutes O47: VCLAIM writes g4 alone, and its line ends with another value in g3. -/
theorem not_registerFrame : ¬ Obligations.RegisterFrame := by
  intro h
  obtain ⟨w, hw, hreg⟩ := Option.map_eq_some_iff.mp claims_restores
  obtain ⟨t, ht, hline⟩ := next_of_lineAfter hw
  have hrecord : ∀ n, n < 64 → ownLine 0 (recordVa (firstIssue resident).c resident + n) = false := by decide +kernel
  obtain ⟨hregs, -⟩ := h claims _ (doubled resident restoringLine) (firstIssue resident) t w rfl rfl rfl ht hline hrecord
    nofun (fun m c n hc haway => nomatch (doubled_crew? hc).symm.trans haway)
  rcases hregs 3 (by decide) with hkept | ⟨hrest, -⟩
  · exact absurd (hreg.symm.trans hkept) (by decide)
  · exact absurd hrest (by decide)

end Sys2Proof.Doubled

/-! Completion of the scalar float instructions, the long operations, branches, loops and flags (O2, O3, O5). -/

namespace Sys2Proof.Scalar

open Sys2Proof Sys2Proof.Machine Sys2Proof.Machine.Claim Sys2Proof.Laws Sys2Proof.Integer

/-! ### Float results -/

theorem floatForm_describes {x : Instr} {f : Form} (h : floatForm x = some f) : f.describes x := by
  cases x
  case fadd | fsub | fmul | ffma | fmin | fmax => cases h; exact writes_describes (fun _ => rfl) fun _ => rfl
  all_goals cases h

/-- Settles O2, by the value that each instruction puts in its register. -/
theorem floatCompletes : Obligations.FloatCompletes := by
  intro x f h
  exact floatForm_describes h

/-! ### Long operations -/

/-- An instruction that starts a long operation where its form has a value has the form that starts it. -/
theorem startsLong_describes {p : Pred} {u : Uses} {d : Reg} {f : Issue → Option Word} {x : Instr}
    (body : Issue → State → Effect) (hx : ∀ s, exec x s = issue p 8 { u with dst := [d], pend := true } body s)
    (hf : ∀ i s v, f i = some v → body i s = i.putLong s d v) : (startsLong p u d f).describes x := by
  refine describes_of_body body hx fun i s e he => ?_
  obtain ⟨v, hv, rfl⟩ := Option.map_eq_some_iff.mp he
  exact hf i s v hv

/-- The quotient that the model computes is the form's. -/
theorem divRem_fst (u : Bool) (x y : Word) : (divRem u x y).1 = quotient u x y := by
  cases u
  · rfl
  · exact BitVec.udiv_def.symm

/-- The remainder that the model computes is the form's. -/
theorem divRem_snd (u : Bool) (x y : Word) : (divRem u x y).2 = remainder u x y := by
  cases u
  · rfl
  · exact BitVec.umod_def.symm

/-- DIV and REM start their operation where the divisor is not zero (R78). -/
theorem divide_describes {p : Pred} {u : Bool} {d a : Reg} {b : Src} {pick : Word × Word → Word} {g : Word → Word → Word}
    {x : Instr} (hx : ∀ s, exec x s = divide p u d a b pick s) (hg : ∀ v w, pick (divRem u v w) = g v w) :
    (startsLong p { src := a :: srcRegs b } d fun i =>
      if i.src b = 0 then none else some (g (i.reg a) (i.src b))).describes x := by
  refine startsLong_describes _ hx fun i s v hv => ?_
  rw [Option.ite_none_left_eq_some] at hv
  obtain ⟨hb, hv⟩ := hv
  rw [if_neg hb, hg, Option.some.inj hv]

theorem longForm_describes {x : Instr} {f : Form} (h : longForm x = some f) : f.describes x := by
  cases x
  case div => cases h; exact divide_describes (fun _ => rfl) (divRem_fst _)
  case rem => cases h; exact divide_describes (fun _ => rfl) (divRem_snd _)
  case fdiv | fsqrt =>
    cases h; exact startsLong_describes _ (fun _ => rfl) fun i s v hv => congrArg (i.putLong s _) (Option.some.inj hv)
  all_goals cases h

@[simp] theorem reg_setReg_same (t : Thread) (r : Reg) (v : Word) : (t.setReg r v).reg r = v := by
  simp [Thread.reg, Thread.setReg]

/-- A line that is made ready keeps its registers, what is pending and what is to land. -/
theorem wake_keeps (t : Thread) : t.wake.g = t.g ∧ t.wake.pend = t.pend ∧ t.wake.longop = t.longop := by
  unfold Thread.wake
  split <;> exact ⟨rfl, rfl, rfl⟩

/-- Releasing the pending register changes no register (R72). -/
theorem releaseReg_keeps (t : Thread) :
    t.releaseReg.g = t.g ∧ t.releaseReg.pend = none ∧ t.releaseReg.longop = t.longop := by
  unfold Thread.releaseReg
  dsimp only
  split
  · split
    · exact ⟨rfl, rfl, rfl⟩
    · exact wake_keeps _
  · exact ⟨rfl, rfl, rfl⟩

/-- What lands in a line stands in its register, and nothing is pending (R72). -/
theorem land_reg (t : Thread) (r : Reg) (v : Word) :
    (t.land r v).reg r = v ∧ (t.land r v).pend = none ∧ (t.land r v).longop = t.longop := by
  obtain ⟨hg, hpend, hlong⟩ := releaseReg_keeps (t.setReg r v)
  exact ⟨(congrArg (·[r]) hg).trans (reg_setReg_same t r v), hpend, hlong⟩

/-- LONG_OP_RESULT at a line with a long operation under way: its result lands (R71). -/
theorem exec_longOpResult_lands {k : Nat} {s : State} {t : Thread} {v : Word} {p : Pending} (ht : s.thread? k = some t)
    (hv : t.longop = some v) (hp : t.pend = some p) (hreply : ¬(t.st = .waiting ∧ t.await = .reply)) :
    exec (.longOpResult k) s = .next (s.setThread k ({ t with longop := none }.land p.reg v)) := by
  have hexec : exec (.longOpResult k) s = execLongOpResult k s := rfl
  simp [hexec, execLongOpResult, State.modThread, ht, hv, hp, hreply]

/-- Settles O3: the value computed at issue is the form's, and it is what lands. -/
theorem longCompletes : Obligations.LongCompletes := by
  refine ⟨fun x f h => longForm_describes h, fun k s t v p ht hv hp hreply => ?_⟩
  exact ⟨_, _, exec_longOpResult_lands ht hv hp hreply, setThread_same .., land_reg ..⟩

/-! ### Branches and calls -/

/-- The target of BRX, CALLX and RET is bits 55:0 of the register (R92). -/
theorem registerTarget_eq (v : Word) : registerTarget v = v.extractLsb' 0 56 := BitVec.setWidth_eq_extractLsb' (by decide)

/-- An instruction that goes to a target has the form that completes where the target is a multiple of 4 (R92). -/
theorem goesTo_describes {p : Pred} {u : Uses} {target target' : Issue → BitVec 56} {f : Issue → State → State} {x : Instr}
    (hx : ∀ s, exec x s = issue p 8 u (fun i s => goTo (target' i) (f i s)) s) (ht : ∀ i, target' i = target i) :
    (goesTo p u target f).describes x := by
  refine describes_of_body _ hx fun i s e he => ?_
  obtain ⟨halign, he⟩ := Option.ite_none_right_eq_some.mp he
  rw [goTo, ht, if_neg (not_not.mpr halign), Option.some.inj he]

theorem branchForm_describes {x : Instr} {f : Form} (h : branchForm x = some f) : f.describes x := by
  cases x
  case bra => cases h; exact goesTo_describes (fun _ => rfl) fun _ => rfl
  case brx => cases h; exact goesTo_describes (fun _ => rfl) fun _ => registerTarget_eq _
  case call => cases h; exact goesTo_describes (fun _ => rfl) fun _ => rfl
  case callx => cases h; exact goesTo_describes (fun _ => rfl) fun _ => registerTarget_eq _
  case ret p r =>
    cases r with
    | none => cases h; exact goesTo_describes (fun _ => rfl) fun _ => rfl
    | some a =>
      cases h
      simp only [← registerTarget_eq]
      exact goesTo_describes (fun _ => rfl) fun _ => rfl
  all_goals cases h

/-! ### Loops -/

/-- Where a loop may be opened, OpenLoop has the form's effect (R99). -/
theorem openLoop_of_opens {i : Issue} {s : State} {len count : Nat} {e : Effect} (h : opens i s len count = some e) :
    i.openLoop s len count = e := by
  unfold opens at h
  dsimp only at h
  rw [Option.ite_none_left_eq_some] at h
  obtain ⟨hfits, h⟩ := h
  simp only [not_or] at hfits
  obtain ⟨hlen, hstart, hstop, hdepth, hinside⟩ := hfits
  unfold Issue.openLoop
  dsimp only
  rw [if_neg hlen, if_neg (not_or.mpr ⟨hstart, hstop⟩), if_neg hdepth, if_neg hinside]
  split at h
  case isTrue hzero => rw [if_pos hzero, Option.some.inj h]
  case isFalse hsome => rw [if_neg hsome, Option.some.inj h]

/-- The trip count of LOOPG: the register clamped to 0 and 2^32 − 1 (R99). -/
theorem loopgCount_eq (x : Int) : min x.toNat (2 ^ 32 - 1) = (max 0 (min x (2 ^ 32 - 1))).toNat := by omega

theorem loopForm_describes {x : Instr} {f : Form} (h : loopForm x = some f) : f.describes x := by
  cases x
  case loop => cases h; exact describes_of_body _ (fun _ => rfl) fun _ _ _ he => openLoop_of_opens he
  case loopg =>
    cases h
    refine describes_of_body _ (fun _ => rfl) fun i s e he => ?_
    rw [loopgCount_eq]
    exact openLoop_of_opens he
  case lbrk =>
    cases h
    refine describes_of_body _ (fun _ => rfl) fun i s e he => ?_
    dsimp only at he ⊢
    split_ifs at he ⊢
    · exact Option.some.inj he
    · exact Option.some.inj he
  case lbrkAll =>
    cases h
    refine describes_of_body _ (fun _ => rfl) fun i s e he => ?_
    obtain ⟨hact, he⟩ := Option.ite_none_right_eq_some.mp he
    rw [if_pos (Bool.or_eq_true_iff.mpr hact), Option.some.inj he]
  all_goals cases h

/-! ### Flags -/

/-- An instruction that writes a flag has the form that writes it. -/
theorem setsFlag_describes {p : Pred} {u : Uses} {d : Reg} {f : Issue → Bool} {x : Instr}
    (hx : ∀ s, exec x s = issue p 8 u (fun i s => i.putFlag s d (f i)) s) : (setsFlag p u d f).describes x :=
  describes_of_body (fun i s => i.putFlag s d (f i)) hx fun _ _ _ he => Option.some.inj he

theorem flagForm_describes {x : Instr} {f : Form} (h : flagForm x = some f) : f.describes x := by
  cases x
  case cmp | fcmp | fop | fset => cases h; exact setsFlag_describes fun _ => rfl
  case fsetM => cases h; exact describes_of_body _ (fun _ => rfl) fun _ _ _ he => Option.some.inj he
  case fget => cases h; exact writes_describes (fun _ => rfl) fun _ => rfl
  all_goals cases h

/-- Settles O5, family by family. -/
theorem flowCompletes : Obligations.FlowCompletes := by
  intro x f h
  rcases h with h | h | h
  · exact branchForm_describes h
  · exact loopForm_describes h
  · exact flagForm_describes h

end Sys2Proof.Scalar

/-! The values that divisions and bit fields give (O36, O37). -/

namespace Sys2Proof.Values

open Sys2Proof Sys2Proof.Machine Sys2Proof.Machine.Claim Sys2Proof.Laws Sys2Proof.Integer Sys2Proof.Scalar

/-! ### Quotients and remainders (R78) -/

theorem quotient_signed (x y : Word) : quotient false x y = x.sdiv y := by
  apply BitVec.eq_of_toInt_eq
  rw [BitVec.toInt_sdiv]
  exact BitVec.toInt_ofInt ..

theorem remainder_signed (x y : Word) : remainder false x y = x.srem y := by
  apply BitVec.eq_of_toInt_eq
  rw [BitVec.toInt_srem]
  exact (BitVec.toInt_ofInt ..).trans (by rw [← BitVec.toInt_srem, BitVec.toInt_bmod_cancel])

theorem divides_unsigned (x : Word) {y : Word} (hy : y ≠ 0) :
    x.toNat = (quotient true x y).toNat * y.toNat + (remainder true x y).toNat ∧
      (remainder true x y).toNat < y.toNat := by
  have hpos : 0 < y.toNat := Nat.pos_of_ne_zero fun h0 => hy (BitVec.eq_of_toNat_eq h0)
  exact ⟨(Nat.div_add_mod' ..).symm, Nat.mod_lt _ hpos⟩

/-- −2^63 by −1: the quotient is −2^63 again, and the remainder 0. -/
theorem divides_overflow {x y : Word} (hx : x.toInt = -(2 ^ 63 : Int)) (hy : y.toInt = -1) :
    (quotient false x y).toInt = -(2 ^ 63 : Int) ∧ remainder false x y = 0 := by
  rw [quotient_signed, remainder_signed]
  refine ⟨?_, BitVec.eq_of_toInt_eq ?_⟩
  · rw [BitVec.toInt_sdiv, hx, hy]
    rfl
  · rw [BitVec.toInt_srem, hx, hy]
    rfl

/-- The remainder of a dividend that is not positive is not positive. -/
theorem tmod_nonpos {a : Int} (b : Int) (h : a ≤ 0) : a.tmod b ≤ 0 := by
  have hneg : 0 ≤ (-a).tmod b := Int.tmod_nonneg b (Int.neg_nonneg.mpr h)
  rwa [Int.neg_tmod, Int.neg_nonneg] at hneg

theorem divides_signed {x y : Word} (hy : y ≠ 0) (h : ¬(x.toInt = -(2 ^ 63 : Int) ∧ y.toInt = -1)) :
    x.toInt = (quotient false x y).toInt * y.toInt + (remainder false x y).toInt ∧
      (remainder false x y).toInt.natAbs < y.toInt.natAbs ∧
      (0 ≤ x.toInt → 0 ≤ (remainder false x y).toInt) ∧ (x.toInt ≤ 0 → (remainder false x y).toInt ≤ 0) := by
  have hfits : x ≠ BitVec.intMin 64 ∨ y ≠ -1#64 := by
    by_contra hno
    rw [not_or, not_not, not_not] at hno
    obtain ⟨rfl, rfl⟩ := hno
    exact h (by decide)
  have hpos : 0 < y.toInt.natAbs := Int.natAbs_pos.mpr fun h0 => hy (BitVec.eq_of_toInt_eq h0)
  rw [quotient_signed, remainder_signed, BitVec.toInt_sdiv_of_ne_or_ne _ _ hfits, BitVec.toInt_srem]
  refine ⟨(Int.tdiv_mul_add_tmod ..).symm, ?_, Int.tmod_nonneg _, tmod_nonpos _⟩
  rw [Int.natAbs_tmod]
  exact Nat.mod_lt _ hpos

/-- DIV and REM raise DIVZ where the divisor is zero. -/
theorem divide_of_zero {p : Pred} {u : Bool} {d a : Reg} {b : Src} {s s1 : State} {i : Issue}
    (hbeg : begins p { src := a :: srcRegs b, dst := [d], pend := true } s = some (i, s1)) (hb : i.src b = 0)
    (pick : Word × Word → Word) : divide p u d a b pick s = traps s i 0x04 := by
  have hbody : (if i.src b = 0 then Effect.user codeDivz else i.putLong s1 d (pick (divRem u (i.reg a) (i.src b)))) =
      .user codeDivz := if_pos hb
  rw [divide, issue_of_begins hbeg _ _ (by rw [hbody]; rfl), hbody]
  rfl

/-- Settles O36: the forms give the quotient and the remainder, which are those of R78. -/
theorem divisionResults : Obligations.DivisionResults := by
  intro p u d a b s i s1 hbeg
  refine ⟨fun hb => ⟨divide_of_zero hbeg hb _, divide_of_zero hbeg hb _⟩, fun hb => ?_⟩
  have hvalue (g : Word → Word → Word) :
      (if i.src b = 0 then none else some (g (i.reg a) (i.src b))) = some (g (i.reg a) (i.src b)) := if_neg hb
  refine ⟨quotient u (i.reg a) (i.src b), remainder u (i.reg a) (i.src b), ?_, ?_, ?_, ?_, ?_⟩
  · exact longForm_describes (x := .div p u d a b) rfl s i s1 _ hbeg (congrArg (Option.map _) (hvalue _)) rfl
  · exact longForm_describes (x := .rem p u d a b) rfl s i s1 _ hbeg (congrArg (Option.map _) (hvalue _)) rfl
  · rintro rfl
    exact divides_unsigned _ hb
  · rintro rfl
    exact divides_overflow
  · rintro rfl
    exact divides_signed hb

/-! ### Bit fields (R80, R81) -/

/-- P of R80, before it is cut to 16 bits. -/
def fieldWord (i : Issue) : Src → Nat
  | .reg r => (i.reg r).toNat
  | .imm m => m.toNat

theorem fieldSpec_eq (i : Issue) (b : Src) : i.fieldSpec b = fieldWord i b % 2 ^ 16 := by cases b <;> rfl

theorem specOff_eq (n : Nat) : field (n % 2 ^ 16) 0 8 = n % 256 := by simp only [field]; omega

theorem specWid_eq (n : Nat) : field (n % 2 ^ 16) 8 8 = n / 256 % 256 := by simp only [field]; omega

/-- The width of the field, cut at bit 63. -/
theorem cutWidth_bounds {off wid : Nat} (hwid : wid ≠ 0) (hoff : off < 64) :
    0 < min wid (64 - off) ∧ off + min wid (64 - off) ≤ 64 := by omega

/-- An extracted field of at most 64 bits is the register's value. -/
theorem natWord_field_toNat (x off : Nat) {w : Nat} (hw : w ≤ 64) :
    (natWord (field x off w)).toNat = x / 2 ^ off % 2 ^ w := by
  have hlt : x / 2 ^ off % 2 ^ w < 2 ^ 64 :=
    lt_of_lt_of_le (Nat.mod_lt _ (Nat.two_pow_pos w)) (Nat.pow_le_pow_right Nat.two_pos hw)
  exact (BitVec.toNat_ofNat ..).trans (Nat.mod_eq_of_lt hlt)

/-- A value below 2^w is at least 2^(w−1) where its bit w−1 is 1. -/
theorem topBit_iff {f w : Nat} (hw : 0 < w) (hf : f < 2 ^ w) : f / 2 ^ (w - 1) % 2 = 1 ↔ 2 ^ (w - 1) ≤ f := by
  obtain ⟨v, rfl⟩ : ∃ v, w = v + 1 := ⟨w - 1, by omega⟩
  rw [Nat.add_sub_cancel]
  have hdiv : f / 2 ^ v < 2 := Nat.div_lt_of_lt_mul (by rwa [← Nat.pow_succ])
  rw [Nat.mod_eq_of_lt hdiv, ← Nat.one_le_div_iff (Nat.two_pow_pos v)]
  omega

theorem sextWord_toInt {f w : Nat} (hw : 0 < w) (hw64 : w ≤ 64) (hf : f < 2 ^ w) :
    (sextWord f w).toInt = if f / 2 ^ (w - 1) % 2 = 1 then (f : Int) - (2 : Int) ^ w else (f : Int) := by
  have hsigned : signed f w = if f / 2 ^ (w - 1) % 2 = 1 then (f : Int) - (2 : Int) ^ w else (f : Int) := by
    simp only [signed, Nat.mod_eq_of_lt hf, topBit_iff hw hf, Nat.pos_iff_ne_zero.mp hw, ne_eq, not_false_eq_true, true_and]
  have hhalf : 2 ^ w = 2 * 2 ^ (w - 1) := by rw [← Nat.pow_succ']; congr 1; omega
  have hle : 2 ^ (w - 1) ≤ 2 ^ 63 := Nat.pow_le_pow_right Nat.two_pos (by omega)
  have hcast : (2 : Int) ^ w = ((2 ^ w : Nat) : Int) := by push_cast; rfl
  rw [sextWord, BitVec.toInt_ofInt, hsigned]
  simp only [topBit_iff hw hf, hcast]
  split <;> exact Int.bmod_eq_of_le (by omega) (by omega)

/-- BFX, from P before it is cut to 16 bits. -/
theorem bitExtract_spec (g : Bool) (x : Word) (n : Nat) :
    let off := n % 256
    let wid := n / 256 % 256
    let w := min wid (64 - off)
    let f := x.toNat / 2 ^ off % 2 ^ w
    let v := bitExtract g x (n % 2 ^ 16)
    (wid = 0 ∨ 64 ≤ off → v = 0) ∧
      (wid ≠ 0 → off < 64 →
        (g = false → v.toNat = f) ∧
        (g = true → v.toInt = if f / 2 ^ (w - 1) % 2 = 1 then (f : Int) - (2 : Int) ^ w else (f : Int))) := by
  intro off wid w f v
  have hv : v = if wid = 0 ∨ 64 ≤ off then 0 else if g then sextWord f w else natWord f := by
    simp only [v, bitExtract, specOff_eq, specWid_eq]
    rfl
  refine ⟨fun hnone => hv.trans (if_pos hnone), fun hwid hoff => ?_⟩
  obtain ⟨hpos, hcut⟩ : 0 < w ∧ off + w ≤ 64 := cutWidth_bounds hwid hoff
  rw [hv, if_neg (not_or.mpr ⟨hwid, Nat.not_le.mpr hoff⟩)]
  refine ⟨?_, ?_⟩
  · rintro rfl
    exact natWord_field_toNat _ _ (by omega)
  · rintro rfl
    exact sextWord_toInt hpos (by omega) (Nat.mod_lt _ (Nat.two_pow_pos _))

/-- Bits of a field put into a number: those of the field are the new ones, the others the old ones. -/
theorem testBit_putField (x off w v n : Nat) :
    (putField x off w v).testBit n = if off ≤ n ∧ n < off + w then v.testBit (n - off) else x.testBit n := by
  have hlow : x % 2 ^ off < 2 ^ off := Nat.mod_lt _ (Nat.two_pow_pos off)
  have hfield : v % 2 ^ w < 2 ^ w := Nat.mod_lt _ (Nat.two_pow_pos w)
  have hsplit : putField x off w v = 2 ^ off * (2 ^ w * (x / 2 ^ (off + w)) + v % 2 ^ w) + x % 2 ^ off := by
    rw [putField, Nat.pow_add]
    ring
  rw [hsplit, Nat.testBit_two_pow_mul_add _ hlow, Nat.testBit_two_pow_mul_add _ hfield, Nat.testBit_mod_two_pow,
    Nat.testBit_mod_two_pow, Nat.testBit_div_two_pow]
  by_cases hn : n < off
  · simp [hn, Nat.not_le.mpr hn]
  · by_cases hw : n - off < w
    · simp [hn, hw, Nat.not_lt.mp hn, show n < off + w by omega]
    · simp [hn, hw, show ¬ n < off + w by omega, show n - off - w + (off + w) = n by omega]

/-- The bits of the mask of a field. -/
theorem getLsbD_mask {off w n : Nat} (hn : n < 64) :
    (BitVec.ofNat 64 ((2 ^ w - 1) * 2 ^ off)).getLsbD n = decide (off ≤ n ∧ n < off + w) := by
  rw [BitVec.getLsbD_ofNat, Nat.testBit_mul_two_pow, Nat.testBit_two_pow_sub_one, decide_eq_true hn, Bool.true_and,
    ← Bool.decide_and]
  exact decide_eq_decide.mpr (by omega)

/-- A field put into a word, as the masked sum of the old word and the new bits. -/
theorem putField_eq_mask (old x : Word) (off w : Nat) :
    natWord (putField old.toNat off w x.toNat) =
      (old &&& ~~~(BitVec.ofNat 64 ((2 ^ w - 1) * 2 ^ off))) ||| ((x <<< off) &&& BitVec.ofNat 64 ((2 ^ w - 1) * 2 ^ off)) := by
  apply BitVec.eq_of_getLsbD_eq
  intro n hn
  rw [natWord, BitVec.getLsbD_ofNat, testBit_putField, BitVec.getLsbD_or, BitVec.getLsbD_and, BitVec.getLsbD_and,
    BitVec.getLsbD_not, BitVec.getLsbD_shiftLeft, getLsbD_mask hn]
  by_cases hin : off ≤ n ∧ n < off + w
  · simp [hin, hn, Nat.not_lt.mpr hin.1, BitVec.getLsbD]
  · simp [hin, hn, BitVec.getLsbD]

/-- BFI, from P before it is cut to 16 bits. -/
theorem bitInsert_spec (old x : Word) (n : Nat) :
    let off := n % 256
    let wid := n / 256 % 256
    let w := min wid (64 - off)
    let mask : Word := BitVec.ofNat 64 ((2 ^ w - 1) * 2 ^ off)
    let v := bitInsert old x (n % 2 ^ 16)
    (wid = 0 ∨ 64 ≤ off → v = old) ∧
      (wid ≠ 0 → off < 64 → v = (old &&& ~~~mask) ||| ((x <<< off) &&& mask)) := by
  intro off wid w mask v
  have hv : v = if wid = 0 ∨ 64 ≤ off then old else natWord (putField old.toNat off w x.toNat) := by
    simp only [v, bitInsert, specOff_eq, specWid_eq]
    rfl
  refine ⟨fun hnone => hv.trans (if_pos hnone), fun hwid hoff => ?_⟩
  rw [hv, if_neg (not_or.mpr ⟨hwid, Nat.not_le.mpr hoff⟩)]
  exact putField_eq_mask ..

/-- Settles O37: the values are those the forms give, and their bits are those of R81. -/
theorem bitFields : Obligations.BitFields := by
  intro p g d a b s i s1
  refine ⟨fun hbeg => ⟨bitExtract g (i.reg a) (i.fieldSpec b), ?_, ?_⟩,
    fun hbeg => ⟨bitInsert (i.reg d) (i.reg a) (i.fieldSpec b), ?_, ?_⟩⟩
  · exact integerForm_describes (x := .bfx p g d a b) rfl s i s1 _ hbeg rfl rfl
  · rw [fieldSpec_eq]
    exact bitExtract_spec g (i.reg a) (fieldWord i b)
  · exact integerForm_describes (x := .bfi p d a b) rfl s i s1 _ hbeg rfl rfl
  · rw [fieldSpec_eq]
    exact bitInsert_spec (i.reg d) (i.reg a) (fieldWord i b)

end Sys2Proof.Values

/-! The events of accesses and of lines (O21): for each, the state its arm of `exec` answers is the one the table names. -/

namespace Sys2Proof.Events

open Sys2Proof Sys2Proof.Machine Sys2Proof.Machine.Claim Sys2Proof.Laws

variable {s t : State}

theorem under_eq_some {c : Bool} : under c s = some t ↔ c = true ∧ s = t := by
  unfold under
  rw [Option.ite_none_right_eq_some, Option.some.injEq]

/-! ### The access of a thread that binds next -/

theorem nextOf_eq_headAccess (s : State) (k : Nat) (p : AccKind → Bool) : nextOf s k p = s.headAccess k p := by
  unfold nextOf State.headAccess
  cases s.thread? k <;> rfl

/-- A home answers an access once it is not busy. -/
theorem homeSays_eq_some {a : Access} {f : Nat} : homeSays s a = some f ↔ s.nextBusy a = false ∧ s.nextFault a = f := by
  unfold homeSays State.nextBusy State.nextFault
  rw [Option.ite_none_left_eq_some, Bool.not_eq_true, Option.some.injEq]

theorem bindHead_of_nextOf_none {k : Nat} {p : AccKind → Bool} (h : nextOf s k p = none) : s.bindHead k p = s := by
  rw [nextOf_eq_headAccess] at h
  rw [State.bindHead, h]

theorem bindHead_of_nextOf {k : Nat} {p : AccKind → Bool} {a : Access} (h : nextOf s k p = some a)
    (ha : homeSays s a = some 0) : s.bindHead k p = binds s k a := by
  rw [nextOf_eq_headAccess] at h
  obtain ⟨hbusy, hfault⟩ := homeSays_eq_some.mp ha
  rw [State.bindHead, h]
  dsimp only
  rw [hbusy, if_neg Bool.false_ne_true, hfault, if_neg (not_not.mpr rfl)]
  rfl

theorem bindHead_of_bindsNext {k : Nat} {p : AccKind → Bool} (h : bindsNext s k p = some t) :
    (s.bindHead k p).finishRows k = t := by
  unfold bindsNext at h
  split at h
  case h_1 a ha =>
    obtain ⟨hhome, h⟩ := Option.ite_none_right_eq_some.mp h
    rw [bindHead_of_nextOf ha hhome, Option.some.inj h]
  case h_2 hnone => rw [bindHead_of_nextOf_none hnone, Option.some.inj h]

/-- The home of an access reports a fault. -/
def faulty (s : State) (a : Access) : Bool := !a.remote && (homeSays s a).any (· != 0)

theorem faulty_eq (s : State) (a : Access) : faulty s a = (!a.remote && !s.nextBusy a && s.nextFault a != 0) := by
  have hsays : homeSays s a = if s.nextBusy a then none else some (s.nextFault a) := rfl
  rw [faulty, hsays]
  cases s.nextBusy a <;> simp

/-- The first of a thread's next accesses that is faulty is owed to the thread (R123). -/
theorem faultHead_of_faulty {k : Nat} {line : Thread} {a : Access} {f : Nat} (hline : s.thread? k = some line)
    (hfirst : (foremost line).find? (faulty s) = some a) (ha : homeSays s a = some f) : s.faultHead k = owes s k a f := by
  rw [funext (faulty_eq s)] at hfirst
  obtain ⟨-, rfl⟩ := homeSays_eq_some.mp ha
  rw [State.faultHead, hline]
  dsimp only
  rw [show line.nextAccesses = foremost line from rfl, hfirst]
  rfl

/-! ### Accesses bind -/

theorem exec_loadFill_eq (k : Nat) (s : State) : exec (.loadFill k) s = .next ((s.bindHead k fills).finishRows k) := by
  have hfills : (fun
      | .load _ _ _ _ | .loadPair _ _ _ | .loadBits _ _ _ | .amo _ _ _ | .cas _ _ _ | .casp _ _ | .row false => true
      | _ => false) = fills := by
    funext a
    cases a
    case row st => cases st <;> rfl
    all_goals rfl
  rw [← hfills]
  rfl

theorem exec_storeBind_eq (k : Nat) (s : State) :
    exec (.storeBind k) s = .next ((s.bindHead k storesOnly).finishRows k) := by
  have hstores : (fun
      | .store | .storePair | .storeBits | .row true => true
      | _ => false) = storesOnly := by
    funext a
    cases a
    case row st => cases st <;> rfl
    all_goals rfl
  rw [← hstores]
  rfl

theorem loadFill_next {k : Nat} (h : bindsNext s k fills = some t) : exec (.loadFill k) s = .next t := by
  rw [exec_loadFill_eq, bindHead_of_bindsNext h]

theorem storeBind_next {k : Nat} (h : bindsNext s k storesOnly = some t) : exec (.storeBind k) s = .next t := by
  rw [exec_storeBind_eq, bindHead_of_bindsNext h]

/-- An LDQ element keeps its place in the order of its thread's accesses: the one that binds next is the oldest (R112). -/
theorem foremost_of_queues {line : Thread} {a : Access} (ha : a ∈ foremost line) (hq : queues a.kind = true) :
    ∃ rest, foremost line = a :: rest := by
  rcases List.mem_append.mp ha with hseq | hnb
  · cases hlist : line.sequential with
    | nil => simp [hlist] at hseq
    | cons b rest =>
      obtain rfl : a = b := by simpa [hlist] using hseq
      exact ⟨(line.unbound.filter fun a => a.kind.isNb).take 1, by simp [foremost, hlist]⟩
  · have hisNb : a.kind.isNb = true := (List.mem_filter.mp (List.mem_of_mem_take hnb)).2
    unfold queues at hq
    split at hq
    case h_1 hkind => rw [hkind] at hisNb; cases hisNb
    case h_2 => cases hq

theorem exec_queueFill_eq (k : Nat) (s : State) :
    exec (.queueFill k) s = match s.headAccess k queues with
      | some a => .next (if s.nextFault a = 0 ∨ s.nextBusy a then (s.bindHead k queues).landSome k else s.faultHead k)
      | none => .next (s.landSome k) := by
  have hqueues : (fun
      | .ldq _ _ _ => true
      | _ => false) = queues := by
    funext a
    cases a <;> rfl
  rw [← hqueues]
  rfl

/-- What LDQ elements leave of a thread whose next access is none of them, or one that its home answers. -/
theorem queueFill_next {k : Nat} (h : accessEvent (.queueFill k) s = some t) : exec (.queueFill k) s = .next t := by
  rw [exec_queueFill_eq, ← nextOf_eq_headAccess]
  rw [accessEvent] at h
  cases hnext : nextOf s k queues with
  | none =>
    rw [hnext] at h
    exact congrArg _ (Option.some.inj h)
  | some a =>
    rw [hnext] at h
    obtain ⟨f, hsays, rfl⟩ := Option.map_eq_some_iff.mp h
    obtain ⟨hbusy, hfault⟩ := homeSays_eq_some.mp hsays
    dsimp only
    rw [hfault, hbusy]
    by_cases hzero : f = 0
    · rw [if_pos (.inl hzero), if_pos hzero, bindHead_of_nextOf hnext (hsays.trans (congrArg some hzero))]
    · rw [if_neg (by simp [hzero]), if_neg hzero]
      obtain ⟨line, hline, hfind⟩ := Option.bind_eq_some_iff.mp hnext
      obtain ⟨hqueue, hremote⟩ :=
        Bool.and_eq_true_iff.mp (List.find?_some (p := fun a : Access => queues a.kind && !a.remote) hfind)
      obtain ⟨rest, hrest⟩ := foremost_of_queues (List.mem_of_find?_eq_some hfind) hqueue
      have hfaulty : faulty s a = true := by simp [faulty, hremote, hsays, hzero]
      rw [faultHead_of_faulty hline (by rw [hrest]; exact List.find?_cons_of_pos hfaulty) hsays]

theorem deferredFault_next {k : Nat} (h : accessEvent (.deferredFault k) s = some t) :
    exec (.deferredFault k) s = .next t := by
  obtain ⟨line, hline, h⟩ := Option.bind_eq_some_iff.mp h
  obtain ⟨a, hfirst, h⟩ := Option.bind_eq_some_iff.mp h
  obtain ⟨f, hsays, rfl⟩ := Option.map_eq_some_iff.mp h
  exact congrArg _ (faultHead_of_faulty hline hfirst hsays)

theorem coreCycle_next {core : Nat} (h : accessEvent (.coreCycle core) s = some t) :
    exec (.coreCycle core) s = .next t := by
  obtain ⟨hdue, h⟩ := Option.ite_none_right_eq_some.mp h
  have hcycle : s.cycle core = t := (if_pos hdue).trans (Option.some.inj h)
  exact congrArg _ hcycle

/-- A block fetched for a line that still holds its core's entry (R93). -/
theorem icacheFill_next {k : Nat} (h : accessEvent (.icacheFill k) s = some t) : exec (.icacheFill k) s = .next t := by
  have hexec : exec (.icacheFill k) s = execIcacheFill k s := rfl
  obtain ⟨line, hline, h⟩ := Option.bind_eq_some_iff.mp h
  rw [hexec, execIcacheFill, hline]
  dsimp only at h ⊢
  cases hstall : line.fetchStall with
  | none => simp [hstall] at h
  | some b =>
    cases hcore : line.entryCore with
    | none => simp [hstall, hcore] at h
    | some core =>
      rw [hstall, hcore] at h
      dsimp only at h ⊢
      rcases hfetch : s.fetchAddr line with ⟨stop | p, s'⟩
      · rw [hfetch] at h
        exact congrArg _ (Option.some.inj h)
      · rw [hfetch] at h
        dsimp only at h ⊢
        by_cases hfault : s'.homeFault p.target p.attr.owner = 0
        · rw [if_neg (not_not.mpr hfault)] at h ⊢
          obtain ⟨hbusy, h⟩ := Option.ite_none_left_eq_some.mp h
          rw [if_neg hbusy]
          exact congrArg _ (Option.some.inj h)
        · rw [if_pos hfault] at h ⊢
          exact congrArg _ (Option.some.inj h)

/-- The result of a long operation lands, or the answer of another unit comes (R71). -/
theorem longOpResult_next {k : Nat} (h : accessEvent (.longOpResult k) s = some t) :
    exec (.longOpResult k) s = .next t := by
  obtain ⟨line, hline, h⟩ := Option.bind_eq_some_iff.mp h
  by_cases hreply : line.st = .waiting ∧ line.await = .reply
  · rw [if_pos hreply] at h
    have hexec : exec (.longOpResult k) s = execLongOpResult k s := rfl
    simp [hexec, execLongOpResult, hline, hreply, ← Option.some.inj h]
  · rw [if_neg hreply] at h
    split at h
    case h_1 v p hv hp => rw [Scalar.exec_longOpResult_lands hline hv hp hreply, Option.some.inj h]
    case h_2 => cases h

/-- An entry of a write-combining buffer leaves it (R117). -/
theorem wcEntryDrain_next {core block k : Nat} (h : accessEvent (.wcEntryDrain core block k) s = some t) :
    exec (.wcEntryDrain core block k) s = .next t := by
  have hexec : exec (.wcEntryDrain core block k) s = execWcEntryDrain core block k s := rfl
  obtain ⟨w, hw, h⟩ := Option.bind_eq_some_iff.mp h
  obtain ⟨hfree, h⟩ := Option.ite_none_left_eq_some.mp h
  rw [Bool.or_eq_true] at hfree
  obtain ⟨hthread, -⟩ := Bool.and_eq_true_iff.mp
    (List.find?_some (p := fun w : WcEntry => w.thread == k && w.target.block == block) hw)
  obtain rfl : w.thread = k := beq_iff_eq.mp hthread
  rw [hexec, execWcEntryDrain, hw]
  dsimp only at h ⊢
  rw [if_neg hfree, ite_not]
  exact congrArg _ (Option.some.inj h)

/-! ### Accesses that arrive at another crew's tile -/

theorem giveBack_eq_takenBack {k : Nat} {line : Thread} (hline : s.thread? k = some line) (a : Access) :
    s.giveBack k a = takenBack s k line a := by
  rw [State.giveBack, hline]
  rfl

/-- An access at another crew's tile is refused, waits accepted on its granule, or binds there (R344 to R346). -/
theorem remoteAccessArrival_next {k : Nat} (h : accessEvent (.remoteAccessArrival k) s = some t) :
    exec (.remoteAccessArrival k) s = .next t := by
  obtain ⟨line, hline, h⟩ := Option.bind_eq_some_iff.mp h
  obtain ⟨a, hfirst, h⟩ := Option.bind_eq_some_iff.mp h
  obtain ⟨hgo, h⟩ := Option.ite_none_left_eq_some.mp h
  rw [Bool.or_eq_true] at hgo
  suffices harrive : s.remoteArrive k = t from congrArg _ harrive
  rw [State.remoteArrive, hline]
  dsimp only
  rw [show line.nextAccesses = foremost line from rfl, hfirst]
  dsimp only
  rw [if_neg hgo]
  cases htest : s.arrivalTest line a with
  | some b =>
    rw [htest] at h
    cases b with
    | busy => cases h
    | stop | home | bank =>
      rw [← Option.some.inj h, ← giveBack_eq_takenBack hline]
  | none =>
    rw [htest] at h
    dsimp only at h ⊢
    cases hholds : s.granuleHolds a with
    | some e =>
      rw [hholds] at h
      exact Option.some.inj h
    | none =>
      rw [hholds] at h
      obtain ⟨bound, hbound, rfl⟩ := Option.map_eq_some_iff.mp h
      rw [hbound]

/-! ### Timelines -/

theorem retireNext_done {y : Timeline} {e : Word × Nat × LTime} (h : y.nextEnded = some e) :
    y.retireNext.done = y.done + 1 := by
  rw [Timeline.retireNext, h]
  dsimp only
  split
  · rfl
  · split <;> rfl

theorem timelineRetire_next {crew : Nat} {tl : Tl} (h : lineEvent (.timelineRetire crew tl) s = some t) :
    exec (.timelineRetire crew tl) s = .next t := by
  have hexec : exec (.timelineRetire crew tl) s = execTimelineRetire crew tl s := rfl
  obtain ⟨c, hc, h⟩ := Option.bind_eq_some_iff.mp h
  obtain ⟨e, he, rfl⟩ := Option.map_eq_some_iff.mp h
  have hdone : (c.timeline tl).retireNext.done ≠ (c.timeline tl).done := by simp [retireNext_done he]
  rw [hexec, execTimelineRetire, hc]
  dsimp only
  rw [if_neg hdone, he]
  rfl

/-! ### Lines -/

theorem modThread_of_thread? {k : Nat} {line : Thread} (h : s.thread? k = some line) (f : Thread → Thread) :
    s.modThread k f = s.setThread k (f line) := by
  rw [State.modThread, h]

theorem yieldTimeout_next {k : Nat} (h : lineEvent (.yieldTimeout k) s = some t) : exec (.yieldTimeout k) s = .next t := by
  have hexec : exec (.yieldTimeout k) s = execYieldTimeout k s := rfl
  obtain ⟨line, hline, h⟩ := Option.bind_eq_some_iff.mp h
  obtain ⟨hcond, rfl⟩ := under_eq_some.mp h
  obtain ⟨hwaits, hdue⟩ := Bool.and_eq_true_iff.mp hcond
  rw [Bool.and_eq_true, beq_iff_eq, beq_iff_eq] at hwaits
  rw [hexec, execYieldTimeout, hline]
  dsimp only
  rw [if_pos hwaits]
  exact congrArg _ (if_pos hdue)

theorem lineCheckInDone_next {k : Nat} (h : lineEvent (.lineCheckInDone k) s = some t) :
    exec (.lineCheckInDone k) s = .next t := by
  obtain ⟨line, hline, h⟩ := Option.bind_eq_some_iff.mp h
  suffices hdone : s.checkInDone k = t from congrArg _ hdone
  rw [State.checkInDone, hline]
  dsimp only
  cases hloc : line.loc with
  | arriving c inn =>
    rw [hloc] at h
    exact Option.some.inj h
  | parlour | inn | toInn | memory => simp [hloc] at h

theorem innMoveDone_next {k : Nat} (h : lineEvent (.innMoveDone k) s = some t) : exec (.innMoveDone k) s = .next t := by
  have hexec : exec (.innMoveDone k) s = execInnMoveDone k s := rfl
  obtain ⟨line, hline, h⟩ := Option.bind_eq_some_iff.mp h
  rw [hexec, execInnMoveDone, modThread_of_thread? hline]
  cases hloc : line.loc with
  | toInn site =>
    rw [hloc] at h
    exact congrArg _ (Option.some.inj h)
  | parlour | arriving | inn | memory => simp [hloc] at h

theorem ageTick_next {k : Nat} (h : lineEvent (.ageTick k) s = some t) : exec (.ageTick k) s = .next t := by
  have hexec : exec (.ageTick k) s = execAgeTick k s := rfl
  obtain ⟨line, hline, h⟩ := Option.bind_eq_some_iff.mp h
  rw [hexec, execAgeTick, hline]
  dsimp only
  cases hloc : line.loc with
  | parlour | arriving => simp [hloc] at h
  | inn | toInn | memory =>
    rw [hloc] at h
    obtain ⟨hready, rfl⟩ := under_eq_some.mp h
    exact congrArg _ (if_pos ⟨beq_iff_eq.mp hready, rfl⟩)

theorem trapEntry_next {k : Nat} (h : lineEvent (.trapEntry k) s = some t) : exec (.trapEntry k) s = .next t := by
  have hexec : exec (.trapEntry k) s = execTrapEntry k s := rfl
  obtain ⟨line, hline, h⟩ := Option.bind_eq_some_iff.mp h
  rw [hexec, execTrapEntry, hline]
  dsimp only
  cases htrap : line.trapq with
  | none => simp [htrap] at h
  | some ti =>
    cases hpend : line.pend with
    | some p => simp [htrap, hpend] at h
    | none =>
      rw [htrap, hpend] at h
      obtain ⟨hcond, rfl⟩ := under_eq_some.mp h
      exact congrArg _ (if_pos hcond)

theorem shootdownComplete_next {k : Nat} (h : lineEvent (.shootdownComplete k) s = some t) :
    exec (.shootdownComplete k) s = .next t := by
  have hexec : exec (.shootdownComplete k) s = execShootdownComplete k s := rfl
  obtain ⟨line, hline, h⟩ := Option.bind_eq_some_iff.mp h
  obtain ⟨hcond, rfl⟩ := under_eq_some.mp h
  rw [Bool.and_eq_true, Bool.and_eq_true, beq_iff_eq, beq_iff_eq, and_assoc] at hcond
  rw [hexec, execShootdownComplete, hline]
  exact congrArg _ (if_pos hcond)

theorem wsldComplete_next {k : Nat} (h : lineEvent (.wsldComplete k) s = some t) : exec (.wsldComplete k) s = .next t := by
  have hexec : exec (.wsldComplete k) s = execWsldComplete k s := rfl
  obtain ⟨line, hline, h⟩ := Option.bind_eq_some_iff.mp h
  obtain ⟨hcond, rfl⟩ := under_eq_some.mp h
  rw [Bool.and_eq_true, beq_iff_eq, beq_iff_eq] at hcond
  rw [hexec, execWsldComplete, hline]
  exact congrArg _ (if_pos hcond)

theorem systemFault_next {k code addr : Nat} (h : lineEvent (.systemFault k code addr) s = some t) :
    exec (.systemFault k code addr) s = .next t := by
  have hexec : exec (.systemFault k code addr) s = execSystemFault k code addr s := rfl
  obtain ⟨line, hline, h⟩ := Option.bind_eq_some_iff.mp h
  obtain ⟨hcond, rfl⟩ := under_eq_some.mp h
  rw [Bool.and_eq_true, Bool.or_eq_true, beq_iff_eq, beq_iff_eq, decide_eq_true_iff] at hcond
  rw [hexec, execSystemFault, hline]
  exact congrArg _ (if_pos hcond)

theorem watch_next {crew : Nat} (h : lineEvent (.watch crew) s = some t) : exec (.watch crew) s = .next t := by
  have hexec : exec (.watch crew) s = execWatch crew s := rfl
  obtain ⟨c, hc, h⟩ := Option.bind_eq_some_iff.mp h
  obtain ⟨hcond, rfl⟩ := under_eq_some.mp h
  rw [hexec, execWatch, hc]
  exact congrArg _ (if_pos hcond)

/-- A terminated line keeps its stores, atomics and LDQ elements under way (R159). -/
theorem threadTermination_next {k : Nat} {whole : Bool} (h : lineEvent (.threadTermination k whole) s = some t) :
    exec (.threadTermination k whole) s = .next t := by
  cases whole with
  | true => exact congrArg _ (Option.some.inj h)
  | false =>
    have hkeeps : (fun a : Access => !a.remote && match a.kind with
        | .ldq _ _ _ => true
        | kind => kind.stores) = fun a => !a.remote && (queues a.kind || a.kind.stores) := by
      funext a
      congr 1
      cases a.kind <;> rfl
    obtain ⟨line, hline, h⟩ := Option.bind_eq_some_iff.mp h
    obtain ⟨hst, h⟩ := Option.ite_none_left_eq_some.mp h
    suffices hends : s.terminate k = t from congrArg _ hends
    rw [State.terminate, hline]
    dsimp only
    rw [if_neg hst]
    dsimp only at h
    rw [← hkeeps] at h
    exact Option.some.inj h

/-! ### The end of a cycle -/

theorem beginsCheckIn_eq (s : State) (k : Nat) : beginsCheckIn s k = s.checkIn? k := by
  unfold beginsCheckIn State.checkIn?
  cases s.thread? k with
  | none => rfl
  | some line =>
    dsimp only [Option.bind_some, under]
    congr 1
    cases s.coreFor (s.tilesFor (s.homeOf line)) with
    | some c => rfl
    | none => simp only [Bool.and_eq_true, beq_iff_eq, decide_eq_true_eq]

theorem allCheckIns_eq (n : Nat) (s : State) : allCheckIns n s = State.checkIns n s := by
  induction n generalizing s with
  | zero => rfl
  | succ n ih =>
    have hfirst : (s.threads.map (·.1)).findSome? (beginsCheckIn s) = s.threads.findSome? fun e => s.checkIn? e.1 := by
      rw [List.findSome?_map, funext (beginsCheckIn_eq s)]
      rfl
    rw [allCheckIns, State.checkIns, hfirst]
    cases s.threads.findSome? fun e => s.checkIn? e.1 with
    | none => rfl
    | some s' => exact ih s'

theorem takeEffect_eq (x : Debug) (c : TrigChange) : takeEffect x c = x.change c := by
  cases c with
  | buf base size =>
    unfold takeEffect Debug.change Debug.setRing
    dsimp only
  | start | stop | bp | mask => rfl

/-- The trigger's cycle, and what TRIGSETs have changed (R406, R416). -/
theorem debugCycle_eq (x : Debug) :
    x.cycle = { (cycleEnds x).later.foldl (init := cycleEnds x) takeEffect with later := [] } := by
  rw [funext₂ takeEffect_eq]
  rfl

theorem cycleOver_eq (s : State) : cycleOver s = s.endOfCycle := by
  unfold cycleOver State.endOfCycle
  dsimp only
  rw [allCheckIns_eq, ← debugCycle_eq]
  rfl

theorem lineCheckInStart_next {k : Nat} (h : lineEvent (.lineCheckInStart k) s = some t) :
    exec (.lineCheckInStart k) s = .next t := by
  have hexec : exec (.lineCheckInStart k) s = execLineCheckInStart k s := rfl
  obtain ⟨hcond, rfl⟩ := under_eq_some.mp h
  rw [beginsCheckIn_eq] at hcond
  rw [hexec, execLineCheckInStart, if_pos hcond, cycleOver_eq]

/-! ### All events -/

theorem accessEvent_next {x : Instr} (h : accessEvent x s = some t) : exec x s = .next t := by
  cases x
  case coreCycle => exact coreCycle_next h
  case icacheFill => exact icacheFill_next h
  case longOpResult => exact longOpResult_next h
  case loadFill => exact loadFill_next h
  case storeBind => exact storeBind_next h
  case queueFill => exact queueFill_next h
  case deferredFault => exact deferredFault_next h
  case wcEntryDrain => exact wcEntryDrain_next h
  case remoteAccessArrival => exact remoteAccessArrival_next h
  all_goals cases h

theorem lineEvent_next {x : Instr} (h : lineEvent x s = some t) : exec x s = .next t := by
  cases x
  case timelineRetire => exact timelineRetire_next h
  case yieldTimeout => exact yieldTimeout_next h
  case lineCheckInStart => exact lineCheckInStart_next h
  case lineCheckInDone => exact lineCheckInDone_next h
  case innMoveDone => exact innMoveDone_next h
  case ageTick => exact ageTick_next h
  case trapEntry => exact trapEntry_next h
  case shootdownComplete => exact shootdownComplete_next h
  case wsldComplete => exact wsldComplete_next h
  case systemFault => exact systemFault_next h
  case watch => exact watch_next h
  case laneGrantServe => exact congrArg _ (Option.some.inj h)
  case threadTermination => exact threadTermination_next h
  all_goals cases h

/-- Settles O21, event by event. -/
theorem lineEvents : Obligations.LineEvents := by
  intro x s t h
  exact h.elim accessEvent_next lineEvent_next

end Sys2Proof.Events

/-! Flags, breaks out of loops, calls and returns, and instructions that end past a loop body (O31, O38, O39, O40). -/

namespace Sys2Proof.Control

open Sys2Proof Sys2Proof.Machine Sys2Proof.Machine.Claim Sys2Proof.Laws Sys2Proof.Lines Sys2Proof.Fetch

section
variable {s s' s1 : State} {i j : Issue} {k : Nat} {v : Thread} {p : Pred} {u : Uses} {x : Instr}

/-! ### The line when its instruction begins -/

/-- What the queue bindings leave of a line: where it is and where it returns to, its flags, its loop levels and its binding. -/
def course (t : Thread) := (t.pc, t.link, t.flags, t.lact0, t.lact1, t.pushv)

theorem course_wake (t : Thread) : course t.wake = course t := by
  unfold Thread.wake
  split <;> rfl

/-- A queue that changes may wake a line, which keeps its course. -/
theorem modQueue_thread? (h : s.thread? k = some v) (c : Nat) (q : Reg) (f : Queue → Queue) :
    ∃ w, (s.modQueue c q f).thread? k = some w ∧ course w = course v := by
  have hset : (s.modCrew c fun c => c.setQueue q (f (c.queue q))).thread? k = some v := by
    rw [thread?_of_threads (modCrew_threads ..), h]
  unfold State.modQueue State.wakeQueue
  split
  case h_1 => exact ⟨v, hset, rfl⟩
  case h_2 =>
    rw [Plain.PlainChange.wakeWhere_thread?, hset]
    refine ⟨_, rfl, ?_⟩
    dsimp only
    split
    · exact course_wake v
    · rfl

/-- Taking what the queue bindings give leaves the line as the instruction sees it, but for the value in g6. -/
theorem takes_thread? (h : takes j u s = some (i, s1)) (hj : s.thread? j.k = some j.t) :
    ∃ w, s1.thread? i.k = some w ∧ course w = course i.t := by
  unfold takes at h
  dsimp only at h
  split_ifs at h
  · cases h
    exact modQueue_thread? hj ..
  · cases h
    exact ⟨_, hj, rfl⟩

theorem begins_thread? (h : begins p u s = some (i, s1)) : ∃ w, s1.thread? i.k = some w ∧ course w = course i.t := by
  unfold begins at h
  split at h
  case h_1 => cases h
  case h_2 j hj =>
    obtain ⟨-, hline, -⟩ := issuing_some hj
    split_ifs at h
    exact takes_thread? h hline

/-- An instruction that begins ends with the effect of its body. -/
theorem exec_of_body {len : Nat} {body : Issue → State → Effect} {e : Effect}
    (hx : ∀ s, exec x s = issue p len u body s) (hbeg : begins p u s = some (i, s1)) (hbody : body i s1 = e)
    (hc : completes e = true) : exec x s = ends s i len e := by
  subst hbody
  rw [hx, issue_of_begins hbeg len body hc]

/-! ### The line when its instruction has ended -/

/-- An instruction that retires leaves its line fallen through. -/
theorem retire_leaves (hv : s'.thread? i.k = some v) {len : Nat} {P : Thread → Prop}
    (hP : ∀ w, kept w = kept v → P w) : leaves (ends s i len (.retire s')) i.k fun _ w => P w := by
  obtain ⟨st, hst⟩ := retireAt_thread? hv len
  obtain ⟨a, b, hw⟩ := issued_thread? hst { s with issuer := none } i.t.entryCore
  exact ⟨_, _, rfl, hw, hP _ (kept_fallThrough v len)⟩

theorem jumpTo_thread? (hv : s.thread? k = some v) (pc : BitVec 56) :
    ∃ st, (s.jumpTo k pc).thread? k = some { v with pc := pc, st := st } := by
  refine stepStop_thread? (t := { v with pc := pc }) ?_
  exact (thread?_of_threads (noteRetired_threads ..) k).trans (modThread_same hv _)

/-- An instruction that jumps leaves its line at the target. -/
theorem jump_leaves (hv : s'.thread? i.k = some v) {len : Nat} {pc : BitVec 56} {P : Thread → Prop}
    (hP : ∀ st a b, P { v with pc := pc, st := st, eligible := a, issueStamp := b }) :
    leaves (ends s i len (.jump pc s')) i.k fun _ w => P w := by
  obtain ⟨st, hst⟩ := jumpTo_thread? hv pc
  obtain ⟨a, b, hw⟩ := issued_thread? hst { s with issuer := none } i.t.entryCore
  exact ⟨_, _, rfl, hw, hP st a b⟩

/-! ### Flags (R96 to R98) -/

theorem flag_zero (t : Thread) : t.flag 0 = true := rfl

theorem flag_of_ne_zero (t : Thread) {n : Reg} (hn : n ≠ 0) : t.flag n = t.flags.getLsbD n.val := by
  rw [Thread.flag, beq_eq_false_iff_ne.mpr hn, Bool.false_or]

theorem flag_of_flags {t w : Thread} (h : w.flags = t.flags) (n : Reg) : w.flag n = t.flag n := by
  rw [Thread.flag, h, Thread.flag]

/-- Writing a flag changes that flag alone, and f0 not at all (R96). -/
theorem flag_setFlag (t : Thread) (d : Reg) (b : Bool) (n : Reg) :
    (t.setFlag d b).flag n = if n = d ∧ n ≠ 0 then b else t.flag n := by
  by_cases hn : n = 0
  · simp [hn, flag_zero]
  by_cases hd : d = 0
  · simp [Thread.setFlag, hd, hn]
  rw [Thread.setFlag, if_neg hd, flag_of_ne_zero _ hn, flag_of_ne_zero _ hn, BitVec.getLsbD_ofNat, Values.testBit_putField,
    decide_eq_true n.isLt, Bool.true_and]
  by_cases hnd : n = d
  · subst hnd
    cases b <;> simp [b2n, hn]
  · have hout : ¬(d.val ≤ n.val ∧ n.val < d.val + 1) := by
      have := Fin.val_ne_of_ne hnd
      omega
    rw [if_neg hout, if_neg fun h => hnd h.1]
    rfl

/-- The bits that FSET.M's mask names are written, but f0 (R97). -/
theorem flag_flagsMasked (t : Thread) (x : Word) (mask : BitVec 8) (n : Reg) :
    { t with flags := flagsMasked t.flags x mask }.flag n =
      if n ≠ 0 ∧ mask.getLsbD n.val = true then x.getLsbD n.val else t.flag n := by
  by_cases hn : n = 0
  · simp [hn, flag_zero]
  have hmask : (0xFE#8).getLsbD n.val = true := by decide +revert
  rw [flag_of_ne_zero _ hn, flag_of_ne_zero _ hn]
  simp only [flagsMasked, BitVec.getLsbD_or, BitVec.getLsbD_and, BitVec.getLsbD_not, BitVec.getLsbD_setWidth, hmask,
    decide_eq_true n.isLt, Bool.true_and, Bool.and_true]
  cases mask.getLsbD n.val <;> simp [hn]

/-- An instruction that retires with its line changed leaves the flags that the change gives it. -/
theorem modThread_leaves_flags (hbeg : begins p u s = some (i, s1)) {len : Nat} {f : Thread → Thread} {F : Reg → Bool}
    (hF : ∀ w, w.flags = i.t.flags → ∀ n, (f w).flag n = F n) :
    leaves (ends s i len (.retire (s1.modThread i.k f))) i.k fun _ w => ∀ n, w.flag n = F n := by
  obtain ⟨v, hv, hcourse⟩ := begins_thread? hbeg
  simp only [course, Prod.mk.injEq] at hcourse
  obtain ⟨-, -, hflags, -⟩ := hcourse
  refine retire_leaves (modThread_same hv f) fun w hw n => ?_
  simp only [kept, Prod.mk.injEq] at hw
  obtain ⟨-, hkept, -⟩ := hw
  exact (flag_of_flags hkept n).trans (hF v hflags n)

/-- The flag that an instruction writes, and the others (R96). -/
theorem putFlag_leaves (hbeg : begins p u s = some (i, s1)) (d : Reg) (b : Bool) (len : Nat) :
    leaves (ends s i len (i.putFlag s1 d b)) i.k fun _ w =>
      ∀ n, w.flag n = if n = d ∧ n ≠ 0 then b else i.t.flag n :=
  modThread_leaves_flags hbeg fun w hw n => by rw [flag_setFlag, flag_of_flags hw]

/-- The low byte of the predicate word: the flags, f0 reading 1. -/
def flagByte (t : Thread) : Nat := t.flags.toNat / 2 * 2 + 1

theorem flagByte_lt (t : Thread) : flagByte t < 2 ^ 8 := by
  have := t.flags.isLt
  unfold flagByte
  omega

theorem testBit_flagByte (t : Thread) (n : Reg) : (flagByte t).testBit n.val = t.flag n := by
  rcases Fin.eq_zero_or_eq_succ n with rfl | ⟨m, rfl⟩
  · simp [flagByte, flag_zero, Nat.testBit_zero]
  · have hhalf : flagByte t / 2 = t.flags.toNat / 2 := by unfold flagByte; omega
    rw [flag_of_ne_zero _ (Fin.succ_ne_zero m), Fin.val_succ, Nat.testBit_succ, hhalf, ← Nat.testBit_succ]
    rfl

theorem b2n_le (b : Bool) : b2n b ≤ 1 := by cases b <;> decide

/-- The fields of the predicate word (Table 7.2). -/
theorem predWord_fields (t : Thread) :
    t.predWord < 2 ^ 32 ∧ t.predWord % 2 ^ 8 = flagByte t ∧ t.predWord / 2 ^ 8 % 2 ^ 8 = t.efmt.toNat ∧
      t.predWord / 2 ^ 16 % 2 = b2n t.lact0 ∧ t.predWord / 2 ^ 17 % 2 = b2n t.lact1 ∧
      t.predWord / 2 ^ 18 % 2 ^ 6 = 0 ∧ t.predWord / 2 ^ 24 = t.lgrant.toNat := by
  have hword : t.predWord = flagByte t + 2 ^ 8 * t.efmt.toNat + 2 ^ 16 * b2n t.lact0 + 2 ^ 17 * b2n t.lact1 +
      2 ^ 24 * t.lgrant.toNat := rfl
  have hflags := flagByte_lt t
  have hefmt := t.efmt.isLt
  have hlact0 := b2n_le t.lact0
  have hlact1 := b2n_le t.lact1
  have hlgrant := t.lgrant.isLt
  omega

theorem testBit_of_b2n {x n : Nat} {b : Bool} (h : x / 2 ^ n % 2 = b2n b) : x.testBit n = b := by
  rw [Nat.testBit_eq_decide_div_mod_eq, h]
  cases b <;> rfl

/-- A word whose low byte is the flags has each flag as its bit. -/
theorem getLsbD_of_flagByte {w : Word} {t : Thread} (h : w.toNat % 2 ^ 8 = flagByte t) (n : Reg) :
    w.getLsbD n.val = t.flag n := by
  rw [← testBit_flagByte, ← h, Nat.testBit_mod_two_pow, decide_eq_true n.isLt, Bool.true_and]
  rfl

/-- What FGET and FGET.P put in gD (R98). -/
theorem fgetWord_spec (t : Thread) (all : Bool) :
    let w := natWord (if all then t.predWord else t.predWord % 256)
    w.getLsbD 0 = true ∧ (∀ n : Fin 8, w.getLsbD n.val = t.flag n) ∧ (all = false → w.toNat < 256) ∧
      (all = true → w.toNat < 2 ^ 32 ∧ w.toNat / 2 ^ 8 % 2 ^ 8 = t.efmt.toNat ∧ w.getLsbD 16 = t.lact0 ∧
        w.getLsbD 17 = t.lact1 ∧ w.toNat / 2 ^ 18 % 2 ^ 6 = 0 ∧ w.toNat / 2 ^ 24 = t.lgrant.toNat) := by
  intro w
  obtain ⟨hlt, hbyte, hefmt, hlact0, hlact1, hgap, hlgrant⟩ := predWord_fields t
  have hw : w.toNat = if all then t.predWord else t.predWord % 256 := by
    refine (BitVec.toNat_ofNat ..).trans (Nat.mod_eq_of_lt ?_)
    split <;> omega
  have hflags : ∀ n : Fin 8, w.getLsbD n.val = t.flag n := by
    refine getLsbD_of_flagByte ?_
    rw [hw]
    split
    · exact hbyte
    · omega
  refine ⟨hflags 0, hflags, ?_, ?_⟩
  · rintro rfl
    rw [hw, if_neg Bool.false_ne_true]
    omega
  · rintro rfl
    rw [if_pos rfl] at hw
    simp only [BitVec.getLsbD, hw]
    exact ⟨hlt, hefmt, testBit_of_b2n hlact0, testBit_of_b2n hlact1, hgap, hlgrant⟩

/-! ### Breaks out of loops (R102) -/

/-- An LBRK under a false predicate falls through with its loop levels as they were. -/
theorem lbrk_leaves_of_not_predTrue {f : Form} (hi : issuing s = some i) (hf : formOf i.c.mctl x = some f)
    (hbreaks : f.uses.lbrk = true) (hp : predTrue f.pred f.uses.tile i.t i.c = false) :
    leaves (exec x s) i.k fun _ w =>
      w.pc = i.t.pc + 8 ∧ w.lact0 = i.t.lact0 ∧ w.lact1 = i.t.lact1 ∧ w.loop0 = i.t.loop0 ∧ w.loop1 = i.t.loop1 := by
  obtain ⟨-, -, hfalls⟩ := Forms.falsePredicateRetires
  obtain ⟨-, hline, -⟩ := issuing_some hi
  rw [hfalls x f s i hi hf hp, if_pos hbreaks]
  refine jump_leaves (s' := { s with issuer := none }) (v := i.t) hline fun st a b => ?_
  exact ⟨rfl, rfl, rfl, rfl, rfl⟩

/-! ### Calls and returns (R92, R95) -/

/-- An instruction that goes to a target ends with the jump where the target is a multiple of 4, and else with ALIGN (R92). -/
theorem exec_goTo {target : Issue → BitVec 56} {f : Issue → State → State}
    (hx : ∀ s, exec x s = issue p 8 u (fun i s => goTo (target i) (f i s)) s) (hbeg : begins p u s = some (i, s1)) :
    ((target i).toNat % 4 ≠ 0 → exec x s = traps s i 0x03 0 (target i).toNat) ∧
      ((target i).toNat % 4 = 0 → exec x s = ends s i 8 (.jump (target i) (f i s1))) := by
  refine ⟨fun ht => ?_, fun ht => ?_⟩
  · exact exec_of_body hx hbeg (e := .user codeAlign 0 (target i).toNat) (if_pos ht) rfl
  · exact exec_of_body hx hbeg (if_neg (not_not.mpr ht)) rfl

/-- A register that is written holds the value, unless it is a bound g7, which is pushed (R226). -/
theorem wr_thread? (hv : s.thread? k = some v) (d : Reg) (y : Word) :
    ∃ w, (s.wr k d y).thread? k = some w ∧ course w = course v ∧ (¬(d = 7 ∧ v.pushv = true) → w.reg d = y) := by
  unfold State.wr
  rw [hv]
  dsimp only
  split
  case isTrue hpush =>
    obtain ⟨w, hw, hcourse⟩ := modQueue_thread? hv v.crewn.toNat v.pushq
      fun q => q.reserve s.clock { Slot.empty with val := y, filled := true }
    exact ⟨w, hw, hcourse, fun hno => absurd hpush hno⟩
  case isFalse => exact ⟨_, setThread_same .., rfl, fun _ => Scalar.reg_setReg_same ..⟩

/-- The state in which a call has put the old link in the register that .SV names. -/
def savedLink (i : Issue) (s : State) : Option Reg → State
  | some d => s.wr i.k d (i.t.link.setWidth 64)
  | none => s

/-- A call goes to its target once the old link is saved and the link names the address after it (R95). -/
theorem callTo_eq (i : Issue) (s : State) (sv : Option Reg) (target : BitVec 56) :
    i.callTo s sv target = goTo target ((savedLink i s sv).modThread i.k fun t => { t with link := i.t.pc + 8 }) := by
  cases sv <;> rfl

theorem savedLink_thread? (hbeg : begins p u s = some (i, s1)) (sv : Option Reg) :
    ∃ w, (savedLink i s1 sv).thread? i.k = some w ∧
      ∀ d, sv = some d → ¬(d = 7 ∧ i.t.pushv = true) → w.reg d = i.t.link.setWidth 64 := by
  obtain ⟨v, hv, hcourse⟩ := begins_thread? hbeg
  simp only [course, Prod.mk.injEq] at hcourse
  obtain ⟨-, -, -, -, -, hpush⟩ := hcourse
  cases sv with
  | none => exact ⟨v, hv, nofun⟩
  | some d =>
    obtain ⟨w, hw, -, hreg⟩ := wr_thread? hv d (i.t.link.setWidth 64)
    rw [hpush] at hreg
    exact ⟨w, hw, fun _ hd => Option.some.inj hd ▸ hreg⟩

/-- CALL and CALLX, to the target each has (R95). -/
theorem call_spec {sv : Option Reg} {target : Issue → BitVec 56}
    (hx : ∀ s, exec x s = issue p 8 u (fun i s => i.callTo s sv (target i)) s) (hbeg : begins p u s = some (i, s1)) :
    ((target i).toNat % 4 ≠ 0 → exec x s = traps s i 0x03 0 (target i).toNat) ∧
      ((target i).toNat % 4 = 0 → leaves (exec x s) i.k fun _ w => w.pc = target i ∧ w.link = i.t.pc + 8 ∧
        ∀ d, sv = some d → ¬(d = 7 ∧ i.t.pushv = true) → w.reg d = i.t.link.setWidth 64) := by
  simp only [callTo_eq] at hx
  obtain ⟨hmisaligned, haligned⟩ := exec_goTo hx hbeg
  obtain ⟨v, hv, hsaved⟩ := savedLink_thread? hbeg sv
  refine ⟨hmisaligned, fun ht => ?_⟩
  rw [haligned ht]
  exact jump_leaves (modThread_same hv _) fun _ _ _ => ⟨rfl, rfl, hsaved⟩

/-- RET, to the link or to the register's address (R95). -/
theorem ret_spec {target : Issue → BitVec 56}
    (hx : ∀ s, exec x s = issue p 8 u (fun i s =>
      goTo (target i) (s.modThread i.k fun t => { t with link := target i })) s)
    (hbeg : begins p u s = some (i, s1)) :
    ((target i).toNat % 4 ≠ 0 → exec x s = traps s i 0x03 0 (target i).toNat) ∧
      ((target i).toNat % 4 = 0 → leaves (exec x s) i.k fun _ w => w.pc = target i ∧ w.link = target i) := by
  obtain ⟨hmisaligned, haligned⟩ := exec_goTo hx hbeg
  obtain ⟨v, hv, -⟩ := begins_thread? hbeg
  refine ⟨hmisaligned, fun ht => ?_⟩
  rw [haligned ht]
  exact jump_leaves (modThread_same hv _) fun _ _ _ => ⟨rfl, rfl⟩

end

/-- Settles O38: FOP and FSET write one flag, FSET.M those of its mask, and FGET reads the predicate word or its low byte. -/
theorem flagWrites : Obligations.FlagWrites := by
  refine ⟨fun p op d a b s i s1 hbeg => ?_, fun p d v s i s1 hbeg => ?_, fun p a mask s i s1 hbeg => ?_,
    fun p all d s i s1 hbeg => ⟨_, ?_, fgetWord_spec i.t all⟩⟩
  · rw [Scalar.flagForm_describes (x := .fop p op d a b) rfl s i s1 _ hbeg rfl rfl]
    have h := putFlag_leaves hbeg d (boolOp op (i.t.flag a) (i.t.flag b)) 8
    cases op <;> exact h
  · rw [Scalar.flagForm_describes (x := .fset p d v) rfl s i s1 _ hbeg rfl rfl]
    exact putFlag_leaves hbeg d v 8
  · rw [Scalar.flagForm_describes (x := .fsetM p a mask) rfl s i s1 _ hbeg rfl rfl]
    exact modThread_leaves_flags hbeg fun w hw n => by rw [flag_flagsMasked, flag_of_flags hw]
  · exact Scalar.flagForm_describes (x := .fget p all d) rfl s i s1 _ hbeg rfl rfl

/-- Settles O39: where a level is active the jump is the form's; with none active the body traps. -/
theorem loopBreak : Obligations.LoopBreak := by
  refine ⟨fun p s i s1 hbeg => ?_, fun p s i hi hp =>
    ⟨lbrk_leaves_of_not_predTrue hi rfl rfl hp, lbrk_leaves_of_not_predTrue hi rfl rfl hp⟩⟩
  obtain ⟨v, hv, hcourse⟩ := begins_thread? hbeg
  simp only [course, Prod.mk.injEq] at hcourse
  obtain ⟨-, -, -, hlact0, -⟩ := hcourse
  refine ⟨fun h1 => ?_, fun h1 h0 => ?_, fun h => ?_, fun h0 h1 => ?_⟩
  · rw [Scalar.loopForm_describes (x := .lbrk p) rfl s i s1 _ hbeg (if_pos h1) rfl]
    exact jump_leaves (modThread_same hv _) fun _ _ _ => ⟨rfl, rfl, hlact0⟩
  · rw [Scalar.loopForm_describes (x := .lbrk p) rfl s i s1 _ hbeg
      ((if_neg (Bool.eq_false_iff.mp h1)).trans (if_pos h0)) rfl]
    exact jump_leaves (modThread_same hv _) fun _ _ _ => ⟨rfl, rfl⟩
  · rw [Scalar.loopForm_describes (x := .lbrkAll p) rfl s i s1 _ hbeg (if_pos h) rfl]
    exact jump_leaves (modThread_same hv _) fun _ _ _ => ⟨rfl, rfl, rfl⟩
  · refine ⟨exec_of_body (x := .lbrk p) (e := .user codeLoopdepth) (fun _ => rfl) hbeg ?_ rfl,
      exec_of_body (x := .lbrkAll p) (e := .user codeLoopdepth) (fun _ => rfl) hbeg ?_ rfl⟩
    · simp [h0, h1]
    · simp [h0, h1]

/-- Settles O40: each goes to its target where that is aligned, the links being set on the way. -/
theorem callsAndReturns : Obligations.CallsAndReturns := by
  refine ⟨fun p sv imm s i s1 hbeg => call_spec (x := .call p sv imm) (fun _ => rfl) hbeg,
    fun p sv a s i s1 hbeg => call_spec (x := .callx p sv a) (fun _ => rfl) hbeg, fun p r s i s1 hbeg => ?_⟩
  cases r with
  | none => exact ret_spec (x := .ret p none) (target := fun i => i.t.link) (fun _ => rfl) hbeg
  | some a => exact ret_spec (x := .ret p (some a)) (target := fun i => registerTarget (i.reg a)) (fun _ => rfl) hbeg

/-- Settles O31, by what a line makes of the instruction it has read. -/
theorem pastBodyTraps : Obligations.PastBodyTraps := by
  intro s i bs s' x rest hfetch hdecode hin hpast
  have hbody : i.t.pastBody (bs.length - rest.length) = true := by
    simp only [Thread.pastBody, Bool.or_eq_true, Bool.and_eq_true, decide_eq_true_eq]
    exact hpast
  obtain ⟨c, block, rfl, hstep⟩ := step_of_fetches hfetch
  rw [hstep, readInstr_of_decode hdecode hin, runs, hbody]
  rfl

end Sys2Proof.Control

/-! Completion of loads, stores, queue loads and atomics (O6). -/

namespace Sys2Proof.Accesses

open Sys2Proof Sys2Proof.Machine Sys2Proof.Machine.Claim Sys2Proof.Laws

variable {i : Issue} {s s1 : State} {e : Effect}

/-! ### Accesses that pass their checks -/

theorem reaches_eq_some {k : AccKind} {r : Right} {va bit width unit data : Nat} {sc : Scope} {evp : Nat} {a : Access}
    (h : reaches i s k r va bit width unit data sc evp = some (a, s1)) :
    i.access s k r va bit width unit data sc evp = (.ok a, s1) := by
  unfold reaches at h
  split at h
  case h_1 heq =>
    cases h
    exact heq
  case h_2 => cases h

/-- The kind of an access is that it was built with. -/
theorem access_kind {k : AccKind} {r : Right} {va bit width unit data : Nat} {sc : Scope} {evp : Nat} {a : Access}
    (h : i.access s k r va bit width unit data sc evp = (.ok a, s1)) : a.kind = k := by
  unfold Issue.access at h
  dsimp only at h
  split at h
  · cases h
  · cases h
    rfl

/-- A load that passes its checks goes on as the form has it (R125, R128, R346). -/
theorem load_of_loads {k : AccKind} {va bit width unit : Nat} {m : MemArg}
    (h : loads i s k va bit width unit m = some e) : i.load s k va bit width unit m = e := by
  unfold loads at h
  split at h
  case h_1 => cases h
  case h_2 a s1 hreach =>
    have haccess := reaches_eq_some hreach
    rw [Issue.load, haccess]
    dsimp only
    rw [Issue.startLoad, access_kind haccess]
    obtain ⟨hcheck, h⟩ := Option.ite_none_left_eq_some.mp h
    have hnone : (if k.feQual = .plain then none else feCheck a) = none := by
      by_cases hq : k.feQual = .plain
      · rw [if_pos hq]
      · rw [if_neg hq]
        simpa [hq] using hcheck
    dsimp only
    rw [hnone]
    dsimp only
    by_cases hremote : a.remote = true
    · rw [if_pos hremote] at h ⊢
      exact Option.some.inj h
    · rw [if_neg hremote] at h ⊢
      obtain ⟨hbank, h⟩ := Option.ite_none_left_eq_some.mp h
      rw [Option.not_isSome_iff_eq_none.mp hbank]
      dsimp only
      by_cases hq : k.feQual = .plain
      · rw [if_pos hq] at h ⊢
        exact Option.some.inj h
      · rw [if_neg hq] at h ⊢
        obtain ⟨hgran, h⟩ := Option.ite_none_left_eq_some.mp h
        rw [Option.not_isSome_iff_eq_none.mp hgran, ← Option.some.inj h]
        dsimp only
        rw [ite_not]

/-- A store that passes its checks goes on as the form has it (R111, R117, R346). -/
theorem store_of_stores {k : AccKind} {wc : Bool} {va bit width unit data : Nat} {m : MemArg}
    (h : stores i s k wc va bit width unit data m = some e) : i.store s k wc va bit width unit data m = e := by
  unfold stores at h
  split at h
  case h_1 => cases h
  case h_2 a s1 hreach =>
    rw [Issue.store, reaches_eq_some hreach]
    obtain ⟨hheld, h⟩ := Option.ite_none_left_eq_some.mp h
    dsimp only
    rw [if_neg hheld]
    by_cases hremote : a.remote = true
    · rw [if_pos hremote] at h ⊢
      exact Option.some.inj h
    · rw [if_neg hremote] at h ⊢
      cases wc with
      | false => exact Option.some.inj h
      | true =>
        rw [if_pos rfl] at h ⊢
        obtain ⟨hblocked, h⟩ := Option.ite_none_left_eq_some.mp h
        obtain ⟨t, hbuffer, rfl⟩ := Option.map_eq_some_iff.mp h
        rw [Issue.wcStore, if_neg hblocked, hbuffer]

/-- Once the line has drained, the body goes on (R117, R133). -/
theorem afterDrain_of_afterDraining {f : State → Option Effect} {body : State → Effect}
    (h : afterDraining i s f = some e) (hbody : ∀ s, f s = some e → body s = e) : i.afterDrain s body = e := by
  obtain ⟨hdrained, h⟩ := Option.ite_none_right_eq_some.mp h
  rw [Issue.afterDrain, if_pos hdrained]
  exact hbody _ h

/-- An atomic that passes its checks goes on as the form has it (R133). -/
theorem atomic_of_atomics {k : AccKind} {va width data : Nat} {m : MemArg}
    (h : atomics i s k va width data m = some e) : i.atomic s k va width data m = e := by
  obtain ⟨haligned, h⟩ := Option.ite_none_left_eq_some.mp h
  rw [Issue.atomic, if_neg haligned]
  split at h
  case h_1 => cases h
  case h_2 a s1 hreach =>
    rw [reaches_eq_some hreach]
    exact afterDrain_of_afterDraining h fun s h => Option.some.inj h

/-! ### The instructions -/

/-- A queue with room for an LDQ element has a free place. -/
theorem not_full_of_roomForLdq {q : Queue} (h : q.roomForLdq = true) : decide (16 ≤ q.used) = false := by
  obtain ⟨hused, -⟩ := of_decide_eq_true h
  exact decide_eq_false (by omega)

theorem ldqForm_describes {p : Pred} {f : Fmt} {q : Reg} {m : MemArg} {form : Form}
    (h : memoryForm (.ldq p f q m) = some form) : form.describes (.ldq p f q m) := by
  cases h
  refine describes_of_body _ (fun _ => rfl) fun i s e he => ?_
  dsimp only at he ⊢
  obtain ⟨hok, he⟩ := Option.ite_none_left_eq_some.mp he
  obtain ⟨hqueue, haligned⟩ := not_or.mp hok
  rw [if_neg hqueue, if_neg haligned]
  split at he
  case h_1 => cases he
  case h_2 a s1 hreach =>
    rw [reaches_eq_some hreach]
    dsimp only
    obtain ⟨hfree, he⟩ := Option.ite_none_left_eq_some.mp he
    obtain ⟨hroom, hyields⟩ := not_or.mp hfree
    have hplace : decide (16 ≤ ((s.crew? i.crew).elim Queue.reset (·.queue q)).used) = false :=
      not_full_of_roomForLdq (by simpa using hroom)
    rw [hplace, if_neg hyields, if_neg hroom]
    by_cases hremote : a.remote = true
    · rw [if_pos hremote] at he ⊢
      exact Option.some.inj he
    · rw [if_neg hremote] at he ⊢
      obtain ⟨hbank, he⟩ := Option.ite_none_left_eq_some.mp he
      rw [Option.not_isSome_iff_eq_none.mp hbank]
      exact Option.some.inj he

theorem memoryForm_describes {x : Instr} {f : Form} (h : memoryForm x = some f) : f.describes x := by
  cases x
  case ld | ldp =>
    cases h
    refine describes_of_body _ (fun _ => rfl) fun i s e he => ?_
    obtain ⟨haligned, he⟩ := Option.ite_none_left_eq_some.mp he
    dsimp only
    rw [if_neg haligned]
    exact load_of_loads he
  case ldb =>
    cases h
    exact describes_of_body _ (fun _ => rfl) fun i s e he => load_of_loads he
  case st | stp =>
    cases h
    refine describes_of_body _ (fun _ => rfl) fun i s e he => ?_
    obtain ⟨haligned, he⟩ := Option.ite_none_left_eq_some.mp he
    dsimp only
    rw [if_neg haligned]
    exact store_of_stores he
  case stb =>
    cases h
    exact describes_of_body _ (fun _ => rfl) fun i s e he => store_of_stores he
  case ldq => exact ldqForm_describes h
  case amoSwap | amoAdd | amoAnd | amoOr | amoXor | amoMin | amoMax | amoFadd | cas | casp =>
    cases h
    exact describes_of_body _ (fun _ => rfl) fun i s e he => atomic_of_atomics he
  all_goals cases h

/-- Settles O6, by what each access does once it has passed its checks. -/
theorem memoryCompletes : Obligations.MemoryCompletes := fun _ _ => memoryForm_describes

end Sys2Proof.Accesses

/-! Completion of prefetch, fence, granule, barrier, timeline and message instructions (O7). -/

namespace Sys2Proof.Order

open Sys2Proof Sys2Proof.Machine Sys2Proof.Machine.Claim Sys2Proof.Laws Sys2Proof.Accesses

variable {i : Issue} {s s1 : State} {e : Effect}

/-! ### Granules -/

/-- A granule instruction that passes its checks goes on as the form has it (R148, R150, R346). -/
theorem granuleAt_of_atGranule {k : AccKind} {a : Reg} {off : BitVec 17} {after : Bool}
    {f : State → (crew g : Nat) → Option Effect} {body : State → (crew g : Nat) → Effect}
    (h : atGranule i s k a off after f = some e) (hbody : ∀ s c g, f s c g = some e → body s c g = e) :
    i.granuleAt s k a off after body = e := by
  obtain ⟨hspad, h⟩ := Option.ite_none_left_eq_some.mp h
  rw [Issue.granuleAt]
  dsimp only
  rw [if_neg hspad]
  split at h
  case h_1 => cases h
  case h_2 acc s1 hreach =>
    obtain ⟨hown, h⟩ := Option.ite_none_left_eq_some.mp h
    have hgo : (if acc.remote then i.remoteHold s1 acc else body s1 acc.granuleOf.1 acc.granuleOf.2) = e := by
      by_cases hremote : acc.remote = true
      · rw [if_pos hremote] at h ⊢
        exact Option.some.inj h
      · rw [if_neg hremote] at h ⊢
        exact hbody _ _ _ h
    rw [reaches_eq_some hreach]
    dsimp only
    cases after with
    | false => exact hgo
    | true =>
      obtain ⟨htouches, hheld⟩ := not_or.mp fun hor => hown ⟨rfl, hor⟩
      rw [if_pos rfl, Issue.afterOwn, if_neg htouches, if_neg hheld]
      exact hgo

theorem granuleWaits_describes {full : Bool} {p : Pred} {a : Reg} {off : BitVec 17} {x : Instr} {f : Form}
    (hx : ∀ s, exec x s = granuleWaitFor full p a off s)
    (hf : f = { pred := p, uses := { src := [a] },
                eff := fun i s => atGranule i s (.granule full none) a off false fun s c g =>
                  if (s.crew? c).elim false (fun x => x.granuleFull i.t.owner.toNat g == full) then
                    some (.retire (s.bindGranule i.k c g full none)) else none }) : f.describes x := by
  subst hf
  refine describes_of_body _ hx fun i s e he => ?_
  dsimp only at he
  refine granuleAt_of_atGranule he fun s c g hgranule => ?_
  obtain ⟨hstate, hgranule⟩ := Option.ite_none_right_eq_some.mp hgranule
  rw [if_pos hstate]
  exact Option.some.inj hgranule

theorem orderForm_describes {x : Instr} {f : Form} (h : orderForm x = some f) : f.describes x := by
  cases x
  case pf p evp a off =>
    cases h
    refine describes_of_body _ (fun _ => rfl) fun i s e he => ?_
    dsimp only at he ⊢
    rcases hresolve : s.resolve (s.agent i.t) (i.baseOff a off) 1 .read with ⟨stop | part, s'⟩
    all_goals
      rw [hresolve] at he
      exact Option.some.inj he
  case fence =>
    cases h
    exact describes_of_body _ (fun _ => rfl) fun i s e he => afterDrain_of_afterDraining he fun s h => Option.some.inj h
  case few => exact granuleWaits_describes (fun _ => rfl) (Option.some.inj h).symm
  case fewE => exact granuleWaits_describes (fun _ => rfl) (Option.some.inj h).symm
  case feset =>
    cases h
    exact describes_of_body _ (fun _ => rfl) fun i s e he => afterDrain_of_afterDraining he fun s h =>
      granuleAt_of_atGranule h fun s c g h => Option.some.inj h
  case feclr =>
    cases h
    exact describes_of_body _ (fun _ => rfl) fun i s e he =>
      granuleAt_of_atGranule he fun s c g h => Option.some.inj h
  all_goals cases h

/-! ### Barriers and timelines -/

theorem phase_eq_iff (x : BitVec 16) (w : Word) : x.toNat = w.toNat % 2 ^ 16 ↔ x = w.extractLsb' 0 16 := by
  rw [← BitVec.toNat_inj]
  simp

theorem barrierForm_describes {x : Instr} {f : Form} (h : barrierForm x = some f) : f.describes x := by
  cases x
  case bara =>
    cases h
    exact describes_of_body _ (fun _ => rfl) fun i s e he => afterDrain_of_afterDraining he fun s h => Option.some.inj h
  case barw =>
    cases h
    refine describes_of_body _ (fun _ => rfl) fun i s e he => ?_
    obtain ⟨hphase, he⟩ := Option.ite_none_left_eq_some.mp he
    dsimp only
    rw [if_neg fun heq => hphase ((phase_eq_iff ..).mp heq)]
    exact Option.some.inj he
  case barx =>
    cases h
    refine describes_of_body _ (fun _ => rfl) fun i s e he => ?_
    rw [← Option.some.inj he]
    rw [BitVec.setWidth_eq_extractLsb' (by decide)]
  case barcfg =>
    cases h
    refine describes_of_body _ (fun _ => rfl) fun i s e he => ?_
    obtain ⟨hrange, he⟩ := Option.ite_none_right_eq_some.mp he
    dsimp only
    rw [if_neg (by omega)]
    exact Option.some.inj he
  case tlwait =>
    cases h
    refine describes_of_body _ (fun _ => rfl) fun i s e he => ?_
    obtain ⟨hdone, he⟩ := Option.ite_none_left_eq_some.mp he
    dsimp only at he ⊢
    rw [if_neg hdone, ← Option.some.inj he, apply_ite Effect.retire]
    rfl
  case barcfgRd | barcfgPb | tlget | tlgetI =>
    cases h
    exact describes_of_body _ (fun _ => rfl) fun i s e he => Option.some.inj he
  all_goals cases h

/-! ### Messages -/

/-- A SEND that finds its target enters a message or is turned away (R152). -/
theorem sendTo_describes {c : Option Reg} {p : Pred} {a b : Reg} {x : Instr}
    (hx : ∀ s, exec x s = sendTo c p a b s) :
    Form.describes { pred := p, uses := { src := [a, b], drains := true }, eff := fun i s => sends i s c a b } x := by
  refine describes_of_body _ hx fun i s e he => ?_
  dsimp only [sends] at he
  refine afterDrain_of_afterDraining he fun s h => ?_
  dsimp only
  rcases hdest : i.sendDest s (i.reg a) with _ | ⟨k, t⟩
  · rw [hdest] at h
    cases h
  · rw [hdest] at h
    dsimp only at h ⊢
    by_cases hfull : s.inboxFull k t = true
    · rw [if_pos hfull] at h ⊢
      cases c with
      | none => cases h
      | some c => exact Option.some.inj h
    · rw [if_neg hfull] at h ⊢
      cases c with
      | none => exact Option.some.inj h
      | some c => exact Option.some.inj h

theorem recv_describes {p : Pred} {c : Option Reg} {id : Bool} {d : Reg} {f : Form}
    (h : messageForm (.recv p c id d) = some f) : f.describes (.recv p c id d) := by
  cases h
  refine describes_of_body _ (fun _ => rfl) fun i s e he => ?_
  dsimp only at he ⊢
  cases hinbox : i.t.inbox with
  | nil =>
    rw [hinbox] at he
    cases c with
    | none => cases he
    | some c => exact Option.some.inj he
  | cons m ms =>
    rw [hinbox] at he
    cases c with
    | none => exact Option.some.inj he
    | some c => exact Option.some.inj he

theorem chstatD_describes {p : Pred} {d a : Reg} {f : Form} (h : messageForm (.chstatD p d a) = some f) :
    f.describes (.chstatD p d a) := by
  cases h
  refine describes_of_body _ (fun _ => rfl) fun i s e he => ?_
  rw [← Option.some.inj he]
  dsimp only
  congr 3
  · split
    · rfl
    · cases s.thread? _ <;> rfl
  · rw [b2n, mul_ite, mul_one, mul_zero]

theorem messageForm_describes {x : Instr} {f : Form} (h : messageForm x = some f) : f.describes x := by
  cases x
  case send => cases h; exact sendTo_describes fun _ => rfl
  case sendT => cases h; exact sendTo_describes fun _ => rfl
  case recv => exact recv_describes h
  case chstat => cases h; exact describes_of_body _ (fun _ => rfl) fun i s e he => Option.some.inj he
  case chstatD => exact chstatD_describes h
  all_goals cases h

/-- Settles O7, family by family. -/
theorem orderCompletes : Obligations.OrderCompletes := by
  intro x f h
  rcases h with h | h | h
  · exact orderForm_describes h
  · exact barrierForm_describes h
  · exact messageForm_describes h

end Sys2Proof.Order

/-! The events of the outside world, of wall-clock time and of the debug unit (O24): for each, the state its arm of `exec` answers
is the one the table names. -/

namespace Sys2Proof.Outside

open Sys2Proof Sys2Proof.Machine Sys2Proof.Machine.Claim Sys2Proof.Laws Sys2Proof.Events

variable {s t : State}

/-! ### Registers of system space -/

/-- A register of a host queue, or of another unit, is written (R25, Table 21.5). -/
theorem systemSpaceWrite_next {unit off : Nat} {v : Word} (h : outsideEvent (.systemSpaceWrite unit off v) s = some t) :
    exec (.systemSpaceWrite unit off v) s = .next t := by
  have hexec : exec (.systemSpaceWrite unit off v) s = execSystemSpaceWrite unit off v s := rfl
  rw [hexec, execSystemSpaceWrite]
  dsimp only [outsideEvent] at h
  split_ifs at h with hunit hqueue hbase hcontrol htail
  · have hlisted : unitListed unit = true ∧ unit ≠ 0x8 := by
      simp only [List.mem_cons, List.not_mem_nil, or_false] at hunit
      rcases hunit with rfl | rfl | rfl | rfl | rfl | rfl | rfl | rfl | rfl <;> decide
    rw [hlisted.1, if_neg (by decide), if_neg hlisted.2]
    exact congrArg _ (Option.some.inj h)
  all_goals
    obtain ⟨rfl, hoff⟩ := hqueue
    rw [if_neg (by decide), if_pos rfl, if_pos hoff, State.writeQueueReg]
  · rw [hbase]
    exact congrArg _ (Option.some.inj h)
  · rw [hcontrol]
    exact congrArg _ (Option.some.inj h)
  · rw [htail]
    exact congrArg _ (Option.some.inj h)

theorem parlimWrite_next {tile : Nat} {v : Word} (h : outsideEvent (.parlimWrite tile v) s = some t) :
    exec (.parlimWrite tile v) s = .next t := by
  have hexec : exec (.parlimWrite tile v) s = .next (s.setParlim tile v) := rfl
  have hlimit : (if v.toNat % 64 = 0 ∨ 32 < v.toNat % 64 then 32 else v.toNat % 64) =
      if 1 ≤ v.toNat % 64 ∧ v.toNat % 64 ≤ 32 then v.toNat % 64 else 32 := by
    split_ifs <;> omega
  rw [hexec, State.setParlim, hlimit]
  exact congrArg _ (Option.some.inj h)

theorem cvstatW1cWrite_next {crew : Nat} {v : Word} (h : outsideEvent (.cvstatW1cWrite crew v) s = some t) :
    exec (.cvstatW1cWrite crew v) s = .next t := by
  have hexec : exec (.cvstatW1cWrite crew v) s = .next (s.modCrew crew (·.clearCvstat v)) := rfl
  obtain ⟨c, hc, rfl⟩ := Option.map_eq_some_iff.mp h
  rw [hexec, State.modCrew, hc]
  rfl

theorem mstatW1cWrite_next {crew : Nat} {v : Word} (h : outsideEvent (.mstatW1cWrite crew v) s = some t) :
    exec (.mstatW1cWrite crew v) s = .next t := by
  have hexec : exec (.mstatW1cWrite crew v) s =
      .next (s.modCrew crew fun c => { c with mstat := c.mstat &&& ~~~(v &&& 7) }) := rfl
  obtain ⟨c, hc, rfl⟩ := Option.map_eq_some_iff.mp h
  rw [hexec, State.modCrew, hc]

theorem predecessorCommission_next {serial : Word} {hash : Nat}
    (h : outsideEvent (.predecessorCommission serial hash) s = some t) :
    exec (.predecessorCommission serial hash) s = .next t := by
  have hexec : exec (.predecessorCommission serial hash) s = execPredecessorCommission serial hash s := rfl
  obtain ⟨hnone, rfl⟩ := under_eq_some.mp h
  rw [hexec, execPredecessorCommission, if_neg (by simpa using hnone)]

/-! ### Wall-clock time and failures -/

theorem wsRefreshStart_next {bank : Fin 16} (h : outsideEvent (.wsRefreshStart bank) s = some t) :
    exec (.wsRefreshStart bank) s = .next t := by
  have hexec : exec (.wsRefreshStart bank) s = execWsRefreshStart bank s := rfl
  obtain ⟨hnext, rfl⟩ := under_eq_some.mp h
  rw [hexec, execWsRefreshStart, if_neg (by simpa using hnext)]

/-- A core, or the matrix array of a tile, fails (R191). -/
theorem corefail_next {core : Nat} (h : outsideEvent (.corefail core) s = some t) : exec (.corefail core) s = .next t := by
  have hexec : exec (.corefail core) s = execCorefail core s := rfl
  rw [hexec, execCorefail]
  dsimp only [outsideEvent] at h
  by_cases hcore : core < coreCount
  · rw [if_pos hcore] at h ⊢
    obtain ⟨hworks, rfl⟩ := under_eq_some.mp h
    rw [if_neg (by simpa using hworks)]
  · rw [if_neg hcore] at h ⊢
    obtain ⟨hworks, rfl⟩ := under_eq_some.mp h
    dsimp only
    rw [if_neg (by simpa using hworks)]
    rfl

theorem linkfail_next {link : Nat} (h : outsideEvent (.linkfail link) s = some t) : exec (.linkfail link) s = .next t := by
  have hexec : exec (.linkfail link) s = execLinkfail link s := rfl
  obtain ⟨hworks, rfl⟩ := under_eq_some.mp h
  rw [hexec, execLinkfail, if_neg (by simpa using hworks)]

/-! ### Menders -/

theorem answered_eq (m : Nat) (s : State) : answered m s = s.sendAnswers m := by
  unfold answered State.sendAnswers
  congr 1
  funext s a
  cases s.thread? a.1 with
  | none => rfl
  | some line =>
    dsimp only
    by_cases hexited : line.st = .exited
    · rw [if_pos hexited, Option.filter_some_neg (by simp [hexited])]
    · rw [if_neg hexited, Option.filter_some_pos (by simp [hexited])]
      rfl

theorem faultRingPointerWrite_next {m head : Nat} {base : Option Nat}
    (h : outsideEvent (.faultRingPointerWrite m head base) s = some t) :
    exec (.faultRingPointerWrite m head base) s = .next t := by
  have hexec : exec (.faultRingPointerWrite m head base) s = execFaultRingPointerWrite m head base s := rfl
  obtain ⟨hhead, rfl⟩ := under_eq_some.mp h
  rw [hexec, execFaultRingPointerWrite, answered_eq]
  dsimp only
  rw [if_pos (of_decide_eq_true hhead)]
  rfl

/-! ### The host and other packages -/

theorem hostWrite_next {pa : Nat} {bytes : List Byte} {keep : Bool} (h : outsideEvent (.hostWrite pa bytes keep) s = some t) :
    exec (.hostWrite pa bytes keep) s = .next t := by
  have hexec : exec (.hostWrite pa bytes keep) s = execHostWrite pa bytes keep s := rfl
  obtain ⟨hmay, h⟩ := Option.ite_none_right_eq_some.mp h
  rw [hexec, execHostWrite, if_neg (by simpa using hmay)]
  exact congrArg _ (Option.some.inj h)

theorem hostWriteBack_next {line : Nat} {bytes : List Byte} (h : outsideEvent (.hostWriteBack line bytes) s = some t) :
    exec (.hostWriteBack line bytes) s = .next t := by
  have hexec : exec (.hostWriteBack line bytes) s = execHostWriteBack line bytes s := rfl
  obtain ⟨hholds, rfl⟩ := under_eq_some.mp h
  rw [hexec, execHostWriteBack, if_pos (by simpa [and_assoc] using hholds)]
  rfl

theorem backInvalidateAnswer_next {line : Nat} (h : outsideEvent (.backInvalidateAnswer line) s = some t) :
    exec (.backInvalidateAnswer line) s = .next t := by
  have hexec : exec (.backInvalidateAnswer line) s =
      .next (if s.mem.snooped.contains line then s.hostRelease line else s) := rfl
  obtain ⟨hsnooped, rfl⟩ := under_eq_some.mp h
  rw [hexec, if_pos hsnooped]
  rfl

/-- An access from another package runs at its home (R105, R213). -/
theorem fabricAccessArrival_next {pa size : Nat} {op : FabricOp} {time : LTime}
    (h : outsideEvent (.fabricAccessArrival pa size op time) s = some t) :
    exec (.fabricAccessArrival pa size op time) s = .next t := by
  have hexec : exec (.fabricAccessArrival pa size op time) s = execFabricAccessArrival pa size op time s := rfl
  obtain ⟨⟨hsize, hline, hport⟩, h⟩ := Option.ite_none_right_eq_some.mp h
  have hup : s.fabricUp = true := hport
  have hgo : ¬(size = 0 ∨ pa / 128 ≠ (pa + size - 1) / 128 ∨ (!s.fabricUp) = true) := by
    simp [hup, hline]
    omega
  rw [hexec, execFabricAccessArrival, if_neg hgo]
  rcases hread : s.readRaw pa size time with ⟨stop | bytes, s'⟩
  · rw [hread] at h
    cases h
  · rw [hread] at h
    cases op with
    | load => exact congrArg _ (Option.some.inj h)
    | store bytes =>
      obtain ⟨hlen, rfl⟩ := under_eq_some.mp h
      exact congrArg _ (if_pos (beq_iff_eq.mp hlen))
    | amo op f v => exact congrArg _ (Option.some.inj h)
    | cas expect new =>
      refine congrArg _ ((Option.some.inj h).symm ▸ ?_)
      dsimp only [State.fabricAtomic, fabricResult]
      split_ifs <;> rfl

/-! ### Speculative fetches -/

/-- What a speculative fetch brings or drops (R121). -/
theorem speculativeFetch_next {f : SpecFetch} (h : outsideEvent (.speculativeFetch f) s = some t) :
    exec (.speculativeFetch f) s = .next t := by
  suffices hspec : s.speculate f = t from congrArg _ hspec
  cases f with
  | tileLine k va =>
    obtain ⟨line, hline, h⟩ := Option.bind_eq_some_iff.mp h
    rw [State.speculate, hline]
    dsimp only at h ⊢
    generalize (s.resolve (s.agent line) va 1 .read).1 = read at h ⊢
    generalize (s.resolve (s.agent line) va 1 .fetch).1 = fetch at h ⊢
    rcases read with stop | ⟨pa | off | ⟨c, off⟩ | ⟨n, b⟩, attr, bytes, path⟩
    case ok.phys => exact Option.some.inj h
    case error =>
      rcases fetch with stop | ⟨pa | off | ⟨c, off⟩ | ⟨n, b⟩, attr, bytes, path⟩
      case ok.phys => exact Option.some.inj h
      all_goals cases h
    all_goals cases h
  | l2Line addr =>
    obtain ⟨hmay, rfl⟩ := under_eq_some.mp h
    exact if_pos hmay
  | l2Evict addr =>
    obtain ⟨l, hl, h⟩ := Option.bind_eq_some_iff.mp h
    obtain ⟨hpopulated, rfl⟩ := under_eq_some.mp h
    rw [State.speculate, if_pos hpopulated, State.evictL2, hl]
  | l1Evict tile addr => exact Option.some.inj h
  | innLine k =>
    obtain ⟨line, hline, h⟩ := Option.bind_eq_some_iff.mp h
    obtain ⟨c, hc, h⟩ := Option.bind_eq_some_iff.mp h
    obtain ⟨hout, rfl⟩ := under_eq_some.mp h
    rw [State.speculate, hline]
    dsimp only
    rw [hc, if_pos (by simpa [and_assoc] using hout)]

/-! ### The trace unit and the test access port -/

theorem traceRecordWrite_next (h : debugEvent .traceRecordWrite s = some t) : exec .traceRecordWrite s = .next t := by
  have hexec : exec .traceRecordWrite s = execTraceRecordWrite s := rfl
  rw [hexec, execTraceRecordWrite]
  dsimp only [debugEvent] at h
  cases hawait : s.dbg.awaiting with
  | nil =>
    rw [hawait] at h
    cases h
  | cons e es =>
    rw [hawait] at h
    obtain ⟨hfree, h⟩ := Option.ite_none_left_eq_some.mp h
    dsimp only
    rw [if_neg hfree]
    exact congrArg _ (Option.some.inj ((apply_ite some _ _ _).trans h))

theorem arrayrd_next {sel : Word} (h : debugEvent (.arrayrd sel) s = some t) : exec (.arrayrd sel) s = .next t := by
  have hexec : exec (.arrayrd sel) s = execArrayrd sel s := rfl
  rw [hexec, execArrayrd, ← Option.some.inj h]
  simp [State.tap, State.modDbg]

/-! ### All events -/

theorem outsideEvent_next {x : Instr} (h : outsideEvent x s = some t) : exec x s = .next t := by
  cases x
  case deviceReset | clockStepSelect | wsRefreshEnd | hqtailDoorbell | hqEnableWrite =>
    exact congrArg _ (Option.some.inj h)
  case systemSpaceWrite => exact systemSpaceWrite_next h
  case wsRefreshStart => exact wsRefreshStart_next h
  case parlimWrite => exact parlimWrite_next h
  case faultRingPointerWrite => exact faultRingPointerWrite_next h
  case corefail => exact corefail_next h
  case linkfail => exact linkfail_next h
  case predecessorCommission => exact predecessorCommission_next h
  case hostWrite => exact hostWrite_next h
  case hostWriteBack => exact hostWriteBack_next h
  case backInvalidateAnswer => exact backInvalidateAnswer_next h
  case fabricAccessArrival => exact fabricAccessArrival_next h
  case speculativeFetch => exact speculativeFetch_next h
  case cvstatW1cWrite => exact cvstatW1cWrite_next h
  case mstatW1cWrite => exact mstatW1cWrite_next h
  all_goals cases h

theorem debugEvent_next {x : Instr} (h : debugEvent x s = some t) : exec x s = .next t := by
  cases x
  case triggerCycle =>
    obtain ⟨hdone, rfl⟩ := under_eq_some.mp h
    rw [cycleOver_eq]
    exact congrArg _ (if_pos hdone)
  case traceRecordWrite => exact traceRecordWrite_next h
  case arrayrd => exact arrayrd_next h
  case freeze | thaw | extest | samplePreload | idcode | bypass => exact congrArg _ (Option.some.inj h)
  all_goals cases h

/-- Settles O24, event by event. -/
theorem outsideEvents : Obligations.OutsideEvents := by
  intro x s t h
  exact h.elim outsideEvent_next debugEvent_next

end Sys2Proof.Outside

/-! A return from a trap that fails where the state holds a line's number twice (O43). -/

namespace Sys2Proof.Returns

open Sys2Proof Sys2Proof.Machine Sys2Proof.Machine.Claim Sys2Proof.Laws Sys2Proof.Doubled

/-- Crew 0 keeps its trap records at the foot of its own scratchpad. -/
def recordCrew : Crew :=
  { Crew.reset 0 Task.zero { Decl.none with scratch := 64 } with tarea := BitVec.ofNat 64 (9 * 2 ^ 52) }

/-- Line 0's entry of core 0's write-combining buffer, on the block of its trap record. -/
def recordEntry : WcEntry :=
  { thread := 0, target := .spad 0 0, attr := bareAttr 0, path := [], bits := 0, mask := 0, pts := 0, evp := 3,
    scope := .thread, va := 9 * 2 ^ 52, pc := 0, size := 0, data := 0, draining := false }

/-- The doubled state with the record's block in a write-combining entry, and breakpoint slot 0 at line 0's PC (R408). -/
def recordHeldBack : State :=
  let s := doubled resident resident
  { s with crews := [(0, recordCrew)], cores := [(0, { Core.reset with wc := [recordEntry] })],
           dbg := { s.dbg with bps := s.dbg.bps.set 0 { s.dbg.bps[0] with en := true, stop := true } } }

/-- What line 0 begins TRET with. -/
def returnIssue : Issue := { k := 0, t := resident, c := recordCrew, crew := 0 }

/-- TRET. -/
def returns : Instr := .tret ⟨false, 0⟩

theorem returns_begins :
    begins ⟨false, 0⟩ { src := [1, 2], dst := [1, 2], seq := true } recordHeldBack =
      some (returnIssue, { recordHeldBack with issuer := none }) := rfl

theorem recordHeldBack_held : ({ recordHeldBack with issuer := none } : State).recordHeld 0 resident = true := by
  decide +kernel

theorem returns_stops : (lineAfter 0 (exec returns recordHeldBack)).map (·.st) = some .debugStopped := by
  decide +kernel

/-- Refutes O43: TRET waits for the entry that holds its record, its core looks for another line and is offered line 0 again by
the map's second entry, and the breakpoint stops the line in place of its wait. -/
theorem not_trapReturnRestores : ¬ Obligations.TrapReturnRestores := by
  intro h
  obtain ⟨t, w, hw, hst, -⟩ := lineAfter_of_leaves
    ((h ⟨false, 0⟩ recordHeldBack returnIssue _ returns_begins).1 recordHeldBack_held)
  have hline : lineAfter 0 (exec returns recordHeldBack) = some w := hw
  have hstops := returns_stops
  rw [hline] at hstops
  cases hst.symm.trans (Option.some.inj hstops)

end Sys2Proof.Returns

/-! How the next access of a thread comes to its home, what its store leaves there, and what the step then does with the line. -/

namespace Sys2Proof.Binding

open Sys2Proof Sys2Proof.Machine Sys2Proof.Machine.Claim Sys2Proof.Laws Sys2Proof.Events
open Sys2Proof.Encoding (length_natBytes leNat_natBytes leNat_lt)

/-! ### The access that binds -/

section
variable {s : State} {k : Nat} {v : Thread} {acc : Access} {rest : List Access} {p : Part}

/-- The oldest access of a thread, where it keeps the order, is the one that binds next (R112). -/
theorem nextOf_of_oldest {q : AccKind → Bool} (hv : s.thread? k = some v) (hun : v.unbound = acc :: rest)
    (hnb : acc.kind.isNb = false) (hq : q acc.kind = true) (hremote : acc.remote = false) : nextOf s k q = some acc := by
  have hseq : v.sequential = acc :: rest.filter fun a => !a.kind.isNb := by
    rw [Thread.sequential, hun, List.filter_cons_of_pos (by simp [hnb])]
  rw [nextOf, hv, Option.bind_some, foremost, hseq]
  exact List.find?_cons_of_pos (by simp [hq, hremote])

theorem left_of_fresh (hgot : acc.got = []) (hparts : acc.parts = [p]) : acc.left = [p] := by
  rw [Access.left, hgot, hparts]
  rfl

/-- The home of an access in one piece answers it. -/
theorem homeSays_of_answers (hgot : acc.got = []) (hparts : acc.parts = [p]) (hbusy : s.nextBusy acc = false)
    (hfault : s.homeFault p.target p.attr.owner = 0) : homeSays s acc = some 0 := by
  refine homeSays_eq_some.mpr ⟨hbusy, ?_⟩
  simp [State.nextFault, left_of_fresh hgot hparts, State.partsFault, hfault]

/-- The line as its access leaves its list. -/
theorem popped_thread? (hv : s.thread? k = some v) (hun : v.unbound = acc :: rest) :
    (s.modThread k fun t => { t with unbound := t.unbound.erase acc }).thread? k = some { v with unbound := rest } := by
  rw [modThread_same hv, hun, List.erase_cons_head]

end

/-! ### What binding does, kind by kind (R110, R111, R122, R133) -/

section
variable {s : State} {k : Nat} {t : Thread} {acc : Access}

/-- A piece of an access has bound: with the last one `done` is reached, before that the access goes back to its place. -/
def afterPiece (k : Nat) (r : Access × State) (done : State) : State :=
  if r.1.left.isEmpty then done else r.2.unfinished k r.1

theorem bindAccess_store (ht : s.thread? k = some t) (hk : storesOnly acc.kind = true) :
    s.bindAccess k acc = afterPiece k (s.bindStore k t acc) (s.bindStore k t acc).2 := by
  unfold State.bindAccess
  rw [ht]
  dsimp only
  cases hkind : acc.kind
  case store | storePair | storeBits => rfl
  case row isStore =>
    cases isStore with
    | true => rfl
    | false => rw [hkind] at hk; cases hk
  all_goals rw [hkind] at hk; cases hk

/-- The value of a load of the bytes `got`. -/
def loaded (f : Fmt) (acc : Access) (got : List (BitVec 8)) : Word := extend f (acc.pick (leNat got))

theorem bindAccess_load {d : Reg} {f : Fmt} {nb : Bool} {q : FeQual} (ht : s.thread? k = some t)
    (hk : acc.kind = .load d f nb q ∨ acc.kind = .loadBits d f nb) :
    s.bindAccess k acc = afterPiece k (s.bindLoad k t acc nb)
      ((s.bindLoad k t acc nb).2.modThread k fun x => x.land d (loaded f acc (s.bindLoad k t acc nb).1.got)) := by
  unfold State.bindAccess
  rw [ht]
  dsimp only
  rcases hk with hk | hk
  all_goals
    rw [hk]
    rfl

theorem bindAccess_loadPair {d : Reg} {nb : Bool} {q : FeQual} (ht : s.thread? k = some t)
    (hk : acc.kind = .loadPair d nb q) :
    s.bindAccess k acc = afterPiece k (s.bindLoad k t acc nb)
      ((s.bindLoad k t acc nb).2.modThread k fun x =>
        x.landPair d (acc.pick (leNat (s.bindLoad k t acc nb).1.got))) := by
  unfold State.bindAccess
  rw [ht]
  dsimp only
  rw [hk]
  rfl

theorem bindAccess_amo {op : AmoOp} {d : Reg} {f : Fmt} (ht : s.thread? k = some t) (hk : acc.kind = .amo op d f) :
    s.bindAccess k acc =
      (s.atomicBind k t acc fun o => some (amoNew op f o acc.data)).2.modThread k fun x =>
        x.land d (amoOld f (s.atomicBind k t acc fun o => some (amoNew op f o acc.data)).1) := by
  unfold State.bindAccess
  rw [ht]
  dsimp only
  rw [hk]

/-- What a comparison writes: the new value where it holds. -/
def swapped (acc : Access) (e : Nat) (old : Nat) : Option Nat := if old = e then some acc.data else none

theorem bindAccess_cas {d : Reg} {f : Fmt} {e : Nat} (ht : s.thread? k = some t) (hk : acc.kind = .cas d f e) :
    s.bindAccess k acc = (s.atomicBind k t acc (swapped acc e)).2.modThread k fun x =>
      x.land d (amoOld f (s.atomicBind k t acc (swapped acc e)).1) := by
  unfold State.bindAccess
  rw [ht]
  dsimp only
  rw [hk]
  rfl

theorem bindAccess_casp {d : Reg} {e : Nat} (ht : s.thread? k = some t) (hk : acc.kind = .casp d e) :
    s.bindAccess k acc = (s.atomicBind k t acc (swapped acc e)).2.modThread k fun x =>
      x.landPair d (s.atomicBind k t acc (swapped acc e)).1 := by
  unfold State.bindAccess
  rw [ht]
  dsimp only
  rw [hk]
  rfl

end

/-! ### The line once its access has bound -/

section
variable {u : State} {k : Nat} {x : Thread}

/-- What a line's waking, by itself or with others, keeps of it. -/
structure Kept (x y : Thread) : Prop where
  g : y.g = x.g
  pts : y.pts = x.pts
  acq : y.acq = x.acq
  rows : x.await ≠ .rows → y.await ≠ .rows

theorem Kept.refl (x : Thread) : Kept x x := ⟨rfl, rfl, rfl, id⟩

theorem Kept.trans {x y z : Thread} (h : Kept x y) (h' : Kept y z) : Kept x z :=
  ⟨h'.g.trans h.g, h'.pts.trans h.pts, h'.acq.trans h.acq, h'.rows ∘ h.rows⟩

theorem Kept.wake (x : Thread) : Kept x x.wake := by
  unfold Thread.wake
  split
  · exact ⟨rfl, rfl, rfl, fun _ => nofun⟩
  · exact .refl x

theorem wakeOwn_keeps (h : u.thread? k = some x) :
    (∃ y, (u.wakeOwn k).thread? k = some y ∧ Kept x y) ∧
      (u.wakeOwn k).mem = u.mem ∧ (u.wakeOwn k).tiles = u.tiles ∧ (u.wakeOwn k).crews = u.crews := by
  have hline := Plain.PlainChange.wakeWhere_thread? u (fun t => t.st == .waiting && t.await == .key) k
  rw [h, Option.map_some] at hline
  obtain ⟨y, hy, hkept⟩ : ∃ y, (u.wakeAwait .key).thread? k = some y ∧ Kept x y := by
    refine ⟨_, hline, ?_⟩
    split
    · exact .wake x
    · exact .refl x
  unfold State.wakeOwn
  dsimp only
  rw [hy]
  dsimp only
  split
  · exact ⟨⟨y.wake, setThread_same .., hkept.trans (.wake y)⟩, rfl, rfl, rfl⟩
  · exact ⟨⟨y, hy, hkept⟩, rfl, rfl, rfl⟩

/-- Only a line that waits for its rows is completed with them (R322, R330). -/
theorem finishRows_of_not_rows (h : u.thread? k = some x) (hrows : x.await ≠ .rows) : u.finishRows k = u := by
  rw [State.finishRows, h]
  dsimp only
  split
  · rw [if_pos (.inl hrows)]
  · rfl

/-- Once an access has bound, what is said of memory, the tiles, the crews and the line's registers and times stays so. -/
theorem leaves_of_bound {P : State → Thread → Prop} (h : u.thread? k = some x) (hrows : x.await ≠ .rows)
    (hP : ∀ t y, t.mem = u.mem → t.tiles = u.tiles → t.crews = u.crews → Kept x y → P t y) :
    leaves (.next ((u.wakeOwn k).finishRows k)) k P := by
  obtain ⟨⟨y, hy, hkept⟩, hmem, htiles, hcrews⟩ := wakeOwn_keeps h
  rw [finishRows_of_not_rows hy (hkept.rows hrows)]
  exact ⟨_, y, rfl, hy, hP _ y hmem htiles hcrews hkept⟩

end

/-! ### Times and bytes at a home -/

section
variable {s t : State} {w : Target}

theorem lineLease_of_mem (h : t.mem = s.mem) (line : Nat) : t.lineLease line = s.lineLease line := by
  rw [State.lineLease, State.lineLease, h]

theorem leaseAt_of_homes (hmem : t.mem = s.mem) (hcrews : t.crews = s.crews) (w : Target) : leaseAt t w = leaseAt s w := by
  cases w with
  | phys pa => exact lineLease_of_mem hmem _
  | spad c off => rw [leaseAt, leaseAt, State.crew?, State.crew?, hcrews]
  | ws | ctx => rfl

theorem homeIs_of_crews (hcrews : t.crews = s.crews) (w : Target) : homeIs t w = homeIs s w := by
  cases w with
  | spad c off => rw [homeIs, homeIs, State.crew?, State.crew?, hcrews]
  | phys | ws | ctx => rfl

theorem Map.getD_set_same {α : Type} [DecidableEq α] {m : Map α} (h : Machine.Map.sorted m = true) (k : Nat) (d v : α) :
    Machine.Map.getD (Machine.Map.set m k d v) k d = v := by
  unfold Machine.Map.getD Machine.Map.set
  split
  case isTrue hv => rw [Map.get?_del_same h, Option.getD_none, hv]
  case isFalse => rw [Map.get?_put_same, Option.getD_some]

theorem keepLine_lease (s : State) (line evp : Nat) (l : Lease) : (s.keepLine line evp l).lineLease line = l := by
  simp [State.lineLease, State.keepLine, State.setLease, Map.get?_put_same]

/-- A store through to a scratchpad span retags it, and leaves its times (R205). -/
theorem retagSpad_crew? {c : Nat} {x : Crew} (h : s.crew? c = some x) (off owner : Nat) :
    ∃ y, (s.retagSpad c off owner).crew? c = some y ∧ y.span = x.span := by
  unfold State.retagSpad
  rw [h]
  dsimp only
  split
  · exact ⟨x, h, rfl⟩
  · exact ⟨_, setCrew_same .., rfl⟩

theorem retagSpad_threads (s : State) (c off owner : Nat) : (s.retagSpad c off owner).threads = s.threads := by
  unfold State.retagSpad
  split
  · split <;> rfl
  · rfl

theorem modCrew_crews_congr (h : t.crews = s.crews) (c : Nat) (f : Crew → Crew) :
    (t.modCrew c f).crews = (s.modCrew c f).crews := by
  unfold State.modCrew State.crew?
  rw [h]
  split
  · rw [State.setCrew, State.setCrew, h]
  · exact h

theorem retagSpad_byte {c off owner a : Nat}
    (h : (∀ x, s.crew? c = some x → x.spadOwner off = owner) ∨ spadPa c off / 512 ≠ a / 512) :
    byteAt (s.retagSpad c off owner) a = byteAt s a := by
  unfold State.retagSpad
  split
  case h_1 x hx =>
    split
    case isTrue => rfl
    case isFalse hother =>
      have hspan : spadPa c off / 512 ≠ a / 512 := h.resolve_left fun hown => hother (hown x hx)
      refine Memory.read_clearRange _ _ _ ?_
      unfold spadPa at hspan ⊢
      omega
  case h_2 => rfl

theorem retag_byte {m : MemSys} {owner span a : Nat}
    (h : (Map.get? m.tags (a / 512)).all (· == owner) = true ∨ span ≠ a / 512) :
    Memory.read (m.retag owner span).mem a = Memory.read m.mem a := by
  unfold MemSys.retag
  split
  case h_1 tag htag =>
    split
    case isTrue => rfl
    case isFalse hother =>
      have hspan : span ≠ a / 512 := by
        rintro rfl
        simp [htag, hother] at h
      refine Memory.read_clearRange _ _ _ ?_
      omega
  case h_2 => rfl

/-! ### A store at its home -/

section
variable (s : State) (via : Via) (n data mask owner : Nat) (tm : LTime)

/-- The bytes a store leaves from a place on: its own under its mask, and what the home held elsewhere. -/
def stored (m : Memory) (place n data mask : Nat) : Memory :=
  Memory.writeBytes m place (natBytes n (mergeBits (Memory.readNat m place n) data mask))

theorem storeAt_phys_mem (pa : Nat) :
    (s.storeAt via (.phys pa) n data mask owner tm).2.mem.mem = stored (s.mem.retag owner (pa / 512)).mem pa n data mask := by
  unfold State.storeAt
  dsimp only
  rw [staleSet_mem, l1Copies_mem, keepLine_mem]
  rfl

/-- What a store to a scratchpad leaves of memory, the lines and the crews. -/
theorem storeAt_spad (c off : Nat) :
    (s.storeAt via (.spad c off) n data mask owner tm).2.mem.mem =
        stored (s.retagSpad c off owner).mem.mem (spadPa c off) n data mask ∧
      (s.storeAt via (.spad c off) n data mask owner tm).2.threads = s.threads ∧
      (s.storeAt via (.spad c off) n data mask owner tm).2.crews =
        ((s.retagSpad c off owner).modCrew c (·.setSpan off (((s.crew? c).elim Lease.zero (·.spanLease off)).store tm))).crews := by
  unfold State.storeAt
  dsimp only [State.staleSet]
  split
  · split
    all_goals
      simp only [modTile_mem, modCrew_mem, modTile_threads, modCrew_threads, modTile_crews, retagSpad_threads]
      exact ⟨rfl, trivial, modCrew_crews_congr (by rfl) ..⟩
  · simp only [modCrew_mem, modCrew_threads, retagSpad_threads]
    exact ⟨rfl, trivial, modCrew_crews_congr (by rfl) ..⟩

theorem storeAt_ctx_mem (k b : Nat) : (s.storeAt via (.ctx k b) n data mask owner tm).2.mem.mem = s.mem.mem := by
  unfold State.storeAt
  dsimp only
  rw [l1Copies_mem, ctxStore_mem, setLease_mem]

theorem length_readBytes (m : Memory) (a n : Nat) : (Memory.readBytes m a n).length = n := by
  induction n generalizing a with
  | zero => rfl
  | succ n ih => simp [Memory.readBytes, ih]

theorem readNat_lt (m : Memory) (a n : Nat) : Memory.readNat m a n < 256 ^ n := by
  have hlt := leNat_lt (Memory.readBytes m a n)
  rwa [length_readBytes] at hlt

/-- Under a full mask nothing is left of what was there. -/
theorem mergeBits_fullMask {old : Nat} (h : old < 256 ^ n) : mergeBits old data (fullMask n) = data % 256 ^ n := by
  have hpow : (256 : Nat) ^ n = 2 ^ (8 * n) := by rw [Nat.pow_mul]
  rw [hpow] at h ⊢
  rw [mergeBits, fullMask, Nat.and_two_pow_sub_one_eq_mod, Nat.and_two_pow_sub_one_eq_mod, Nat.mod_eq_of_lt h]
  omega

theorem stored_readNat {m : Memory} (h : Memory.wf m = true) (place : Nat) :
    Memory.readNat (stored m place n data (fullMask n)) place n = data % 256 ^ n := by
  have hread := Memory.readBytes_writeBytes h place (natBytes n (data % 256 ^ n))
  rw [length_natBytes] at hread
  rw [stored, mergeBits_fullMask n data (readNat_lt ..), Memory.readNat, hread, leNat_natBytes, Nat.mod_mod]

theorem stored_read (m : Memory) {place a : Nat} (h : ¬(place ≤ a ∧ a < place + n)) :
    Memory.read (stored m place n data mask) a = Memory.read m a :=
  Memory.read_writeBytes_outside _ _ _ (by rwa [length_natBytes])

end

variable (via : Via) (n data mask owner : Nat) (tm : LTime)

/-- A store takes a time above its home's lease (R106, R111). -/
theorem storeAt_time (h : homeIs s w = true) :
    (s.storeAt via w n data mask owner tm).1 = tmax tm (tadd (leaseAt s w).rts 1) := by
  cases w with
  | phys | spad => rfl
  | ws | ctx => cases h

theorem storeAt_threads (h : homeIs s w = true) : (s.storeAt via w n data mask owner tm).2.threads = s.threads := by
  cases w with
  | phys pa => exact Lines.storeAt_phys_threads ..
  | spad c off => exact (storeAt_spad ..).2.1
  | ws | ctx => cases h

theorem storeAt_lease (h : homeIs s w = true) :
    leaseAt (s.storeAt via w n data mask owner tm).2 w = (leaseAt s w).store tm := by
  cases w with
  | phys pa =>
    unfold State.storeAt
    dsimp only [leaseAt]
    rw [lineLease_of_mem (staleSet_mem ..), lineLease_of_mem (l1Copies_mem ..), keepLine_lease]
  | spad c off =>
    obtain ⟨x, hx, hsorted⟩ := (Option.any_eq_true ..).mp h
    obtain ⟨y, hy, hspan⟩ := retagSpad_crew? hx off owner
    obtain ⟨-, -, hcrews⟩ := storeAt_spad s via n data mask owner tm c off
    rw [leaseAt, State.crew?, hcrews, ← State.crew?, modCrew_same hy, leaseAt, hx]
    rw [← hspan] at hsorted
    exact Map.getD_set_same hsorted ..
  | ws | ctx => cases h

/-- What a store under a full mask leaves reads back. -/
theorem storeAt_readNat (h : homeIs s w = true) (hwf : Memory.wf s.mem.mem = true) :
    Memory.readNat (s.storeAt via w n data (fullMask n) owner tm).2.mem.mem (placeOf w) n = data % 256 ^ n := by
  cases w with
  | phys pa =>
    rw [storeAt_phys_mem]
    exact stored_readNat n data (retag_wf hwf ..) pa
  | spad c off =>
    rw [(storeAt_spad ..).1]
    exact stored_readNat n data (retagSpad_canonical (s := s) hwf ..) _
  | ws | ctx => cases h

/-- A store leaves every byte outside its own as it was, but for a span of another owner that it takes over (R205). -/
theorem storeAt_byte {p : Part} {a : Nat} (hkept : spanKept s p owner a)
    (hout : ∀ lo hi, bytesOf p = some (lo, hi) → ¬(lo ≤ a ∧ a < hi)) :
    byteAt (s.storeAt via p.target p.bytes data mask owner tm).2 a = byteAt s a := by
  rcases p with ⟨pa | off | ⟨c, off⟩ | ⟨k, b⟩, attr, bytes, path⟩
  case phys =>
    rw [byteAt, storeAt_phys_mem, stored_read _ _ _ _ (hout _ _ rfl)]
    exact retag_byte hkept
  case spad =>
    rw [byteAt, (storeAt_spad ..).1, stored_read _ _ _ _ (hout _ _ rfl)]
    exact retagSpad_byte hkept
  case ws => rfl
  case ctx => rw [byteAt, storeAt_ctx_mem, byteAt]

end

end Sys2Proof.Binding

/-! What the stores of threads leave of memory (O50): loads, and what a step does with its lines, change no byte; a store changes
none outside the piece that binds. -/

namespace Sys2Proof.Stores

open Sys2Proof Sys2Proof.Machine Sys2Proof.Machine.Claim Sys2Proof.Laws Sys2Proof.Events Sys2Proof.Binding

section
variable (s : State)

/-! ### Steps of lines that leave memory -/

@[simp] theorem meterIf_mem (a : PageAttr) (reads bytes : Nat) : (s.meterIf a reads bytes).mem = s.mem := by
  unfold State.meterIf
  split <;> rfl

theorem meterIf_crews (a : PageAttr) (reads bytes : Nat) : (s.meterIf a reads bytes).crews = s.crews := by
  unfold State.meterIf
  split <;> rfl

theorem meterIf_threads (a : PageAttr) (reads bytes : Nat) : (s.meterIf a reads bytes).threads = s.threads := by
  unfold State.meterIf
  split <;> rfl

@[simp] theorem meterAll_mem (xs : List (PageAttr × Nat × Nat)) : (s.meterAll xs).mem = s.mem :=
  foldl_keeps (P := fun x : State => x.mem = s.mem) (fun x _ hx => (meterIf_mem x ..).trans hx) rfl xs

theorem meterAll_crews (xs : List (PageAttr × Nat × Nat)) : (s.meterAll xs).crews = s.crews :=
  foldl_keeps (P := fun x : State => x.crews = s.crews) (fun x _ hx => (meterIf_crews x ..).trans hx) rfl xs

theorem meterAll_threads (xs : List (PageAttr × Nat × Nat)) : (s.meterAll xs).threads = s.threads :=
  foldl_keeps (P := fun x : State => x.threads = s.threads) (fun x _ hx => (meterIf_threads x ..).trans hx) rfl xs

@[simp] theorem wr_mem (k : Nat) (d : Reg) (v : Word) : (s.wr k d v).mem = s.mem := by
  unfold State.wr
  split
  · rfl
  · split
    · exact modQueue_mem ..
    · rfl

@[simp] theorem fillSlot_mem (c : Nat) (q : Reg) (n : Nat) (v : Word) (fault : Bool) :
    (s.fillSlot c q n v fault).mem = s.mem := modQueue_mem ..

@[simp] theorem complete_mem (k : Nat) : (s.complete k).mem = s.mem := by
  unfold State.complete
  split
  · split
    · dsimp only
      split <;> simp
    · rfl
  · rfl

@[simp] theorem finishRows_mem (k : Nat) : (s.finishRows k).mem = s.mem := by
  unfold State.finishRows
  split
  · rfl
  · split
    · split
      · rfl
      · split
        · rfl
        · split
          · rfl
          · dsimp only
            rw [complete_mem, setCrew_mem]
            split
            · exact meterAll_mem ..
            · rfl
    · rfl

@[simp] theorem wakeOwn_mem (k : Nat) : (s.wakeOwn k).mem = s.mem := by
  unfold State.wakeOwn
  dsimp only
  split
  · rfl
  · split <;> rfl

/-! ### Loads -/

theorem looseTime_mem (t : Thread) (a : Access) (p : Part) (before after : LTime) :
    (s.looseTime t a p before after).2.mem = s.mem := by
  unfold State.looseTime
  split
  · dsimp only
    split <;> rfl
  · rfl

theorem seqPiece_mem (t : Thread) (a : Access) (p : Part) (tm : LTime) :
    (s.seqPiece t a p tm).2.2.mem.mem = s.mem.mem := by
  have hplain (u : State) : ((u.loadAt a.tile p.target p.bytes p.attr a.evp tm).2.2.looseTime t a p tm
      (u.loadAt a.tile p.target p.bytes p.attr a.evp tm).2.1).2.mem.mem = u.mem.mem := by
    rw [looseTime_mem, loadAt_mem]
  unfold State.seqPiece
  dsimp only
  split
  · exact hplain s
  · split
    · exact congrArg MemSys.mem (l1Touch_mem ..)
    · exact hplain s.choose.2

theorem nbLine_mem (t : Thread) (a : Access) (p : Part) (line off : Nat) (attr : PageAttr) :
    (s.nbLine t a p line off attr).2.mem.mem = s.mem.mem := by
  unfold State.nbLine
  dsimp only
  split
  · exact congrArg MemSys.mem (l1Touch_mem ..)
  · exact lineFetch_mem _ _ _ off p.bytes ..

theorem nbPiece_mem (t : Thread) (a : Access) (p : Part) : (s.nbPiece t a p).2.mem.mem = s.mem.mem := by
  unfold State.nbPiece
  split
  · exact nbLine_mem ..
  · exact nbLine_mem ..
  · exact loadAt_mem ..

theorem loadPiece_mem (k : Nat) (t : Thread) (a : Access) (p : Part) (nb : Bool) :
    (s.loadPiece k t a p nb).2.mem.mem = s.mem.mem := by
  unfold State.loadPiece
  cases nb with
  | true => exact nbPiece_mem ..
  | false => exact (congrArg MemSys.mem (modThread_mem ..)).trans (seqPiece_mem ..)

theorem bindLoad_mem (k : Nat) (t : Thread) (a : Access) (nb : Bool) : (s.bindLoad k t a nb).2.mem.mem = s.mem.mem := by
  unfold State.bindLoad
  split
  · rfl
  · dsimp only
    split
    · exact (congrArg MemSys.mem (meterAll_mem ..)).trans (loadPiece_mem ..)
    · exact loadPiece_mem ..

theorem touchHome_mem (p : Part) (evp : Nat) (tm : LTime) : (s.touchHome p evp tm).2.mem.mem = s.mem.mem := by
  unfold State.touchHome
  split
  · exact recordRead_mem ..
  · rfl
  · exact congrArg MemSys.mem (modCrew_mem ..)
  · rfl

/-! ### Stores -/

variable {s}

/-- A store of this owner to the piece leaves byte `a`. -/
def Misses (s : State) (o a : Nat) (p : Part) : Prop :=
  p.attr.owner = o ∧ spanKept s p o a ∧ ∀ lo hi, bytesOf p = some (lo, hi) → ¬(lo ≤ a ∧ a < hi)

theorem Misses.of_homes {t : State} {o a : Nat} {p : Part} (h : Misses s o a p) (hmem : t.mem = s.mem)
    (hcrews : t.crews = s.crews) : Misses t o a p := by
  obtain ⟨howner, hkept, hout⟩ := h
  refine ⟨howner, ?_, hout⟩
  unfold spanKept State.crew? at hkept ⊢
  rwa [hmem, hcrews]

theorem Misses.storeAt {o a : Nat} {p : Part} (h : Misses s o a p) (via : Via) (data mask : Nat) (tm : LTime) :
    byteAt (s.storeAt via p.target p.bytes data mask p.attr.owner tm).2 a = byteAt s a := by
  obtain ⟨rfl, hkept, hout⟩ := h
  exact storeAt_byte via data mask _ tm hkept hout

theorem byteAt_of_mem {t : State} (h : t.mem.mem = s.mem.mem) (a : Nat) : byteAt t a = byteAt s a := by
  rw [byteAt, byteAt, h]

theorem bindStore_byte {k : Nat} {t : Thread} {acc : Access} {o a : Nat} (h : ∀ p ∈ acc.left.take 1, Misses s o a p) :
    byteAt (s.bindStore k t acc).2 a = byteAt s a := by
  unfold State.bindStore
  split
  · rfl
  · rename_i p ps hleft
    rw [hleft] at h
    exact (byteAt_of_mem (congrArg MemSys.mem (modThread_mem ..)) a).trans
      ((h p (List.mem_singleton_self p)).storeAt ..)

theorem atomicBind_byte {k : Nat} {t : Thread} {acc : Access} {f : Nat → Option Nat} {o a : Nat}
    (h : ∀ p ∈ acc.parts.take 1, Misses s o a p) : byteAt (s.atomicBind k t acc f).2 a = byteAt s a := by
  unfold State.atomicBind
  split
  · rfl
  · rename_i p ps hparts
    rw [hparts] at h
    have hmetered : Misses (s.meterAccess acc) o a p :=
      (h p (List.mem_singleton_self p)).of_homes (meterAll_mem ..) (meterAll_crews ..)
    have hbytes : byteAt (s.meterAccess acc) a = byteAt s a := byteAt_of_mem (congrArg MemSys.mem (meterAll_mem ..)) a
    refine (byteAt_of_mem (congrArg MemSys.mem (modThread_mem ..)) a).trans (Eq.trans ?_ hbytes)
    split
    · exact hmetered.storeAt ..
    · exact byteAt_of_mem (touchHome_mem ..) a

theorem unfinished_mem (u : State) (k : Nat) (acc : Access) : (u.unfinished k acc).mem = u.mem := modThread_mem ..

theorem afterPiece_byte {r : Access × State} {done : State} {k a : Nat} (h : byteAt r.2 a = byteAt s a)
    (hdone : done.mem = r.2.mem) : byteAt (afterPiece k r done) a = byteAt s a := by
  unfold afterPiece
  split
  · exact (byteAt_of_mem (congrArg MemSys.mem hdone) a).trans h
  · exact (byteAt_of_mem (congrArg MemSys.mem (unfinished_mem ..)) a).trans h

/-- What a store leaves once its next piece has bound. -/
theorem bindAccess_byte_of_stores {k : Nat} {acc : Access} {o a : Nat} (hkind : storesOnly acc.kind = true)
    (h : ∀ p ∈ acc.left.take 1, Misses s o a p) : byteAt (s.bindAccess k acc) a = byteAt s a := by
  cases ht : s.thread? k with
  | none => rw [State.bindAccess, ht]
  | some t =>
    rw [bindAccess_store ht hkind]
    exact afterPiece_byte (bindStore_byte h) rfl

/-- What a load or an atomic leaves once its next piece has bound. -/
theorem bindAccess_byte_of_fills {k : Nat} {acc : Access} {o a : Nat} (hkind : fills acc.kind = true)
    (h : ∀ p ∈ acc.parts.take 1, Misses s o a p) : byteAt (s.bindAccess k acc) a = byteAt s a := by
  cases ht : s.thread? k with
  | none => rw [State.bindAccess, ht]
  | some t =>
    have hload (nb : Bool) : byteAt (s.bindLoad k t acc nb).2 a = byteAt s a := byteAt_of_mem (bindLoad_mem ..) a
    have hatomic (f : Nat → Option Nat) (g : Thread → Thread) :
        byteAt ((s.atomicBind k t acc f).2.modThread k g) a = byteAt s a :=
      (byteAt_of_mem (congrArg MemSys.mem (modThread_mem ..)) a).trans (atomicBind_byte h)
    cases hk : acc.kind
    case load => rw [bindAccess_load ht (.inl hk)]; exact afterPiece_byte (hload _) (modThread_mem ..)
    case loadBits => rw [bindAccess_load (q := .plain) ht (.inr hk)]; exact afterPiece_byte (hload _) (modThread_mem ..)
    case loadPair => rw [bindAccess_loadPair ht hk]; exact afterPiece_byte (hload _) (modThread_mem ..)
    case amo => rw [bindAccess_amo ht hk]; exact hatomic ..
    case cas => rw [bindAccess_cas ht hk]; exact hatomic ..
    case casp => rw [bindAccess_casp ht hk]; exact hatomic ..
    case row isStore =>
      cases isStore with
      | true => rw [hk] at hkind; cases hkind
      | false =>
        unfold State.bindAccess
        rw [ht]
        dsimp only
        rw [hk]
        exact afterPiece_byte (hload false) (modThread_mem ..)
    all_goals rw [hk] at hkind; cases hkind

/-! ### The events that store -/

theorem nextOf_kind {k : Nat} {q : AccKind → Bool} {acc : Access} (h : nextOf s k q = some acc) : q acc.kind = true := by
  obtain ⟨line, -, hfind⟩ := Option.bind_eq_some_iff.mp h
  exact (Bool.and_eq_true_iff.mp (List.find?_some (p := fun a : Access => q a.kind && !a.remote) hfind)).1

/-- A thread's next access binds, or waits, or is left to its fault (R122, R123). -/
theorem bindHead_byte {k : Nat} {q : AccKind → Bool} {a : Nat}
    (h : ∀ acc, nextOf s k q = some acc → ∀ u : State, u.mem = s.mem → u.crews = s.crews →
      byteAt (u.bindAccess k acc) a = byteAt u a) : byteAt (s.bindHead k q) a = byteAt s a := by
  unfold State.bindHead
  rw [← nextOf_eq_headAccess]
  split
  case h_1 => rfl
  case h_2 acc hnext =>
    split
    · exact byteAt_of_mem (snoop_mem ..) a
    · split
      · rfl
      · have hpop : (s.popAccess k acc).mem = s.mem := modThread_mem ..
        calc byteAt (((s.popAccess k acc).bindAccess k acc).wakeOwn k) a
          _ = byteAt ((s.popAccess k acc).bindAccess k acc) a := byteAt_of_mem (congrArg MemSys.mem (wakeOwn_mem ..)) a
          _ = byteAt (s.popAccess k acc) a := h acc hnext _ hpop (modThread_crews ..)
          _ = byteAt s a := byteAt_of_mem (congrArg MemSys.mem hpop) a

theorem storeBind_byte {k o a : Nat} {t : State} (hx : exec (.storeBind k) s = .next t)
    (h : ∀ acc, nextOf s k storesOnly = some acc → untouched s (acc.left.take 1) o a) : byteAt t a = byteAt s a := by
  rw [exec_storeBind_eq] at hx
  obtain rfl := Host.Outcome.next.inj hx
  refine (byteAt_of_mem (congrArg MemSys.mem (finishRows_mem ..)) a).trans (bindHead_byte fun acc hnext u hmem hcrews => ?_)
  exact bindAccess_byte_of_stores (nextOf_kind hnext) fun p hp => Misses.of_homes (h acc hnext p hp) hmem hcrews

theorem loadFill_byte {k o a : Nat} {t : State} (hx : exec (.loadFill k) s = .next t)
    (h : ∀ acc, nextOf s k fills = some acc → untouched s (acc.parts.take 1) o a) : byteAt t a = byteAt s a := by
  rw [exec_loadFill_eq] at hx
  obtain rfl := Host.Outcome.next.inj hx
  refine (byteAt_of_mem (congrArg MemSys.mem (finishRows_mem ..)) a).trans (bindHead_byte fun acc hnext u hmem hcrews => ?_)
  exact bindAccess_byte_of_fills (nextOf_kind hnext) fun p hp => Misses.of_homes (h acc hnext p hp) hmem hcrews

@[simp] theorem wakeDrained_mem (u : State) (core k : Nat) : (u.wakeDrained core k).mem = u.mem :=
  (wakeOwn_mem ..).trans rfl

theorem wcEntryDrain_byte {core block k a : Nat} {t : State} (hx : exec (.wcEntryDrain core block k) s = .next t)
    (h : ∀ w, ((s.core core).wc.find? fun w => w.thread == k && w.target.block == block) = some w →
      untouched s [{ target := w.target, attr := w.attr, bytes := 64 }] w.attr.owner a) : byteAt t a = byteAt s a := by
  have hexec : exec (.wcEntryDrain core block k) s = execWcEntryDrain core block k s := rfl
  rw [hexec, execWcEntryDrain] at hx
  obtain rfl := Host.Outcome.next.inj hx
  split
  case h_1 => rfl
  case h_2 w hw =>
    split
    · exact byteAt_of_mem (snoop_mem ..) a
    · dsimp only
      split
      · exact byteAt_of_mem (by simp) a
      · refine (byteAt_of_mem (congrArg MemSys.mem ((wakeDrained_mem ..).trans (modThread_mem ..))) a).trans ?_
        have hmisses : Misses (s.modCore core fun c => { c with wc := c.wc.erase w }) w.attr.owner a
            { target := w.target, attr := w.attr, bytes := 64 } := h w hw _ (List.mem_singleton_self _)
        exact hmisses.storeAt ..

/-- Settles O50: an access that binds, and an entry that drains, stores at most once, and to one piece. -/
theorem storeFrame : Obligations.StoreFrame :=
  ⟨fun _ _ _ _ _ hx h => storeBind_byte hx h, fun _ _ _ _ _ hx h => loadFill_byte hx h,
    fun _ _ _ _ _ _ hx h => wcEntryDrain_byte hx h⟩

end

end Sys2Proof.Stores

/-! A thread's store at its home (O55): the lease it leaves, its bytes, and the copy of the line in the issuing tile's L1. -/

namespace Sys2Proof.HomeStores

open Sys2Proof Sys2Proof.Machine Sys2Proof.Machine.Claim Sys2Proof.Laws Sys2Proof.Events Sys2Proof.Binding

/-! ### The copies a store brings up to date -/

section
variable {s : State} {n line owner : Nat} {h : Lease} {f : L1Line → List Byte}

/-- The tile's L1 holds the line under this lease. -/
def HoldsUnder (s : State) (n line : Nat) (h : Lease) : Prop :=
  ∃ l, (s.tile n).l1find line = some l ∧ l.wts = h.wts ∧ l.rts = h.rts

theorem l1find_l1update {t : Tile} {l : L1Line} {g : L1Line → L1Line} (hline : ∀ l, (g l).line = l.line)
    (hl : t.l1find line = some l) : (t.l1update line g).l1find line = some (g l) := by
  have hat : l.line = line := by simpa using List.find?_some hl
  have hsame : ((fun l : L1Line => l.line == line) ∘ fun l => if l.line = line then g l else l) = fun l => l.line == line := by
    funext l
    simp only [Function.comp]
    split
    · rw [hline]
    · rfl
  have hfind : t.l1.find? (fun l => l.line == line) = some l := hl
  rw [Tile.l1find, Tile.l1update, List.find?_map, hsame, hfind, Option.map_some, if_pos hat]

/-- A tile whose L1 holds the line takes the new lease. -/
theorem holdsUnder_of_update {l : L1Line} (hl : (s.tile n).l1find line = some l) :
    HoldsUnder (s.modTile n fun x => x.l1update line fun l => { l with data := f l, wts := h.wts, rts := h.rts, owner := owner })
      n line h := by
  refine ⟨{ l with data := f l, wts := h.wts, rts := h.rts, owner := owner }, ?_, rfl, rfl⟩
  rw [modTile_same]
  exact l1find_l1update (fun _ => rfl) hl

theorem l1Copies_cons (m : Nat) (ms : List Nat) :
    s.l1Copies (m :: ms) line owner h f = (s.l1Copies [m] line owner h f).l1Copies ms line owner h f := rfl

/-- Bringing one tile's copy up to date leaves another tile's, and gives that tile's own the new lease. -/
theorem l1Copies_one {l : L1Line} (m : Nat) (hl : (s.tile n).l1find line = some l) :
    if m = n then HoldsUnder (s.l1Copies [m] line owner h f) n line h
    else (s.l1Copies [m] line owner h f).tile n = s.tile n := by
  unfold State.l1Copies
  rw [List.foldl_cons, List.foldl_nil]
  split
  case isTrue heq =>
    subst heq
    rw [if_pos (by rw [hl]; rfl)]
    exact holdsUnder_of_update hl
  case isFalse hne =>
    split
    · exact modTile_ne _ _ hne
    · rfl

theorem HoldsUnder.l1Copies (hold : HoldsUnder s n line h) (ms : List Nat) :
    HoldsUnder (s.l1Copies ms line owner h f) n line h := by
  refine foldl_keeps (P := (HoldsUnder · n line h)) (fun u m hu => ?_) hold ms
  obtain ⟨l, hl, hlease⟩ := hu
  have hone := l1Copies_one (owner := owner) (h := h) (f := f) m hl
  change HoldsUnder (u.l1Copies [m] line owner h f) n line h
  split at hone
  · exact hone
  · exact ⟨l, by rw [hone]; exact hl, hlease⟩

/-- A copy in a tile that a store brings up to date takes the store's lease (R111). -/
theorem l1Copies_holdsUnder {l : L1Line} {ms : List Nat} (hn : n ∈ ms) (hl : (s.tile n).l1find line = some l) :
    HoldsUnder (s.l1Copies ms line owner h f) n line h := by
  induction ms generalizing s with
  | nil => cases hn
  | cons m ms ih =>
    have hone := l1Copies_one (owner := owner) (h := h) (f := f) m hl
    rw [l1Copies_cons]
    split at hone
    case isTrue => exact hone.l1Copies ms
    case isFalse hne =>
      have htail : n ∈ ms := (List.mem_cons.mp hn).resolve_left (Ne.symm hne)
      exact ih htail (by rw [hone]; exact hl)

end

section
variable {s : State}

theorem elim_evictL2_tiles (s : State) (o : Option Nat) : (o.elim s s.evictL2).tiles = s.tiles := by
  cases o with
  | none => rfl
  | some line =>
    rw [Option.elim_some, State.evictL2]
    split <;> rfl

theorem keepLine_tiles (line evp : Nat) (l : Lease) : (s.keepLine line evp l).tiles = s.tiles := by
  unfold State.keepLine State.touchL2
  split
  · rfl
  · dsimp only
    split
    · rfl
    · split
      · rfl
      · exact elim_evictL2_tiles _ _

theorem storeAt_holdsUnder {via : Via} {pa n data mask owner m : Nat} {tm : LTime} {l : L1Line} (hm : m ∈ via.tiles)
    (hl : (s.tile m).l1find (pa / 128) = some l) :
    HoldsUnder (s.storeAt via (.phys pa) n data mask owner tm).2 m (pa / 128) ((s.lineLease (pa / 128)).store tm) := by
  unfold State.storeAt
  dsimp only
  refine l1Copies_holdsUnder (l := l) hm ?_
  rw [State.tile, keepLine_tiles]
  exact hl

theorem mem_viaOf_tiles (t : Thread) (acc : Access) : acc.tile ∈ (s.viaOf t acc).tiles := by
  unfold State.viaOf Agent.viaFrom
  dsimp only
  split <;> exact List.mem_cons_self

end

/-! ### A store that binds -/

section
variable {s : State} {k : Nat} {v : Thread} {acc : Access} {p : Part}

/-- What a whole store to one line or span makes of its bits: the low bytes of its data, under a full mask. -/
theorem bindStore_whole (hbit : acc.bit = 0) (hgot : acc.got = []) (hparts : acc.parts = [p])
    (hwidth : acc.width = 8 * p.bytes) :
    s.bindStore k v acc =
      (let r := s.storeAt (s.viaOf v acc) p.target p.bytes (acc.data % 2 ^ acc.width) (fullMask p.bytes) p.attr.owner v.pts
       ({ acc with got := List.replicate p.bytes 0 }, r.2.modThread k fun t => t.raise r.1)) := by
  have hmask : (2 ^ acc.width - 1) * 2 ^ 0 / 2 ^ 0 % 2 ^ (8 * p.bytes) = fullMask p.bytes := by
    rw [hwidth, fullMask, pow_zero, Nat.mul_one, Nat.div_one, Nat.mod_eq_of_lt]
    exact Nat.sub_one_lt (Nat.two_pow_pos _).ne'
  unfold State.bindStore
  rw [left_of_fresh hgot hparts]
  dsimp only
  rw [hgot, hbit, List.length_nil, Nat.mul_zero, hmask, ← hwidth]
  simp

/-- A piece that has bound leaves memory, the tiles and the crews as its home did, and keeps the line. -/
theorem afterPiece_keeps {r : Access × State} {x : Thread} (h : r.2.thread? k = some x) :
    (∃ y, (afterPiece k r r.2).thread? k = some y ∧ Kept x y ∧ y.await = x.await) ∧
      (afterPiece k r r.2).mem = r.2.mem ∧ (afterPiece k r r.2).tiles = r.2.tiles ∧
      (afterPiece k r r.2).crews = r.2.crews := by
  unfold afterPiece
  split
  · exact ⟨⟨x, h, .refl x, rfl⟩, rfl, rfl, rfl⟩
  · exact ⟨⟨_, modThread_same h _, ⟨rfl, rfl, rfl, id⟩, rfl⟩, modThread_mem .., modThread_tiles .., modThread_crews ..⟩

/-- A thread's store binds with its last piece or an earlier one; what it leaves of memory, the tiles and the line stays so. -/
theorem exec_storeBind_leaves {P : State → Thread → Prop} {rest : List Access} (hv : s.thread? k = some v)
    (hun : v.unbound = acc :: rest) (hkind : storesOnly acc.kind = true) (hnb : acc.kind.isNb = false)
    (hremote : acc.remote = false) (hrows : v.await ≠ .rows) (hsays : homeSays s acc = some 0)
    (hP : ∀ u x, u = s.modThread k (fun t => { t with unbound := t.unbound.erase acc }) → x = { v with unbound := rest } →
      ∃ y, (u.bindStore k x acc).2.thread? k = some y ∧ y.await = v.await ∧
        ∀ t z, t.mem = (u.bindStore k x acc).2.mem → t.tiles = (u.bindStore k x acc).2.tiles →
          t.crews = (u.bindStore k x acc).2.crews → Kept y z → P t z) :
    leaves (exec (.storeBind k) s) k P := by
  have hx := popped_thread? hv hun
  obtain ⟨y, hy, hawait, hleft⟩ := hP _ _ rfl rfl
  rw [exec_storeBind_eq, bindHead_of_nextOf (nextOf_of_oldest hv hun hnb hkind hremote) hsays, binds,
    bindAccess_store hx hkind]
  obtain ⟨⟨z, hz, hkept, hsame⟩, hmem, htiles, hcrews⟩ := afterPiece_keeps hy
  refine leaves_of_bound hz (by rw [hsame, hawait]; exact hrows) fun t w htm htt htc hw => ?_
  exact hleft t w (htm.trans hmem) (htt.trans htiles) (htc.trans hcrews) (hkept.trans hw)

end

/-- Settles O55: the store takes its home's time, which the line and the copies take from it. -/
theorem storeBindsAtHome : Obligations.StoreBindsAtHome := by
  intro k s v acc rest p hv hun hkind hremote hrows hbit hgot hparts hwidth hhome hbusy hfault hwf w
  have hstores : storesOnly acc.kind = true ∧ acc.kind.isNb = false := by
    rcases hkind with h | h | h <;> rw [h] <;> exact ⟨rfl, rfl⟩
  refine exec_storeBind_leaves hv hun hstores.1 hstores.2 hremote hrows (homeSays_of_answers hgot hparts hbusy hfault) ?_
  rintro u x hu rfl
  have hmem : u.mem = s.mem := by rw [hu, modThread_mem]
  have hcrews : u.crews = s.crews := by rw [hu, modThread_crews]
  have hx : u.thread? k = some { v with unbound := rest } := by rw [hu, popped_thread? hv hun]
  have hhome' : homeIs u p.target = true := by rw [homeIs_of_crews hcrews, hhome]
  have hlease : leaseAt u p.target = leaseAt s p.target := leaseAt_of_homes hmem hcrews _
  rw [bindStore_whole hbit hgot hparts hwidth]
  generalize hvia : u.viaOf { v with unbound := rest } acc = via
  have hthreads := storeAt_threads via p.bytes (acc.data % 2 ^ acc.width) (fullMask p.bytes) p.attr.owner v.pts hhome'
  have hline : (u.storeAt via p.target p.bytes (acc.data % 2 ^ acc.width) (fullMask p.bytes) p.attr.owner v.pts).2.thread? k =
      some { v with unbound := rest } := by rw [State.thread?, hthreads]; exact hx
  refine ⟨_, modThread_same hline _, rfl, fun t z htm htt htc hz => ⟨?_, ?_, ?_, ?_⟩⟩
  · rw [modThread_mem] at htm
    rw [modThread_crews] at htc
    rw [leaseAt_of_homes htm htc, storeAt_lease _ _ _ _ _ _ hhome', hlease]
    rfl
  · rw [hz.pts, storeAt_time _ _ _ _ _ _ hhome', hlease]
    rfl
  · rw [modThread_mem] at htm
    have hbytes : (256 : Nat) ^ p.bytes = 2 ^ acc.width := by rw [hwidth, Nat.pow_mul]
    rw [htm, storeAt_readNat _ _ _ _ _ hhome' (by rw [hmem]; exact hwf), hbytes, Nat.mod_mod]
  · intro pa l htarget hl
    have hm : acc.tile ∈ via.tiles := hvia ▸ mem_viaOf_tiles _ acc
    have hl' : (u.tile acc.tile).l1find (pa / 128) = some l := by rw [State.tile, hu, modThread_tiles]; exact hl
    rw [modThread_tiles, htarget] at htt
    obtain ⟨l', hfind, hwts, hrts⟩ := storeAt_holdsUnder (n := p.bytes) (data := acc.data % 2 ^ acc.width)
      (mask := fullMask p.bytes) (owner := p.attr.owner) (tm := v.pts) hm hl'
    rw [htarget] at hlease
    refine ⟨l', by rw [State.tile, htt]; exact hfind, hwts.trans ?_, hrts.trans ?_⟩
    all_goals
      change ((leaseAt u (.phys pa)).store v.pts).rts = w
      rw [hlease, ← htarget]
      rfl

end Sys2Proof.HomeStores

/-! A thread's atomic at its home (O56): the home's times, the new value there, and the register with the old one. -/

namespace Sys2Proof.HomeAtomics

open Sys2Proof Sys2Proof.Machine Sys2Proof.Machine.Claim Sys2Proof.Laws Sys2Proof.Events Sys2Proof.Binding Sys2Proof.Stores
open Sys2Proof.Encoding (leNat_lt)

/-! ### The values of Table 6.3 -/

/-- The integer that the low bits stand for is that of the machine word. -/
theorem signed_eq_toInt {w : Nat} (hw : 0 < w) (x : Nat) : signed x w = (BitVec.ofNat w x).toInt := by
  have hpow : 2 ^ w = 2 * 2 ^ (w - 1) := by rw [← Nat.pow_succ', Nat.succ_eq_add_one, Nat.sub_add_cancel hw]
  have hpowInt : (2 : Int) ^ w = ((2 ^ w : Nat) : Int) := by push_cast; rfl
  rw [signed, BitVec.toInt, BitVec.toNat_ofNat, hpowInt]
  have hne : w ≠ 0 := by omega
  generalize hv : x % 2 ^ w = v
  simp only [hne, ne_eq, not_false_eq_true, true_and]
  split <;> split <;> omega

/-- What a signed minimum or maximum keeps of two words. -/
theorem amoNew_signed {f : Fmt} {old opnd : Nat} (hs : f.isSigned = true) (hw : 0 < f.width) (hold : old < 2 ^ f.width)
    (hop : opnd < 2 ^ f.width) :
    let a := BitVec.ofNat f.width old
    let b := BitVec.ofNat f.width opnd
    amoNew .min f old opnd = (if a.slt b = true then a.toNat else b.toNat) ∧
      amoNew .max f old opnd = if a.slt b = true then b.toNat else a.toNat := by
  intro a b
  have ha : a.toNat = old := by rw [BitVec.toNat_ofNat, Nat.mod_eq_of_lt hold]
  have hb : b.toNat = opnd := by rw [BitVec.toNat_ofNat, Nat.mod_eq_of_lt hop]
  have hsame (h : a.toInt = b.toInt) : old = opnd := by rw [← ha, ← hb, BitVec.eq_of_toInt_eq h]
  simp only [amoNew, hs, if_true, signed_eq_toInt hw, BitVec.slt_iff_toInt_lt]
  change (if b.toInt < a.toInt then opnd else old) = _ ∧ (if a.toInt < b.toInt then opnd else old) = _
  rw [ha, hb]
  constructor
  · split <;> split <;> omega
  · rfl

theorem amoNew_unsigned {f : Fmt} {old opnd : Nat} (hs : f.isSigned = false) (hold : old < 2 ^ f.width)
    (hop : opnd < 2 ^ f.width) :
    let a := BitVec.ofNat f.width old
    let b := BitVec.ofNat f.width opnd
    amoNew .min f old opnd = (if a.ult b = true then a.toNat else b.toNat) ∧
      amoNew .max f old opnd = if a.ult b = true then b.toNat else a.toNat := by
  intro a b
  have ha : a.toNat = old := by rw [BitVec.toNat_ofNat, Nat.mod_eq_of_lt hold]
  have hb : b.toNat = opnd := by rw [BitVec.toNat_ofNat, Nat.mod_eq_of_lt hop]
  simp only [amoNew, hs, Bool.false_eq_true, if_false, BitVec.ult, decide_eq_true_eq, ha, hb]
  constructor <;> split <;> omega

/-- The low bits of what an AMO stores, for an old value and an operand of its width (R136). -/
theorem amoNew_mod {f : Fmt} {op : AmoOp} {old opnd : Nat} (hw : 0 < f.width) (hold : old < 2 ^ f.width)
    (hop : opnd < 2 ^ f.width) :
    amoNew op f old opnd % 2 ^ f.width =
      (let a := BitVec.ofNat f.width old
       let b := BitVec.ofNat f.width opnd
       match op with
       | .swap => opnd
       | .add => (a + b).toNat
       | .and => (a &&& b).toNat
       | .or => (a ||| b).toNat
       | .xor => (a ^^^ b).toNat
       | .min => if (if f.isSigned then a.slt b else a.ult b) = true then a.toNat else b.toNat
       | .max => if (if f.isSigned then a.slt b else a.ult b) = true then b.toNat else a.toNat
       | .fadd => ((floatNum f old).add (floatNum f opnd)).encode f % 2 ^ f.width) := by
  have hpick (c : Prop) [Decidable c] (a b : BitVec f.width) :
      (if c then a.toNat else b.toNat) % 2 ^ f.width = if c then a.toNat else b.toNat := by
    split <;> exact Nat.mod_eq_of_lt (BitVec.isLt _)
  cases op
  case swap => exact Nat.mod_eq_of_lt hop
  case add => simp [amoNew]
  case and => simp [amoNew, Nat.mod_eq_of_lt hold, Nat.mod_eq_of_lt hop, Nat.mod_eq_of_lt (Nat.and_lt_two_pow old hop)]
  case or => simp [amoNew, Nat.mod_eq_of_lt hold, Nat.mod_eq_of_lt hop, Nat.mod_eq_of_lt (Nat.or_lt_two_pow hold hop)]
  case xor => simp [amoNew, Nat.mod_eq_of_lt hold, Nat.mod_eq_of_lt hop, Nat.mod_eq_of_lt (Nat.xor_lt_two_pow hold hop)]
  case fadd => rfl
  case min =>
    cases hs : f.isSigned
    case true => rw [(amoNew_signed hs hw hold hop).1]; exact hpick ..
    case false => rw [(amoNew_unsigned hs hold hop).1]; exact hpick ..
  case max =>
    cases hs : f.isSigned
    case true => rw [(amoNew_signed hs hw hold hop).2]; exact hpick ..
    case false => rw [(amoNew_unsigned hs hold hop).2]; exact hpick ..

/-- The register takes the old value sign-extended where the format is S32. -/
theorem amoOld_eq (f : Fmt) (old : Nat) :
    amoOld f old = if f = .s32 then (BitVec.ofNat 32 old).signExtend 64 else BitVec.ofNat 64 old := by
  rw [amoOld, sextWord, signed_eq_toInt (by omega)]
  rfl

/-! ### What binds at the home -/

section
variable {s u : State} {k : Nat} {v : Thread} {acc : Access} {rest : List Access} {p : Part}

theorem homeBytes_of_homes (hmem : u.mem = s.mem) (hcrews : u.crews = s.crews) (hhome : homeIs s p.target = true) :
    u.homeBytes p = s.homeBytes p := by
  unfold State.homeBytes
  rcases p with ⟨pa | off | ⟨c, off⟩ | ⟨k, b⟩, attr, bytes, path⟩
  case phys => dsimp only [State.ownedBytes]; unfold State.ownedByte; rw [hmem]
  case spad => dsimp only [State.spadBytes]; rw [State.crew?, State.crew?, hmem, hcrews]
  case ws | ctx => cases hhome

theorem length_homeBytes (hhome : homeIs s p.target = true) : (s.homeBytes p).length = p.bytes := by
  unfold State.homeBytes
  rcases p with ⟨pa | off | ⟨c, off⟩ | ⟨k, b⟩, attr, bytes, path⟩
  case phys => simp [State.ownedBytes]
  case spad =>
    dsimp only [State.spadBytes]
    split
    · rw [length_readBytes]
    · exact List.length_replicate
  case ws | ctx => cases hhome

/-- What an atomic does at its home: a store of the new value, or the two times where the comparison fails (R133). -/
def bound (u : State) (x : Thread) (acc : Access) (p : Part) : Option Nat → LTime × State
  | some n => u.storeAt (u.viaOf x acc) p.target p.bytes n (fullMask p.bytes) p.attr.owner x.pts
  | none => u.touchHome p acc.evp x.pts

theorem atomicBind_of_parts {f : Nat → Option Nat} {x : Thread} (hparts : acc.parts = [p]) :
    u.atomicBind k x acc f =
      (let w := u.meterAccess acc
       let old := leNat (w.homeBytes p)
       (old, (bound w x acc p (f old)).2.modThread k fun t => t.acquire (bound w x acc p (f old)).1)) := by
  unfold State.atomicBind
  rw [hparts]
  dsimp only
  cases f _ <;> rfl

/-- Releasing the pending register keeps the line's registers and times (R72). -/
theorem kept_releaseReg (x : Thread) : Kept x x.releaseReg := by
  have hfree : Kept x { x with pend := none } := ⟨rfl, rfl, rfl, id⟩
  unfold Thread.releaseReg
  dsimp only
  split
  · split
    · exact ⟨rfl, rfl, rfl, fun _ => nofun⟩
    · exact Kept.trans (y := { x with pend := none, trapq := none }) ⟨rfl, rfl, rfl, id⟩ (.wake _)
  · exact hfree

/-- What landing writes to a line: its registers alone. -/
def SetsRegs (g : Thread → Thread) : Prop := ∀ y, (g y).pts = y.pts ∧ (g y).acq = y.acq ∧ (g y).await = y.await

/-- A thread's atomic binds and lands: the line's times are what its home gives, its registers what landing writes. -/
theorem exec_loadFill_leaves {P : State → Thread → Prop} {f : Nat → Option Nat} {g : Nat → Thread → Thread} {old : Nat}
    (hv : s.thread? k = some v) (hun : v.unbound = acc :: rest) (hkind : fills acc.kind = true)
    (hnb : acc.kind.isNb = false) (hremote : acc.remote = false) (hrows : v.await ≠ .rows)
    (hparts : acc.parts = [p]) (hsays : homeSays s acc = some 0) (hhome : homeIs s p.target = true)
    (hold : leNat (s.homeBytes p) = old)
    (hbind : ∀ (u : State) x, u.thread? k = some x → u.bindAccess k acc =
      (u.atomicBind k x acc f).2.modThread k fun y => (g (u.atomicBind k x acc f).1 y).releaseReg)
    (hg : SetsRegs (g old))
    (hP : ∀ u x r, u.mem = s.mem → u.crews = s.crews → u.thread? k = some x → x.pts = v.pts → bound u x acc p (f old) = r →
      r.2.thread? k = some x ∧ ∀ t z, t.mem = r.2.mem → t.crews = r.2.crews → z.pts = tmax v.pts r.1 → z.acq = z.pts →
        (∃ y, z.g = (g old y).g) → P t z) :
    leaves (exec (.loadFill k) s) k P := by
  have hx := popped_thread? hv hun
  generalize hu : (s.modThread k fun t => { t with unbound := t.unbound.erase acc }) = u at hx
  have hmem : (u.meterAccess acc).mem = s.mem := (meterAll_mem ..).trans (hu ▸ modThread_mem ..)
  have hcrews : (u.meterAccess acc).crews = s.crews := (meterAll_crews ..).trans (hu ▸ modThread_crews ..)
  have hbytes : leNat ((u.meterAccess acc).homeBytes p) = old := by rw [homeBytes_of_homes hmem hcrews hhome, hold]
  have hmetered : (u.meterAccess acc).thread? k = some { v with unbound := rest } := by
    rw [State.thread?, State.meterAccess, meterAll_threads]; exact hx
  rw [exec_loadFill_eq, bindHead_of_nextOf (nextOf_of_oldest hv hun hnb hkind hremote) hsays, binds, hu, hbind u _ hx,
    atomicBind_of_parts hparts]
  dsimp only
  rw [hbytes]
  generalize hr : bound (u.meterAccess acc) { v with unbound := rest } acc p (f old) = r
  obtain ⟨hline, hP⟩ := hP _ _ r hmem hcrews hmetered rfl hr
  obtain ⟨hpts, hacq, hawait⟩ := hg (Thread.acquire { v with unbound := rest } r.1)
  have hkept := kept_releaseReg (g old (Thread.acquire { v with unbound := rest } r.1))
  refine leaves_of_bound (modThread_same (modThread_same hline _) _) (hkept.rows (by rw [hawait]; exact hrows))
    fun t z htm _ htc hz => hP t z ?_ ?_ ?_ ?_ ?_
  · rw [htm, modThread_mem, modThread_mem]
  · rw [htc, modThread_crews, modThread_crews]
  · rw [hz.pts, hkept.pts, hpts]; rfl
  · rw [hz.acq, hz.pts, hkept.acq, hkept.pts, hpts, hacq]; rfl
  · exact ⟨_, hz.g.trans hkept.g⟩

/-- An atomic that writes: the home takes a time above its lease, and the new value (R133). -/
theorem bound_writes {x : Thread} {r : LTime × State} {n : Nat} (hmem : u.mem = s.mem) (hcrews : u.crews = s.crews)
    (hhome : homeIs s p.target = true) (hwf : Memory.wf s.mem.mem = true) (hr : bound u x acc p (some n) = r) :
    r.1 = tmax x.pts (tadd (leaseAt s p.target).rts 1) ∧ r.2.threads = u.threads ∧
      leaseAt r.2 p.target = (leaseAt s p.target).store x.pts ∧
      Memory.readNat r.2.mem.mem (placeOf p.target) p.bytes = n % 256 ^ p.bytes := by
  have hhome' : homeIs u p.target = true := by rw [homeIs_of_crews hcrews, hhome]
  rw [← leaseAt_of_homes hmem hcrews, ← hr]
  exact ⟨storeAt_time _ _ _ _ _ _ hhome', storeAt_threads _ _ _ _ _ _ hhome', storeAt_lease _ _ _ _ _ _ hhome',
    storeAt_readNat _ _ _ _ _ hhome' (hmem ▸ hwf)⟩

theorem recordRead_threads (u : State) (owner line evp : Nat) (l : Lease) :
    (u.recordRead owner line evp l).threads = u.threads := by
  unfold State.recordRead
  split
  · split
    · exact Lines.keepLine_threads ..
    · rfl
  · exact Lines.keepLine_threads ..

/-- A read at the home takes its lease there where the line's span is nobody else's (R205). -/
theorem recordRead_lease {owner line evp : Nat} {l : Lease}
    (h : (Map.get? u.mem.tags (line / 4)).all (· == owner) = true) :
    (u.recordRead owner line evp l).lineLease line = l := by
  unfold State.recordRead
  split
  case h_1 tag htag _ =>
    rw [htag] at h
    rw [if_pos (by simpa using h), keepLine_lease]
  case h_2 => exact keepLine_lease ..

/-- An atomic whose comparison fails: the home and the line take the larger of each other's times (R133). -/
theorem bound_fails {x : Thread} {r : LTime × State} (hmem : u.mem = s.mem) (hcrews : u.crews = s.crews)
    (hhome : homeIs s p.target = true) (hr : bound u x acc p none = r) :
    r.1 = tmax x.pts (leaseAt s p.target).wts ∧ r.2.threads = u.threads ∧ r.2.mem.mem = s.mem.mem ∧
      ((∀ pa, p.target = .phys pa → (Map.get? s.mem.tags (pa / 128 / 4)).all (· == p.attr.owner) = true) →
        leaseAt r.2 p.target = { wts := (leaseAt s p.target).wts,
                                 rts := tmax (leaseAt s p.target).rts (tmax x.pts (leaseAt s p.target).wts) }) := by
  have hhome' : homeIs u p.target = true := by rw [homeIs_of_crews hcrews, hhome]
  rw [← hmem, ← leaseAt_of_homes hmem hcrews, ← hr]
  refine ⟨?time, ?threads, touchHome_mem .., fun htag => ?lease⟩
  all_goals
    rcases p with ⟨pa | off | ⟨c, off⟩ | ⟨k, b⟩, attr, bytes, path⟩
  case time.phys | time.spad => rfl
  case threads.phys => exact recordRead_threads ..
  case threads.spad => exact modCrew_threads ..
  case lease.phys => exact recordRead_lease (htag pa rfl)
  case lease.spad =>
    obtain ⟨y, hy, hsorted⟩ := (Option.any_eq_true ..).mp hhome'
    unfold bound State.touchHome leaseAt
    dsimp only
    rw [modCrew_same hy, hy]
    exact Map.getD_set_same hsorted ..
  all_goals cases hhome

/-! ### An atomic lands -/

theorem tmax_tmax (a b : LTime) : tmax a (tmax a b) = tmax a b := by
  unfold tmax
  split <;> simp [*]

section
variable {old n : Nat} {f : Nat → Option Nat} {g : Nat → Thread → Thread}
variable (hv : s.thread? k = some v) (hun : v.unbound = acc :: rest) (hremote : acc.remote = false) (hrows : v.await ≠ .rows)
  (hparts : acc.parts = [p]) (hsays : homeSays s acc = some 0) (hhome : homeIs s p.target = true)
  (hold : leNat (s.homeBytes p) = old) (hkind : fills acc.kind = true) (hnb : acc.kind.isNb = false)
  (hbind : ∀ (u : State) x, u.thread? k = some x → u.bindAccess k acc =
    (u.atomicBind k x acc f).2.modThread k fun y => (g (u.atomicBind k x acc f).1 y).releaseReg)
  (hg : SetsRegs (g old))

include hv hun hremote hrows hparts hsays hhome hold hkind hnb hbind hg

theorem leaves_of_writes {R : Thread → Prop} (hwf : Memory.wf s.mem.mem = true) (hf : f old = some n)
    (hR : ∀ y z, z.g = (g old y).g → R z) :
    leaves (exec (.loadFill k) s) k fun t x =>
      leaseAt t p.target = (leaseAt s p.target).store v.pts ∧
        x.pts = tmax v.pts (tmax v.pts (tadd (leaseAt s p.target).rts 1)) ∧ x.acq = x.pts ∧ R x ∧
        Memory.readNat t.mem.mem (placeOf p.target) p.bytes = n % 256 ^ p.bytes := by
  refine exec_loadFill_leaves hv hun hkind hnb hremote hrows hparts hsays hhome hold hbind hg
    fun u x r hmem hcrews hx hpts hr => ?_
  rw [hf] at hr
  obtain ⟨htime, hthreads, hlease, hread⟩ := bound_writes hmem hcrews hhome hwf hr
  refine ⟨by rw [State.thread?, hthreads]; exact hx, fun t z htm htc hz hacq ⟨y, hy⟩ => ⟨?_, ?_, hacq, hR y z hy, ?_⟩⟩
  · rw [leaseAt_of_homes htm htc, hlease, hpts]
  · rw [hz, htime, hpts]
  · rw [htm, hread]

theorem leaves_of_fails {R : Thread → Prop} (hf : f old = none) (hR : ∀ y z, z.g = (g old y).g → R z) :
    leaves (exec (.loadFill k) s) k fun t x =>
      x.pts = tmax v.pts (leaseAt s p.target).wts ∧ x.acq = x.pts ∧ R x ∧ t.mem.mem = s.mem.mem ∧
        ((∀ pa, p.target = .phys pa → (Map.get? s.mem.tags (pa / 128 / 4)).all (· == p.attr.owner) = true) →
          leaseAt t p.target = { wts := (leaseAt s p.target).wts,
                                 rts := tmax (leaseAt s p.target).rts (tmax v.pts (leaseAt s p.target).wts) }) := by
  refine exec_loadFill_leaves hv hun hkind hnb hremote hrows hparts hsays hhome hold hbind hg
    fun u x r hmem hcrews hx hpts hr => ?_
  rw [hf] at hr
  obtain ⟨htime, hthreads, hmem', hlease⟩ := bound_fails hmem hcrews hhome hr
  refine ⟨by rw [State.thread?, hthreads]; exact hx,
    fun t z htm htc hz hacq ⟨y, hy⟩ => ⟨?_, hacq, hR y z hy, ?_, fun htag => ?_⟩⟩
  · rw [hz, htime, hpts, tmax_tmax]
  · rw [htm, hmem']
  · rw [leaseAt_of_homes htm htc, hlease htag, hpts]

end

end

/-! ### The registers of an atomic -/

/-- A register takes the old value of its format. -/
def takesOld (d : Reg) (f : Fmt) (old : Nat) (y : Thread) : Thread := y.setReg d (amoOld f old)

/-- A pair of registers takes the old value's halves. -/
def takesPair (d : Reg) (old : Nat) (y : Thread) : Thread :=
  (y.setReg (nextReg d) (BitVec.ofNat 64 (old / 2 ^ 64))).setReg d (BitVec.ofNat 64 old)

theorem reg_of_takesOld {d : Reg} {f : Fmt} {old : Nat} {y z : Thread} (h : z.g = (takesOld d f old y).g) :
    z.reg d = if f = .s32 then (BitVec.ofNat 32 old).signExtend 64 else BitVec.ofNat 64 old := by
  rw [Thread.reg, h, ← amoOld_eq]
  exact Scalar.reg_setReg_same ..

theorem reg_of_takesPair {d : Reg} {old : Nat} {y z : Thread} (h : z.g = (takesPair d old y).g) :
    z.reg d = BitVec.ofNat 64 old ∧ z.reg (nextReg d) = BitVec.ofNat 64 (old / 2 ^ 64) := by
  have hne : d.val ≠ (nextReg d).val := by
    simp only [nextReg]
    omega
  rw [Thread.reg, Thread.reg, h]
  refine ⟨Scalar.reg_setReg_same .., ?_⟩
  simp [takesPair, Thread.setReg, hne]

/-- Settles O56: what binds at the home is a store of the new value or, where the comparison fails, the two times. -/
theorem atomicBindsAtHome : Obligations.AtomicBindsAtHome := by
  intro k s v acc rest p hv hun hremote hrows hparts hgot hhome hbusy hfault hwf hbytes h old w writes fails
  have hsays := homeSays_of_answers hgot hparts hbusy hfault
  have hpow (hw : acc.width % 8 = 0) : 256 ^ p.bytes = 2 ^ acc.width := by
    rw [hbytes, show 256 = 2 ^ 8 from rfl, ← Nat.pow_mul, Nat.mul_div_cancel' (Nat.dvd_of_mod_eq_zero hw)]
  have hlt : old < 256 ^ p.bytes := by
    have hlen := leNat_lt (s.homeBytes p)
    rwa [length_homeBytes hhome] at hlen
  have hone (d : Reg) (f : Fmt) : SetsRegs (takesOld d f old) := fun _ => ⟨rfl, rfl, rfl⟩
  have htwo (d : Reg) : SetsRegs (takesPair d old) := fun _ => ⟨rfl, rfl, rfl⟩
  refine ⟨fun op d f hk hwidth hw hdata => ?amo, fun d f e hk hwidth hw => ⟨fun heq => ?swaps, fun hne => ?keeps⟩,
    fun d e hk hwidth _ => ⟨fun heq => ?swapsPair, fun hne => ?keepsPair⟩⟩
  case amo =>
    have hmod : 256 ^ p.bytes = 2 ^ f.width := by rw [← hwidth]; exact hpow (by omega)
    rw [hmod] at hlt
    have hleaves := leaves_of_writes (f := fun o => some (amoNew op f o acc.data)) (g := takesOld d f) hv hun hremote hrows
      hparts hsays hhome rfl (by rw [hk]; rfl) (by rw [hk]; rfl) (fun u x hx => bindAccess_amo hx hk) (hone d f) hwf rfl
      fun y z => reg_of_takesOld
    rw [hmod, amoNew_mod (by omega) hlt hdata] at hleaves
    exact hleaves
  case swaps =>
    have hleaves := leaves_of_writes (g := takesOld d f) hv hun hremote hrows hparts hsays hhome rfl (by rw [hk]; rfl) (by rw [hk]; rfl)
      (fun u x hx => bindAccess_cas hx hk) (hone d f) hwf (if_pos heq) fun y z => reg_of_takesOld
    rw [hpow (by omega), hwidth] at hleaves
    exact hleaves
  case keeps =>
    exact leaves_of_fails (g := takesOld d f) hv hun hremote hrows hparts hsays hhome rfl (by rw [hk]; rfl) (by rw [hk]; rfl)
      (fun u x hx => bindAccess_cas hx hk) (hone d f) (if_neg hne) fun y z => reg_of_takesOld
  case swapsPair =>
    have hleaves := leaves_of_writes (g := takesPair d) hv hun hremote hrows hparts hsays hhome rfl (by rw [hk]; rfl) (by rw [hk]; rfl)
      (fun u x hx => bindAccess_casp hx hk) (htwo d) hwf (if_pos heq) fun y z => reg_of_takesPair
    rw [hpow (by omega), hwidth] at hleaves
    exact hleaves
  case keepsPair =>
    exact leaves_of_fails (g := takesPair d) hv hun hremote hrows hparts hsays hhome rfl (by rw [hk]; rfl) (by rw [hk]; rfl)
      (fun u x hx => bindAccess_casp hx hk) (htwo d) (if_neg hne) fun y z => reg_of_takesPair

end Sys2Proof.HomeAtomics

/-! A load whose one piece has no bytes (O57): binding the piece leaves nothing bound, and the load goes back to its place. -/

namespace Sys2Proof.EmptyLoad

open Sys2Proof Sys2Proof.Machine Sys2Proof.Machine.Claim Sys2Proof.Laws Sys2Proof.Doubled

/-- A piece of no bytes at address 64. -/
def emptyPiece : Part := { target := .phys 64, attr := bareAttr 0, bytes := 0 }

/-- A load to g3 of that piece alone. -/
def emptyLoad : Access :=
  { kind := .load 3 .z64 false .plain, va := 64, bit := 0, width := 64, parts := [emptyPiece], scope := .device, evp := 0,
    tile := 0, pc := 0, data := 0, remote := false }

/-- A line with 1 in g3 and the load still to bind. -/
def loadingLine : Thread := { resident.setReg 3 1 with unbound := [emptyLoad] }

def loading : State :=
  { State.reset with threads := [(0, loadingLine)], crews := [(0, Crew.reset 0 Task.zero Decl.none)] }

/-- The home answers, and the line's write-combining entries hold nothing of the piece. -/
theorem loading_ready :
    loading.nextBusy emptyLoad = false ∧ loading.homeFault (.phys 64) 0 = 0 ∧ loading.wcHolds 0 [emptyPiece] = false := by
  decide +kernel

theorem loading_keeps_reg : (lineAfter 0 (exec (.loadFill 0) loading)).map (·.reg 3) = some 1 := by
  decide +kernel

/-- Refutes O57: the home's value of a piece of no bytes is 0, no tile holds a copy, and the register keeps its 1, for the load
is still to bind. -/
theorem not_loadBindsAtHome : ¬ Obligations.LoadBindsAtHome := by
  intro h
  obtain ⟨hbusy, hfault, hbuffered⟩ := loading_ready
  obtain ⟨hvalue, -⟩ := h 0 loading loadingLine emptyLoad [] emptyPiece 64 3 .z64 rfl rfl (.inl rfl) rfl (by decide) rfl rfl rfl
    hbusy hfault hbuffered (by decide)
  obtain ⟨t, w, hw, hP⟩ := lineAfter_of_leaves hvalue
  have hreg := loading_keeps_reg
  rw [hw, Option.map_some] at hreg
  rcases hP with ⟨l, hcopy, -⟩ | ⟨hzero, -⟩
  · cases hcopy
  · exact absurd (Option.some.inj hreg) (by rw [hzero]; decide)

end Sys2Proof.EmptyLoad

/-! A copy that a line of a displaced crew issues (O49): its acceptance brings the crew's save area up to date, as a wake does
(R198). -/

namespace Sys2Proof.LateSave

open Sys2Proof Sys2Proof.Machine Sys2Proof.Machine.Claim Sys2Proof.Laws Sys2Proof.Doubled Sys2Proof.Binding
open Sys2Proof.Encoding (length_natBytes)

/-! ### The copy -/

/-- Crew 0 is displaced, and its save area begins at its scratchpad's 8 bytes. -/
def awayCrew : Crew :=
  { Crew.reset 0 { Task.zero with saveArea := 9 * 2 ^ 52 } { Decl.none with scratch := 8, threads := 0 } with
    displaced := true, mailbox := [] }

def away : State :=
  { State.reset with issuer := some 0, threads := [(0, resident)], crews := [(0, awayCrew)] }

/-- What line 0 begins the copy with. -/
def awayIssue : Issue := { k := 0, t := resident, c := awayCrew, crew := 0 }

/-- CPY g1, g0, g0 of g0's 0 bytes. -/
def copiesNothing : Instr := .cpy ⟨false, 0⟩ 1 0 0 0 0 none

/-- The copy as the carrier takes it. -/
def copyTaken : CopyOp :=
  { crew := 0, tl := 0, num := 1, core := 0, time := 0, pc := 0, kind := .linear, dst := 0, src := 0, rows := 1, rowBytes := 0,
    spitch := 0, dpitch := 0, count := 0, bar := none, cursor := 0, blocked := none, held := [], failed := none, entries := [],
    gone := [], filled := 0, refused := [], bound := 0, landed := [], stepped := false, follow := none }

/-- Crew 0 with its copy counted. -/
def countedCrew : Crew := awayCrew.setTimeline 0 { awayCrew.timeline 0 with issued := 1 }

/-- The state as the copy is accepted, before the save area follows. -/
def accepted : State :=
  { away with issuer := none, tick := 1, crews := [(0, countedCrew)],
              tiles := [(0, { Tile.reset with copies := [(0, copyTaken)] })] }

theorem exec_copiesNothing :
    exec copiesNothing away = ends away awayIssue 12 (.retire ((accepted.late 0 0).wr 0 1 1)) := rfl

theorem eff_copiesNothing :
    (carrierForm copiesNothing).bind (fun f => f.eff awayIssue { away with issuer := none }) =
      some (.retire ((accepted.late 0 0).wr 0 1 1)) := rfl

/-! ### The image of the save area -/

/-- An image is written as memory is, byte by byte. -/
theorem imagePut_eq_writeBytes (m : Map Byte) (off : Nat) (bs : List Byte) :
    imagePut m off bs = Memory.writeBytes m off bs := by
  induction bs generalizing m off with
  | nil => rfl
  | cons b bs ih =>
    have hrest : imagePut (Machine.Map.set m off 0 b) (off + 1) bs =
        (((List.range bs.length).zip bs).foldl (fun m e => Machine.Map.set m (off + (e.1 + 1)) 0 e.2)
          (Machine.Map.set m off 0 b)) := by
      unfold imagePut
      congr 1
      funext m e
      rw [Nat.add_assoc, Nat.add_comm 1]
    calc imagePut m off (b :: bs)
      _ = imagePut (Machine.Map.set m off 0 b) (off + 1) bs := by
        rw [hrest, imagePut, List.length_cons, List.range_succ_eq_map, List.zip_cons_cons, List.foldl_cons, List.zip_map_left,
          List.foldl_map]
        rfl
      _ = Memory.writeBytes m off (b :: bs) := ih ..

/-- Every byte of the image is below this offset. -/
def Below (n : Nat) (m : Map Byte) : Prop := ∀ e ∈ m, e.1 < n

theorem Below.writeBytes {n : Nat} {m : Map Byte} (h : Below n m) {off : Nat} {bs : List Byte}
    (hle : off + bs.length ≤ n) : Below n (Memory.writeBytes m off bs) := by
  induction bs generalizing m off with
  | nil => exact h
  | cons b bs ih =>
    rw [List.length_cons] at hle
    refine ih (fun e he => ?_) (by omega)
    unfold Memory.write Machine.Map.set at he
    split at he
    · exact h e (Map.mem_del he)
    · rcases Map.mem_put he with rfl | he
      · dsimp only; omega
      · exact h e he

theorem length_wordsLe (ws : List Nat) : (wordsLe ws).length = 8 * ws.length := by
  induction ws with
  | nil => rfl
  | cons w ws ih => rw [wordsLe, List.flatMap_cons, List.length_append, length_natBytes, ← wordsLe, ih, List.length_cons]; omega

/-- The image's first word is 1, and all of it is below 2^20. -/
def Opens (m : Map Byte) : Prop := Memory.read m 0 = 1 ∧ Below (2 ^ 20) m

theorem Opens.imagePut {m : Map Byte} (h : Opens m) {off : Nat} {bs : List Byte} (hpos : 0 < off)
    (hle : off + bs.length ≤ 2 ^ 20) : Opens (imagePut m off bs) := by
  obtain ⟨hread, hbelow⟩ := h
  rw [imagePut_eq_writeBytes]
  exact ⟨by rw [Memory.read_writeBytes_outside _ _ _ (by omega), hread], hbelow.writeBytes hle⟩

/-- A part of the image that neither reaches its first word nor passes 2^20. -/
def inside (e : Nat × List Nat) : Bool := decide (0 < e.1) && decide (e.1 + 8 * e.2.length ≤ 2 ^ 20)

theorem Opens.foldl {m : Map Byte} (h : Opens m) {es : List (Nat × List Nat)} (hes : es.all inside = true) :
    Opens (es.foldl (fun m e => Machine.imagePut m e.1 (wordsLe e.2)) m) := by
  induction es generalizing m with
  | nil => exact h
  | cons e es ih =>
    rw [List.all_cons, Bool.and_eq_true] at hes
    obtain ⟨hpos, hle⟩ := Bool.and_eq_true_iff.mp hes.1
    refine ih (h.imagePut (of_decide_eq_true hpos) ?_) hes.2
    rw [length_wordsLe]
    exact of_decide_eq_true hle

theorem opens_of_words {ws : List Nat} {es : List (Nat × List Nat)} (hws : ws.length ≤ 100) (hes : es.all inside = true) :
    Opens (((0, 1 :: ws) :: es).foldl (fun m e => imagePut m e.1 (wordsLe e.2)) []) := by
  refine Opens.foldl (m := imagePut [] 0 (wordsLe (1 :: ws))) ?_ hes
  rw [imagePut_eq_writeBytes]
  refine ⟨?_, Below.writeBytes (fun _ he => absurd he List.not_mem_nil) ?_⟩
  · have hread := Memory.readBytes_writeBytes (m := []) rfl 0 (wordsLe (1 :: ws))
    have hone : wordsLe (1 :: ws) = 1 :: (natBytes 7 0 ++ wordsLe ws) := rfl
    rw [hone] at hread ⊢
    exact (List.cons.inj hread).1
  · rw [length_wordsLe, List.length_cons]
    omega

/-- The words of crew 0's save area, whatever is owed it. -/
theorem saveWords_accepted (left d : Nat) :
    ∃ ws es, accepted.saveWords 0 { countedCrew with owed := left } d = (0, 1 :: ws) :: es ∧ ws.length ≤ 100 ∧
      es.all inside = true := by
  have hdecl : countedCrew.decl.queues = 0 ∧ countedCrew.decl.threads = 0 := ⟨rfl, rfl⟩
  have hmailbox : countedCrew.mailbox = [] := rfl
  have hhamper : accepted.hamperOf (countedCrew.tile / 24) 0 = none := by decide
  exact ⟨_, _, rfl, by simp, by simp [inside, padTo, Crew.sysWords, hdecl, hmailbox, hhamper]⟩

theorem saveImage_opens (left d : Nat) : Opens (accepted.saveImage 0 { countedCrew with owed := left } d) := by
  obtain ⟨ws, es, hwords, hws, hes⟩ := saveWords_accepted left d
  unfold State.saveImage
  rw [hwords]
  exact opens_of_words hws hes

/-! ### What the save area takes -/

section
variable {s : State}

/-- No word of a save area is held where nothing is frozen and the host holds nothing. -/
theorem savesHeld_nil (hfrozen : s.mem.frozen = []) (hhost : s.mem.hostHeld = []) (crew : Nat) (c : Crew) (unit : Nat)
    (ns : List Nat) : s.savesHeld crew c unit ns = [] := by
  have hfree (w : Target) : s.homeBusy w = false := by
    cases w <;> simp [State.homeBusy, hfrozen, hhost]
  unfold State.savesHeld
  rw [List.flatMap_eq_nil_iff.mpr, List.dedup_nil]
  intro n _
  split
  · simp [hfree]
  · rfl

/-- What the save area of a crew that is owed `left` becomes. -/
def lateImage (s : State) (n : Nat) (c : Crew) (left : Nat) : Map Byte :=
  imagePut (s.saveImage n { c with owed := left } (leNat (imageBytes [] 0xC00 64))) 0x18000 (imageBytes [] 0x18000 256)

theorem mem_of_tiles (p : Prop) [Decidable p] (u : State) (ts : Map Tile) :
    (if p then { u with tiles := ts } else u).mem = u.mem := by
  split <;> rfl

/-- A displaced crew whose save area was never written takes the image whole. -/
theorem late_mem {n : Nat} {c : Crew} (hc : s.crew? n = some c) (haway : c.displaced = true) (hsaved : c.lastSaved = none)
    (hfrozen : s.mem.frozen = []) (hhost : s.mem.hostHeld = []) (k : Nat) :
    ∃ left, (s.late n k).mem.mem =
      (((s.snoop []).setCrew n { c with owed := left, lastSaved := some (lateImage s n c left) }).writeDiff n c
        (imageDiff 8 [] (lateImage s n c left)) [] (lateImage s n c left) c.saveTime).mem.mem := by
  unfold State.late
  rw [hc]
  dsimp only
  rw [haway, hsaved]
  simp only [savesHeld_nil hfrozen hhost, List.isEmpty_nil, Bool.not_true, List.filter_false, List.foldl_nil, if_true,
    Bool.false_eq_true, if_false, Option.getD_none]
  exact ⟨_, congrArg MemSys.mem (mem_of_tiles ..)⟩

end

section
variable {u : State} {c x : Crew} {m : Map Byte} {tm : LTime}

/-- Of crew 0's save area only the first word lies in its scratchpad. -/
theorem resolve_word (hx : u.crew? 0 = some x) (hscratch : x.decl.scratch = 8) {w : Nat} (hw : w < 2 ^ 17) :
    u.resolve (c.saveAgent 0) (9 * 2 ^ 52 + 8 * w) 8 .write =
      (if w = 0 then .ok { target := .spad 0 0, attr := bareAttr 0, bytes := 8 } else .error (.sys codeProt), u) := by
  have hva : (9 * 2 ^ 52 + 8 * w) % 2 ^ 56 = 9 * 2 ^ 52 + 8 * w := Nat.mod_eq_of_lt (by omega)
  have hregion : (9 * 2 ^ 52 + 8 * w) / 2 ^ 52 = 9 := by omega
  have hcrew : spadCrew 0 (9 * 2 ^ 52 + 8 * w) = 0 := by
    unfold spadCrew field
    rw [if_neg (by omega)]
    omega
  have hhigh : field (9 * 2 ^ 52 + 8 * w) 20 12 = 0 := by unfold field; omega
  have hoff : field (9 * 2 ^ 52 + 8 * w) 0 20 = 8 * w := by unfold field; omega
  have hagent : (c.saveAgent 0).crew = 0 ∧ (c.saveAgent 0).owner = 0 := ⟨rfl, rfl⟩
  unfold State.resolve
  dsimp only
  rw [hva, hregion, hagent.1, hagent.2, hcrew, hhigh, hoff, hx]
  by_cases hzero : w = 0
  · simp [hzero, hscratch]
  · have hpast : 8 < 8 * w + 8 := by omega
    simp [hzero, hscratch, hpast]

theorem writeDiff_append (ws ws' : List Nat) :
    u.writeDiff 0 c (ws ++ ws') [] m tm = (u.writeDiff 0 c ws [] m tm).writeDiff 0 c ws' [] m tm := List.foldl_append

/-- The words after the first reach nothing. -/
theorem writeDiff_of_pos (hbase : c.saveBase 0 = 9 * 2 ^ 52) (hx : u.crew? 0 = some x) (hscratch : x.decl.scratch = 8)
    {ws : List Nat} (hws : ∀ w ∈ ws, 0 < w ∧ w < 2 ^ 17) : u.writeDiff 0 c ws [] m tm = u := by
  induction ws with
  | nil => rfl
  | cons w ws ih =>
    obtain ⟨hpos, hlt⟩ := hws w List.mem_cons_self
    have hone : u.writeDiff 0 c [w] [] m tm = u := by
      rw [State.writeDiff, List.foldl_cons, List.foldl_nil, hbase, resolve_word hx hscratch hlt, if_neg hpos.ne']
    rw [← List.singleton_append, writeDiff_append, hone]
    exact ih fun w hw => hws w (List.mem_cons_of_mem _ hw)

/-- The first word is 1 once it is written into an empty scratchpad. -/
theorem writeDiff_first (hbase : c.saveBase 0 = 9 * 2 ^ 52) (hx : u.crew? 0 = some x) (hscratch : x.decl.scratch = 8)
    (hmem : u.mem.mem = []) (howner : x.spadOwner 0 = 0) (hm : Memory.read m 0 = 1) :
    byteAt (u.writeDiff 0 c [0] [] m tm) (spadPa 0 0) = 1 ∧
      ∃ y, (u.writeDiff 0 c [0] [] m tm).crew? 0 = some y ∧ y.decl.scratch = 8 := by
  have hretag : u.retagSpad 0 0 0 = u := by
    rw [State.retagSpad, hx]
    exact if_pos howner
  rw [State.writeDiff, List.foldl_cons, List.foldl_nil, hbase, resolve_word hx hscratch (by omega), if_pos rfl]
  dsimp only
  obtain ⟨hstored, -, hcrews⟩ := storeAt_spad u {} 8 (leNat (imageBytes m (8 * 0) 8))
    (leNat (imageBytes [] (8 * 0) 8) ^^^ leNat (imageBytes m (8 * 0) 8)) 0 tm 0 0
  rw [hretag] at hstored hcrews
  obtain ⟨r, hr⟩ : ∃ r, leNat (imageBytes m (8 * 0) 8) = 1 + 256 * r := by
    have hone : Map.getD m (8 * 0 + 0) 0 = 1 := hm
    refine ⟨leNat (((List.range 7).map Nat.succ).map fun j => Map.getD m (8 * 0 + j) 0), ?_⟩
    rw [imageBytes, List.range_succ_eq_map, List.map_cons, leNat, hone]
    rfl
  have hold : leNat (imageBytes [] (8 * 0) 8) = 0 := by decide
  have hempty : Memory.readNat [] (spadPa 0 0) 8 = 0 := by decide
  rw [hold, hr, Nat.zero_xor] at hstored hcrews ⊢
  constructor
  · have hread := Memory.readBytes_writeBytes (m := []) rfl (spadPa 0 0) (natBytes 8 (1 + 256 * r))
    refine (congrArg (Memory.read · _) hstored).trans ?_
    rw [hmem, stored, hempty, mergeBits, Nat.zero_and, Nat.and_self, Nat.zero_sub, Nat.zero_add]
    refine (List.cons.inj hread).1.trans (BitVec.eq_of_toNat_eq ?_)
    simp
  · exact ⟨_, (congrArg (Map.get? · 0) hcrews).trans (modCrew_same hx _), hscratch⟩

end

/-! ### The refutation -/

theorem mem_of_get? {m : Map Byte} {k : Nat} {v : Byte} (h : Map.get? m k = some v) : (k, v) ∈ m := by
  induction m with
  | nil => cases h
  | cons e m ih =>
    unfold Map.get? at h
    split at h
    case isTrue hk =>
      rw [← hk, ← Option.some.inj h]
      exact List.mem_cons_self
    case isFalse => exact List.mem_cons_of_mem _ (ih h)

/-- The words that the save area takes: the first among them, and none past the image. -/
theorem words_of_opens {m : Map Byte} (h : Opens m) :
    0 ∈ imageDiff 8 [] m ∧ (imageDiff 8 [] m).Nodup ∧ ∀ w ∈ imageDiff 8 [] m, w < 2 ^ 17 := by
  obtain ⟨hread, hbelow⟩ := h
  refine ⟨?_, List.nodup_dedup _, fun w hw => ?_⟩
  · have hone : Map.getD m 0 0 = 1 := hread
    have hlisted : Map.get? m 0 = some 1 := by
      unfold Map.getD at hone
      cases hget : Map.get? m 0 with
      | none => rw [hget] at hone; cases hone
      | some v => rw [hget] at hone; exact congrArg some hone
    refine List.mem_dedup.mpr (List.mem_map.mpr ⟨(0, 1), List.mem_filter.mpr ⟨mem_of_get? hlisted, ?_⟩, rfl⟩)
    rw [hone]
    rfl
  · obtain ⟨e, he, rfl⟩ := List.mem_map.mp (List.mem_dedup.mp hw)
    have hlt := hbelow e (List.mem_filter.mp he).1
    omega

/-- The first byte of the scratchpad is the image's once the save area is up to date. -/
theorem writeDiff_opens {u : State} {c x : Crew} {m : Map Byte} {tm : LTime} (hbase : c.saveBase 0 = 9 * 2 ^ 52)
    (hx : u.crew? 0 = some x) (hscratch : x.decl.scratch = 8) (hmem : u.mem.mem = []) (howner : x.spadOwner 0 = 0)
    (hm : Opens m) : byteAt (u.writeDiff 0 c (imageDiff 8 [] m) [] m tm) (spadPa 0 0) = 1 := by
  obtain ⟨hzero, hnodup, hlt⟩ := words_of_opens hm
  obtain ⟨xs, ys, hwords⟩ := List.append_of_mem hzero
  rw [hwords] at hnodup hlt ⊢
  have hrest : 0 ∉ xs ∧ 0 ∉ ys := by
    have hcons := (List.nodup_middle.mp hnodup).notMem
    exact ⟨fun hx => hcons (List.mem_append_left _ hx), fun hy => hcons (List.mem_append_right _ hy)⟩
  have hbefore : ∀ w ∈ xs, 0 < w ∧ w < 2 ^ 17 := fun w hw =>
    ⟨Nat.pos_of_ne_zero fun h => hrest.1 (h ▸ hw), hlt w (List.mem_append_left _ hw)⟩
  have hafter : ∀ w ∈ ys, 0 < w ∧ w < 2 ^ 17 := fun w hw =>
    ⟨Nat.pos_of_ne_zero fun h => hrest.2 (h ▸ hw), hlt w (List.mem_append_right _ (List.mem_cons_of_mem _ hw))⟩
  obtain ⟨hfirst, y, hy, hscratch'⟩ := writeDiff_first (c := c) (tm := tm) hbase hx hscratch hmem howner hm.1
  rw [writeDiff_append, writeDiff_of_pos hbase hx hscratch hbefore, ← List.singleton_append, writeDiff_append,
    writeDiff_of_pos hbase hy hscratch' hafter, hfirst]

theorem late_accepted : byteAt (accepted.late 0 0) (spadPa 0 0) = 1 := by
  obtain ⟨left, hmem⟩ := late_mem (s := accepted) (n := 0) (c := countedCrew) rfl rfl rfl rfl rfl 0
  have hopens : Opens (lateImage accepted 0 countedCrew left) :=
    (saveImage_opens left _).imagePut (by omega) (by simp [imageBytes])
  rw [byteAt, hmem]
  generalize lateImage accepted 0 countedCrew left = image at hopens
  exact writeDiff_opens (x := { countedCrew with owed := left, lastSaved := some image }) rfl (setCrew_same ..) rfl rfl rfl hopens

theorem apply_retire_mem (t : State) (i : Issue) (len : Nat) (s : State) :
    (Effect.apply (.retire t) i len s).mem = t.mem := by
  unfold Effect.apply
  simp

/-- Refutes O49: the copy is under way once it is accepted, and the save area of its displaced crew says so. -/
theorem not_storelessFrame : ¬ Obligations.StorelessFrame := by
  intro h
  obtain ⟨f, hform, hcarrier, hbegins⟩ : ∃ f, formOf awayIssue.c.mctl copiesNothing = some f ∧
      carrierForm copiesNothing = some f ∧ begins f.pred f.uses away = some (awayIssue, { away with issuer := none }) :=
    ⟨_, rfl, rfl, rfl⟩
  have heff : f.eff awayIssue { away with issuer := none } = some (.retire ((accepted.late 0 0).wr 0 1 1)) := by
    rw [← eff_copiesNothing, hcarrier, Option.bind_some]
  have hkept := h copiesNothing f away awayIssue _ _ awayIssue _ rfl hform rfl nofun hbegins heff rfl exec_copiesNothing
  rw [apply_retire_mem, Stores.wr_mem] at hkept
  have hfoot := late_accepted
  rw [byteAt, hkept] at hfoot
  exact absurd hfoot (by decide)

end Sys2Proof.LateSave

/-! A copy to a span whose owner tag is listed twice (O58). The statement asks for canonical form of memory and not of the crew's
list of tags. A write by the crew's own owner clears the span and takes one entry away (R205), the next piece of the copy finds
the other entry, and clears the span once more. -/

namespace Sys2Proof.TaggedTwice

open Sys2Proof Sys2Proof.Machine Sys2Proof.Machine.Claim

/-- Crew 0, of owner 0, with 256 bytes of scratchpad; its tags name owner 1 twice for the first span. -/
def taggedCrew : Crew :=
  { Crew.reset 0 Task.zero { Decl.none with scratch := 256 } with spadTag := [(0, 1), (0, 1)] }

/-- CPY of the 64 bytes of global memory at 0 to the scratchpad at 96, where they cross from one line to the next. -/
def crossing : CopyOp :=
  { crew := 0, tl := 0, num := 1, core := 0, time := 0, pc := 0, kind := .linear, dst := 9 * 2 ^ 52 + 96, src := 0, rows := 1,
    rowBytes := 64, spitch := 0, dpitch := 0, count := 0, bar := none, cursor := 0, blocked := none, held := [], failed := none,
    entries := [], gone := [], filled := 0, refused := [], bound := 0, landed := [], stepped := false, follow := none }

/-- A readable page of owner 0 from 0 up. -/
def page : TlbEntry := { root := 0, va := 0, size := 2 ^ 21, leaf := 0x3, path := [] }

/-- The copy is to bind its segment, and the first byte of its source is 1. -/
def tagged : State :=
  { State.reset with
    mem := { MemSys.reset with mem := [(0, 1)] }, crews := [(0, taggedCrew)],
    tiles := [(0, { Tile.reset with tlb := [page], copies := [(0, crossing)] })] }

/-- The ends of the segment, as they resolve. -/
def source : Part := { target := .phys 0, attr := leafAttr 0x3, bytes := 64, path := [] }
def destination : Part := { target := .spad 0 96, attr := bareAttr 0, bytes := 64 }

theorem tagged_noneAway : noneAway tagged := by
  intro n c h
  have hone : Machine.Map.get? [(0, taggedCrew)] n = some c := h
  simp only [Machine.Map.get?] at hone
  split at hone
  · exact Option.some.inj hone ▸ rfl
  · cases hone

theorem source_resolves : tagged.resolve (taggedCrew.agent 0) 0 crossing.total .read = (.ok source, tagged) := rfl

theorem source_rights : tagged.segmentRights (taggedCrew.agent 0) 0 crossing.total false = (.ok source, tagged) := by
  have hlies : (tagged.memGone 0 || tagged.memGone (0 + crossing.total - 1)) = false := by decide +kernel
  simp only [State.segmentRights, Bool.false_eq_true, if_false, source_resolves, State.remoteCheck, source, hlies]

/-- Neither end faults or waits at its home. -/
theorem tagged_ready :
    tagged.segmentHome 0 source = none ∧ tagged.segmentHome (9 * 2 ^ 52 + 96) destination = none := by
  decide +kernel

theorem head?_readBytes (m : Memory) (a n : Nat) : (Memory.readBytes m a (n + 1)).head? = some (Memory.read m a) := rfl

/-- A byte of memory after a step. -/
def byteAfter (a : Nat) : Out → Option Byte
  | .next t => some (byteAt t a)
  | _ => none

theorem copy_clears_first : byteAfter (spadPa 0 96) (exec (.copySegmentBind 0 0) tagged) = some 0 := by
  decide +kernel

theorem source_first : (tagged.ownedBytes source.attr.owner 0 64).head? = some 1 := by
  decide +kernel

/-- Refutes O58: the span is tagged twice, and the copy's second piece clears what its first has written. -/
theorem not_copyMovesBytes : ¬ Obligations.CopyMovesBytes := by
  intro h
  obtain ⟨hsource, hdestination⟩ := tagged_ready
  obtain ⟨t, hnext, hbytes, -⟩ := h 0 0 tagged crossing taggedCrew 0 (9 * 2 ^ 52 + 96) tagged source tagged destination tagged
    0 (spadPa 0 96) (spadPa 0 160) tagged_noneAway rfl rfl rfl rfl rfl source_rights rfl hsource hdestination rfl
    (by decide) rfl rfl rfl
  have hmoved : some (byteAt t (spadPa 0 96)) = some 1 :=
    calc some (byteAt t (spadPa 0 96))
      _ = (Memory.readBytes t.mem.mem (spadPa 0 96) crossing.total).head? := (head?_readBytes _ _ 63).symm
      _ = (tagged.ownedBytes source.attr.owner 0 crossing.total).head? := congrArg List.head? hbytes
      _ = some 1 := source_first
  have hcleared := copy_clears_first
  rw [hnext] at hcleared
  exact absurd (hmoved.symm.trans hcleared) (by decide)

end Sys2Proof.TaggedTwice

/-! Completion of thread, wait, mailbox, pin and context instructions (O8). -/

namespace Sys2Proof.ThreadForms

open Sys2Proof Sys2Proof.Machine Sys2Proof.Machine.Claim Sys2Proof.Laws Sys2Proof.Integer Sys2Proof.Accesses

theorem stopped_iff (st : LState) :
    st.stopped = true ↔ st = .parked ∨ st = .faulted ∨ st = .trapped ∨ st = .debugStopped := by
  cases st <;> decide

/-! ### Starting and ending threads -/

theorem spawn_describes {p : Pred} {d a b : Reg} {f : Form} (h : threadForm (.spawn p d a b) = some f) :
    f.describes (.spawn p d a b) := by
  cases h
  refine describes_of_body _ (fun _ => rfl) fun i s e he => ?_
  obtain ⟨haligned, he⟩ := Option.ite_none_left_eq_some.mp he
  dsimp only
  rw [if_neg haligned]
  refine afterDrain_of_afterDraining he fun s h => ?_
  cases hslot : i.exitedSlot s with
  | none =>
    rw [hslot] at h
    exact Option.some.inj h
  | some n =>
    rw [hslot] at h
    exact Option.some.inj h

theorem exit_describes {p : Pred} {f : Form} (h : threadForm (.exit p) = some f) : f.describes (.exit p) := by
  cases h
  refine describes_of_body _ (fun _ => rfl) fun i s e he => ?_
  dsimp only at he ⊢
  refine afterDrain_of_afterDraining he fun s h => ?_
  obtain ⟨hpend, h⟩ := Option.ite_none_left_eq_some.mp h
  rw [Option.not_isSome_iff_eq_none.mp hpend]
  exact Option.some.inj h

/-! ### Waiting and waking -/

theorem wait_describes {p : Pred} {f : Form} (h : threadForm (.wait p) = some f) : f.describes (.wait p) := by
  cases h
  refine describes_of_body _ (fun _ => rfl) fun i s e he => ?_
  obtain ⟨hpend, he⟩ := Option.ite_none_left_eq_some.mp he
  rw [Option.not_isSome_iff_eq_none.mp hpend]
  exact afterDrain_of_afterDraining he fun s h => Option.some.inj h

/-- WAKE and WAKE.T wake a parked target, and leave any other a token (R175). -/
theorem wake_describes {p : Pred} {c : Option Reg} {a : Reg} {f : Form} (h : threadForm (.wake p c a) = some f) :
    f.describes (.wake p c a) := by
  cases h
  refine describes_of_body _ (fun _ => rfl) fun i s e he => ?_
  dsimp only at he ⊢
  refine afterDrain_of_afterDraining he fun s h => ?_
  rcases hdest : i.resolveDest s (i.reg a) with _ | ⟨k, t⟩
  · rw [hdest] at h
    cases h
  · rw [hdest] at h
    cases c <;> exact Option.some.inj h

/-! ### The mailbox and pins -/

theorem mbxr_describes {p : Pred} {d : Reg} {b : Src} {f : Form} (h : threadForm (.mbxr p d b) = some f) :
    f.describes (.mbxr p d b) := by
  cases h
  refine describes_of_body _ (fun _ => rfl) fun i s e he => ?_
  obtain ⟨hrange, he⟩ := Option.ite_none_right_eq_some.mp he
  dsimp only
  rw [if_neg (by omega)]
  exact Option.some.inj he

/-- PIN tells whether the line is pinned after it: it was, or its core had room for one more (R179). -/
theorem pin_describes {p : Pred} {d : Reg} {f : Form} (h : threadForm (.pin p d) = some f) : f.describes (.pin p d) := by
  cases h
  refine describes_of_body _ (fun _ => rfl) fun i s e he => ?_
  rw [← Option.some.inj he]
  dsimp only
  by_cases hpin : i.t.pin = true
  · simp [hpin, told, Issue.putFlag]
  · rw [if_neg hpin]
    simp only [Bool.eq_false_of_not_eq_true hpin, Bool.not_false, Bool.true_and, Bool.false_or]
    cases i.t.entryCore with
    | none => rfl
    | some core =>
      simp only [decide_eq_true_eq]
      split
      case isTrue hroom => rw [decide_eq_true hroom]; rfl
      case isFalse hfull => rw [decide_eq_false hfull]; rfl

/-! ### Other lines -/

theorem ctxrd_describes {p : Pred} {d a : Reg} {w : Fin 16} {f : Form} (h : threadForm (.ctxrd p d a w) = some f) :
    f.describes (.ctxrd p d a w) := by
  cases h
  refine describes_of_body _ (fun _ => rfl) fun i s e he => ?_
  dsimp only at he ⊢
  rcases htarget : i.targetOf s (i.reg a) with _ | ⟨k, t⟩
  · rw [htarget] at he
    cases he
  · rw [htarget] at he
    exact Option.some.inj he

theorem ctxwr_describes {p : Pred} {a c : Reg} {w : Fin 16} {f : Form} (h : threadForm (.ctxwr p a c w) = some f) :
    f.describes (.ctxwr p a c w) := by
  cases h
  refine describes_of_body _ (fun _ => rfl) fun i s e he => ?_
  dsimp only at he ⊢
  rcases htarget : i.targetOf s (i.reg a) with _ | ⟨k, t⟩
  · rw [htarget] at he
    cases he
  · rw [htarget] at he
    obtain ⟨hstopped, he⟩ := Option.ite_none_right_eq_some.mp he
    dsimp only
    rw [if_pos ((stopped_iff t.st).mpr hstopped)]
    exact Option.some.inj he

/-! ### The family -/

theorem threadForm_describes {x : Instr} {f : Form} (h : threadForm x = some f) : f.describes x := by
  cases x
  case spawn => exact spawn_describes h
  case exit => exact exit_describes h
  case wait => exact wait_describes h
  case wake => exact wake_describes h
  case self p v d => cases h; exact writes_describes (fun _ => rfl) fun i => by cases v <;> rfl
  case mbxr => exact mbxr_describes h
  case pin => exact pin_describes h
  case ctxrd => exact ctxrd_describes h
  case ctxwr => exact ctxwr_describes h
  case yield | park | evict | evictMem | pinU =>
    cases h
    exact describes_of_body _ (fun _ => rfl) fun i s e he => Option.some.inj he
  all_goals cases h

/-- Settles O8, by what each instruction does once it has drained and found its target. -/
theorem threadCompletes : Obligations.ThreadCompletes := fun _ _ => threadForm_describes

end Sys2Proof.ThreadForms
